-- ==== Sys2Proof/Word.lean ====
section
/-! DEFINITION. The machine word and the byte (rules R6, R10: every register value and every address is a 32-bit
pattern, a byte is 8 bits), and the index types of the three register files. -/

namespace Sys2Proof

/-- A 32-bit pattern: a register value, an address, an instruction word (rules R5 `XLEN`, R6, R10). -/
abbrev Word := BitVec 32

/-- One byte of memory (rule R40). -/
abbrev Byte := BitVec 8

/-- Index of a general register, `r0` to `r31` (rule R10: 5-bit register fields). -/
abbrev Reg := BitVec 5

/-- Index of a predicate register, `p0` to `p7` (rule R13). -/
abbrev PReg := BitVec 3

/-- Index of a special register, `s0` to `s15` (rule R16). -/
abbrev SReg := BitVec 4

end Sys2Proof
end

