-- ==== Sys2Proof/Config.lean ====
section
/-! DEFINITION. What an implementation fixes (rule R5): the constants this model takes at one value, and `Params`, the
parameters, as plain data carried in `State.params`, so that a statement about every state is a statement about every
choice of them. `Params.default` holds the values of rule R5's table.

What is no field of `Params` (notes/assumptions/20.md): `XLEN`, `NGPR`, `NPRED` and `NSPR` are the widths of the types of
Word.lean, which the field widths of rule R64 fix; `CODEC` is Decode.lean; `MemReady` is the list `State.replies`.

There is no free value here: the spec calls no RESULT of an instruction undefined. What it leaves to collaborators
(readiness, stack-cache answers, interrupt arrival) are inputs held in `State` as lists the step reads. -/

namespace Sys2Proof.Config

/-- `ENDIAN`: the order of the bytes of a half-word or word in memory (rule R41). -/
inductive Endian where
  /-- The byte at the lowest address is the most significant. -/
  | big
  | little
deriving DecidableEq, Repr

/-- Replacement policy of the method cache (rule R311). -/
inductive Policy where
  | lru
  | fifo
  | ideal
deriving DecidableEq, Repr

/-- A range of addresses that is backed by memory: `base ≤ a < base + size` (rule R50: the platform's matter). -/
structure Region where
  base : Nat
  size : Nat
deriving DecidableEq, Repr

/-- What the platform puts behind one of the areas of rule R40: bytes of its own, or a view of main memory; and, for
bytes of its own, which addresses are backed. -/
structure AreaCfg where
  own : Bool
  backed : List Region
deriving DecidableEq, Repr

/-- The parameters of rule R5. -/
structure Params where
  /-- `SPR_PRED`: the special-register index that aliases the predicate file (rule R17). -/
  sprPred : SReg
  /-- `SL`: multiply result, low word (rule R16). -/
  sl : SReg
  /-- `SH`: multiply result, high word (rule R16). -/
  sh : SReg
  /-- `SS`: stack spill pointer (rule R16). -/
  ss : SReg
  /-- `ST`: stack top pointer (rule R16). -/
  st : SReg
  /-- `SRB`: return base (rule R16). -/
  srb : SReg
  /-- `SRO`: return offset (rule R16). -/
  sro : SReg
  /-- `SXB`: exception return base (rule R16). -/
  sxb : SReg
  /-- `SXO`: exception return offset (rule R16). -/
  sxo : SReg
  /-- `ENDIAN` (rule R41). -/
  endian : Endian
  /-- `DS_BRANCH`: delay slots of a delayed `br`, `brr`, and their interrupt delay-slot count (rule R265). The pipeline of
  rule R100 lets exactly 2 bundles complete behind them, so 2 is the one value that agrees with rule R395. -/
  dsBranch : Nat
  /-- `DS_CALL`: delay slots of every other delayed transfer (rule R265). The pipeline of rule R100 lets exactly 3 bundles
  complete behind them, so 3 is the one value that agrees with rule R395. -/
  dsCall : Nat
  /-- `DS_INTR`: the interrupt delay-slot count of every transfer but the two local branches (rules R265, R269). -/
  dsIntr : Nat
  /-- `ENTRY`, supplied by program loading (OPEN). -/
  entry : Word
  /-- `ISSUE_WIDTH = 2`; `false` is `ISSUE_WIDTH = 1`, which refuses two-instruction bundles (rules R62, D7). -/
  dualIssue : Bool
  /-- `EXIT_REG` (rule R358). -/
  exitReg : Reg
  /-- `SPR_PRED_ALIAS2` (rule R195). -/
  predAlias2 : Option SReg
  /-- `LOAD_USE_GAP` (rules R242, R393). -/
  loadUseGap : Nat
  /-- `MC_BLOCK_BYTES` (rule R311). -/
  mcBlockBytes : Nat
  /-- `MC_NUM_BLOCKS` (rule R311). -/
  mcNumBlocks : Nat
  /-- `MC_MAX_ENTRIES` (rule R311). -/
  mcMaxEntries : Nat
  /-- `MC_FETCH_SLACK_BYTES` (rule R330). -/
  mcFetchSlack : Nat
  /-- `MC_POLICY` (rule R311). -/
  mcPolicy : Policy
  /-- Which addresses main memory backs (rule R357). -/
  mainBacked : List Region
  /-- The stack cache's area (rule R40). -/
  stackCfg : AreaCfg
  /-- The local memory's area (rule R40). -/
  localCfg : AreaCfg
  /-- The data cache's area (rule R40). -/
  dataCfg : AreaCfg
  /-- Capacity of the stack cache of rule R251, used when no answer of the collaborator is given. -/
  stackCacheBytes : Nat
deriving DecidableEq, Repr

/-- The whole 32-bit address space. -/
def wholeSpace : List Region := [⟨0, 4294967296⟩]

/-- The values of rule R5's table; `ENTRY`, the memory map, the area map and the stack cache's size are this model's
(DESIGN CHOICE, notes/assumptions/3.md, 4.md and 5.md). -/
def Params.default : Params where
  sprPred := 0
  sl := 2
  sh := 3
  ss := 5
  st := 6
  srb := 7
  sro := 8
  sxb := 9
  sxo := 10
  endian := .big
  dsBranch := 2
  dsCall := 3
  dsIntr := 3
  entry := 0x1000
  dualIssue := true
  exitReg := 1
  predAlias2 := none
  loadUseGap := 0
  mcBlockBytes := 8
  mcNumBlocks := 512
  mcMaxEntries := 16
  mcFetchSlack := 24
  mcPolicy := .lru
  mainBacked := wholeSpace
  stackCfg := ⟨false, wholeSpace⟩
  localCfg := ⟨false, wholeSpace⟩
  dataCfg := ⟨false, wholeSpace⟩
  stackCacheBytes := 2048

/-- Rule R311's requirements on the parameters of the method cache. -/
def Params.ok (p : Params) : Bool :=
  decide (0 < p.mcBlockBytes) && decide (p.mcBlockBytes % 4 = 0) && decide (1 ≤ p.mcNumBlocks) &&
    decide (1 ≤ p.mcMaxEntries)

end Sys2Proof.Config
end

