-- ==== Sys2Proof/Syntax.lean ====
section
/-! DEFINITION. The syntax of instructions: ONE inductive, one constructor per row of spec/opcode_table.json (rule
R24: the decoded instruction carries a predicate reference, a variant and the variant's fields). A constructor's suffix
tells the row's format where one mnemonic has several: `I` an immediate form (`ALUi`, `ALUci`, `STCi`), `R` a register
form (`ALUr`, `ALUc`, `STCr`), `L` the 32-bit immediate form (`ALUl`), `Pair` the register pair form (`CFLrt`).

Immediates are numbers, not bit fields, so that a value outside its field can be written down and is refused by
`Instr.wf` and `encode` (rules R61, R85). `INTR` and `HALT` are no constructors here: no word decodes to them
(rule R93); they are contents of a pipeline slot (`Machine.SlotInstr`). -/

namespace Sys2Proof

/-- A predicate operand: the guard of every instruction and each predicate source, read as `p[idx] ^ neg` (rule R15). -/
structure PredRef where
  neg : Bool
  idx : PReg
deriving DecidableEq, Repr

/-- The instructions of spec/opcode_table.json. The first field is always the guard (rule R15); `d` is the delayed
flag of a control transfer (rule R269). -/
inductive Instr where
  /-- `add rd = rs1, imm` (format `ALUi`, 12-bit immediate), rule R141. -/
  | addI (g : PredRef) (rd rs1 : Reg) (imm : Nat)
  /-- `sub rd = rs1, imm` (format `ALUi`, 12-bit immediate), rule R142. -/
  | subI (g : PredRef) (rd rs1 : Reg) (imm : Nat)
  /-- `xor rd = rs1, imm` (format `ALUi`, 12-bit immediate), rule R143. -/
  | xorI (g : PredRef) (rd rs1 : Reg) (imm : Nat)
  /-- `sl rd = rs1, imm` (format `ALUi`, 12-bit immediate), rule R144. -/
  | slI (g : PredRef) (rd rs1 : Reg) (imm : Nat)
  /-- `sr rd = rs1, imm` (format `ALUi`, 12-bit immediate), rule R145. -/
  | srI (g : PredRef) (rd rs1 : Reg) (imm : Nat)
  /-- `sra rd = rs1, imm` (format `ALUi`, 12-bit immediate), rule R146. -/
  | sraI (g : PredRef) (rd rs1 : Reg) (imm : Nat)
  /-- `or rd = rs1, imm` (format `ALUi`, 12-bit immediate), rule R147. -/
  | orI (g : PredRef) (rd rs1 : Reg) (imm : Nat)
  /-- `and rd = rs1, imm` (format `ALUi`, 12-bit immediate), rule R148. -/
  | andI (g : PredRef) (rd rs1 : Reg) (imm : Nat)
  /-- `add rd = rs1, rs2` (format `ALUr`), rule R141. -/
  | addR (g : PredRef) (rd rs1 rs2 : Reg)
  /-- `sub rd = rs1, rs2` (format `ALUr`), rule R142. -/
  | subR (g : PredRef) (rd rs1 rs2 : Reg)
  /-- `xor rd = rs1, rs2` (format `ALUr`), rule R143. -/
  | xorR (g : PredRef) (rd rs1 rs2 : Reg)
  /-- `sl rd = rs1, rs2` (format `ALUr`), rule R144. -/
  | slR (g : PredRef) (rd rs1 rs2 : Reg)
  /-- `sr rd = rs1, rs2` (format `ALUr`), rule R145. -/
  | srR (g : PredRef) (rd rs1 rs2 : Reg)
  /-- `sra rd = rs1, rs2` (format `ALUr`), rule R146. -/
  | sraR (g : PredRef) (rd rs1 rs2 : Reg)
  /-- `or rd = rs1, rs2` (format `ALUr`), rule R147. -/
  | orR (g : PredRef) (rd rs1 rs2 : Reg)
  /-- `and rd = rs1, rs2` (format `ALUr`), rule R148. -/
  | andR (g : PredRef) (rd rs1 rs2 : Reg)
  /-- `nor rd = rs1, rs2` (format `ALUr`), rule R149. -/
  | norR (g : PredRef) (rd rs1 rs2 : Reg)
  /-- `shadd rd = rs1, rs2` (format `ALUr`), rule R150. -/
  | shaddR (g : PredRef) (rd rs1 rs2 : Reg)
  /-- `shadd2 rd = rs1, rs2` (format `ALUr`), rule R151. -/
  | shadd2R (g : PredRef) (rd rs1 rs2 : Reg)
  /-- `add rd = rs1, imm` (format `ALUl`, 32-bit immediate in the second word; the table calls it `addl`), rule R141. -/
  | addL (g : PredRef) (rd rs1 : Reg) (imm : Word)
  /-- `sub rd = rs1, imm` (format `ALUl`, 32-bit immediate in the second word; the table calls it `subl`), rule R142. -/
  | subL (g : PredRef) (rd rs1 : Reg) (imm : Word)
  /-- `xor rd = rs1, imm` (format `ALUl`, 32-bit immediate in the second word; the table calls it `xorl`), rule R143. -/
  | xorL (g : PredRef) (rd rs1 : Reg) (imm : Word)
  /-- `sl rd = rs1, imm` (format `ALUl`, 32-bit immediate in the second word; the table calls it `sll`), rule R144. -/
  | slL (g : PredRef) (rd rs1 : Reg) (imm : Word)
  /-- `sr rd = rs1, imm` (format `ALUl`, 32-bit immediate in the second word; the table calls it `srl`), rule R145. -/
  | srL (g : PredRef) (rd rs1 : Reg) (imm : Word)
  /-- `sra rd = rs1, imm` (format `ALUl`, 32-bit immediate in the second word; the table calls it `sral`), rule R146. -/
  | sraL (g : PredRef) (rd rs1 : Reg) (imm : Word)
  /-- `or rd = rs1, imm` (format `ALUl`, 32-bit immediate in the second word; the table calls it `orl`), rule R147. -/
  | orL (g : PredRef) (rd rs1 : Reg) (imm : Word)
  /-- `and rd = rs1, imm` (format `ALUl`, 32-bit immediate in the second word; the table calls it `andl`), rule R148. -/
  | andL (g : PredRef) (rd rs1 : Reg) (imm : Word)
  /-- `nor rd = rs1, imm` (format `ALUl`, 32-bit immediate in the second word; the table calls it `norl`), rule R149. -/
  | norL (g : PredRef) (rd rs1 : Reg) (imm : Word)
  /-- `shadd rd = rs1, imm` (format `ALUl`, 32-bit immediate in the second word; the table calls it `shaddl`), rule R150. -/
  | shaddL (g : PredRef) (rd rs1 : Reg) (imm : Word)
  /-- `shadd2 rd = rs1, imm` (format `ALUl`, 32-bit immediate in the second word; the table calls it `shadd2l`), rule R151. -/
  | shadd2L (g : PredRef) (rd rs1 : Reg) (imm : Word)
  /-- `mul rs1, rs2` (format `ALUm`), rule R161. -/
  | mul (g : PredRef) (rs1 rs2 : Reg)
  /-- `mulu rs1, rs2` (format `ALUm`), rule R162. -/
  | mulu (g : PredRef) (rs1 rs2 : Reg)
  /-- `cmpeq pd = rs1, rs2` (format `ALUc`), rule R166. -/
  | cmpeqR (g : PredRef) (pd : PReg) (rs1 rs2 : Reg)
  /-- `cmpneq pd = rs1, rs2` (format `ALUc`), rule R167. -/
  | cmpneqR (g : PredRef) (pd : PReg) (rs1 rs2 : Reg)
  /-- `cmplt pd = rs1, rs2` (format `ALUc`), rule R168. -/
  | cmpltR (g : PredRef) (pd : PReg) (rs1 rs2 : Reg)
  /-- `cmple pd = rs1, rs2` (format `ALUc`), rule R169. -/
  | cmpleR (g : PredRef) (pd : PReg) (rs1 rs2 : Reg)
  /-- `cmpult pd = rs1, rs2` (format `ALUc`), rule R170. -/
  | cmpultR (g : PredRef) (pd : PReg) (rs1 rs2 : Reg)
  /-- `cmpule pd = rs1, rs2` (format `ALUc`), rule R171. -/
  | cmpuleR (g : PredRef) (pd : PReg) (rs1 rs2 : Reg)
  /-- `btest pd = rs1, rs2` (format `ALUc`), rule R172. -/
  | btestR (g : PredRef) (pd : PReg) (rs1 rs2 : Reg)
  /-- `cmpeq pd = rs1, imm` (format `ALUci`, 5-bit immediate), rule R166. -/
  | cmpeqI (g : PredRef) (pd : PReg) (rs1 : Reg) (imm : Nat)
  /-- `cmpneq pd = rs1, imm` (format `ALUci`, 5-bit immediate), rule R167. -/
  | cmpneqI (g : PredRef) (pd : PReg) (rs1 : Reg) (imm : Nat)
  /-- `cmplt pd = rs1, imm` (format `ALUci`, 5-bit immediate), rule R168. -/
  | cmpltI (g : PredRef) (pd : PReg) (rs1 : Reg) (imm : Nat)
  /-- `cmple pd = rs1, imm` (format `ALUci`, 5-bit immediate), rule R169. -/
  | cmpleI (g : PredRef) (pd : PReg) (rs1 : Reg) (imm : Nat)
  /-- `cmpult pd = rs1, imm` (format `ALUci`, 5-bit immediate), rule R170. -/
  | cmpultI (g : PredRef) (pd : PReg) (rs1 : Reg) (imm : Nat)
  /-- `cmpule pd = rs1, imm` (format `ALUci`, 5-bit immediate), rule R171. -/
  | cmpuleI (g : PredRef) (pd : PReg) (rs1 : Reg) (imm : Nat)
  /-- `btest pd = rs1, imm` (format `ALUci`, 5-bit immediate), rule R172. -/
  | btestI (g : PredRef) (pd : PReg) (rs1 : Reg) (imm : Nat)
  /-- `por pd = ps1, ps2` (format `ALUp`), rule R176. -/
  | por (g : PredRef) (pd : PReg) (ps1 ps2 : PredRef)
  /-- `pand pd = ps1, ps2` (format `ALUp`), rule R177. -/
  | pand (g : PredRef) (pd : PReg) (ps1 ps2 : PredRef)
  /-- `pxor pd = ps1, ps2` (format `ALUp`), rule R178. -/
  | pxor (g : PredRef) (pd : PReg) (ps1 ps2 : PredRef)
  /-- `bcopy rd = rs1, imm, ps` (format `ALUb`), rule R182. -/
  | bcopy (g : PredRef) (rd rs1 : Reg) (imm : Nat) (ps : PredRef)
  /-- `mts sd = rs1` (format `SPCt`), rule R190. -/
  | mts (g : PredRef) (sd : SReg) (rs1 : Reg)
  /-- `mfs rd = ss` (format `SPCf`), rule R193. -/
  | mfs (g : PredRef) (rd : Reg) (ss : SReg)
  /-- `lws rd = [ra + imm]` (format `LDT`), rule R205. -/
  | lws (g : PredRef) (rd ra : Reg) (imm : Int)
  /-- `lwl rd = [ra + imm]` (format `LDT`), rule R206. -/
  | lwl (g : PredRef) (rd ra : Reg) (imm : Int)
  /-- `lwc rd = [ra + imm]` (format `LDT`), rule R207. -/
  | lwc (g : PredRef) (rd ra : Reg) (imm : Int)
  /-- `lwm rd = [ra + imm]` (format `LDT`), rule R208. -/
  | lwm (g : PredRef) (rd ra : Reg) (imm : Int)
  /-- `lhs rd = [ra + imm]` (format `LDT`), rule R209. -/
  | lhs (g : PredRef) (rd ra : Reg) (imm : Int)
  /-- `lhl rd = [ra + imm]` (format `LDT`), rule R210. -/
  | lhl (g : PredRef) (rd ra : Reg) (imm : Int)
  /-- `lhc rd = [ra + imm]` (format `LDT`), rule R211. -/
  | lhc (g : PredRef) (rd ra : Reg) (imm : Int)
  /-- `lhm rd = [ra + imm]` (format `LDT`), rule R212. -/
  | lhm (g : PredRef) (rd ra : Reg) (imm : Int)
  /-- `lbs rd = [ra + imm]` (format `LDT`), rule R213. -/
  | lbs (g : PredRef) (rd ra : Reg) (imm : Int)
  /-- `lbl rd = [ra + imm]` (format `LDT`), rule R214. -/
  | lbl (g : PredRef) (rd ra : Reg) (imm : Int)
  /-- `lbc rd = [ra + imm]` (format `LDT`), rule R215. -/
  | lbc (g : PredRef) (rd ra : Reg) (imm : Int)
  /-- `lbm rd = [ra + imm]` (format `LDT`), rule R216. -/
  | lbm (g : PredRef) (rd ra : Reg) (imm : Int)
  /-- `lhus rd = [ra + imm]` (format `LDT`), rule R217. -/
  | lhus (g : PredRef) (rd ra : Reg) (imm : Int)
  /-- `lhul rd = [ra + imm]` (format `LDT`), rule R218. -/
  | lhul (g : PredRef) (rd ra : Reg) (imm : Int)
  /-- `lhuc rd = [ra + imm]` (format `LDT`), rule R219. -/
  | lhuc (g : PredRef) (rd ra : Reg) (imm : Int)
  /-- `lhum rd = [ra + imm]` (format `LDT`), rule R220. -/
  | lhum (g : PredRef) (rd ra : Reg) (imm : Int)
  /-- `lbus rd = [ra + imm]` (format `LDT`), rule R221. -/
  | lbus (g : PredRef) (rd ra : Reg) (imm : Int)
  /-- `lbul rd = [ra + imm]` (format `LDT`), rule R222. -/
  | lbul (g : PredRef) (rd ra : Reg) (imm : Int)
  /-- `lbuc rd = [ra + imm]` (format `LDT`), rule R223. -/
  | lbuc (g : PredRef) (rd ra : Reg) (imm : Int)
  /-- `lbum rd = [ra + imm]` (format `LDT`), rule R224. -/
  | lbum (g : PredRef) (rd ra : Reg) (imm : Int)
  /-- `sws [ra + imm] = rs` (format `STT`), rule R225. -/
  | sws (g : PredRef) (ra rs : Reg) (imm : Int)
  /-- `swl [ra + imm] = rs` (format `STT`), rule R226. -/
  | swl (g : PredRef) (ra rs : Reg) (imm : Int)
  /-- `swc [ra + imm] = rs` (format `STT`), rule R227. -/
  | swc (g : PredRef) (ra rs : Reg) (imm : Int)
  /-- `swm [ra + imm] = rs` (format `STT`), rule R228. -/
  | swm (g : PredRef) (ra rs : Reg) (imm : Int)
  /-- `shs [ra + imm] = rs` (format `STT`), rule R229. -/
  | shs (g : PredRef) (ra rs : Reg) (imm : Int)
  /-- `shl [ra + imm] = rs` (format `STT`), rule R230. -/
  | shl (g : PredRef) (ra rs : Reg) (imm : Int)
  /-- `shc [ra + imm] = rs` (format `STT`), rule R231. -/
  | shc (g : PredRef) (ra rs : Reg) (imm : Int)
  /-- `shm [ra + imm] = rs` (format `STT`), rule R232. -/
  | shm (g : PredRef) (ra rs : Reg) (imm : Int)
  /-- `sbs [ra + imm] = rs` (format `STT`), rule R233. -/
  | sbs (g : PredRef) (ra rs : Reg) (imm : Int)
  /-- `sbl [ra + imm] = rs` (format `STT`), rule R234. -/
  | sbl (g : PredRef) (ra rs : Reg) (imm : Int)
  /-- `sbc [ra + imm] = rs` (format `STT`), rule R235. -/
  | sbc (g : PredRef) (ra rs : Reg) (imm : Int)
  /-- `sbm [ra + imm] = rs` (format `STT`), rule R236. -/
  | sbm (g : PredRef) (ra rs : Reg) (imm : Int)
  /-- `sres imm` (format `STCi`, `imm` in words), rule R252. -/
  | sresI (g : PredRef) (imm : Nat)
  /-- `sens imm` (format `STCi`, `imm` in words), rule R253. -/
  | sensI (g : PredRef) (imm : Nat)
  /-- `sfree imm` (format `STCi`, `imm` in words), rule R254. -/
  | sfreeI (g : PredRef) (imm : Nat)
  /-- `sspill imm` (format `STCi`, `imm` in words), rule R255. -/
  | sspillI (g : PredRef) (imm : Nat)
  /-- `sens rs` (format `STCr`, bytes), rule R256. -/
  | sensR (g : PredRef) (rs : Reg)
  /-- `sspill rs` (format `STCr`, bytes), rule R257. -/
  | sspillR (g : PredRef) (rs : Reg)
  /-- `call imm` (format `CFLi`), rule R280. -/
  | call (g : PredRef) (d : Bool) (imm : Nat)
  /-- `br imm` (format `CFLi`), rule R281. -/
  | br (g : PredRef) (d : Bool) (imm : Int)
  /-- `brcf imm` (format `CFLi`), rule R282. -/
  | brcf (g : PredRef) (d : Bool) (imm : Nat)
  /-- `trap imm` (format `CFLi`), rule R283. -/
  | trap (g : PredRef) (imm : Nat)
  /-- `ret` (format `CFLri`), rule R290. -/
  | ret (g : PredRef) (d : Bool)
  /-- `xret` (format `CFLri`), rule R291. -/
  | xret (g : PredRef) (d : Bool)
  /-- `callr rs` (format `CFLrs`), rule R284. -/
  | callr (g : PredRef) (d : Bool) (rs : Reg)
  /-- `brr rs` (format `CFLrs`), rule R285. -/
  | brr (g : PredRef) (d : Bool) (rs : Reg)
  /-- `brcfr rs` (format `CFLrs`), rule R286. -/
  | brcfr (g : PredRef) (d : Bool) (rs : Reg)
  /-- `brcfr rs1, rs2` (format `CFLrt`), rule R287. -/
  | brcfrPair (g : PredRef) (d : Bool) (rs1 rs2 : Reg)
deriving DecidableEq, Repr

end Sys2Proof
end

