-- ==== Sys2Proof/WellFormed.lean ====
section
/-! DEFINITION. Well-formed instructions and bundles. An instruction is well formed when every immediate fits its field
(rules R61, R85: `encode` must reject an out-of-range immediate rather than truncate it); register, predicate and
special-register indices fit by their types. A bundle is well formed when its slots hold what rules R62 and R63 allow. -/

namespace Sys2Proof

/-- `v` fits an unsigned field of `n` bits. -/
def immU (n : Nat) (v : Nat) : Bool := decide (v < 2 ^ n)

/-- `v` fits a signed (two's complement) field of `n` bits. -/
def immS (n : Nat) (v : Int) : Bool := decide (-(2 ^ (n - 1) : Int) ≤ v) && decide (v < (2 ^ (n - 1) : Int))

/-- Every immediate fits its field (rule R85). -/
def Instr.wf : Instr → Bool
  | .addI _ _ _ imm => immU 12 imm
  | .subI _ _ _ imm => immU 12 imm
  | .xorI _ _ _ imm => immU 12 imm
  | .slI _ _ _ imm => immU 12 imm
  | .srI _ _ _ imm => immU 12 imm
  | .sraI _ _ _ imm => immU 12 imm
  | .orI _ _ _ imm => immU 12 imm
  | .andI _ _ _ imm => immU 12 imm
  | .addR _ _ _ _ => true
  | .subR _ _ _ _ => true
  | .xorR _ _ _ _ => true
  | .slR _ _ _ _ => true
  | .srR _ _ _ _ => true
  | .sraR _ _ _ _ => true
  | .orR _ _ _ _ => true
  | .andR _ _ _ _ => true
  | .norR _ _ _ _ => true
  | .shaddR _ _ _ _ => true
  | .shadd2R _ _ _ _ => true
  | .addL _ _ _ _ => true
  | .subL _ _ _ _ => true
  | .xorL _ _ _ _ => true
  | .slL _ _ _ _ => true
  | .srL _ _ _ _ => true
  | .sraL _ _ _ _ => true
  | .orL _ _ _ _ => true
  | .andL _ _ _ _ => true
  | .norL _ _ _ _ => true
  | .shaddL _ _ _ _ => true
  | .shadd2L _ _ _ _ => true
  | .mul _ _ _ => true
  | .mulu _ _ _ => true
  | .cmpeqR _ _ _ _ => true
  | .cmpneqR _ _ _ _ => true
  | .cmpltR _ _ _ _ => true
  | .cmpleR _ _ _ _ => true
  | .cmpultR _ _ _ _ => true
  | .cmpuleR _ _ _ _ => true
  | .btestR _ _ _ _ => true
  | .cmpeqI _ _ _ imm => immU 5 imm
  | .cmpneqI _ _ _ imm => immU 5 imm
  | .cmpltI _ _ _ imm => immU 5 imm
  | .cmpleI _ _ _ imm => immU 5 imm
  | .cmpultI _ _ _ imm => immU 5 imm
  | .cmpuleI _ _ _ imm => immU 5 imm
  | .btestI _ _ _ imm => immU 5 imm
  | .por _ _ _ _ => true
  | .pand _ _ _ _ => true
  | .pxor _ _ _ _ => true
  | .bcopy _ _ _ imm _ => immU 5 imm
  | .mts _ _ _ => true
  | .mfs _ _ _ => true
  | .lws _ _ _ imm => immS 7 imm
  | .lwl _ _ _ imm => immS 7 imm
  | .lwc _ _ _ imm => immS 7 imm
  | .lwm _ _ _ imm => immS 7 imm
  | .lhs _ _ _ imm => immS 7 imm
  | .lhl _ _ _ imm => immS 7 imm
  | .lhc _ _ _ imm => immS 7 imm
  | .lhm _ _ _ imm => immS 7 imm
  | .lbs _ _ _ imm => immS 7 imm
  | .lbl _ _ _ imm => immS 7 imm
  | .lbc _ _ _ imm => immS 7 imm
  | .lbm _ _ _ imm => immS 7 imm
  | .lhus _ _ _ imm => immS 7 imm
  | .lhul _ _ _ imm => immS 7 imm
  | .lhuc _ _ _ imm => immS 7 imm
  | .lhum _ _ _ imm => immS 7 imm
  | .lbus _ _ _ imm => immS 7 imm
  | .lbul _ _ _ imm => immS 7 imm
  | .lbuc _ _ _ imm => immS 7 imm
  | .lbum _ _ _ imm => immS 7 imm
  | .sws _ _ _ imm => immS 7 imm
  | .swl _ _ _ imm => immS 7 imm
  | .swc _ _ _ imm => immS 7 imm
  | .swm _ _ _ imm => immS 7 imm
  | .shs _ _ _ imm => immS 7 imm
  | .shl _ _ _ imm => immS 7 imm
  | .shc _ _ _ imm => immS 7 imm
  | .shm _ _ _ imm => immS 7 imm
  | .sbs _ _ _ imm => immS 7 imm
  | .sbl _ _ _ imm => immS 7 imm
  | .sbc _ _ _ imm => immS 7 imm
  | .sbm _ _ _ imm => immS 7 imm
  | .sresI _ imm => immU 18 imm
  | .sensI _ imm => immU 18 imm
  | .sfreeI _ imm => immU 18 imm
  | .sspillI _ imm => immU 18 imm
  | .sensR _ _ => true
  | .sspillR _ _ => true
  | .call _ _ imm => immU 22 imm
  | .br _ _ imm => immS 22 imm
  | .brcf _ _ imm => immU 22 imm
  | .trap _ imm => immU 22 imm
  | .ret _ _ => true
  | .xret _ _ => true
  | .callr _ _ _ => true
  | .brr _ _ _ => true
  | .brcfr _ _ _ => true
  | .brcfrPair _ _ _ _ => true

/-- The variant `ALUl`, whose immediate is a second word (rules R60, R66). -/
def Instr.isLong : Instr → Bool
  | .addI _ _ _ _ => false
  | .subI _ _ _ _ => false
  | .xorI _ _ _ _ => false
  | .slI _ _ _ _ => false
  | .srI _ _ _ _ => false
  | .sraI _ _ _ _ => false
  | .orI _ _ _ _ => false
  | .andI _ _ _ _ => false
  | .addR _ _ _ _ => false
  | .subR _ _ _ _ => false
  | .xorR _ _ _ _ => false
  | .slR _ _ _ _ => false
  | .srR _ _ _ _ => false
  | .sraR _ _ _ _ => false
  | .orR _ _ _ _ => false
  | .andR _ _ _ _ => false
  | .norR _ _ _ _ => false
  | .shaddR _ _ _ _ => false
  | .shadd2R _ _ _ _ => false
  | .addL _ _ _ _ => true
  | .subL _ _ _ _ => true
  | .xorL _ _ _ _ => true
  | .slL _ _ _ _ => true
  | .srL _ _ _ _ => true
  | .sraL _ _ _ _ => true
  | .orL _ _ _ _ => true
  | .andL _ _ _ _ => true
  | .norL _ _ _ _ => true
  | .shaddL _ _ _ _ => true
  | .shadd2L _ _ _ _ => true
  | .mul _ _ _ => false
  | .mulu _ _ _ => false
  | .cmpeqR _ _ _ _ => false
  | .cmpneqR _ _ _ _ => false
  | .cmpltR _ _ _ _ => false
  | .cmpleR _ _ _ _ => false
  | .cmpultR _ _ _ _ => false
  | .cmpuleR _ _ _ _ => false
  | .btestR _ _ _ _ => false
  | .cmpeqI _ _ _ _ => false
  | .cmpneqI _ _ _ _ => false
  | .cmpltI _ _ _ _ => false
  | .cmpleI _ _ _ _ => false
  | .cmpultI _ _ _ _ => false
  | .cmpuleI _ _ _ _ => false
  | .btestI _ _ _ _ => false
  | .por _ _ _ _ => false
  | .pand _ _ _ _ => false
  | .pxor _ _ _ _ => false
  | .bcopy _ _ _ _ _ => false
  | .mts _ _ _ => false
  | .mfs _ _ _ => false
  | .lws _ _ _ _ => false
  | .lwl _ _ _ _ => false
  | .lwc _ _ _ _ => false
  | .lwm _ _ _ _ => false
  | .lhs _ _ _ _ => false
  | .lhl _ _ _ _ => false
  | .lhc _ _ _ _ => false
  | .lhm _ _ _ _ => false
  | .lbs _ _ _ _ => false
  | .lbl _ _ _ _ => false
  | .lbc _ _ _ _ => false
  | .lbm _ _ _ _ => false
  | .lhus _ _ _ _ => false
  | .lhul _ _ _ _ => false
  | .lhuc _ _ _ _ => false
  | .lhum _ _ _ _ => false
  | .lbus _ _ _ _ => false
  | .lbul _ _ _ _ => false
  | .lbuc _ _ _ _ => false
  | .lbum _ _ _ _ => false
  | .sws _ _ _ _ => false
  | .swl _ _ _ _ => false
  | .swc _ _ _ _ => false
  | .swm _ _ _ _ => false
  | .shs _ _ _ _ => false
  | .shl _ _ _ _ => false
  | .shc _ _ _ _ => false
  | .shm _ _ _ _ => false
  | .sbs _ _ _ _ => false
  | .sbl _ _ _ _ => false
  | .sbc _ _ _ _ => false
  | .sbm _ _ _ _ => false
  | .sresI _ _ => false
  | .sensI _ _ => false
  | .sfreeI _ _ => false
  | .sspillI _ _ => false
  | .sensR _ _ => false
  | .sspillR _ _ => false
  | .call _ _ _ => false
  | .br _ _ _ => false
  | .brcf _ _ _ => false
  | .trap _ _ => false
  | .ret _ _ => false
  | .xret _ _ => false
  | .callr _ _ _ => false
  | .brr _ _ _ => false
  | .brcfr _ _ _ => false
  | .brcfrPair _ _ _ _ => false

/-- Rule R63: slot 1 accepts `ALUi`, `ALUr`, `ALUc`, `ALUci`, `ALUp` and `ALUb` only. -/
def Instr.slot1Ok : Instr → Bool
  | .addI _ _ _ _ => true
  | .subI _ _ _ _ => true
  | .xorI _ _ _ _ => true
  | .slI _ _ _ _ => true
  | .srI _ _ _ _ => true
  | .sraI _ _ _ _ => true
  | .orI _ _ _ _ => true
  | .andI _ _ _ _ => true
  | .addR _ _ _ _ => true
  | .subR _ _ _ _ => true
  | .xorR _ _ _ _ => true
  | .slR _ _ _ _ => true
  | .srR _ _ _ _ => true
  | .sraR _ _ _ _ => true
  | .orR _ _ _ _ => true
  | .andR _ _ _ _ => true
  | .norR _ _ _ _ => true
  | .shaddR _ _ _ _ => true
  | .shadd2R _ _ _ _ => true
  | .addL _ _ _ _ => false
  | .subL _ _ _ _ => false
  | .xorL _ _ _ _ => false
  | .slL _ _ _ _ => false
  | .srL _ _ _ _ => false
  | .sraL _ _ _ _ => false
  | .orL _ _ _ _ => false
  | .andL _ _ _ _ => false
  | .norL _ _ _ _ => false
  | .shaddL _ _ _ _ => false
  | .shadd2L _ _ _ _ => false
  | .mul _ _ _ => false
  | .mulu _ _ _ => false
  | .cmpeqR _ _ _ _ => true
  | .cmpneqR _ _ _ _ => true
  | .cmpltR _ _ _ _ => true
  | .cmpleR _ _ _ _ => true
  | .cmpultR _ _ _ _ => true
  | .cmpuleR _ _ _ _ => true
  | .btestR _ _ _ _ => true
  | .cmpeqI _ _ _ _ => true
  | .cmpneqI _ _ _ _ => true
  | .cmpltI _ _ _ _ => true
  | .cmpleI _ _ _ _ => true
  | .cmpultI _ _ _ _ => true
  | .cmpuleI _ _ _ _ => true
  | .btestI _ _ _ _ => true
  | .por _ _ _ _ => true
  | .pand _ _ _ _ => true
  | .pxor _ _ _ _ => true
  | .bcopy _ _ _ _ _ => true
  | .mts _ _ _ => false
  | .mfs _ _ _ => false
  | .lws _ _ _ _ => false
  | .lwl _ _ _ _ => false
  | .lwc _ _ _ _ => false
  | .lwm _ _ _ _ => false
  | .lhs _ _ _ _ => false
  | .lhl _ _ _ _ => false
  | .lhc _ _ _ _ => false
  | .lhm _ _ _ _ => false
  | .lbs _ _ _ _ => false
  | .lbl _ _ _ _ => false
  | .lbc _ _ _ _ => false
  | .lbm _ _ _ _ => false
  | .lhus _ _ _ _ => false
  | .lhul _ _ _ _ => false
  | .lhuc _ _ _ _ => false
  | .lhum _ _ _ _ => false
  | .lbus _ _ _ _ => false
  | .lbul _ _ _ _ => false
  | .lbuc _ _ _ _ => false
  | .lbum _ _ _ _ => false
  | .sws _ _ _ _ => false
  | .swl _ _ _ _ => false
  | .swc _ _ _ _ => false
  | .swm _ _ _ _ => false
  | .shs _ _ _ _ => false
  | .shl _ _ _ _ => false
  | .shc _ _ _ _ => false
  | .shm _ _ _ _ => false
  | .sbs _ _ _ _ => false
  | .sbl _ _ _ _ => false
  | .sbc _ _ _ _ => false
  | .sbm _ _ _ _ => false
  | .sresI _ _ => false
  | .sensI _ _ => false
  | .sfreeI _ _ => false
  | .sspillI _ _ => false
  | .sensR _ _ => false
  | .sspillR _ _ => false
  | .call _ _ _ => false
  | .br _ _ _ => false
  | .brcf _ _ _ => false
  | .trap _ _ => false
  | .ret _ _ => false
  | .xret _ _ => false
  | .callr _ _ _ => false
  | .brr _ _ _ => false
  | .brcfr _ _ _ => false
  | .brcfrPair _ _ _ _ => false

/-- A bundle as the fetch step issues it: the instruction of slot 0 and, in a two-instruction bundle, that of slot 1
(rules R62, R63). -/
def bundleWf (i0 : Instr) (i1 : Option Instr) : Bool :=
  i0.wf &&
    match i1 with
    | none => true
    | some i => i.wf && i.slot1Ok && !i0.isLong

end Sys2Proof
end

