-- ==== Sys2Proof/Decode.lean ====
section
/-! DEFINITION. The binary codec of 30_encoding.md: fields, the decoder (total, rejecting by name), bundles (rules R62,
R63), and AFTER it the encoder. Every bit position is the spec's own choice (rule R64 on, decision D8). -/

namespace Sys2Proof

/-- Bits `lo + len - 1` down to `lo` of a word (rule R6). -/
def fld (w : Word) (lo len : Nat) : BitVec len := w.extractLsb' lo len

/-- A field of a word as a number. -/
def fldN (w : Word) (lo len : Nat) : Nat := (fld w lo len).toNat

/-- A field of a word read as two's complement. -/
def fldZ (w : Word) (lo len : Nat) : Int := (fld w lo len).toInt

/-- Bit `i` of a word. -/
def bitAt (w : Word) (i : Nat) : Bool := w.getLsbD i

/-- The guard of every instruction word: `neg = w[30]`, `idx = w[29:27]` (rule R64). -/
def guardOf (w : Word) : PredRef := ⟨bitAt w 30, fld w 27 3⟩

/-- A predicate source, a 4-bit field `neg, idx` (rules R15, R71, R72). -/
def predRefAt (w : Word) (lo : Nat) : PredRef := ⟨bitAt w (lo + 3), fld w lo 3⟩

/-- Why a word, or a pair of words, is no bundle (rules R62, R63, R90). Each names the word it rejects. -/
inductive Reject where
  /-- The word matches no variant, or its function, type, op or kind code is reserved (rules R84, R90). -/
  | reserved (w : Word)
  /-- An `ALUl` word whose bit 31 is 0 (rules R66, R90). -/
  | longUnmarked (w : Word)
  /-- The second word of a two-instruction bundle has bit 31 set (rule R62). -/
  | slot1Marked (w : Word)
  /-- The second word holds a variant that slot 1 does not accept (rule R63). -/
  | slot1Variant (w : Word)
  /-- `ISSUE_WIDTH = 1` and the first word asks for a second instruction (rule R62). -/
  | singleIssue (w : Word)
  /-- Fewer bytes than the bundle has. -/
  | truncated
deriving DecidableEq, Repr

/-- The word a rejection reports (rule R351). -/
def Reject.word : Reject → Word
  | .reserved w => w
  | .longUnmarked w => w
  | .slot1Marked w => w
  | .slot1Variant w => w
  | .singleIssue w => w
  | .truncated => 0

/-- `func3` of `ALUi` (rules R65, R80). -/
def aluIFn : Nat → Option (PredRef → Reg → Reg → Nat → Instr)
  | 0 => some .addI
  | 1 => some .subI
  | 2 => some .xorI
  | 3 => some .slI
  | 4 => some .srI
  | 5 => some .sraI
  | 6 => some .orI
  | 7 => some .andI
  | _ => none

/-- `func4` of `ALUr` (rules R67, R80). -/
def aluRFn : Nat → Option (PredRef → Reg → Reg → Reg → Instr)
  | 0 => some .addR
  | 1 => some .subR
  | 2 => some .xorR
  | 3 => some .slR
  | 4 => some .srR
  | 5 => some .sraR
  | 6 => some .orR
  | 7 => some .andR
  | 11 => some .norR
  | 12 => some .shaddR
  | 13 => some .shadd2R
  | _ => none

/-- `func4` of `ALUl` (rules R66, R80). -/
def aluLFn : Nat → Option (PredRef → Reg → Reg → Word → Instr)
  | 0 => some .addL
  | 1 => some .subL
  | 2 => some .xorL
  | 3 => some .slL
  | 4 => some .srL
  | 5 => some .sraL
  | 6 => some .orL
  | 7 => some .andL
  | 11 => some .norL
  | 12 => some .shaddL
  | 13 => some .shadd2L
  | _ => none

/-- `func4` of `ALUm` (rules R68, R81). -/
def mulFn : Nat → Option (PredRef → Reg → Reg → Instr)
  | 0 => some .mul
  | 1 => some .mulu
  | _ => none

/-- `func4` of `ALUc` (rules R69, R81). -/
def cmpRFn : Nat → Option (PredRef → PReg → Reg → Reg → Instr)
  | 0 => some .cmpeqR
  | 1 => some .cmpneqR
  | 2 => some .cmpltR
  | 3 => some .cmpleR
  | 4 => some .cmpultR
  | 5 => some .cmpuleR
  | 6 => some .btestR
  | _ => none

/-- `func4` of `ALUci` (rules R70, R81). -/
def cmpIFn : Nat → Option (PredRef → PReg → Reg → Nat → Instr)
  | 0 => some .cmpeqI
  | 1 => some .cmpneqI
  | 2 => some .cmpltI
  | 3 => some .cmpleI
  | 4 => some .cmpultI
  | 5 => some .cmpuleI
  | 6 => some .btestI
  | _ => none

/-- `func4` of `ALUp` (rules R71, R81). -/
def plogFn : Nat → Option (PredRef → PReg → PredRef → PredRef → Instr)
  | 6 => some .por
  | 7 => some .pand
  | 10 => some .pxor
  | _ => none

/-- `type` of `LDT` (rule R82). -/
def loadFn : Nat → Option (PredRef → Reg → Reg → Int → Instr)
  | 0 => some .lws
  | 1 => some .lwl
  | 2 => some .lwc
  | 3 => some .lwm
  | 4 => some .lhs
  | 5 => some .lhl
  | 6 => some .lhc
  | 7 => some .lhm
  | 8 => some .lbs
  | 9 => some .lbl
  | 10 => some .lbc
  | 11 => some .lbm
  | 12 => some .lhus
  | 13 => some .lhul
  | 14 => some .lhuc
  | 15 => some .lhum
  | 16 => some .lbus
  | 17 => some .lbul
  | 18 => some .lbuc
  | 19 => some .lbum
  | _ => none

/-- `type` of `STT` (rule R83). -/
def storeFn : Nat → Option (PredRef → Reg → Reg → Int → Instr)
  | 0 => some .sws
  | 1 => some .swl
  | 2 => some .swc
  | 3 => some .swm
  | 4 => some .shs
  | 5 => some .shl
  | 6 => some .shc
  | 7 => some .shm
  | 8 => some .sbs
  | 9 => some .sbl
  | 10 => some .sbc
  | 11 => some .sbm
  | _ => none

/-- `op` of `STCi` (rule R77). -/
def stackIFn : Nat → Option (PredRef → Nat → Instr)
  | 0 => some .sresI
  | 1 => some .sensI
  | 2 => some .sfreeI
  | 3 => some .sspillI
  | _ => none

/-- `op` of `STCr`; reserve and free have no register form (rules R77, R258). -/
def stackRFn : Nat → Option (PredRef → Reg → Instr)
  | 1 => some .sensR
  | 3 => some .sspillR
  | _ => none

/-- A decoded instruction, or the rejection of its word. -/
def orReserved (w : Word) : Option Instr → Except Reject Instr
  | some i => .ok i
  | none => .error (.reserved w)

/-- The ALU group, `w[26:22] = 01000`, selected by `w[6:4]` (rules R67 to R72, R84). -/
def decodeAluGroup (w : Word) : Except Reject Instr :=
  let g := guardOf w
  match fldN w 4 3 with
  | 0 => orReserved w ((aluRFn (fldN w 0 4)).map fun c => c g (fld w 17 5) (fld w 12 5) (fld w 7 5))
  | 2 => orReserved w ((mulFn (fldN w 0 4)).map fun c => c g (fld w 12 5) (fld w 7 5))
  | 3 => orReserved w ((cmpRFn (fldN w 0 4)).map fun c => c g (fld w 17 3) (fld w 12 5) (fld w 7 5))
  | 4 => orReserved w ((plogFn (fldN w 0 4)).map fun c => c g (fld w 17 3) (predRefAt w 12) (predRefAt w 7))
  | 5 => .ok (.bcopy g (fld w 17 5) (fld w 12 5) (fldN w 7 5) (predRefAt w 0))
  | 6 => orReserved w ((cmpIFn (fldN w 0 4)).map fun c => c g (fld w 17 3) (fld w 12 5) (fldN w 7 5))
  | _ => .error (.reserved w)

/-- The special-move group, `w[26:22] = 01001`, selected by `w[6:4]` (rules R73, R74, R84). -/
def decodeSpecialGroup (w : Word) : Except Reject Instr :=
  let g := guardOf w
  match fldN w 4 3 with
  | 2 => .ok (.mts g (fld w 0 4) (fld w 12 5))
  | 3 => .ok (.mfs g (fld w 17 5) (fld w 0 4))
  | _ => .error (.reserved w)

/-- Stack control, `w[26:22] = 01100`, selected by `w[19:18]` (rules R77, R84). -/
def decodeStackGroup (w : Word) : Except Reject Instr :=
  let g := guardOf w
  match fldN w 18 2 with
  | 0 => orReserved w ((stackIFn (fldN w 20 2)).map fun c => c g (fldN w 0 18))
  | 1 => orReserved w ((stackRFn (fldN w 20 2)).map fun c => c g (fld w 12 5))
  | _ => .error (.reserved w)

/-- `CFLi`, `w[26:25] = 10`, selected by `w[24:23]` (rules R78, R85). The `d` bit of `trap` is ignored (rule R283). -/
def decodeCflImm (w : Word) : Instr :=
  let g := guardOf w
  match fldN w 23 2 with
  | 0 => .call g (bitAt w 22) (fldN w 0 22)
  | 1 => .br g (bitAt w 22) (fldZ w 0 22)
  | 2 => .brcf g (bitAt w 22) (fldN w 0 22)
  | _ => .trap g (fldN w 0 22)

/-- The register control-flow group, `w[26:23] = 1100`, selected by `kind = w[3:2]` and `op = w[1:0]` (rule R79). -/
def decodeCflReg (w : Word) : Except Reject Instr :=
  let g := guardOf w
  let d := bitAt w 22
  match fldN w 2 2, fldN w 0 2 with
  | 0, 0 => .ok (.ret g d)
  | 0, 1 => .ok (.xret g d)
  | 1, 0 => .ok (.callr g d (fld w 12 5))
  | 1, 1 => .ok (.brr g d (fld w 12 5))
  | 1, 2 => .ok (.brcfr g d (fld w 12 5))
  | 2, 2 => .ok (.brcfrPair g d (fld w 12 5) (fld w 7 5))
  | _, _ => .error (.reserved w)

/-- `ALUl`, `w[26:22] = 11111`: `x` must be 1, `w[6:4]` must be 0 and the immediate is the second word, raw
(rules R66, R85, R90). -/
def decodeLong (w ext : Word) : Except Reject Instr :=
  if fldN w 4 3 = 0 then
    match aluLFn (fldN w 0 4) with
    | some c => if bitAt w 31 then .ok (c (guardOf w) (fld w 17 5) (fld w 12 5) ext) else .error (.longUnmarked w)
    | none => .error (.reserved w)
  else .error (.reserved w)

/-- `decode(word, extra_word_for_long_immediates)` of rule R61: the opcode map of rule R84. Bits that a variant does
not use are ignored (rule R64, `mask`). -/
def decode (w ext : Word) : Except Reject Instr :=
  let g := guardOf w
  match fldN w 25 2, fldN w 22 3 with
  | 0, f => orReserved w ((aluIFn f).map fun c => c g (fld w 17 5) (fld w 12 5) (fldN w 0 12))
  | 1, 0 => decodeAluGroup w
  | 1, 1 => decodeSpecialGroup w
  | 1, 2 => orReserved w ((loadFn (fldN w 7 5)).map fun c => c g (fld w 17 5) (fld w 12 5) (fldZ w 0 7))
  | 1, 3 => orReserved w ((storeFn (fldN w 17 5)).map fun c => c g (fld w 12 5) (fld w 7 5) (fldZ w 0 7))
  | 1, 4 => decodeStackGroup w
  | 2, _ => .ok (decodeCflImm w)
  | 3, 0 => decodeCflReg w
  | 3, 1 => decodeCflReg w
  | 3, 7 => decodeLong w ext
  | _, _ => .error (.reserved w)

/-- What the fetch step gets from two words: the instruction of each slot (none: `BUBBLE`) and the bundle's length in
bytes (rule R62). -/
structure Fetched where
  i0 : Instr
  i1 : Option Instr
  len : Nat
deriving DecidableEq, Repr

/-- `decode_bundle` of rule R101: bit 31 of the first word tells the length (rule R62), slot 1 takes only what rule R63
allows. `dual` is `ISSUE_WIDTH = 2`. -/
def decodeBundle (dual : Bool) (w0 w1 : Word) : Except Reject Fetched :=
  match decode w0 w1 with
  | .error r => .error r
  | .ok i0 =>
    if !bitAt w0 31 then .ok ⟨i0, none, 4⟩
    else if i0.isLong then .ok ⟨i0, none, 8⟩
    else if !dual then .error (.singleIssue w0)
    else if bitAt w1 31 then .error (.slot1Marked w1)
    else
      match decode w1 0 with
      | .error r => .error r
      | .ok i1 => if i1.slot1Ok then .ok ⟨i0, some i1, 8⟩ else .error (.slot1Variant w1)

/-- The word stored in four bytes, the first at the lowest address (rule R41). -/
def wordOfBytes (e : Config.Endian) (b0 b1 b2 b3 : Byte) : Word :=
  match e with
  | .big => b0 ++ b1 ++ b2 ++ b3
  | .little => b3 ++ b2 ++ b1 ++ b0

/-- Byte `k` of a word as it lies in memory, `k = 0` at the lowest address (rule R41). -/
def byteOfWord (e : Config.Endian) (w : Word) (k : Nat) : Byte :=
  match e with
  | .big => w.extractLsb' (24 - 8 * k) 8
  | .little => w.extractLsb' (8 * k) 8

/-- The decoder over bytes: the bundle at the front of a list of bytes, rejecting by name. -/
def decodeBytes (e : Config.Endian) (dual : Bool) : List Byte → Except Reject Fetched
  | b0 :: b1 :: b2 :: b3 :: rest =>
    let w0 := wordOfBytes e b0 b1 b2 b3
    match rest with
    | c0 :: c1 :: c2 :: c3 :: _ => decodeBundle dual w0 (wordOfBytes e c0 c1 c2 c3)
    | _ => if bitAt w0 31 then .error .truncated else decodeBundle dual w0 0
  | _ => .error .truncated

/-- The first word of an instruction whose bits are `w`, numbered as spec/opcode_table.json numbers them. -/
def tableWord0 (nbits w : Nat) : Word := BitVec.ofNat 32 (w % 2 ^ nbits)

/-- The second word of such an instruction (bits 63 down to 32). -/
def tableWord1 (nbits w : Nat) : Word := BitVec.ofNat 32 (w % 2 ^ nbits / 4294967296)

/-- The eight bytes of such an instruction as the hardware stores them: each word in its byte order, the first word
at the lowest address. -/
def tableBytes (e : Config.Endian) (nbits w : Nat) : List Byte :=
  let w0 := tableWord0 nbits w
  let w1 := tableWord1 nbits w
  [byteOfWord e w0 0, byteOfWord e w0 1, byteOfWord e w0 2, byteOfWord e w0 3,
   byteOfWord e w1 0, byteOfWord e w1 1, byteOfWord e w1 2, byteOfWord e w1 3]

/-- The instruction the decoder reads from an instruction whose bits are `w`: slot 0 of the bundle its bytes make. -/
def decodeTableWord (nbits w : Nat) : Option Instr :=
  match decodeBytes Config.Params.default.endian Config.Params.default.dualIssue
      (tableBytes Config.Params.default.endian nbits w) with
  | .ok f => some f.i0
  | .error _ => none

/-! ### The encoder -/

/-- A field placed in a word, its least significant bit at bit `lo`. -/
def place {n : Nat} (v : BitVec n) (lo : Nat) : Word := v.setWidth 32 <<< lo

/-- A 1-bit field placed at bit `i`. -/
def placeBit (b : Bool) (i : Nat) : Word := place (BitVec.ofBool b) i

/-- A predicate reference placed with its index at bit `lo` and its negate flag above (rules R15, R71, R72). -/
def placePred (p : PredRef) (lo : Nat) : Word := placeBit p.neg (lo + 3) ||| place p.idx lo

/-- `base` is a row's `match` of spec/opcode_table.json; the guard goes to bits 30 to 27 (rule R64). -/
def withGuard (base : Word) (g : PredRef) : Word := base ||| placePred g 27

/-- Format `ALUi` (rule R65). -/
def wALUi (base : Word) (g : PredRef) (rd rs1 : Reg) (imm : Nat) : Word :=
  withGuard base g ||| place rd 17 ||| place rs1 12 ||| place (BitVec.ofNat 12 imm) 0

/-- Formats with two register fields at 21:17 and 16:12: `ALUl` (rule R66). -/
def wALUl (base : Word) (g : PredRef) (rd rs1 : Reg) : Word :=
  withGuard base g ||| place rd 17 ||| place rs1 12

/-- Format `ALUr` (rule R67). -/
def wALUr (base : Word) (g : PredRef) (rd rs1 rs2 : Reg) : Word :=
  withGuard base g ||| place rd 17 ||| place rs1 12 ||| place rs2 7

/-- Format `ALUm` (rule R68). -/
def wALUm (base : Word) (g : PredRef) (rs1 rs2 : Reg) : Word :=
  withGuard base g ||| place rs1 12 ||| place rs2 7

/-- Format `ALUc` (rule R69). -/
def wALUc (base : Word) (g : PredRef) (pd : PReg) (rs1 rs2 : Reg) : Word :=
  withGuard base g ||| place pd 17 ||| place rs1 12 ||| place rs2 7

/-- Format `ALUci` (rule R70). -/
def wALUci (base : Word) (g : PredRef) (pd : PReg) (rs1 : Reg) (imm : Nat) : Word :=
  withGuard base g ||| place pd 17 ||| place rs1 12 ||| place (BitVec.ofNat 5 imm) 7

/-- Format `ALUp` (rule R71). -/
def wALUp (base : Word) (g : PredRef) (pd : PReg) (ps1 ps2 : PredRef) : Word :=
  withGuard base g ||| place pd 17 ||| placePred ps1 12 ||| placePred ps2 7

/-- Format `ALUb` (rule R72). -/
def wALUb (base : Word) (g : PredRef) (rd rs1 : Reg) (imm : Nat) (ps : PredRef) : Word :=
  withGuard base g ||| place rd 17 ||| place rs1 12 ||| place (BitVec.ofNat 5 imm) 7 ||| placePred ps 0

/-- Format `SPCt` (rule R73). -/
def wSPCt (base : Word) (g : PredRef) (sd : SReg) (rs1 : Reg) : Word :=
  withGuard base g ||| place rs1 12 ||| place sd 0

/-- Format `SPCf` (rule R74). -/
def wSPCf (base : Word) (g : PredRef) (rd : Reg) (ss : SReg) : Word :=
  withGuard base g ||| place rd 17 ||| place ss 0

/-- Format `LDT` (rule R75). -/
def wLDT (base : Word) (g : PredRef) (rd ra : Reg) (imm : Int) : Word :=
  withGuard base g ||| place rd 17 ||| place ra 12 ||| place (BitVec.ofInt 7 imm) 0

/-- Format `STT` (rule R76). -/
def wSTT (base : Word) (g : PredRef) (ra rs : Reg) (imm : Int) : Word :=
  withGuard base g ||| place ra 12 ||| place rs 7 ||| place (BitVec.ofInt 7 imm) 0

/-- Format `STCi` (rule R77). -/
def wSTCi (base : Word) (g : PredRef) (imm : Nat) : Word :=
  withGuard base g ||| place (BitVec.ofNat 18 imm) 0

/-- Format `STCr` (rule R77). -/
def wSTCr (base : Word) (g : PredRef) (rs : Reg) : Word := withGuard base g ||| place rs 12

/-- Format `CFLi`, unsigned immediate (rule R78). -/
def wCFLi (base : Word) (g : PredRef) (d : Bool) (imm : Nat) : Word :=
  withGuard base g ||| placeBit d 22 ||| place (BitVec.ofNat 22 imm) 0

/-- Format `CFLi`, signed immediate (`br`, rule R78). -/
def wCFLz (base : Word) (g : PredRef) (d : Bool) (imm : Int) : Word :=
  withGuard base g ||| placeBit d 22 ||| place (BitVec.ofInt 22 imm) 0

/-- Format `CFLri` (rule R79). -/
def wCFLri (base : Word) (g : PredRef) (d : Bool) : Word := withGuard base g ||| placeBit d 22

/-- Format `CFLrs` (rule R79). -/
def wCFLrs (base : Word) (g : PredRef) (d : Bool) (rs : Reg) : Word :=
  withGuard base g ||| placeBit d 22 ||| place rs 12

/-- Format `CFLrt` (rule R79). -/
def wCFLrt (base : Word) (g : PredRef) (d : Bool) (rs1 rs2 : Reg) : Word :=
  withGuard base g ||| placeBit d 22 ||| place rs1 12 ||| place rs2 7

/-- The instruction word, with `x` 0 but for `ALUl`, whose `match` has it set; unused bits are 0 (rule R64). -/
def encodeWord : Instr → Word
  | .addI g rd rs1 imm => wALUi 0x00000000 g rd rs1 imm
  | .subI g rd rs1 imm => wALUi 0x00400000 g rd rs1 imm
  | .xorI g rd rs1 imm => wALUi 0x00800000 g rd rs1 imm
  | .slI g rd rs1 imm => wALUi 0x00C00000 g rd rs1 imm
  | .srI g rd rs1 imm => wALUi 0x01000000 g rd rs1 imm
  | .sraI g rd rs1 imm => wALUi 0x01400000 g rd rs1 imm
  | .orI g rd rs1 imm => wALUi 0x01800000 g rd rs1 imm
  | .andI g rd rs1 imm => wALUi 0x01C00000 g rd rs1 imm
  | .addR g rd rs1 rs2 => wALUr 0x02000000 g rd rs1 rs2
  | .subR g rd rs1 rs2 => wALUr 0x02000001 g rd rs1 rs2
  | .xorR g rd rs1 rs2 => wALUr 0x02000002 g rd rs1 rs2
  | .slR g rd rs1 rs2 => wALUr 0x02000003 g rd rs1 rs2
  | .srR g rd rs1 rs2 => wALUr 0x02000004 g rd rs1 rs2
  | .sraR g rd rs1 rs2 => wALUr 0x02000005 g rd rs1 rs2
  | .orR g rd rs1 rs2 => wALUr 0x02000006 g rd rs1 rs2
  | .andR g rd rs1 rs2 => wALUr 0x02000007 g rd rs1 rs2
  | .norR g rd rs1 rs2 => wALUr 0x0200000B g rd rs1 rs2
  | .shaddR g rd rs1 rs2 => wALUr 0x0200000C g rd rs1 rs2
  | .shadd2R g rd rs1 rs2 => wALUr 0x0200000D g rd rs1 rs2
  | .addL g rd rs1 _ => wALUl 0x87C00000 g rd rs1
  | .subL g rd rs1 _ => wALUl 0x87C00001 g rd rs1
  | .xorL g rd rs1 _ => wALUl 0x87C00002 g rd rs1
  | .slL g rd rs1 _ => wALUl 0x87C00003 g rd rs1
  | .srL g rd rs1 _ => wALUl 0x87C00004 g rd rs1
  | .sraL g rd rs1 _ => wALUl 0x87C00005 g rd rs1
  | .orL g rd rs1 _ => wALUl 0x87C00006 g rd rs1
  | .andL g rd rs1 _ => wALUl 0x87C00007 g rd rs1
  | .norL g rd rs1 _ => wALUl 0x87C0000B g rd rs1
  | .shaddL g rd rs1 _ => wALUl 0x87C0000C g rd rs1
  | .shadd2L g rd rs1 _ => wALUl 0x87C0000D g rd rs1
  | .mul g rs1 rs2 => wALUm 0x02000020 g rs1 rs2
  | .mulu g rs1 rs2 => wALUm 0x02000021 g rs1 rs2
  | .cmpeqR g pd rs1 rs2 => wALUc 0x02000030 g pd rs1 rs2
  | .cmpneqR g pd rs1 rs2 => wALUc 0x02000031 g pd rs1 rs2
  | .cmpltR g pd rs1 rs2 => wALUc 0x02000032 g pd rs1 rs2
  | .cmpleR g pd rs1 rs2 => wALUc 0x02000033 g pd rs1 rs2
  | .cmpultR g pd rs1 rs2 => wALUc 0x02000034 g pd rs1 rs2
  | .cmpuleR g pd rs1 rs2 => wALUc 0x02000035 g pd rs1 rs2
  | .btestR g pd rs1 rs2 => wALUc 0x02000036 g pd rs1 rs2
  | .cmpeqI g pd rs1 imm => wALUci 0x02000060 g pd rs1 imm
  | .cmpneqI g pd rs1 imm => wALUci 0x02000061 g pd rs1 imm
  | .cmpltI g pd rs1 imm => wALUci 0x02000062 g pd rs1 imm
  | .cmpleI g pd rs1 imm => wALUci 0x02000063 g pd rs1 imm
  | .cmpultI g pd rs1 imm => wALUci 0x02000064 g pd rs1 imm
  | .cmpuleI g pd rs1 imm => wALUci 0x02000065 g pd rs1 imm
  | .btestI g pd rs1 imm => wALUci 0x02000066 g pd rs1 imm
  | .por g pd ps1 ps2 => wALUp 0x02000046 g pd ps1 ps2
  | .pand g pd ps1 ps2 => wALUp 0x02000047 g pd ps1 ps2
  | .pxor g pd ps1 ps2 => wALUp 0x0200004A g pd ps1 ps2
  | .bcopy g rd rs1 imm ps => wALUb 0x02000050 g rd rs1 imm ps
  | .mts g sd rs1 => wSPCt 0x02400020 g sd rs1
  | .mfs g rd ss => wSPCf 0x02400030 g rd ss
  | .lws g rd ra imm => wLDT 0x02800000 g rd ra imm
  | .lwl g rd ra imm => wLDT 0x02800080 g rd ra imm
  | .lwc g rd ra imm => wLDT 0x02800100 g rd ra imm
  | .lwm g rd ra imm => wLDT 0x02800180 g rd ra imm
  | .lhs g rd ra imm => wLDT 0x02800200 g rd ra imm
  | .lhl g rd ra imm => wLDT 0x02800280 g rd ra imm
  | .lhc g rd ra imm => wLDT 0x02800300 g rd ra imm
  | .lhm g rd ra imm => wLDT 0x02800380 g rd ra imm
  | .lbs g rd ra imm => wLDT 0x02800400 g rd ra imm
  | .lbl g rd ra imm => wLDT 0x02800480 g rd ra imm
  | .lbc g rd ra imm => wLDT 0x02800500 g rd ra imm
  | .lbm g rd ra imm => wLDT 0x02800580 g rd ra imm
  | .lhus g rd ra imm => wLDT 0x02800600 g rd ra imm
  | .lhul g rd ra imm => wLDT 0x02800680 g rd ra imm
  | .lhuc g rd ra imm => wLDT 0x02800700 g rd ra imm
  | .lhum g rd ra imm => wLDT 0x02800780 g rd ra imm
  | .lbus g rd ra imm => wLDT 0x02800800 g rd ra imm
  | .lbul g rd ra imm => wLDT 0x02800880 g rd ra imm
  | .lbuc g rd ra imm => wLDT 0x02800900 g rd ra imm
  | .lbum g rd ra imm => wLDT 0x02800980 g rd ra imm
  | .sws g ra rs imm => wSTT 0x02C00000 g ra rs imm
  | .swl g ra rs imm => wSTT 0x02C20000 g ra rs imm
  | .swc g ra rs imm => wSTT 0x02C40000 g ra rs imm
  | .swm g ra rs imm => wSTT 0x02C60000 g ra rs imm
  | .shs g ra rs imm => wSTT 0x02C80000 g ra rs imm
  | .shl g ra rs imm => wSTT 0x02CA0000 g ra rs imm
  | .shc g ra rs imm => wSTT 0x02CC0000 g ra rs imm
  | .shm g ra rs imm => wSTT 0x02CE0000 g ra rs imm
  | .sbs g ra rs imm => wSTT 0x02D00000 g ra rs imm
  | .sbl g ra rs imm => wSTT 0x02D20000 g ra rs imm
  | .sbc g ra rs imm => wSTT 0x02D40000 g ra rs imm
  | .sbm g ra rs imm => wSTT 0x02D60000 g ra rs imm
  | .sresI g imm => wSTCi 0x03000000 g imm
  | .sensI g imm => wSTCi 0x03100000 g imm
  | .sfreeI g imm => wSTCi 0x03200000 g imm
  | .sspillI g imm => wSTCi 0x03300000 g imm
  | .sensR g rs => wSTCr 0x03140000 g rs
  | .sspillR g rs => wSTCr 0x03340000 g rs
  | .call g d imm => wCFLi 0x04000000 g d imm
  | .br g d imm => wCFLz 0x04800000 g d imm
  | .brcf g d imm => wCFLi 0x05000000 g d imm
  | .trap g imm => wCFLi 0x05800000 g false imm
  | .ret g d => wCFLri 0x06000000 g d
  | .xret g d => wCFLri 0x06000001 g d
  | .callr g d rs => wCFLrs 0x06000004 g d rs
  | .brr g d rs => wCFLrs 0x06000005 g d rs
  | .brcfr g d rs => wCFLrs 0x06000006 g d rs
  | .brcfrPair g d rs1 rs2 => wCFLrt 0x0600000A g d rs1 rs2

/-- The second word of an `ALUl`: its immediate, raw (rules R60, R66). -/
def encodeExt : Instr → Option Word
  | .addI _ _ _ _ => none
  | .subI _ _ _ _ => none
  | .xorI _ _ _ _ => none
  | .slI _ _ _ _ => none
  | .srI _ _ _ _ => none
  | .sraI _ _ _ _ => none
  | .orI _ _ _ _ => none
  | .andI _ _ _ _ => none
  | .addR _ _ _ _ => none
  | .subR _ _ _ _ => none
  | .xorR _ _ _ _ => none
  | .slR _ _ _ _ => none
  | .srR _ _ _ _ => none
  | .sraR _ _ _ _ => none
  | .orR _ _ _ _ => none
  | .andR _ _ _ _ => none
  | .norR _ _ _ _ => none
  | .shaddR _ _ _ _ => none
  | .shadd2R _ _ _ _ => none
  | .addL _ _ _ imm => some imm
  | .subL _ _ _ imm => some imm
  | .xorL _ _ _ imm => some imm
  | .slL _ _ _ imm => some imm
  | .srL _ _ _ imm => some imm
  | .sraL _ _ _ imm => some imm
  | .orL _ _ _ imm => some imm
  | .andL _ _ _ imm => some imm
  | .norL _ _ _ imm => some imm
  | .shaddL _ _ _ imm => some imm
  | .shadd2L _ _ _ imm => some imm
  | .mul _ _ _ => none
  | .mulu _ _ _ => none
  | .cmpeqR _ _ _ _ => none
  | .cmpneqR _ _ _ _ => none
  | .cmpltR _ _ _ _ => none
  | .cmpleR _ _ _ _ => none
  | .cmpultR _ _ _ _ => none
  | .cmpuleR _ _ _ _ => none
  | .btestR _ _ _ _ => none
  | .cmpeqI _ _ _ _ => none
  | .cmpneqI _ _ _ _ => none
  | .cmpltI _ _ _ _ => none
  | .cmpleI _ _ _ _ => none
  | .cmpultI _ _ _ _ => none
  | .cmpuleI _ _ _ _ => none
  | .btestI _ _ _ _ => none
  | .por _ _ _ _ => none
  | .pand _ _ _ _ => none
  | .pxor _ _ _ _ => none
  | .bcopy _ _ _ _ _ => none
  | .mts _ _ _ => none
  | .mfs _ _ _ => none
  | .lws _ _ _ _ => none
  | .lwl _ _ _ _ => none
  | .lwc _ _ _ _ => none
  | .lwm _ _ _ _ => none
  | .lhs _ _ _ _ => none
  | .lhl _ _ _ _ => none
  | .lhc _ _ _ _ => none
  | .lhm _ _ _ _ => none
  | .lbs _ _ _ _ => none
  | .lbl _ _ _ _ => none
  | .lbc _ _ _ _ => none
  | .lbm _ _ _ _ => none
  | .lhus _ _ _ _ => none
  | .lhul _ _ _ _ => none
  | .lhuc _ _ _ _ => none
  | .lhum _ _ _ _ => none
  | .lbus _ _ _ _ => none
  | .lbul _ _ _ _ => none
  | .lbuc _ _ _ _ => none
  | .lbum _ _ _ _ => none
  | .sws _ _ _ _ => none
  | .swl _ _ _ _ => none
  | .swc _ _ _ _ => none
  | .swm _ _ _ _ => none
  | .shs _ _ _ _ => none
  | .shl _ _ _ _ => none
  | .shc _ _ _ _ => none
  | .shm _ _ _ _ => none
  | .sbs _ _ _ _ => none
  | .sbl _ _ _ _ => none
  | .sbc _ _ _ _ => none
  | .sbm _ _ _ _ => none
  | .sresI _ _ => none
  | .sensI _ _ => none
  | .sfreeI _ _ => none
  | .sspillI _ _ => none
  | .sensR _ _ => none
  | .sspillR _ _ => none
  | .call _ _ _ => none
  | .br _ _ _ => none
  | .brcf _ _ _ => none
  | .trap _ _ => none
  | .ret _ _ => none
  | .xret _ _ => none
  | .callr _ _ _ => none
  | .brr _ _ _ => none
  | .brcfr _ _ _ => none
  | .brcfrPair _ _ _ _ => none

/-- `encode` of rule R61: the words of a well-formed instruction; an out-of-range immediate is rejected, not truncated
(rule R85). -/
def encode (i : Instr) : Option (List Word) :=
  if i.wf then some (encodeWord i :: (encodeExt i).toList) else none

/-- The second word that `decode` is given with the first word of `i`: its extra word, or `other` where it has none. -/
def extOr (i : Instr) (other : Word) : Word := (encodeExt i).getD other

/-- The words of a well-formed bundle: with a second instruction, bit 31 of the first word is set (rule R62). -/
def encodeBundle (i0 : Instr) (i1 : Option Instr) : Option (List Word) :=
  if bundleWf i0 i1 then
    match i1 with
    | none => some (encodeWord i0 :: (encodeExt i0).toList)
    | some i => some [encodeWord i0 ||| 0x80000000#32, encodeWord i]
  else none

end Sys2Proof
end

