-- ==== Sys2Proof/Machine/State.lean ====
section
/-! DEFINITION. The state of the machine (10_state.md; reset values of rule R380), the faults that end a run
(rules R350, R351) and the refusals. Everything is plain data.

Four groups of fields are the MODEL's own and are marked so: `cur` (the driver's loop variables of rule R100), `params`
(the parameters of rule R5), the answers of the collaborators (`replies`, `stackReplies`, `exc.arrivals`), and two pieces
of bookkeeping that the refusals of rules R301 and R242 need (`Slot.inDelay`, `loadHist`). -/

namespace Sys2Proof.Machine

open Sys2Proof.Config

/-- The four pipeline stages (rule R8), upstream to downstream. -/
inductive Stage where
  | IF
  | DR
  | EX
  | MW
deriving DecidableEq, Repr

/-- The two slots of a stage (rule R22, `ISSUE_WIDTH = 2`). -/
inductive SlotIx where
  | s0
  | s1
deriving DecidableEq, Repr

/-- The four memory areas (rule R40). -/
inductive Area where
  | stackCache
  | localMem
  | dataCache
  | mainMem
deriving DecidableEq, Repr

/-- Access widths (rule R42). -/
inductive Width where
  | byte
  | half
  | word
deriving DecidableEq, Repr

/-- The four stack-control operations (rule R49). -/
inductive StackOp where
  | reserve
  | ensure
  | free
  | spill
deriving DecidableEq, Repr

/-- Who published a bypass entry: `execute_stage` or `commit_stage` (rule R25). -/
inductive BypTag where
  | EXE
  | MEM
deriving DecidableEq, Repr

/-- A bypass entry (rule R25). -/
structure BypEntry where
  tag : BypTag
  index : Reg
  value : Word
deriving DecidableEq, Repr

/-- What a slot holds (rules R22 to R24): `BUBBLE`, a decoded instruction, or one of the two internal instructions
that no word decodes to (rules R93, R296, R299). -/
inductive SlotInstr where
  | bubble
  | instr (i : Instr)
  | intr (handler : Word)
  | halt
deriving DecidableEq, Repr

/-- An in-flight instruction state, "pipeline slot" (rule R22). -/
structure Slot where
  instr : SlotInstr
  /-- Address of the instruction word. -/
  addr : Word
  /-- Address of the bundle that follows in memory. -/
  next : Word
  /-- `BASE` when the instruction was fetched. -/
  base : Word
  /-- The resolved guard (rule R106). -/
  pred : Bool
  drRs1 : Word
  drRs2 : Word
  /-- `dr_ss`, first word: the special register of `mfs`, the base of `ret` and `xret`. -/
  drSs : Word
  /-- `dr_ss`, second word: the offset of `ret` and `xret`. -/
  drSsOff : Word
  drPs1 : Bool
  drPs2 : Bool
  /-- `ex_result`, bits 31 to 0. -/
  exResult : Word
  /-- `ex_result`, bits 63 to 32 (multiply only). -/
  exResultHi : Word
  exAddress : Word
  exBase : Word
  exTarget : Word
  /-- `slot.trap_fires` of rule R283. -/
  trapFires : Bool
  byp : Option BypEntry
  discard : Bool
  initialized : Bool
  /-- MODEL's own: the slot stands in a delay slot of a taken delayed transfer (rule R301). -/
  inDelay : Bool
deriving DecidableEq, Repr

/-- `BUBBLE` with every field at its reset value (rules R22, R23). -/
def Slot.bubble : Slot where
  instr := .bubble
  addr := 0
  next := 0
  base := 0
  pred := false
  drRs1 := 0
  drRs2 := 0
  drSs := 0
  drSsOff := 0
  drPs1 := false
  drPs2 := false
  exResult := 0
  exResultHi := 0
  exAddress := 0
  exBase := 0
  exTarget := 0
  trapFires := false
  byp := none
  discard := false
  initialized := false
  inDelay := false

/-- The slots of one stage. -/
structure Bundle where
  s0 : Slot
  s1 : Slot
deriving DecidableEq, Repr

/-- A stage holding nothing. -/
def Bundle.empty : Bundle := ⟨Slot.bubble, Slot.bubble⟩

/-- The pipeline array `pipe[stage][k]` (rule R22). -/
structure Pipe where
  fetch : Bundle
  dr : Bundle
  ex : Bundle
  mw : Bundle
deriving DecidableEq, Repr

/-- MODEL's own: the loop variables of the driver of rule R100, that is, which slot's stage operation is invoked. -/
structure Cursor where
  stage : Stage
  k : SlotIx
deriving DecidableEq, Repr

/-- A call/debug frame: caller base, return offset, callee address (rule R27). -/
structure Frame where
  callerBase : Word
  returnOffset : Word
  callee : Word
deriving DecidableEq, Repr

/-- What the profiling collector is told (rule R275). -/
inductive ProfEvent where
  | entry (callee : Word)
  | exit
deriving DecidableEq, Repr

/-- States of the method cache's fill machine (rule R315). -/
inductive McState where
  | idle
  | sizeFetch
  | transfer
deriving DecidableEq, Repr

/-- A resident function (rule R313). Bit `k` of `util` is set when word `k` of the function has been read (diagnostic
only). -/
structure McEntry where
  addr : Word
  sizeBytes : Nat
  blocks : Nat
  util : Nat
deriving DecidableEq, Repr

/-- The request being filled, `mc_pending` (rule R28). -/
structure McPending where
  address : Word
  sizeBytes : Nat
  blocks : Nat
deriving DecidableEq, Repr

/-- The method cache (rules R28, R30). -/
structure MethodCache where
  state : McState
  /-- Position 0 is the eviction end (rule R313). -/
  entries : List McEntry
  active : Word
  pending : McPending
  hits : Nat
  misses : Nat
  evictions : Nat
  bytesTransferred : Nat
  stallCycles : Nat
deriving DecidableEq, Repr

/-- One code of the exception-handler collaborator: whether it may be taken, and its handler (rules R31, R362). -/
structure ExcEntry where
  code : Nat
  enabled : Bool
  handler : Word
deriving DecidableEq, Repr

/-- An interrupt waiting to be taken: its code and the address of its handler (rule R362). -/
structure Irq where
  code : Nat
  handler : Word
deriving DecidableEq, Repr

/-- MODEL's own: what happens at the interrupt inputs before one fetch step (rule R362: `pending()` is an oracle drawn
once per fetch step). No event switches acceptance: rule R368 speaks of means the collaborator may offer a handler for that
and names none (DESIGN CHOICE, notes/assumptions/15.md). -/
inductive IrqEvent where
  | quiet
  | raise (irq : Irq)
  | withdraw
deriving DecidableEq, Repr

/-- The exception-handler collaborator (rules R31, R362). -/
structure ExcUnit where
  intrEnabled : Bool
  table : List ExcEntry
  /-- How many low bits of a trap code the collaborator looks at (rule R85). -/
  codeBits : Nat
  pending : Option Irq
  /-- MODEL's own: the events of the coming fetch steps, the next one first; none are left where the list ends. -/
  arrivals : List IrqEvent
deriving DecidableEq, Repr

/-- The bytes of one memory: pairs (address, byte) in the canonical form of `Memory.wf`. An address that is not listed
reads 0 (rules R32, R380). -/
structure Memory where
  cells : List Host.Cell
deriving DecidableEq, Repr

/-- The memories behind the four areas (rule R40); an area that is a view of main memory leaves its own unused. -/
structure Mems where
  main : Memory
  stack : Memory
  loc : Memory
  data : Memory
deriving DecidableEq, Repr

/-- MODEL's own: one answer of a memory collaborator to one call (rules R44, R45, R47): done, not yet done, or, from
the stack cache only, `StackExceeded` with the collaborator's value. -/
inductive Reply where
  | done
  | busy
  | exceeded (v : Word)
deriving DecidableEq, Repr

/-- MODEL's own: one answer of the stack cache to one `StackCtl` call (rules R49, R250): not yet done; done, with the new
pointers; `StackExceeded` with the collaborator's value; or the fault its transfer to or from main memory meets
(notes/assumptions/23.md). -/
inductive StackReply where
  | busy
  | answer (ss st : Word)
  | exceeded (v : Word)
  | unaligned (a : Word)
  | unmapped (a : Word)
deriving DecidableEq, Repr

/-- The machine state. -/
structure State where
  /-- The parameters of rule R5; no step changes them. -/
  params : Params
  /-- General registers (rule R10). -/
  gpr : Vector Word 32
  /-- Predicate registers (rule R13). -/
  preds : Vector Bool 8
  /-- Special registers (rule R16); the place of `SPR_PRED` is unused, that index being the predicate file (rule R17). -/
  spr : Vector Word 16
  /-- `BASE` (rule R19). -/
  base : Word
  /-- `PC` (rule R19). -/
  pc : Word
  /-- `nPC` (rule R19). -/
  npc : Word
  /-- Simulated cycles (rule R21). -/
  cycle : Nat
  /-- The pipeline (rule R22). -/
  pipe : Pipe
  /-- `stall_req`, cleared at the start of every cycle (rule R26). -/
  stallReq : Option Stage
  /-- `intr_block` (rule R26). -/
  intrBlock : Nat
  /-- MODEL's own: the slot being invoked (rule R100). -/
  cur : Cursor
  /-- The call/debug frame stack, top first (rule R27). -/
  frames : List Frame
  /-- What the profiling collector was told, latest first (rule R275). -/
  profile : List ProfEvent
  /-- The method cache (rule R28). -/
  mc : MethodCache
  /-- The exception-handler collaborator (rule R31). -/
  exc : ExcUnit
  /-- The memories (rule R32). -/
  mem : Mems
  /-- MODEL's own: answers of the memory collaborators to the coming calls, the next one first; every call is answered
  `done` where the list ends (rule R47). -/
  replies : List Reply
  /-- MODEL's own: answers of the stack cache to the coming `StackCtl` calls; rule R251 where the list ends. -/
  stackReplies : List StackReply
  /-- MODEL's own: loaded registers and how many bundles have followed the load, kept when `LOAD_USE_GAP > 0`
  (rule R242). -/
  loadHist : List (Reg × Nat)
deriving DecidableEq, Repr

/-- The faults of rule R351. Each ends the run (rule R350) and carries, beside its own value, the state at the raise:
every write made before it stands, and the report's `PC` and cycle count are `st.pc` and `st.cycle`. -/
inductive Fault where
  /-- `Unaligned` (rule R352): raised by loads and stores in `MW`, by control transfers, and by the fetch step. Safe: the
  spec's own fault; for a register-supplied target it is the spec's decision D28. -/
  | unaligned (addr : Word) (st : State)
  /-- `IllegalPC` (rule R353): raised by `ret` and `xret` to base 0 with an offset, and by the fetch step. Safe. -/
  | illegalPC (v : Word) (st : State)
  /-- `CodeExceeded` (rule R354): raised by the method cache in `SizeFetch`, and at boot. Safe. -/
  | codeExceeded (addr : Word) (size : Nat) (st : State)
  /-- `StackExceeded` (rule R355): raised by the stack-cache collaborator. Safe. -/
  | stackExceeded (v : Word) (st : State)
  /-- `Illegal` (rule R356): raised by the fetch step, with the rejected word and the address of its bundle. Safe. -/
  | illegal (word addr : Word) (st : State)
  /-- `Unmapped` (rule R357): raised by a memory collaborator. Safe. -/
  | unmapped (addr : Word) (st : State)
  /-- `Halt` (rule R358): a transfer to address 0, or the internal `HALT`; the only non-error end. Safe. -/
  | halt (code : Word) (st : State)
deriving DecidableEq, Repr

/-- What the model refuses. Every one but the first is a case that the spec itself tells a model to refuse or calls
unreachable; none is the whole of an instruction. -/
inductive Refusal where
  /-- An instruction with no meaning yet. Raised by no arm of `exec` now. Safe. -/
  | notModelled (mnemonic : String)
  /-- Both slots of one bundle write the same general register, or the same predicate (by a compare, predicate logic or
  `mts` to the predicate file), with true guards: raised by the cycle before `execute_stage` (rules R113, R397, decision
  D29). Safe. -/
  | twoWriters
  /-- A control transfer whose guard can be true stands in a delay slot of a taken delayed transfer: raised by the cycle
  in which the delayed transfer takes effect (rule R301). Safe. -/
  | transferInDelaySlot
  /-- A function whose size word makes it extend past `2^32`: raised by the method cache (rule R312). Safe. -/
  | functionWraps
  /-- A load's register is read with fewer than `LOAD_USE_GAP` bundles between: raised in `execute_stage` (rule R242).
  Never with the default gap 0. Safe. -/
  | loadUseGap
  /-- A store would change a byte of a resident function: raised by every store (rule R54, U8). Safe. -/
  | storeToCode
  /-- `ensure_resident` is called for another function while a fill is in progress: unreachable (rule R324). Safe. -/
  | otherFillPending
deriving DecidableEq, Repr

/-- The machine right after reset (rules R380, R382), before a program is loaded: every byte of memory is 0, so the size
word of the entry function is 0 and its entry has no block. -/
def State.reset : State where
  params := Params.default
  gpr := Vector.replicate 32 0
  preds := #v[true, false, false, false, false, false, false, false]
  spr := Vector.replicate 16 0
  base := Params.default.entry
  pc := Params.default.entry
  npc := Params.default.entry
  cycle := 0
  pipe := ⟨Bundle.empty, Bundle.empty, Bundle.empty, Bundle.empty⟩
  stallReq := none
  intrBlock := 0
  cur := ⟨.IF, .s0⟩
  frames := []
  profile := []
  mc :=
    { state := .idle
      entries := [⟨Params.default.entry, 0, 0, 0⟩]
      active := Params.default.entry
      pending := ⟨0, 0, 0⟩
      hits := 0
      misses := 0
      evictions := 0
      bytesTransferred := 0
      stallCycles := 0 }
  exc :=
    { intrEnabled := true
      table := []
      codeBits := 22
      pending := none
      arrivals := [] }
  mem := ⟨⟨[]⟩, ⟨[]⟩, ⟨[]⟩, ⟨[]⟩⟩
  replies := []
  stackReplies := []
  loadHist := []

end Sys2Proof.Machine
end

