-- ==== Sys2Proof/Machine/Memory.lean ====
section
/-! DEFINITION. Memory (20_memory.md): bytes in one canonical form, accesses in the byte order of `ENDIAN`, the four areas,
and the calls by which the core reaches its memory collaborators (rules R44 to R47). Code that a test could show wrong
stands here, not in State.lean. -/

namespace Sys2Proof.Machine

open Sys2Proof.Config

/-- The result type of everything that can end a run. -/
abbrev Result := Host.Outcome State Fault Refusal

/-! ### One memory -/

/-- The byte at address `a`; an address that is not listed reads 0 (rule R32, decision D25). -/
def cellsRead : List Host.Cell → Nat → Byte
  | [], _ => 0
  | (k, v) :: rest, a => if k = a then v else cellsRead rest a

/-- `a` gets the byte `b`, in the canonical form: a 0 byte is not listed. -/
def cellsWrite : List Host.Cell → Nat → Byte → List Host.Cell
  | [], a, b => if b = 0 then [] else [(a, b)]
  | (k, v) :: rest, a, b =>
    if a < k then (if b = 0 then (k, v) :: rest else (a, b) :: (k, v) :: rest)
    else if a = k then (if b = 0 then rest else (k, b) :: rest)
    else (k, v) :: cellsWrite rest a b

/-- Addresses strictly rising from `lo`, inside the 32-bit address space (rule R40), and no byte 0 listed. -/
def cellsWf (lo : Nat) : List Host.Cell → Bool
  | [] => true
  | (k, v) :: rest => decide (lo ≤ k) && decide (k < 4294967296) && decide (v ≠ 0) && cellsWf (k + 1) rest

/-- The canonical form of memory holds, so that equal memories are equal data. -/
def Memory.wf (m : Memory) : Bool := cellsWf 0 m.cells

/-- The byte at address `a`. -/
def Memory.read (m : Memory) (a : Word) : Byte := cellsRead m.cells a.toNat

/-- `m` with byte `b` at address `a`. -/
def Memory.write (m : Memory) (a : Word) (b : Byte) : Memory := ⟨cellsWrite m.cells a.toNat b⟩

/-- Bytes stored one after another from address `a` upward, modulo `2^32` (rule R40). -/
def Memory.writeBytes (m : Memory) (a : Word) : List Byte → Memory
  | [] => m
  | b :: bs => (m.write a b).writeBytes (a + 1) bs

/-- `n` bytes of `src` from address `a` upward copied to the same addresses of `dst`. -/
def Memory.copyFrom (dst src : Memory) (a : Word) : Nat → Memory
  | 0 => dst
  | n + 1 => (dst.write a (src.read a)).copyFrom src (a + 1) n

/-! ### Widths and byte order -/

/-- Bytes of an access (rule R42). -/
def Width.bytes : Width → Nat
  | .byte => 1
  | .half => 2
  | .word => 4

/-- A width's bytes as a word, the scale of the offset (rule R201). -/
def Width.scale (w : Width) : Word := BitVec.ofNat 32 w.bytes

/-- The address is a multiple of the access width (rule R43). -/
def Width.aligned (w : Width) (a : Word) : Bool := decide (a.toNat % w.bytes = 0)

/-- A code address is a multiple of 4 (rule R43). -/
def aligned4 (a : Word) : Bool := decide (a.toNat % 4 = 0)

/-- The half-word stored in two bytes, the first at the lowest address (rule R41). -/
def halfOfBytes (e : Endian) (b0 b1 : Byte) : BitVec 16 :=
  match e with
  | .big => b0 ++ b1
  | .little => b1 ++ b0

/-- The value of an access of width `w` at `a` in byte order `e` (rule R41), extended to 32 bits (rule R42). -/
def Memory.load (m : Memory) (e : Endian) (w : Width) (signed : Bool) (a : Word) : Word :=
  match w with
  | .byte => if signed then (m.read a).signExtend 32 else (m.read a).setWidth 32
  | .half =>
    let h := halfOfBytes e (m.read a) (m.read (a + 1))
    if signed then h.signExtend 32 else h.setWidth 32
  | .word => wordOfBytes e (m.read a) (m.read (a + 1)) (m.read (a + 2)) (m.read (a + 3))

/-- The bytes a store of width `w` writes in byte order `e`, lowest address first (rule R41): the low bits only
(rule R42). -/
def storeBytes (e : Endian) (w : Width) (v : Word) : List Byte :=
  match w with
  | .byte => [v.setWidth 8]
  | .half =>
    match e with
    | .big => [byteOfWord e v 2, byteOfWord e v 3]
    | .little => [byteOfWord e v 0, byteOfWord e v 1]
  | .word => [byteOfWord e v 0, byteOfWord e v 1, byteOfWord e v 2, byteOfWord e v 3]

/-- `m` after a store of width `w` at `a` in byte order `e`. -/
def Memory.store (m : Memory) (e : Endian) (w : Width) (a v : Word) : Memory := m.writeBytes a (storeBytes e w v)

/-! ### Areas (rule R40) -/

/-- The memory behind an area's own bytes. -/
def Mems.get (m : Mems) : Area → Memory
  | .mainMem => m.main
  | .stackCache => m.stack
  | .localMem => m.loc
  | .dataCache => m.data

/-- The memories with one of them replaced. -/
def Mems.set (m : Mems) (a : Area) (x : Memory) : Mems :=
  match a with
  | .mainMem => { m with main := x }
  | .stackCache => { m with stack := x }
  | .localMem => { m with loc := x }
  | .dataCache => { m with data := x }

/-- Whether an area has bytes of its own. -/
def ownArea (p : Params) : Area → Bool
  | .mainMem => true
  | .stackCache => p.stackCfg.own
  | .localMem => p.localCfg.own
  | .dataCache => p.dataCfg.own

/-- The memory whose bytes an area shows: its own or main memory's (rule R40; notes/assumptions/5.md). -/
def homeArea (p : Params) (a : Area) : Area := if ownArea p a then a else .mainMem

/-- The addresses that are backed for an area (rule R357). -/
def backedRegions (p : Params) (a : Area) : List Region :=
  match homeArea p a with
  | .mainMem => p.mainBacked
  | .stackCache => p.stackCfg.backed
  | .localMem => p.localCfg.backed
  | .dataCache => p.dataCfg.backed

/-- An address is backed. -/
def isBacked (rs : List Region) (a : Word) : Bool :=
  rs.any fun r => decide (r.base ≤ a.toNat) && decide (a.toNat < r.base + r.size)

/-- The first of `n` bytes from `a` upward, modulo `2^32`, that is not backed. The range of a method-cache transfer is
rounded up to blocks and may run past `2^32`; it is then tested at the wrapped addresses (notes/assumptions/30.md). -/
def firstUnbacked (rs : List Region) (a : Word) : Nat → Option Word
  | 0 => none
  | n + 1 => if isBacked rs a then firstUnbacked rs (a + 1) n else some a

/-- The memory an area reads and writes. -/
def State.areaMem (s : State) (a : Area) : Memory := s.mem.get (homeArea s.params a)

/-- One byte as an area shows it. -/
def State.readByte (s : State) (area : Area) (a : Word) : Byte := (s.areaMem area).read a

/-- The state with the memory of an area replaced. -/
def State.setAreaMem (s : State) (a : Area) (m : Memory) : State :=
  { s with mem := s.mem.set (homeArea s.params a) m }

/-! ### Calls of the memory collaborators -/

/-- What a collaborator call does: it raises a fault, it is not done and must be repeated, or it is done. -/
inductive Call (α : Type) where
  | raised (f : Fault)
  | busy (s : State)
  | done (v : α) (s : State)

/-- The next answer of the memory collaborators; `done` where none is given (rule R47). -/
def State.nextReply (s : State) : Reply := s.replies.headD .done

/-- The state after that answer has been drawn. -/
def State.dropReply (s : State) : State := { s with replies := s.replies.tail }

/-- The fault of a data access, tested before anything else (rules R43, R44, R240). Any byte of the access that is not
backed makes the whole access `Unmapped` at its own address (DESIGN CHOICE, notes/assumptions/29.md). -/
def accessFault (s : State) (area : Area) (w : Width) (a : Word) : Option Fault :=
  if w.aligned a then
    match firstUnbacked (backedRegions s.params area) a w.bytes with
    | some _ => some (.unmapped a s)
    | none => none
  else some (.unaligned a s)

/-- The answer to a data access that raises no fault of its own. Only the stack cache can answer `StackExceeded`
(rule R44). -/
def accessReply (s : State) (area : Area) : Call Unit :=
  match s.nextReply with
  | .busy => .busy s.dropReply
  | .exceeded v => if area = .stackCache then .raised (.stackExceeded v s.dropReply) else .done () s.dropReply
  | .done => .done () s.dropReply

/-- `MemRead(area, addr, n, signed)` (rule R44). -/
def memRead (s : State) (area : Area) (w : Width) (signed : Bool) (a : Word) : Call Word :=
  match accessFault s area w a with
  | some f => .raised f
  | none =>
    match accessReply s area with
    | .raised f => .raised f
    | .busy s' => .busy s'
    | .done _ s' => .done ((s'.areaMem area).load s'.params.endian w signed a) s'

/-- `MemWrite(area, addr, n, v)` (rule R45): the write happens exactly when the answer is `done`. -/
def memWrite (s : State) (area : Area) (w : Width) (a v : Word) : Call Unit :=
  match accessFault s area w a with
  | some f => .raised f
  | none =>
    match accessReply s area with
    | .raised f => .raised f
    | .busy s' => .busy s'
    | .done _ s' => .done () (s'.setAreaMem area ((s'.areaMem area).store s'.params.endian w a v))

/-- `Peek(addr, n)` (rule R46): main memory, always complete, no timing; the faults of a data access. -/
def peek (s : State) (w : Width) (a : Word) : Except Fault Word :=
  match accessFault s .mainMem w a with
  | some f => .error f
  | none => .ok (s.mem.main.load s.params.endian w false a)

/-- `Peek` of a word: instruction fetch and the size word (rule R46). -/
def peekWord (s : State) (a : Word) : Except Fault Word := peek s .word a

/-- Bytes put into main memory from outside the machine: how a program image is loaded (rule R32). -/
def State.poke (s : State) (a : Word) (bs : List Byte) : State :=
  { s with mem := { s.mem with main := s.mem.main.writeBytes a bs } }

/-- `Poke(addr, n, v)` (rule R46), the host's: no timing. Rule R46 and D21 name the faults of a misaligned or unmapped
address for `Peek` only; that `Poke` raises them too, where `State.poke` of a program image tests nothing, is this model's
choice (DESIGN CHOICE, notes/assumptions/28.md). -/
def pokeValue (s : State) (w : Width) (a v : Word) : Result :=
  match accessFault s .mainMem w a with
  | some f => .fault f
  | none => .next (s.poke a (storeBytes s.params.endian w v))

end Sys2Proof.Machine
end

