-- ==== Sys2Proof/Machine/MethodCache.lean ====
section
/-! DEFINITION. The method-cache controller (48_method_cache.md). It holds no code bytes: `fetch` reads main memory
through `Peek`, gated by the bounds of the active entry (rules R29, R330). -/

namespace Sys2Proof.Machine

open Sys2Proof.Config

/-- `blocks(size) = ceil(size / MC_BLOCK_BYTES)`, in unbounded naturals (rule R312). -/
def blocksOf (p : Params) (size : Nat) : Nat := (size + (p.mcBlockBytes - 1)) / p.mcBlockBytes

/-- The sum of blocks of the resident entries (rule R313). -/
def usedBlocks : List McEntry → Nat
  | [] => 0
  | e :: es => e.blocks + usedBlocks es

/-- The entry of a function, if it is resident. -/
def findEntry (es : List McEntry) (a : Word) : Option McEntry := es.find? fun e => decide (e.addr = a)

/-- The entries with that of `a` moved to the last position, the most recently used end (rule R317). -/
def moveToLast (es : List McEntry) (a : Word) : List McEntry :=
  (es.filter fun e => decide (e.addr ≠ a)) ++ es.filter fun e => decide (e.addr = a)

/-- There is no room for `n` more blocks in one more entry (rule R320). -/
def noRoom (p : Params) (n : Nat) (es : List McEntry) : Bool :=
  decide (p.mcNumBlocks < usedBlocks es + n) || decide (p.mcMaxEntries < es.length + 1)

/-- One eviction: position 0 goes; under `FIFO` a pinned active entry at position 0 is first swapped with its neighbour,
if it has one (rule R320, decision D20). -/
def evictOne (p : Params) (active : Word) : List McEntry → List McEntry
  | [] => []
  | [_] => []
  | e0 :: e1 :: es => if p.mcPolicy = .fifo ∧ e0.addr = active then e0 :: es else e1 :: es

/-- The loop of `evict_for(n)` (rule R320), at most `fuel` times: the entries left and how many went. -/
def evictLoop (p : Params) (active : Word) (n : Nat) : Nat → List McEntry → List McEntry × Nat
  | 0, es => (es, 0)
  | fuel + 1, es =>
    if noRoom p n es then
      let (es', k) := evictLoop p active n fuel (evictOne p active es)
      (es', k + 1)
    else (es, 0)

/-- `evict_for(n)` (rule R320). Every round removes an entry, so as many rounds as there are entries are enough. -/
def evictFor (p : Params) (active : Word) (n : Nat) (es : List McEntry) : List McEntry × Nat :=
  evictLoop p active n es.length es

/-- What one call of `ensure_resident` answers. -/
inductive Fill where
  | raised (f : Fault)
  | refused (r : Refusal)
  /-- The call returns false: the caller stalls. -/
  | wait (s : State)
  /-- The call returns true. -/
  | resident (s : State)

/-- The state with its method cache replaced. -/
def State.withMc (s : State) (m : MethodCache) : State := { s with mc := m }

/-- `Transfer` (rule R322): one request for the whole function, rounded to blocks, repeated until it is answered. -/
def fillTransfer (a : Word) (s : State) : Fill :=
  let n := s.mc.pending.blocks * s.params.mcBlockBytes
  let s' := s.dropReply
  if s.nextReply = .busy then .wait s'
  else
    match firstUnbacked s.params.mainBacked a n with
    | some u => .raised (.unmapped u s')
    | none =>
      .resident (s'.withMc { s'.mc with
        bytesTransferred := s'.mc.bytesTransferred + n, state := .idle, active := a })

/-- Inserting the entry once its size is known: evict, append, go on to `Transfer` (rules R318, R320, R321). -/
def admitEntry (a : Word) (size n : Nat) (s : State) : State :=
  let r := evictFor s.params s.mc.active n s.mc.entries
  s.withMc { s.mc with
    entries := r.1 ++ [⟨a, size, n, 0⟩], evictions := s.mc.evictions + r.2,
    pending := ⟨a, size, n⟩, state := .transfer }

/-- `SizeFetch` (rules R318, R319): the size word is read at `A - 4`; a function larger than the cache is never
admitted; one that runs past `2^32` is refused (rule R312). -/
def fillSize (a : Word) (s : State) : Fill :=
  let s' := s.dropReply
  if s.nextReply = .busy then .wait s'
  else
    match peekWord s' (a - 4) with
    | .error f => .raised f
    | .ok w =>
      let size := w.toNat
      let n := blocksOf s'.params size
      if s'.params.mcNumBlocks < n then .raised (.codeExceeded a size s')
      else if 4294967296 < a.toNat + size then .refused .functionWraps
      else fillTransfer a (admitEntry a size n s')

/-- A hit (rule R317): `LRU` reorders, `FIFO` does not; the entry becomes the active one. -/
def hitEntry (a : Word) (s : State) : State :=
  s.withMc { s.mc with
    hits := s.mc.hits + 1, active := a,
    entries := if s.params.mcPolicy = .lru then moveToLast s.mc.entries a else s.mc.entries }

/-- A miss, counted once, starts a fill (rule R316). -/
def missEntry (a : Word) (s : State) : State :=
  s.withMc { s.mc with
    misses := s.mc.misses + 1, state := .sizeFetch, pending := { s.mc.pending with address := a } }

/-- `ideal(A)` (rule R323). -/
def idealHit (a : Word) (s : State) : State := s.withMc { s.mc with hits := s.mc.hits + 1, active := a }

/-- `ensure_resident(A)` (rule R316). A call for another function while a fill is in progress cannot arise
(rule R324) and is refused. -/
def ensureResident (a : Word) (s : State) : Fill :=
  if s.params.mcPolicy = .ideal then .resident (idealHit a s)
  else
    match s.mc.state with
    | .idle => if (findEntry s.mc.entries a).isSome then .resident (hitEntry a s) else fillSize a (missEntry a s)
    | .sizeFetch => if s.mc.pending.address = a then fillSize a s else .refused .otherFillPending
    | .transfer => if s.mc.pending.address = a then fillTransfer a s else .refused .otherFillPending

/-- A word of the function at `addr` marked as read, if the function has it (rules R313, R330: diagnostic only). -/
def markWord (p : Params) (e : McEntry) (a : Word) : McEntry :=
  let k := (a.toNat - e.addr.toNat) / 4
  if e.addr.toNat ≤ a.toNat ∧ a.toNat < e.addr.toNat + e.blocks * p.mcBlockBytes then
    { e with util := e.util ||| 1 <<< k }
  else e

/-- The two words at `pc` marked in the active entry. -/
def markRead (pc : Word) (s : State) : State :=
  s.withMc { s.mc with
    entries := s.mc.entries.map fun e =>
      if e.addr = s.mc.active then markWord s.params (markWord s.params e pc) (pc + 4) else e }

/-- `PC` lies within the bounds of the active entry, slack included; the comparison is in unbounded naturals
(rule R330). Under `IDEAL` there is no such test. Address 0, where a fetch that has wrapped past `0xFFFFFFFF` comes to stand,
is outside every bounds (rule R20; notes/assumptions/32.md). -/
def fetchInBounds (s : State) (pc : Word) : Bool :=
  decide (pc ≠ 0) &&
    if s.params.mcPolicy = .ideal then true
    else
      match findEntry s.mc.entries s.mc.active with
      | none => false
      | some e =>
        decide (e.addr.toNat ≤ pc.toNat) &&
          decide (pc.toNat < e.addr.toNat + e.blocks * s.params.mcBlockBytes + s.params.mcFetchSlack)

/-- The bytes of the bundle whose first word is `w0`: bit 31 tells (rule R62). -/
def bundleBytes (w0 : Word) : Nat := if bitAt w0 31 then 8 else 4

/-- A bundle at `pc` with first word `w0` would run past `0xFFFFFFFF`: its fetch is outside every bounds (rule R20, decision
D31). -/
def fetchWraps (pc w0 : Word) : Bool := decide (4294967296 < pc.toNat + bundleBytes w0)

/-- `fetch(PC)` (rule R330): two words, timing-free, and the state with their use noted. A fetch that would wrap past
`0xFFFFFFFF` raises `IllegalPC` (rule R20); how many bytes the bundle has is known when its first word is read, and the test
stands there (DEDUCED, notes/assumptions/32.md). -/
def mcFetch (s : State) (pc : Word) : Except Fault (Word × Word × State) :=
  if aligned4 pc then
    if fetchInBounds s pc then
      match peekWord s pc with
      | .error f => .error f
      | .ok w0 =>
        if fetchWraps pc w0 then .error (.illegalPC pc s)
        else
          match peekWord s (pc + 4) with
          | .error f => .error f
          | .ok w1 => .ok (w0, w1, markRead pc s)
    else .error (.illegalPC pc s)
  else .error (.unaligned pc s)

/-- `tick()` (rule R334). -/
def mcTick (s : State) : State :=
  if s.mc.state = .idle then s else s.withMc { s.mc with stallCycles := s.mc.stallCycles + 1 }

/-- A store of `n` bytes at `a` touches a byte of a resident function, the range from its address to its address plus its
size (rules R54, R312). Under `IDEAL` no size is known, and nothing is found. -/
def touchesCode (s : State) (a : Word) (n : Nat) : Bool :=
  decide (s.params.mcPolicy ≠ .ideal) &&
    s.mc.entries.any fun e =>
      decide (0 < e.sizeBytes) && decide (a.toNat < e.addr.toNat + e.sizeBytes) && decide (e.addr.toNat < a.toNat + n)

/-! ### Operations of the host (rule R310): no step calls them -/

/-- `is_resident(A)` (rule R331): a pure query. -/
def isResident (s : State) (a : Word) : Bool :=
  decide (s.params.mcPolicy = .ideal) ||
    ((findEntry s.mc.entries a).isSome && !(decide (s.mc.state = .transfer) && decide (s.mc.pending.address = a)))

/-- `active_entry_base()` (rule R332). -/
def activeEntryBase (s : State) : Word := s.mc.active

/-- `flush()` (rule R333): only the active entry stays; callable only when no fill is in progress. Where there is no active
entry, as under `IDEAL`, whose entry list is empty, nothing is kept and what was there counts as evicted: under `IDEAL`
nothing changes. The rule says nothing of a call while a fill is in progress; this model's then changes nothing (DESIGN
CHOICE for both, notes/assumptions/24.md). -/
def mcFlush (s : State) : State :=
  if s.mc.state = .idle then
    let kept := s.mc.entries.filter fun e => decide (e.addr = s.mc.active)
    s.withMc { s.mc with
      entries := kept, evictions := s.mc.evictions + (s.mc.entries.length - kept.length) }
  else s

/-- The start of a run after a program is loaded (rule R382): the function at `ENTRY` is made resident without time
and without a counter, and the program-counter group is set to it (rule R380). Rule R382 gives its ends no order; this model tests `ENTRY = 0`,
then alignment, then reads the size word and tests `CodeExceeded`, then the refusal of rule R312 (DESIGN CHOICE,
notes/assumptions/33.md). -/
def boot (s : State) : Result :=
  let e := s.params.entry
  let s1 := { s with base := e, pc := e, npc := e }
  if e = 0 then .fault (.halt 0 s1)
  else if !aligned4 e then .fault (.unaligned e s1)
  else if s.params.mcPolicy = .ideal then .next (s1.withMc { s1.mc with state := .idle, entries := [], active := e })
  else
    match peekWord s1 (e - 4) with
    | .error f => .fault f
    | .ok w =>
      let n := blocksOf s.params w.toNat
      if s.params.mcNumBlocks < n then .fault (.codeExceeded e w.toNat s1)
      else if 4294967296 < e.toNat + w.toNat then .refused .functionWraps
      else .next (s1.withMc { s1.mc with state := .idle, entries := [⟨e, w.toNat, n, 0⟩], active := e })

end Sys2Proof.Machine
end

