-- ==== Sys2Proof/Machine/Ops.lean ====
section
/-! DEFINITION. The named operations over registers, slots and the pipeline (40_pipeline_engine.md), the two dispatch
sequences of 47_control_flow.md, and on top of them TAKING AN EXCEPTION (`takeException`: trap and interrupt entry) and
RETURNING FROM ONE (`returnFromException`).

A meaning `exec… operands s` is ONE invocation of a stage operation of its instruction (rule R103): which stage and which
slot stands in `s.cur`, set by the driver of rule R100. -/

namespace Sys2Proof.Machine

open Sys2Proof.Config

/-! ### The three register files -/

/-- `r[i]`: `r0` reads 0 (rule R11). -/
def State.readGpr (s : State) (i : Reg) : Word := if i = 0 then 0 else s.gpr[i.toNat]'(i.isLt)

/-- `r[i] <- v`: a write of `r0` is discarded (rule R11). -/
def State.writeGpr (s : State) (i : Reg) (v : Word) : State :=
  { s with gpr := if i = 0 then s.gpr else s.gpr.set i.toNat v i.isLt }

/-- `p[i]`: `p0` reads true (rule R13). -/
def State.readPred (s : State) (i : PReg) : Bool := if i = 0 then true else s.preds[i.toNat]'(i.isLt)

/-- `p[i] <- b`, an ordinary write: one of `p0` is discarded (rule R13). -/
def State.writePred (s : State) (i : PReg) (b : Bool) : State :=
  { s with preds := if i = 0 then s.preds else s.preds.set i.toNat b i.isLt }

/-- The value of a predicate operand, `p[idx] ^ neg` (rule R15). -/
def State.predRef (s : State) (g : PredRef) : Bool := s.readPred g.idx ^^ g.neg

/-- `s[i]`, the register's own storage (rule R16). -/
def State.readSpr (s : State) (i : SReg) : Word := s.spr[i.toNat]'(i.isLt)

/-- `s[i] <- v` (rule R16). -/
def State.writeSpr (s : State) (i : SReg) (v : Word) : State :=
  { s with spr := s.spr.set i.toNat v i.isLt }

/-! ### Slots and stages -/

/-- The slots of a stage. -/
def Pipe.get (p : Pipe) : Stage → Bundle
  | .IF => p.fetch
  | .DR => p.dr
  | .EX => p.ex
  | .MW => p.mw

/-- The pipeline with the slots of a stage replaced. -/
def Pipe.set (p : Pipe) (st : Stage) (b : Bundle) : Pipe :=
  match st with
  | .IF => { p with fetch := b }
  | .DR => { p with dr := b }
  | .EX => { p with ex := b }
  | .MW => { p with mw := b }

/-- One slot of a stage. -/
def Bundle.get (b : Bundle) : SlotIx → Slot
  | .s0 => b.s0
  | .s1 => b.s1

/-- A stage's slots with one replaced. -/
def Bundle.set (b : Bundle) (k : SlotIx) (x : Slot) : Bundle :=
  match k with
  | .s0 => { b with s0 := x }
  | .s1 => { b with s1 := x }

/-- `pipe[stage][k]` (rule R22). -/
def State.slotAt (s : State) (st : Stage) (k : SlotIx) : Slot := (s.pipe.get st).get k

/-- The slot being invoked. -/
def State.slot (s : State) : Slot := s.slotAt s.cur.stage s.cur.k

/-- The slot being invoked, replaced. -/
def State.setSlot (s : State) (x : Slot) : State :=
  { s with pipe := s.pipe.set s.cur.stage ((s.pipe.get s.cur.stage).set s.cur.k x) }

/-- The driver's loop variables set to a slot (rule R100). -/
def State.atSlot (s : State) (st : Stage) (k : SlotIx) : State := { s with cur := ⟨st, k⟩ }

/-- One stage operation: the body of the stage in `s.cur`. `fetch_stage` does nothing for every class (rule R100). -/
def stageOp (decode execute commit : State → Result) (s : State) : Result :=
  match s.cur.stage with
  | .IF => .next s
  | .DR => decode s
  | .EX => execute s
  | .MW => commit s

/-! ### Stall and flush -/

/-- Stages numbered upstream to downstream (rule R8). -/
def Stage.rank : Stage → Nat
  | .IF => 0
  | .DR => 1
  | .EX => 2
  | .MW => 3

/-- `stall(stage)`: the more downstream of the stalls of this cycle stands (rule R117). -/
def State.stall (s : State) (st : Stage) : State :=
  { s with stallReq :=
      match s.stallReq with
      | none => some st
      | some old => if old.rank < st.rank then some st else some old }

/-- The pipeline with every slot upstream of a stage turned into `BUBBLE` (rule R121). -/
def Pipe.flush (p : Pipe) : Stage → Pipe
  | .IF => p
  | .DR => { p with fetch := Bundle.empty }
  | .EX => { p with fetch := Bundle.empty, dr := Bundle.empty }
  | .MW => { p with fetch := Bundle.empty, dr := Bundle.empty, ex := Bundle.empty }

/-- `flush(stage)` (rule R121). -/
def State.flushUpstream (s : State) (st : Stage) : State := { s with pipe := s.pipe.flush st }

/-- A slot marked as standing in a delay slot of a taken delayed transfer (rule R301). -/
def Slot.markDelay (x : Slot) : Slot := { x with inDelay := true }

/-- Both slots of a stage so marked. -/
def Bundle.markDelay (b : Bundle) : Bundle := ⟨b.s0.markDelay, b.s1.markDelay⟩

/-- A stage's slots so marked when `b`. -/
def Bundle.markDelayIf (x : Bundle) (b : Bool) : Bundle := if b then x.markDelay else x

/-- The pipeline with the `n` bundles next upstream of a stage so marked. -/
def Pipe.markDelay (p : Pipe) (n : Nat) : Stage → Pipe
  | .IF => p
  | .DR => { p with fetch := p.fetch.markDelayIf (decide (1 ≤ n)) }
  | .EX => { p with dr := p.dr.markDelayIf (decide (1 ≤ n)), fetch := p.fetch.markDelayIf (decide (2 ≤ n)) }
  | .MW =>
    { p with
      ex := p.ex.markDelayIf (decide (1 ≤ n))
      dr := p.dr.markDelayIf (decide (2 ≤ n))
      fetch := p.fetch.markDelayIf (decide (3 ≤ n)) }

/-- The delay slots of a delayed transfer that takes effect in `stage`: the `n` bundles behind it, all of which have been
fetched by then (rules R301, R395). -/
def State.markDelaySlots (s : State) (n : Nat) (st : Stage) : State := { s with pipe := s.pipe.markDelay n st }

/-! ### The bypass network (rules R110 to R114) -/

/-- `publish(slot, i, v)` (rule R110). -/
def Slot.publish (x : Slot) (i : Reg) (v : Word) : Slot :=
  { x with byp := if x.pred && decide (i ≠ 0) then some ⟨.EXE, i, v⟩ else none }

/-- `republish(slot, i, v)` (rule R111). -/
def Slot.republish (x : Slot) (i : Reg) (v : Word) : Slot :=
  { x with byp := if i ≠ 0 then some ⟨.MEM, i, v⟩ else none }

/-- The slot's entry, if it was published with this tag. -/
def Slot.entryOf (x : Slot) (t : BypTag) : List BypEntry :=
  match x.byp with
  | some e => if e.tag = t then [e] else []
  | none => []

/-- The network as an ordered list, consulted newest first: the `MEM` entries of `pipe[MW]`, then its `EXE` entries,
slot 1 before slot 0 (rules R112, R114). -/
def State.bypassList (s : State) : List BypEntry :=
  s.pipe.mw.s1.entryOf .MEM ++ s.pipe.mw.s0.entryOf .MEM ++ s.pipe.mw.s1.entryOf .EXE ++ s.pipe.mw.s0.entryOf .EXE

/-- `byp(slot, i)`, with `dr` the value that `decode_stage` stored for the operand (rule R112). -/
def State.operand (s : State) (i : Reg) (dr : Word) : Word :=
  if i = 0 then 0
  else
    match s.bypassList.find? fun e => decide (e.index = i) with
    | some e => e.value
    | none => dr

/-! ### `LOAD_USE_GAP` (rules R242, R393): nothing is kept, and nothing refused, with the default gap 0 -/

/-- Register `i` was loaded with fewer than `LOAD_USE_GAP` bundles between. -/
def State.tooSoon (s : State) (i : Reg) : Bool :=
  s.loadHist.any fun h => decide (h.1 = i) && decide (h.2 < s.params.loadUseGap)

/-- A write of register `i`: by a load it starts the gap, by anything else it ends it. -/
def State.noteWrite (s : State) (i : Reg) (isLoad : Bool) : State :=
  let kept := s.loadHist.filter fun h => decide (h.1 ≠ i)
  { s with loadHist := if isLoad && decide (i ≠ 0) && decide (0 < s.params.loadUseGap) then (i, 0) :: kept else kept }

/-- One more bundle of the program has followed every load. -/
def State.ageLoads (s : State) : State :=
  { s with loadHist :=
      (s.loadHist.map fun h => (h.1, h.2 + 1)).filter fun h => decide (h.2 < s.params.loadUseGap) }

/-! ### Shapes of stage bodies -/

/-- `decode_stage` (rule R104): the guard is resolved and the class's reads are stored; nothing else changes. -/
def decodeSlot (g : PredRef) (reads : State → Slot → Slot) (s : State) : Result :=
  .next (s.setSlot (reads s { s.slot with pred := s.predRef g }))

/-- `execute_stage` under its guard (rules R106, R107): `srcs` are the general registers the body reads. -/
def executeSlot (srcs : List Reg) (body : State → Result) (s : State) : Result :=
  if s.slot.pred then (if srcs.any s.tooSoon then .refused .loadUseGap else body s) else .next s

/-- `commit_stage` under its guard and the discard flag (rules R106, R108, R109). -/
def commitSlot (body : State → Result) (s : State) : Result :=
  if s.slot.pred && !s.slot.discard then body s else .next s

/-- `slot.discard <- 1`. -/
def State.done (s : State) : State := s.setSlot { s.slot with discard := true }

/-- The commit of a general result (rules R108, R111): the register is written, the entry re-published, the slot
discarded. -/
def State.commitGpr (s : State) (rd : Reg) (v : Word) (isLoad : Bool) : State :=
  let s1 := (s.writeGpr rd v).noteWrite rd isLoad
  s1.setSlot { s1.slot.republish rd v with discard := true }

/-- `commit_stage` of a single-cycle class with a general destination (rule R108). -/
def commitResult (rd : Reg) (s : State) : Result :=
  commitSlot (fun s => .next (s.commitGpr rd s.slot.exResult false)) s

/-- A stage body that does nothing. -/
def noEffect (s : State) : Result := .next s

/-! ### Faults of a control transfer (rules R272, R273, R358) -/

/-- `Halt` with the committed value of `EXIT_REG` (rule R358). That this read counts as no use of a load's register for
`LOAD_USE_GAP` is this model's choice (DESIGN CHOICE, notes/assumptions/11.md). -/
def haltFault (s : State) : Fault := .halt (s.readGpr s.params.exitReg) s

/-- How a transfer dispatched in `MW` differs from the others (rule R265). -/
structure Transfer where
  /-- The delayed flag; `trap` and `INTR` are never delayed (rule R269). -/
  delayed : Bool
  /-- The pair (base, offset) that receives the return address (rule R274). -/
  saves : Option (SReg × SReg)
  /-- A return: it pops a frame and has its own rule for address 0 (rules R272, R275). -/
  isReturn : Bool
  /-- Switches interrupt acceptance off in the one-time block (rule R283). -/
  switchesOff : Bool
  /-- Switches interrupt acceptance on at completion (rule R291). -/
  switchesOn : Bool

/-- `check_target(slot)` (rules R272, R273), in the order of rule R359: address 0 before alignment. -/
def checkTarget (t : Transfer) (s : State) : Option Fault :=
  let x := s.slot
  if x.exBase = 0 then
    if t.isReturn then (if x.drSsOff = 0 then some (haltFault s) else some (.illegalPC x.drSsOff s))
    else some (haltFault s)
  else if !aligned4 x.exTarget then some (.unaligned x.exTarget s)
  else if !aligned4 x.exBase then some (.unaligned x.exBase s)
  else none

/-- `return_address(slot)` (rule R274). -/
def returnAddress (t : Transfer) (s : State) : Word := if t.delayed then s.npc else s.slot.next

/-- Interrupt acceptance switched (rule R362). -/
def State.setIntrEnabled (s : State) (b : Bool) : State := { s with exc := { s.exc with intrEnabled := b } }

/-- A frame pushed and the profiling collector told (rule R275). -/
def State.pushFrame (s : State) (f : Frame) : State :=
  { s with frames := f :: s.frames, profile := .entry f.callee :: s.profile }

/-- A frame popped, nothing from an empty stack, and the profiling collector told (rules R27, R275). -/
def State.popFrame (s : State) : State := { s with frames := s.frames.tail, profile := .exit :: s.profile }

/-- Saving the return address and pushing the frame (rules R274, R275). -/
def saveReturn (t : Transfer) (s : State) : State :=
  match t.saves with
  | some (rb, ro) =>
    let off := returnAddress t s - s.slot.base
    ((s.writeSpr rb s.slot.base).writeSpr ro off).pushFrame ⟨s.slot.base, off, s.slot.exBase⟩
  | none => if t.isReturn then s.popFrame else s

/-- Steps 2 and 3 of the dispatch, exactly once, guarded by `initialized` (rule R268). -/
def transferOnce (t : Transfer) (s : State) : State :=
  if s.slot.initialized then s
  else
    let s1 := saveReturn t s
    let s2 := if t.switchesOff then s1.setIntrEnabled false else s1
    s2.setSlot { s2.slot with initialized := true }

/-- `BASE` and `nPC` set (rule R270). -/
def State.setControl (s : State) (b t : Word) : State := { s with base := b, npc := t }

/-- The completion of a transfer in `MW` (rules R268, R270, R291). -/
def completeTransfer (t : Transfer) (s : State) : State :=
  let s1 := s.setControl s.slot.exBase s.slot.exTarget
  let s2 := if t.switchesOn then s1.setIntrEnabled true else s1
  let s3 := s2.done
  if t.delayed then s3.markDelaySlots s.params.dsCall .MW else s3

/-- The dispatch sequence in `MW` (rule R268). -/
def dispatchMW (t : Transfer) (s : State) : Result :=
  let s1 := if t.delayed then s else s.flushUpstream .MW
  match checkTarget t s1 with
  | some f => .fault f
  | none =>
    let s2 := transferOnce t s1
    match ensureResident s2.slot.exBase s2 with
    | .raised f => .fault f
    | .refused r => .refused r
    | .wait s3 => .next (s3.stall .MW)
    | .resident s3 => .next (completeTransfer t s3)

/-- The completion of a local branch in `EX` (rules R267, R271). -/
def completeBranch (delayed : Bool) (target : Word) (s : State) : State :=
  let s1 := s.setControl s.base target
  let s2 := if delayed then s1.markDelaySlots s.params.dsBranch .EX else s1.flushUpstream .EX
  s2.done

/-- The dispatch of `br` and `brr` in `EX` (rules R266, R267): it waits while an older instruction stalls `MW`. -/
def dispatchEX (delayed : Bool) (target : Word) (s : State) : Result :=
  if s.slot.discard || decide (s.stallReq = some .MW) then .next s
  else if target = 0 then .fault (haltFault s)
  else if !aligned4 target then .fault (.unaligned target s)
  else .next (completeBranch delayed target s)

/-! ### Exceptions -/

/-- TAKING AN EXCEPTION: trap entry and interrupt entry (rules R283, R296, R366, R367). A non-delayed transfer to the
handler in `slot.exBase`: the three younger bundles are flushed, `SXB <- slot.base`, `SXO <- slot.next - slot.base`, a
frame is pushed, interrupt acceptance is switched off (by the trap; for an interrupt the injection did it), and once the
handler is resident `BASE` and `nPC` are its address. -/
def takeException (switchesOff : Bool) (s : State) : Result :=
  dispatchMW ⟨false, some (s.params.sxb, s.params.sxo), false, switchesOff, false⟩ s

/-- RETURNING FROM AN EXCEPTION: `xret` (rules R291, R368). A transfer to (`SXB`, `SXB + SXO`) that switches interrupt
acceptance on exactly once, at its completion, before the next fetch. -/
def returnFromException (delayed : Bool) (s : State) : Result :=
  dispatchMW ⟨delayed, none, true, false, true⟩ s

end Sys2Proof.Machine
end

