-- ==== Sys2Proof/Machine/Operands.lean ====
section
/-! DEFINITION. Operand forms: the second operand of arithmetic and compare (rules R140, R165), immediates (rule R85),
the effective address (rule R201), branch and call targets (rules R280, R281), sizes of stack control (rule R250), and
the destinations of every instruction (rules R113, R397). -/

namespace Sys2Proof.Machine

open Sys2Proof.Config

/-- The second operand of a two-operand instruction: a register, or an immediate already extended to 32 bits. -/
inductive Op2 where
  | reg (i : Reg)
  | imm (v : Word)
deriving DecidableEq, Repr

/-- `zext_N` of an unsigned immediate (rule R85). -/
def zextImm (v : Nat) : Word := BitVec.ofNat 32 v

/-- A signed immediate as a 32-bit pattern (rule R85). -/
def sextImm (v : Int) : Word := BitVec.ofInt 32 v

/-- What `decode_stage` stores for the second operand: the committed register or the immediate (rule R104). -/
def Op2.decodeRead (o : Op2) (s : State) : Word :=
  match o with
  | .reg i => s.readGpr i
  | .imm v => v

/-- What `execute_stage` reads: the register through the bypass network, or the immediate `decode_stage` stored
(rules R107, R140). -/
def Op2.value (o : Op2) (s : State) : Word :=
  match o with
  | .reg i => s.operand i s.slot.drRs2
  | .imm _ => s.slot.drRs2

/-- The general registers an operand reads in `execute_stage`. -/
def Op2.srcs : Op2 → List Reg
  | .reg i => [i]
  | .imm _ => []

/-- The first operand, through the bypass network. -/
def State.rs1 (s : State) (i : Reg) : Word := s.operand i s.slot.drRs1

/-- The second register operand, through the bypass network. -/
def State.rs2 (s : State) (i : Reg) : Word := s.operand i s.slot.drRs2

/-- `ea(a, imm7, n)`: base plus scaled signed offset, modulo `2^32` (rule R201). -/
def effAddr (a : Word) (imm : Int) (w : Width) : Word := a + sextImm imm * w.scale

/-- The address of a function named by a word-count immediate: absolute, times 4 (rules R280, R282). -/
def absTarget (imm : Nat) : Word := zextImm imm * 4

/-- The target of `br`: relative to the branch's own address, in words (rule R281). -/
def relTarget (addr : Word) (imm : Int) : Word := addr + sextImm imm * 4

/-- The size of an immediate stack-control operation in bytes: words times 4 (rule R250). -/
def stackBytes (imm : Nat) : Word := zextImm imm * 4

/-- The general register an instruction writes when its guard is true, if it has one (rules R12, R113). -/
def destGpr : Instr → Option Reg
  | .addI _ rd _ _ => some rd
  | .subI _ rd _ _ => some rd
  | .xorI _ rd _ _ => some rd
  | .slI _ rd _ _ => some rd
  | .srI _ rd _ _ => some rd
  | .sraI _ rd _ _ => some rd
  | .orI _ rd _ _ => some rd
  | .andI _ rd _ _ => some rd
  | .addR _ rd _ _ => some rd
  | .subR _ rd _ _ => some rd
  | .xorR _ rd _ _ => some rd
  | .slR _ rd _ _ => some rd
  | .srR _ rd _ _ => some rd
  | .sraR _ rd _ _ => some rd
  | .orR _ rd _ _ => some rd
  | .andR _ rd _ _ => some rd
  | .norR _ rd _ _ => some rd
  | .shaddR _ rd _ _ => some rd
  | .shadd2R _ rd _ _ => some rd
  | .addL _ rd _ _ => some rd
  | .subL _ rd _ _ => some rd
  | .xorL _ rd _ _ => some rd
  | .slL _ rd _ _ => some rd
  | .srL _ rd _ _ => some rd
  | .sraL _ rd _ _ => some rd
  | .orL _ rd _ _ => some rd
  | .andL _ rd _ _ => some rd
  | .norL _ rd _ _ => some rd
  | .shaddL _ rd _ _ => some rd
  | .shadd2L _ rd _ _ => some rd
  | .mul _ _ _ => none
  | .mulu _ _ _ => none
  | .cmpeqR _ _ _ _ => none
  | .cmpneqR _ _ _ _ => none
  | .cmpltR _ _ _ _ => none
  | .cmpleR _ _ _ _ => none
  | .cmpultR _ _ _ _ => none
  | .cmpuleR _ _ _ _ => none
  | .btestR _ _ _ _ => none
  | .cmpeqI _ _ _ _ => none
  | .cmpneqI _ _ _ _ => none
  | .cmpltI _ _ _ _ => none
  | .cmpleI _ _ _ _ => none
  | .cmpultI _ _ _ _ => none
  | .cmpuleI _ _ _ _ => none
  | .btestI _ _ _ _ => none
  | .por _ _ _ _ => none
  | .pand _ _ _ _ => none
  | .pxor _ _ _ _ => none
  | .bcopy _ rd _ _ _ => some rd
  | .mts _ _ _ => none
  | .mfs _ rd _ => some rd
  | .lws _ rd _ _ => some rd
  | .lwl _ rd _ _ => some rd
  | .lwc _ rd _ _ => some rd
  | .lwm _ rd _ _ => some rd
  | .lhs _ rd _ _ => some rd
  | .lhl _ rd _ _ => some rd
  | .lhc _ rd _ _ => some rd
  | .lhm _ rd _ _ => some rd
  | .lbs _ rd _ _ => some rd
  | .lbl _ rd _ _ => some rd
  | .lbc _ rd _ _ => some rd
  | .lbm _ rd _ _ => some rd
  | .lhus _ rd _ _ => some rd
  | .lhul _ rd _ _ => some rd
  | .lhuc _ rd _ _ => some rd
  | .lhum _ rd _ _ => some rd
  | .lbus _ rd _ _ => some rd
  | .lbul _ rd _ _ => some rd
  | .lbuc _ rd _ _ => some rd
  | .lbum _ rd _ _ => some rd
  | .sws _ _ _ _ => none
  | .swl _ _ _ _ => none
  | .swc _ _ _ _ => none
  | .swm _ _ _ _ => none
  | .shs _ _ _ _ => none
  | .shl _ _ _ _ => none
  | .shc _ _ _ _ => none
  | .shm _ _ _ _ => none
  | .sbs _ _ _ _ => none
  | .sbl _ _ _ _ => none
  | .sbc _ _ _ _ => none
  | .sbm _ _ _ _ => none
  | .sresI _ _ => none
  | .sensI _ _ => none
  | .sfreeI _ _ => none
  | .sspillI _ _ => none
  | .sensR _ _ => none
  | .sspillR _ _ => none
  | .call _ _ _ => none
  | .br _ _ _ => none
  | .brcf _ _ _ => none
  | .trap _ _ => none
  | .ret _ _ => none
  | .xret _ _ => none
  | .callr _ _ _ => none
  | .brr _ _ _ => none
  | .brcfr _ _ _ => none
  | .brcfrPair _ _ _ _ => none

/-- A special-register address that aliases the predicate file: index `SPR_PRED`, and `SPR_PRED_ALIAS2` where it is set
(rules R17, R195). -/
def isPredAlias (p : Params) (i : SReg) : Bool := decide (i = p.sprPred) || decide (p.predAlias2 = some i)

/-- The predicate register an instruction writes in `execute_stage` when its guard is true, if it has one
(rules R14, R397). -/
def destPred : Instr → Option PReg
  | .addI _ _ _ _ => none
  | .subI _ _ _ _ => none
  | .xorI _ _ _ _ => none
  | .slI _ _ _ _ => none
  | .srI _ _ _ _ => none
  | .sraI _ _ _ _ => none
  | .orI _ _ _ _ => none
  | .andI _ _ _ _ => none
  | .addR _ _ _ _ => none
  | .subR _ _ _ _ => none
  | .xorR _ _ _ _ => none
  | .slR _ _ _ _ => none
  | .srR _ _ _ _ => none
  | .sraR _ _ _ _ => none
  | .orR _ _ _ _ => none
  | .andR _ _ _ _ => none
  | .norR _ _ _ _ => none
  | .shaddR _ _ _ _ => none
  | .shadd2R _ _ _ _ => none
  | .addL _ _ _ _ => none
  | .subL _ _ _ _ => none
  | .xorL _ _ _ _ => none
  | .slL _ _ _ _ => none
  | .srL _ _ _ _ => none
  | .sraL _ _ _ _ => none
  | .orL _ _ _ _ => none
  | .andL _ _ _ _ => none
  | .norL _ _ _ _ => none
  | .shaddL _ _ _ _ => none
  | .shadd2L _ _ _ _ => none
  | .mul _ _ _ => none
  | .mulu _ _ _ => none
  | .cmpeqR _ pd _ _ => some pd
  | .cmpneqR _ pd _ _ => some pd
  | .cmpltR _ pd _ _ => some pd
  | .cmpleR _ pd _ _ => some pd
  | .cmpultR _ pd _ _ => some pd
  | .cmpuleR _ pd _ _ => some pd
  | .btestR _ pd _ _ => some pd
  | .cmpeqI _ pd _ _ => some pd
  | .cmpneqI _ pd _ _ => some pd
  | .cmpltI _ pd _ _ => some pd
  | .cmpleI _ pd _ _ => some pd
  | .cmpultI _ pd _ _ => some pd
  | .cmpuleI _ pd _ _ => some pd
  | .btestI _ pd _ _ => some pd
  | .por _ pd _ _ => some pd
  | .pand _ pd _ _ => some pd
  | .pxor _ pd _ _ => some pd
  | .bcopy _ _ _ _ _ => none
  | .mts _ _ _ => none
  | .mfs _ _ _ => none
  | .lws _ _ _ _ => none
  | .lwl _ _ _ _ => none
  | .lwc _ _ _ _ => none
  | .lwm _ _ _ _ => none
  | .lhs _ _ _ _ => none
  | .lhl _ _ _ _ => none
  | .lhc _ _ _ _ => none
  | .lhm _ _ _ _ => none
  | .lbs _ _ _ _ => none
  | .lbl _ _ _ _ => none
  | .lbc _ _ _ _ => none
  | .lbm _ _ _ _ => none
  | .lhus _ _ _ _ => none
  | .lhul _ _ _ _ => none
  | .lhuc _ _ _ _ => none
  | .lhum _ _ _ _ => none
  | .lbus _ _ _ _ => none
  | .lbul _ _ _ _ => none
  | .lbuc _ _ _ _ => none
  | .lbum _ _ _ _ => none
  | .sws _ _ _ _ => none
  | .swl _ _ _ _ => none
  | .swc _ _ _ _ => none
  | .swm _ _ _ _ => none
  | .shs _ _ _ _ => none
  | .shl _ _ _ _ => none
  | .shc _ _ _ _ => none
  | .shm _ _ _ _ => none
  | .sbs _ _ _ _ => none
  | .sbl _ _ _ _ => none
  | .sbc _ _ _ _ => none
  | .sbm _ _ _ _ => none
  | .sresI _ _ => none
  | .sensI _ _ => none
  | .sfreeI _ _ => none
  | .sspillI _ _ => none
  | .sensR _ _ => none
  | .sspillR _ _ => none
  | .call _ _ _ => none
  | .br _ _ _ => none
  | .brcf _ _ _ => none
  | .trap _ _ => none
  | .ret _ _ => none
  | .xret _ _ => none
  | .callr _ _ _ => none
  | .brr _ _ _ => none
  | .brcfr _ _ _ => none
  | .brcfrPair _ _ _ _ => none

/-- The guard of a control-transfer instruction and whether it dispatches in `EX`; none for every other instruction
(rule R265). -/
def transferOf : Instr → Option (PredRef × Bool)
  | .addI _ _ _ _ => none
  | .subI _ _ _ _ => none
  | .xorI _ _ _ _ => none
  | .slI _ _ _ _ => none
  | .srI _ _ _ _ => none
  | .sraI _ _ _ _ => none
  | .orI _ _ _ _ => none
  | .andI _ _ _ _ => none
  | .addR _ _ _ _ => none
  | .subR _ _ _ _ => none
  | .xorR _ _ _ _ => none
  | .slR _ _ _ _ => none
  | .srR _ _ _ _ => none
  | .sraR _ _ _ _ => none
  | .orR _ _ _ _ => none
  | .andR _ _ _ _ => none
  | .norR _ _ _ _ => none
  | .shaddR _ _ _ _ => none
  | .shadd2R _ _ _ _ => none
  | .addL _ _ _ _ => none
  | .subL _ _ _ _ => none
  | .xorL _ _ _ _ => none
  | .slL _ _ _ _ => none
  | .srL _ _ _ _ => none
  | .sraL _ _ _ _ => none
  | .orL _ _ _ _ => none
  | .andL _ _ _ _ => none
  | .norL _ _ _ _ => none
  | .shaddL _ _ _ _ => none
  | .shadd2L _ _ _ _ => none
  | .mul _ _ _ => none
  | .mulu _ _ _ => none
  | .cmpeqR _ _ _ _ => none
  | .cmpneqR _ _ _ _ => none
  | .cmpltR _ _ _ _ => none
  | .cmpleR _ _ _ _ => none
  | .cmpultR _ _ _ _ => none
  | .cmpuleR _ _ _ _ => none
  | .btestR _ _ _ _ => none
  | .cmpeqI _ _ _ _ => none
  | .cmpneqI _ _ _ _ => none
  | .cmpltI _ _ _ _ => none
  | .cmpleI _ _ _ _ => none
  | .cmpultI _ _ _ _ => none
  | .cmpuleI _ _ _ _ => none
  | .btestI _ _ _ _ => none
  | .por _ _ _ _ => none
  | .pand _ _ _ _ => none
  | .pxor _ _ _ _ => none
  | .bcopy _ _ _ _ _ => none
  | .mts _ _ _ => none
  | .mfs _ _ _ => none
  | .lws _ _ _ _ => none
  | .lwl _ _ _ _ => none
  | .lwc _ _ _ _ => none
  | .lwm _ _ _ _ => none
  | .lhs _ _ _ _ => none
  | .lhl _ _ _ _ => none
  | .lhc _ _ _ _ => none
  | .lhm _ _ _ _ => none
  | .lbs _ _ _ _ => none
  | .lbl _ _ _ _ => none
  | .lbc _ _ _ _ => none
  | .lbm _ _ _ _ => none
  | .lhus _ _ _ _ => none
  | .lhul _ _ _ _ => none
  | .lhuc _ _ _ _ => none
  | .lhum _ _ _ _ => none
  | .lbus _ _ _ _ => none
  | .lbul _ _ _ _ => none
  | .lbuc _ _ _ _ => none
  | .lbum _ _ _ _ => none
  | .sws _ _ _ _ => none
  | .swl _ _ _ _ => none
  | .swc _ _ _ _ => none
  | .swm _ _ _ _ => none
  | .shs _ _ _ _ => none
  | .shl _ _ _ _ => none
  | .shc _ _ _ _ => none
  | .shm _ _ _ _ => none
  | .sbs _ _ _ _ => none
  | .sbl _ _ _ _ => none
  | .sbc _ _ _ _ => none
  | .sbm _ _ _ _ => none
  | .sresI _ _ => none
  | .sensI _ _ => none
  | .sfreeI _ _ => none
  | .sspillI _ _ => none
  | .sensR _ _ => none
  | .sspillR _ _ => none
  | .call g _ _ => some (g, false)
  | .br g _ _ => some (g, true)
  | .brcf g _ _ => some (g, false)
  | .trap g _ => some (g, false)
  | .ret g _ => some (g, false)
  | .xret g _ => some (g, false)
  | .callr g _ _ => some (g, false)
  | .brr g _ _ => some (g, true)
  | .brcfr g _ _ => some (g, false)
  | .brcfrPair g _ _ _ => some (g, false)

/-- The interrupt delay-slot count of a control-transfer instruction; none for every other (rules R265, R269). -/
def transferIds (p : Params) (i : Instr) : Option Nat :=
  (transferOf i).map fun x => if x.2 then p.dsBranch else p.dsIntr

/-- A guard that can be true: every one but the negation of `p0` (rules R13, R15). -/
def guardCanHold (g : PredRef) : Bool := !(g.neg && decide (g.idx = 0))

/-- The destination register of the instruction in a slot, if its guard is true and the write is not discarded. -/
def Slot.gprTarget (x : Slot) : Option Reg :=
  match x.instr with
  | .instr i => if x.pred then (destGpr i).filter fun r => decide (r ≠ 0) else none
  | _ => none

/-- The predicates that the instruction in a slot writes if its guard is true, in `EX` or, by `mts` to the predicate file,
in `MW` (rule R191); a write of `p0` is discarded. -/
def Slot.predTargets (p : Params) (x : Slot) : List PReg :=
  match x.instr with
  | .instr i =>
    if x.pred then
      match i with
      | .mts _ sd _ => if isPredAlias p sd then [1, 2, 3, 4, 5, 6, 7] else []
      | _ => (destPred i).toList.filter fun r => decide (r ≠ 0)
    else []
  | _ => []

/-- Both slots of a bundle write one register, or one predicate, with true guards (rules R113, R397). -/
def Bundle.twoWriters (p : Params) (b : Bundle) : Bool :=
  (b.s0.gprTarget.isSome && decide (b.s0.gprTarget = b.s1.gprTarget)) ||
    (b.s0.predTargets p).any fun r => (b.s1.predTargets p).contains r

/-- The slot holds a control transfer whose guard can be true, whatever it is now; `INTR` and `HALT` are transfers
(rules R265, R301). -/
def Slot.mayTransfer (x : Slot) : Bool :=
  match x.instr with
  | .bubble => false
  | .instr i =>
    match transferOf i with
    | some (g, _) => guardCanHold g
    | none => false
  | .intr _ => true
  | .halt => true

/-- A delay slot of a taken delayed transfer in this bundle holds such a transfer (rule R301). -/
def Bundle.transferInDelay (b : Bundle) : Bool :=
  (b.s0.inDelay && b.s0.mayTransfer) || (b.s1.inDelay && b.s1.mayTransfer)

end Sys2Proof.Machine
end

