-- ==== Sys2Proof/Machine/Flags.lean ====
section
/-! DEFINITION. Everything that computes a predicate (the machine has no other flag, rule R14): the compare functions
(rules R166 to R172), the predicate-logic functions (rules R176 to R178), and the predicate file as one word
(rules R17, R191, R194, R195). -/

namespace Sys2Proof.Machine

open Sys2Proof.Config

/-- `cmpeq` (rule R166). -/
def cmpEq (a b : Word) : Bool := decide (a = b)
/-- `cmpneq` (rule R167). -/
def cmpNeq (a b : Word) : Bool := decide (a ≠ b)
/-- `cmplt`, signed (rule R168). -/
def cmpLt (a b : Word) : Bool := decide (a.toInt < b.toInt)
/-- `cmple`, signed (rule R169). -/
def cmpLe (a b : Word) : Bool := decide (a.toInt ≤ b.toInt)
/-- `cmpult`, unsigned (rule R170). -/
def cmpUlt (a b : Word) : Bool := decide (a.toNat < b.toNat)
/-- `cmpule`, unsigned (rule R171). -/
def cmpUle (a b : Word) : Bool := decide (a.toNat ≤ b.toNat)
/-- `btest`: bit `b mod 32` of `a` (rule R172). -/
def bitTest (a b : Word) : Bool := a.getLsbD (b.toNat % 32)

/-- `por` (rule R176). -/
def predOr (x y : Bool) : Bool := x || y
/-- `pand` (rule R177). -/
def predAnd (x y : Bool) : Bool := x && y
/-- `pxor` (rule R178). -/
def predXor (x y : Bool) : Bool := x ^^ y

/-- `packed_predicates()`: bit `i` is `p[i]`, bits 31 to 8 are 0 (rules R17, R194). -/
def State.packedPreds (s : State) : Word :=
  (0#24) ++ BitVec.ofBool (s.readPred 7) ++ BitVec.ofBool (s.readPred 6) ++ BitVec.ofBool (s.readPred 5) ++
    BitVec.ofBool (s.readPred 4) ++ BitVec.ofBool (s.readPred 3) ++ BitVec.ofBool (s.readPred 2) ++
    BitVec.ofBool (s.readPred 1) ++ BitVec.ofBool (s.readPred 0)

/-- `bulk_predicate_write(v)`: bit `i` of `v` sets `p[i]` for `i` from 1 to 7; `p0` is skipped (rule R191). -/
def State.bulkPreds (s : State) (v : Word) : State :=
  { s with preds := #v[s.preds[0], v.getLsbD 1, v.getLsbD 2, v.getLsbD 3, v.getLsbD 4, v.getLsbD 5, v.getLsbD 6,
      v.getLsbD 7] }

/-- What `mfs` reads (rules R193, R194). -/
def State.readSpecial (s : State) (i : SReg) : Word :=
  if isPredAlias s.params i then s.packedPreds else s.readSpr i

/-- What `mts` writes (rules R190, R191). -/
def State.writeSpecial (s : State) (i : SReg) (v : Word) : State :=
  { s with
    preds := if isPredAlias s.params i then (s.bulkPreds v).preds else s.preds
    spr := if isPredAlias s.params i then s.spr else (s.writeSpr i v).spr }

end Sys2Proof.Machine
end

