-- ==== Sys2Proof/Machine/Arith.lean ====
section
/-! DEFINITION. Arithmetic instructions (41_arithmetic.md): formats `ALUi`, `ALUr`, `ALUl`. -/

namespace Sys2Proof.Machine

/-! ### The functions (rules R141 to R151): results wrap modulo `2^32`, nothing traps -/

/-- Rule R141. -/
def aluAdd (a b : Word) : Word := a + b
/-- Rule R142. -/
def aluSub (a b : Word) : Word := a - b
/-- Rule R143. -/
def aluXor (a b : Word) : Word := a ^^^ b
/-- Rule R144: only the low five bits of the amount are used. -/
def aluSl (a b : Word) : Word := a <<< (b.toNat % 32)
/-- Rule R145: zeros are shifted in. -/
def aluSr (a b : Word) : Word := a >>> (b.toNat % 32)
/-- Rule R146: copies of bit 31 are shifted in. -/
def aluSra (a b : Word) : Word := a.sshiftRight (b.toNat % 32)
/-- Rule R147. -/
def aluOr (a b : Word) : Word := a ||| b
/-- Rule R148. -/
def aluAnd (a b : Word) : Word := a &&& b
/-- Rule R149. -/
def aluNor (a b : Word) : Word := ~~~(a ||| b)
/-- Rule R150. -/
def aluShadd (a b : Word) : Word := (a <<< 1) + b
/-- Rule R151. -/
def aluShadd2 (a b : Word) : Word := (a <<< 2) + b

/-- `decode_stage` of the arithmetic class (rule R140). -/
def aluDecode (g : PredRef) (rs1 : Reg) (op2 : Op2) : State → Result :=
  decodeSlot g fun s x => { x with drRs1 := s.readGpr rs1, drRs2 := op2.decodeRead s }

/-- The state after `execute_stage` has computed `v` for `rd` (rules R107, R110). -/
def State.withResult (s : State) (rd : Reg) (v : Word) : State :=
  s.setSlot ({ s.slot with exResult := v }.publish rd v)

/-- `execute_stage` of the arithmetic class (rule R140). -/
def aluExecute (f : Word → Word → Word) (rd rs1 : Reg) (op2 : Op2) : State → Result :=
  executeSlot (rs1 :: op2.srcs) fun s => .next (s.withResult rd (f (s.rs1 rs1) (op2.value s)))

/-- The three stage bodies of an arithmetic instruction with function `f` (rule R140). -/
def aluStages (f : Word → Word → Word) (g : PredRef) (rd rs1 : Reg) (op2 : Op2) : State → Result :=
  stageOp (aluDecode g rs1 op2) (aluExecute f rd rs1 op2) (commitResult rd)

/-! ### The meanings -/

/-- `add`, 12-bit immediate (rule R141). -/
def execAddI (g : PredRef) (rd rs1 : Reg) (imm : Nat) (s : State) : Result := aluStages aluAdd g rd rs1 (.imm (zextImm imm)) s

/-- `sub`, 12-bit immediate (rule R142). -/
def execSubI (g : PredRef) (rd rs1 : Reg) (imm : Nat) (s : State) : Result := aluStages aluSub g rd rs1 (.imm (zextImm imm)) s

/-- `xor`, 12-bit immediate (rule R143). -/
def execXorI (g : PredRef) (rd rs1 : Reg) (imm : Nat) (s : State) : Result := aluStages aluXor g rd rs1 (.imm (zextImm imm)) s

/-- `sl`, 12-bit immediate (rule R144). -/
def execSlI (g : PredRef) (rd rs1 : Reg) (imm : Nat) (s : State) : Result := aluStages aluSl g rd rs1 (.imm (zextImm imm)) s

/-- `sr`, 12-bit immediate (rule R145). -/
def execSrI (g : PredRef) (rd rs1 : Reg) (imm : Nat) (s : State) : Result := aluStages aluSr g rd rs1 (.imm (zextImm imm)) s

/-- `sra`, 12-bit immediate (rule R146). -/
def execSraI (g : PredRef) (rd rs1 : Reg) (imm : Nat) (s : State) : Result := aluStages aluSra g rd rs1 (.imm (zextImm imm)) s

/-- `or`, 12-bit immediate (rule R147). -/
def execOrI (g : PredRef) (rd rs1 : Reg) (imm : Nat) (s : State) : Result := aluStages aluOr g rd rs1 (.imm (zextImm imm)) s

/-- `and`, 12-bit immediate (rule R148). -/
def execAndI (g : PredRef) (rd rs1 : Reg) (imm : Nat) (s : State) : Result := aluStages aluAnd g rd rs1 (.imm (zextImm imm)) s

/-- `add`, register (rule R141). -/
def execAddR (g : PredRef) (rd rs1 rs2 : Reg) (s : State) : Result := aluStages aluAdd g rd rs1 (.reg rs2) s

/-- `sub`, register (rule R142). -/
def execSubR (g : PredRef) (rd rs1 rs2 : Reg) (s : State) : Result := aluStages aluSub g rd rs1 (.reg rs2) s

/-- `xor`, register (rule R143). -/
def execXorR (g : PredRef) (rd rs1 rs2 : Reg) (s : State) : Result := aluStages aluXor g rd rs1 (.reg rs2) s

/-- `sl`, register (rule R144). -/
def execSlR (g : PredRef) (rd rs1 rs2 : Reg) (s : State) : Result := aluStages aluSl g rd rs1 (.reg rs2) s

/-- `sr`, register (rule R145). -/
def execSrR (g : PredRef) (rd rs1 rs2 : Reg) (s : State) : Result := aluStages aluSr g rd rs1 (.reg rs2) s

/-- `sra`, register (rule R146). -/
def execSraR (g : PredRef) (rd rs1 rs2 : Reg) (s : State) : Result := aluStages aluSra g rd rs1 (.reg rs2) s

/-- `or`, register (rule R147). -/
def execOrR (g : PredRef) (rd rs1 rs2 : Reg) (s : State) : Result := aluStages aluOr g rd rs1 (.reg rs2) s

/-- `and`, register (rule R148). -/
def execAndR (g : PredRef) (rd rs1 rs2 : Reg) (s : State) : Result := aluStages aluAnd g rd rs1 (.reg rs2) s

/-- `nor`, register (rule R149). -/
def execNorR (g : PredRef) (rd rs1 rs2 : Reg) (s : State) : Result := aluStages aluNor g rd rs1 (.reg rs2) s

/-- `shadd`, register (rule R150). -/
def execShaddR (g : PredRef) (rd rs1 rs2 : Reg) (s : State) : Result := aluStages aluShadd g rd rs1 (.reg rs2) s

/-- `shadd2`, register (rule R151). -/
def execShadd2R (g : PredRef) (rd rs1 rs2 : Reg) (s : State) : Result := aluStages aluShadd2 g rd rs1 (.reg rs2) s

/-- `add`, 32-bit immediate (rule R141). -/
def execAddL (g : PredRef) (rd rs1 : Reg) (imm : Word) (s : State) : Result := aluStages aluAdd g rd rs1 (.imm imm) s

/-- `sub`, 32-bit immediate (rule R142). -/
def execSubL (g : PredRef) (rd rs1 : Reg) (imm : Word) (s : State) : Result := aluStages aluSub g rd rs1 (.imm imm) s

/-- `xor`, 32-bit immediate (rule R143). -/
def execXorL (g : PredRef) (rd rs1 : Reg) (imm : Word) (s : State) : Result := aluStages aluXor g rd rs1 (.imm imm) s

/-- `sl`, 32-bit immediate (rule R144). -/
def execSlL (g : PredRef) (rd rs1 : Reg) (imm : Word) (s : State) : Result := aluStages aluSl g rd rs1 (.imm imm) s

/-- `sr`, 32-bit immediate (rule R145). -/
def execSrL (g : PredRef) (rd rs1 : Reg) (imm : Word) (s : State) : Result := aluStages aluSr g rd rs1 (.imm imm) s

/-- `sra`, 32-bit immediate (rule R146). -/
def execSraL (g : PredRef) (rd rs1 : Reg) (imm : Word) (s : State) : Result := aluStages aluSra g rd rs1 (.imm imm) s

/-- `or`, 32-bit immediate (rule R147). -/
def execOrL (g : PredRef) (rd rs1 : Reg) (imm : Word) (s : State) : Result := aluStages aluOr g rd rs1 (.imm imm) s

/-- `and`, 32-bit immediate (rule R148). -/
def execAndL (g : PredRef) (rd rs1 : Reg) (imm : Word) (s : State) : Result := aluStages aluAnd g rd rs1 (.imm imm) s

/-- `nor`, 32-bit immediate (rule R149). -/
def execNorL (g : PredRef) (rd rs1 : Reg) (imm : Word) (s : State) : Result := aluStages aluNor g rd rs1 (.imm imm) s

/-- `shadd`, 32-bit immediate (rule R150). -/
def execShaddL (g : PredRef) (rd rs1 : Reg) (imm : Word) (s : State) : Result := aluStages aluShadd g rd rs1 (.imm imm) s

/-- `shadd2`, 32-bit immediate (rule R151). -/
def execShadd2L (g : PredRef) (rd rs1 : Reg) (imm : Word) (s : State) : Result := aluStages aluShadd2 g rd rs1 (.imm imm) s

end Sys2Proof.Machine
end

