-- ==== Sys2Proof/Machine/Compare.lean ====
section
/-! DEFINITION. Compare, predicate-logic and bit-insert instructions (43_compare_predicate.md): formats `ALUc`, `ALUci`,
`ALUp`, `ALUb`. -/

namespace Sys2Proof.Machine

/-- `execute_stage` of a compare: the predicate file is written here (rule R165). -/
def cmpExecute (c : Word → Word → Bool) (pd : PReg) (rs1 : Reg) (op2 : Op2) : State → Result :=
  executeSlot (rs1 :: op2.srcs) fun s => .next (s.writePred pd (c (s.rs1 rs1) (op2.value s)))

/-- The three stage bodies of a compare (rule R165). -/
def cmpStages (c : Word → Word → Bool) (g : PredRef) (pd : PReg) (rs1 : Reg) (op2 : Op2) : State → Result :=
  stageOp (aluDecode g rs1 op2) (cmpExecute c pd rs1 op2) noEffect

/-- The three stage bodies of a predicate-logic instruction (rule R175). -/
def plogStages (f : Bool → Bool → Bool) (g : PredRef) (pd : PReg) (ps1 ps2 : PredRef) : State → Result :=
  stageOp (decodeSlot g fun s x => { x with drPs1 := s.predRef ps1, drPs2 := s.predRef ps2 })
    (executeSlot [] fun s => .next (s.writePred pd (f s.slot.drPs1 s.slot.drPs2))) noEffect

/-- `rs1` with bit `imm5` replaced by the value of the predicate operand (rule R182). -/
def insertBit (a : Word) (i : Nat) (b : Bool) : Word := (a &&& ~~~(1#32 <<< i)) ||| ((BitVec.ofBool b).setWidth 32 <<< i)

/-- The three stage bodies of `bcopy` (rule R182). -/
def bcopyStages (g : PredRef) (rd rs1 : Reg) (imm : Nat) (ps : PredRef) : State → Result :=
  stageOp (decodeSlot g fun s x => { x with drRs1 := s.readGpr rs1, drPs1 := s.predRef ps })
    (executeSlot [rs1] fun s => .next (s.withResult rd (insertBit (s.rs1 rs1) imm s.slot.drPs1))) (commitResult rd)

/-! ### The meanings -/

/-- `cmpeq`, register (rule R166). -/
def execCmpeqR (g : PredRef) (pd : PReg) (rs1 rs2 : Reg) (s : State) : Result := cmpStages cmpEq g pd rs1 (.reg rs2) s

/-- `cmpneq`, register (rule R167). -/
def execCmpneqR (g : PredRef) (pd : PReg) (rs1 rs2 : Reg) (s : State) : Result := cmpStages cmpNeq g pd rs1 (.reg rs2) s

/-- `cmplt`, register (rule R168). -/
def execCmpltR (g : PredRef) (pd : PReg) (rs1 rs2 : Reg) (s : State) : Result := cmpStages cmpLt g pd rs1 (.reg rs2) s

/-- `cmple`, register (rule R169). -/
def execCmpleR (g : PredRef) (pd : PReg) (rs1 rs2 : Reg) (s : State) : Result := cmpStages cmpLe g pd rs1 (.reg rs2) s

/-- `cmpult`, register (rule R170). -/
def execCmpultR (g : PredRef) (pd : PReg) (rs1 rs2 : Reg) (s : State) : Result := cmpStages cmpUlt g pd rs1 (.reg rs2) s

/-- `cmpule`, register (rule R171). -/
def execCmpuleR (g : PredRef) (pd : PReg) (rs1 rs2 : Reg) (s : State) : Result := cmpStages cmpUle g pd rs1 (.reg rs2) s

/-- `btest`, register (rule R172). -/
def execBtestR (g : PredRef) (pd : PReg) (rs1 rs2 : Reg) (s : State) : Result := cmpStages bitTest g pd rs1 (.reg rs2) s

/-- `cmpeq`, 5-bit immediate (rule R166). -/
def execCmpeqI (g : PredRef) (pd : PReg) (rs1 : Reg) (imm : Nat) (s : State) : Result := cmpStages cmpEq g pd rs1 (.imm (zextImm imm)) s

/-- `cmpneq`, 5-bit immediate (rule R167). -/
def execCmpneqI (g : PredRef) (pd : PReg) (rs1 : Reg) (imm : Nat) (s : State) : Result := cmpStages cmpNeq g pd rs1 (.imm (zextImm imm)) s

/-- `cmplt`, 5-bit immediate (rule R168). -/
def execCmpltI (g : PredRef) (pd : PReg) (rs1 : Reg) (imm : Nat) (s : State) : Result := cmpStages cmpLt g pd rs1 (.imm (zextImm imm)) s

/-- `cmple`, 5-bit immediate (rule R169). -/
def execCmpleI (g : PredRef) (pd : PReg) (rs1 : Reg) (imm : Nat) (s : State) : Result := cmpStages cmpLe g pd rs1 (.imm (zextImm imm)) s

/-- `cmpult`, 5-bit immediate (rule R170). -/
def execCmpultI (g : PredRef) (pd : PReg) (rs1 : Reg) (imm : Nat) (s : State) : Result := cmpStages cmpUlt g pd rs1 (.imm (zextImm imm)) s

/-- `cmpule`, 5-bit immediate (rule R171). -/
def execCmpuleI (g : PredRef) (pd : PReg) (rs1 : Reg) (imm : Nat) (s : State) : Result := cmpStages cmpUle g pd rs1 (.imm (zextImm imm)) s

/-- `btest`, 5-bit immediate (rule R172). -/
def execBtestI (g : PredRef) (pd : PReg) (rs1 : Reg) (imm : Nat) (s : State) : Result := cmpStages bitTest g pd rs1 (.imm (zextImm imm)) s

/-- `por` (rule R176). -/
def execPor (g : PredRef) (pd : PReg) (ps1 ps2 : PredRef) (s : State) : Result := plogStages predOr g pd ps1 ps2 s

/-- `pand` (rule R177). -/
def execPand (g : PredRef) (pd : PReg) (ps1 ps2 : PredRef) (s : State) : Result := plogStages predAnd g pd ps1 ps2 s

/-- `pxor` (rule R178). -/
def execPxor (g : PredRef) (pd : PReg) (ps1 ps2 : PredRef) (s : State) : Result := plogStages predXor g pd ps1 ps2 s

/-- `bcopy` (rule R182). -/
def execBcopy (g : PredRef) (rd rs1 : Reg) (imm : Nat) (ps : PredRef) (s : State) : Result := bcopyStages g rd rs1 imm ps s

end Sys2Proof.Machine
end

