-- ==== Sys2Proof/Machine/ControlFlow.lean ====
section
/-! DEFINITION. Control transfers (47_control_flow.md): formats `CFLi`, `CFLri`, `CFLrs`, `CFLrt`, and the two internal
instructions `INTR` and `HALT` (rules R93, R296, R299). -/

namespace Sys2Proof.Machine

open Sys2Proof.Config

/-- `decode_stage` of a transfer with at most one register operand. -/
def cflDecode0 (g : PredRef) : State → Result := decodeSlot g fun _ x => x

/-- `decode_stage` of a transfer with one register operand. -/
def cflDecode1 (g : PredRef) (rs : Reg) : State → Result := decodeSlot g fun s x => { x with drRs1 := s.readGpr rs }

/-- The state after `execute_stage` has computed base and target (rule R268). -/
def State.withTarget (s : State) (b t : Word) : State := s.setSlot { s.slot with exBase := b, exTarget := t }

/-- A call or cache-filling branch to a function entry: base and target are the same (rules R280, R282, R284, R286). -/
def entryExecute (srcs : List Reg) (f : State → Word) : State → Result :=
  executeSlot srcs fun s => .next (s.withTarget (f s) (f s))

/-- A call: the return address goes to (`SRB`, `SRO`) (rules R265, R274). -/
def callTransfer (p : Params) (d : Bool) : Transfer := ⟨d, some (p.srb, p.sro), false, false, false⟩

/-- A branch with cache fill: nothing is saved, no frame (rules R265, R282). -/
def fillTransferOf (d : Bool) : Transfer := ⟨d, none, false, false, false⟩

/-- A return through (`SRB`, `SRO`): a frame is popped (rules R265, R290). -/
def retTransfer (d : Bool) : Transfer := ⟨d, none, true, false, false⟩

/-- `commit_stage` of `call` and `callr` (rules R268, R280, R284). -/
def callCommit (d : Bool) : State → Result := commitSlot fun s => dispatchMW (callTransfer s.params d) s

/-- The stage bodies of `call` (rule R280). -/
def callStages (g : PredRef) (d : Bool) (imm : Nat) : State → Result :=
  stageOp (cflDecode0 g) (entryExecute [] fun _ => absTarget imm) (callCommit d)

/-- The stage bodies of `br` (rules R267, R281). -/
def brStages (g : PredRef) (d : Bool) (imm : Int) : State → Result :=
  stageOp (cflDecode0 g) (executeSlot [] fun s => dispatchEX d (relTarget s.slot.addr imm) s) noEffect

/-- The stage bodies of `brcf` (rule R282). -/
def brcfStages (g : PredRef) (d : Bool) (imm : Nat) : State → Result :=
  stageOp (cflDecode0 g) (entryExecute [] fun _ => absTarget imm) (commitSlot (dispatchMW (fillTransferOf d)))

/-- The collaborator's entry for a trap code: it looks at as many low bits as it has codes (rules R85, R362). -/
def excEntry (u : ExcUnit) (code : Nat) : Option ExcEntry :=
  u.table.find? fun e => decide (e.code = code % 2 ^ u.codeBits)

/-- `ExcUnit.enabled(code)`; a code it does not know is not enabled (rules R283, R362). -/
def excEnabled (u : ExcUnit) (code : Nat) : Bool :=
  match excEntry u code with
  | some e => e.enabled
  | none => false

/-- `ExcUnit.handler(code)` (rule R362). -/
def excHandler (u : ExcUnit) (code : Nat) : Word :=
  match excEntry u code with
  | some e => e.handler
  | none => 0

/-- `execute_stage` of `trap` (rule R283). -/
def trapExecute (code : Nat) : State → Result :=
  executeSlot [] fun s =>
    if excEnabled s.exc code then
      .next (s.setSlot { s.slot with
        trapFires := true, exBase := excHandler s.exc code, exTarget := excHandler s.exc code })
    else .next (s.setSlot { s.slot with trapFires := false })

/-- `commit_stage` of `trap`: the exception is taken, or the trap is a no-operation (rule R283). -/
def trapCommit : State → Result :=
  commitSlot fun s => if s.slot.trapFires then takeException true s else .next s

/-- The stage bodies of `trap` (rule R283). -/
def trapStages (g : PredRef) (code : Nat) : State → Result := stageOp (cflDecode0 g) (trapExecute code) trapCommit

/-- `execute_stage` of `ret` and `xret`: base and offset as `decode_stage` read them (rules R290, R291). -/
def returnExecute : State → Result :=
  executeSlot [] fun s => .next (s.withTarget s.slot.drSs (s.slot.drSs + s.slot.drSsOff))

/-- `decode_stage` of `ret` and `xret`: the pair, as committed (rules R290, R291). -/
def returnDecode (g : PredRef) (rb ro : Params → SReg) : State → Result :=
  decodeSlot g fun s x => { x with drSs := s.readSpr (rb s.params), drSsOff := s.readSpr (ro s.params) }

/-- The stage bodies of `ret` (rule R290). -/
def retStages (g : PredRef) (d : Bool) : State → Result :=
  stageOp (returnDecode g Params.srb Params.sro) returnExecute (commitSlot (dispatchMW (retTransfer d)))

/-- The stage bodies of `xret` (rule R291). -/
def xretStages (g : PredRef) (d : Bool) : State → Result :=
  stageOp (returnDecode g Params.sxb Params.sxo) returnExecute (commitSlot (returnFromException d))

/-- The stage bodies of `callr` (rule R284). -/
def callrStages (g : PredRef) (d : Bool) (rs : Reg) : State → Result :=
  stageOp (cflDecode1 g rs) (entryExecute [rs] fun s => s.rs1 rs) (callCommit d)

/-- The stage bodies of `brr`: an absolute byte address (rules R267, R285). -/
def brrStages (g : PredRef) (d : Bool) (rs : Reg) : State → Result :=
  stageOp (cflDecode1 g rs) (executeSlot [rs] fun s => dispatchEX d (s.rs1 rs) s) noEffect

/-- The stage bodies of `brcfr` with one register (rule R286). -/
def brcfrStages (g : PredRef) (d : Bool) (rs : Reg) : State → Result :=
  stageOp (cflDecode1 g rs) (entryExecute [rs] fun s => s.rs1 rs) (commitSlot (dispatchMW (fillTransferOf d)))

/-- The stage bodies of `brcfr` with a register pair, base and offset (rule R287). -/
def brcfrPairStages (g : PredRef) (d : Bool) (rs1 rs2 : Reg) : State → Result :=
  stageOp (decodeSlot g fun s x => { x with drRs1 := s.readGpr rs1, drRs2 := s.readGpr rs2 })
    (executeSlot [rs1, rs2] fun s => .next (s.withTarget (s.rs1 rs1) (s.rs1 rs1 + s.rs2 rs2)))
    (commitSlot (dispatchMW (fillTransferOf d)))

/-! ### The internal instructions -/

/-- `INTR(handler)`, created by the fetch step: the guard is always true, and it always dispatches to the address it
carries (rule R296). -/
def intrStages (handler : Word) : State → Result :=
  stageOp (decodeSlot ⟨false, 0⟩ fun _ x => x) (entryExecute [] fun _ => handler) (commitSlot (takeException false))

/-- `HALT` (rule R299). No word decodes to it and no rule creates it. The rules name no guard for it; this model's is `p0`,
always true (DESIGN CHOICE, notes/assumptions/31.md). -/
def haltStages : State → Result :=
  stageOp (decodeSlot ⟨false, 0⟩ fun _ x => x) noEffect (commitSlot fun s => .fault (haltFault s))

/-! ### The meanings -/

/-- `call` (rule R280). -/
def execCall (g : PredRef) (d : Bool) (imm : Nat) (s : State) : Result := callStages g d imm s

/-- `br` (rule R281). -/
def execBr (g : PredRef) (d : Bool) (imm : Int) (s : State) : Result := brStages g d imm s

/-- `brcf` (rule R282). -/
def execBrcf (g : PredRef) (d : Bool) (imm : Nat) (s : State) : Result := brcfStages g d imm s

/-- `trap` (rule R283). -/
def execTrap (g : PredRef) (imm : Nat) (s : State) : Result := trapStages g imm s

/-- `ret` (rule R290). -/
def execRet (g : PredRef) (d : Bool) (s : State) : Result := retStages g d s

/-- `xret` (rule R291). -/
def execXret (g : PredRef) (d : Bool) (s : State) : Result := xretStages g d s

/-- `callr` (rule R284). -/
def execCallr (g : PredRef) (d : Bool) (rs : Reg) (s : State) : Result := callrStages g d rs s

/-- `brr` (rule R285). -/
def execBrr (g : PredRef) (d : Bool) (rs : Reg) (s : State) : Result := brrStages g d rs s

/-- `brcfr` (rule R286). -/
def execBrcfr (g : PredRef) (d : Bool) (rs : Reg) (s : State) : Result := brcfrStages g d rs s

/-- `brcfr` (rule R287). -/
def execBrcfrPair (g : PredRef) (d : Bool) (rs1 rs2 : Reg) (s : State) : Result := brcfrPairStages g d rs1 rs2 s

end Sys2Proof.Machine
end

