-- ==== Sys2Proof/Machine/LoadStore.lean ====
section
/-! DEFINITION. Loads and stores (45_load_store.md): formats `LDT`, `STT`. -/

namespace Sys2Proof.Machine

/-- `commit_stage` of a load (rule R202). -/
def loadCommit (area : Area) (w : Width) (signed : Bool) (rd : Reg) : State → Result :=
  commitSlot fun s =>
    match memRead s area w signed s.slot.exAddress with
    | .raised f => .fault f
    | .busy s' => .next (s'.stall .MW)
    | .done v s' => .next (s'.commitGpr rd v true)

/-- The three stage bodies of a load of width `w` from `area` (rules R200, R202). -/
def loadStages (area : Area) (w : Width) (signed : Bool) (g : PredRef) (rd ra : Reg) (imm : Int) : State → Result :=
  stageOp (decodeSlot g fun s x => { x with drRs1 := s.readGpr ra })
    (executeSlot [ra] fun s => .next (s.setSlot { s.slot with exAddress := effAddr (s.rs1 ra) imm w }))
    (loadCommit area w signed rd)

/-- A store would change a byte of a resident function: the area shows main memory, and the store touches such a byte
(rules R29, R54). -/
def storeHitsCode (s : State) (area : Area) (w : Width) (a : Word) : Bool :=
  decide (homeArea s.params area = .mainMem) && touchesCode s a w.bytes

/-- `commit_stage` of a store (rule R203). A write that would change a byte of a resident function is refused when it would
happen (rule R54, U8; notes/assumptions/16.md). -/
def storeCommit (area : Area) (w : Width) : State → Result :=
  commitSlot fun s =>
    match memWrite s area w s.slot.exAddress s.slot.exResult with
    | .raised f => .fault f
    | .busy s' => .next (s'.stall .MW)
    | .done _ s' => if storeHitsCode s area w s.slot.exAddress then .refused .storeToCode else .next s'.done

/-- The three stage bodies of a store of width `w` to `area` (rules R200, R203). -/
def storeStages (area : Area) (w : Width) (g : PredRef) (ra rs : Reg) (imm : Int) : State → Result :=
  stageOp (decodeSlot g fun s x => { x with drRs1 := s.readGpr ra, drRs2 := s.readGpr rs })
    (executeSlot [ra, rs] fun s =>
      .next (s.setSlot { s.slot with exAddress := effAddr (s.rs1 ra) imm w, exResult := s.rs2 rs }))
    (storeCommit area w)

/-! ### The meanings -/

/-- `lws`: word, the stack cache (rule R205). -/
def execLws (g : PredRef) (rd ra : Reg) (imm : Int) (s : State) : Result := loadStages .stackCache .word false g rd ra imm s

/-- `lwl`: word, the local memory (rule R206). -/
def execLwl (g : PredRef) (rd ra : Reg) (imm : Int) (s : State) : Result := loadStages .localMem .word false g rd ra imm s

/-- `lwc`: word, the data cache (rule R207). -/
def execLwc (g : PredRef) (rd ra : Reg) (imm : Int) (s : State) : Result := loadStages .dataCache .word false g rd ra imm s

/-- `lwm`: word, main memory (rule R208). -/
def execLwm (g : PredRef) (rd ra : Reg) (imm : Int) (s : State) : Result := loadStages .mainMem .word false g rd ra imm s

/-- `lhs`: half, signed, the stack cache (rule R209). -/
def execLhs (g : PredRef) (rd ra : Reg) (imm : Int) (s : State) : Result := loadStages .stackCache .half true g rd ra imm s

/-- `lhl`: half, signed, the local memory (rule R210). -/
def execLhl (g : PredRef) (rd ra : Reg) (imm : Int) (s : State) : Result := loadStages .localMem .half true g rd ra imm s

/-- `lhc`: half, signed, the data cache (rule R211). -/
def execLhc (g : PredRef) (rd ra : Reg) (imm : Int) (s : State) : Result := loadStages .dataCache .half true g rd ra imm s

/-- `lhm`: half, signed, main memory (rule R212). -/
def execLhm (g : PredRef) (rd ra : Reg) (imm : Int) (s : State) : Result := loadStages .mainMem .half true g rd ra imm s

/-- `lbs`: byte, signed, the stack cache (rule R213). -/
def execLbs (g : PredRef) (rd ra : Reg) (imm : Int) (s : State) : Result := loadStages .stackCache .byte true g rd ra imm s

/-- `lbl`: byte, signed, the local memory (rule R214). -/
def execLbl (g : PredRef) (rd ra : Reg) (imm : Int) (s : State) : Result := loadStages .localMem .byte true g rd ra imm s

/-- `lbc`: byte, signed, the data cache (rule R215). -/
def execLbc (g : PredRef) (rd ra : Reg) (imm : Int) (s : State) : Result := loadStages .dataCache .byte true g rd ra imm s

/-- `lbm`: byte, signed, main memory (rule R216). -/
def execLbm (g : PredRef) (rd ra : Reg) (imm : Int) (s : State) : Result := loadStages .mainMem .byte true g rd ra imm s

/-- `lhus`: half, unsigned, the stack cache (rule R217). -/
def execLhus (g : PredRef) (rd ra : Reg) (imm : Int) (s : State) : Result := loadStages .stackCache .half false g rd ra imm s

/-- `lhul`: half, unsigned, the local memory (rule R218). -/
def execLhul (g : PredRef) (rd ra : Reg) (imm : Int) (s : State) : Result := loadStages .localMem .half false g rd ra imm s

/-- `lhuc`: half, unsigned, the data cache (rule R219). -/
def execLhuc (g : PredRef) (rd ra : Reg) (imm : Int) (s : State) : Result := loadStages .dataCache .half false g rd ra imm s

/-- `lhum`: half, unsigned, main memory (rule R220). -/
def execLhum (g : PredRef) (rd ra : Reg) (imm : Int) (s : State) : Result := loadStages .mainMem .half false g rd ra imm s

/-- `lbus`: byte, unsigned, the stack cache (rule R221). -/
def execLbus (g : PredRef) (rd ra : Reg) (imm : Int) (s : State) : Result := loadStages .stackCache .byte false g rd ra imm s

/-- `lbul`: byte, unsigned, the local memory (rule R222). -/
def execLbul (g : PredRef) (rd ra : Reg) (imm : Int) (s : State) : Result := loadStages .localMem .byte false g rd ra imm s

/-- `lbuc`: byte, unsigned, the data cache (rule R223). -/
def execLbuc (g : PredRef) (rd ra : Reg) (imm : Int) (s : State) : Result := loadStages .dataCache .byte false g rd ra imm s

/-- `lbum`: byte, unsigned, main memory (rule R224). -/
def execLbum (g : PredRef) (rd ra : Reg) (imm : Int) (s : State) : Result := loadStages .mainMem .byte false g rd ra imm s

/-- `sws`: word, the stack cache (rule R225). -/
def execSws (g : PredRef) (ra rs : Reg) (imm : Int) (s : State) : Result := storeStages .stackCache .word g ra rs imm s

/-- `swl`: word, the local memory (rule R226). -/
def execSwl (g : PredRef) (ra rs : Reg) (imm : Int) (s : State) : Result := storeStages .localMem .word g ra rs imm s

/-- `swc`: word, the data cache (rule R227). -/
def execSwc (g : PredRef) (ra rs : Reg) (imm : Int) (s : State) : Result := storeStages .dataCache .word g ra rs imm s

/-- `swm`: word, main memory (rule R228). -/
def execSwm (g : PredRef) (ra rs : Reg) (imm : Int) (s : State) : Result := storeStages .mainMem .word g ra rs imm s

/-- `shs`: half, the stack cache (rule R229). -/
def execShs (g : PredRef) (ra rs : Reg) (imm : Int) (s : State) : Result := storeStages .stackCache .half g ra rs imm s

/-- `shl`: half, the local memory (rule R230). -/
def execShl (g : PredRef) (ra rs : Reg) (imm : Int) (s : State) : Result := storeStages .localMem .half g ra rs imm s

/-- `shc`: half, the data cache (rule R231). -/
def execShc (g : PredRef) (ra rs : Reg) (imm : Int) (s : State) : Result := storeStages .dataCache .half g ra rs imm s

/-- `shm`: half, main memory (rule R232). -/
def execShm (g : PredRef) (ra rs : Reg) (imm : Int) (s : State) : Result := storeStages .mainMem .half g ra rs imm s

/-- `sbs`: byte, the stack cache (rule R233). -/
def execSbs (g : PredRef) (ra rs : Reg) (imm : Int) (s : State) : Result := storeStages .stackCache .byte g ra rs imm s

/-- `sbl`: byte, the local memory (rule R234). -/
def execSbl (g : PredRef) (ra rs : Reg) (imm : Int) (s : State) : Result := storeStages .localMem .byte g ra rs imm s

/-- `sbc`: byte, the data cache (rule R235). -/
def execSbc (g : PredRef) (ra rs : Reg) (imm : Int) (s : State) : Result := storeStages .dataCache .byte g ra rs imm s

/-- `sbm`: byte, main memory (rule R236). -/
def execSbm (g : PredRef) (ra rs : Reg) (imm : Int) (s : State) : Result := storeStages .mainMem .byte g ra rs imm s

end Sys2Proof.Machine
end

