-- ==== Sys2Proof/Machine/Multiply.lean ====
section
/-! DEFINITION. Multiply instructions (42_multiply.md): format `ALUm`. -/

namespace Sys2Proof.Machine

open Sys2Proof.Config

/-- The exact two's-complement 64-bit product (rule R161). -/
def productSigned (a b : Word) : BitVec 64 := BitVec.ofInt 64 (a.toInt * b.toInt)

/-- The exact unsigned 64-bit product (rule R162). -/
def productUnsigned (a b : Word) : BitVec 64 := BitVec.ofNat 64 (a.toNat * b.toNat)

/-- `execute_stage` of the multiply class: 64 bits of `ex_result`, no bypass entry (rule R160). -/
def mulExecute (f : Word → Word → BitVec 64) (rs1 rs2 : Reg) : State → Result :=
  executeSlot [rs1, rs2] fun s =>
    let p := f (s.rs1 rs1) (s.rs2 rs2)
    .next (s.setSlot { s.slot with exResult := p.extractLsb' 0 32, exResultHi := p.extractLsb' 32 32 })

/-- `commit_stage` of the multiply class: `SL` and `SH` (rule R160). -/
def mulCommit : State → Result :=
  commitSlot fun s => .next ((s.writeSpr s.params.sl s.slot.exResult).writeSpr s.params.sh s.slot.exResultHi).done

/-- The three stage bodies of a multiply (rule R160). -/
def mulStages (f : Word → Word → BitVec 64) (g : PredRef) (rs1 rs2 : Reg) : State → Result :=
  stageOp (decodeSlot g fun s x => { x with drRs1 := s.readGpr rs1, drRs2 := s.readGpr rs2 })
    (mulExecute f rs1 rs2) mulCommit

/-! ### The meanings -/

/-- `mul` (rule R161). -/
def execMul (g : PredRef) (rs1 rs2 : Reg) (s : State) : Result := mulStages productSigned g rs1 rs2 s

/-- `mulu` (rule R162). -/
def execMulu (g : PredRef) (rs1 rs2 : Reg) (s : State) : Result := mulStages productUnsigned g rs1 rs2 s

end Sys2Proof.Machine
end

