-- ==== Sys2Proof/Machine/Special.lean ====
section
/-! DEFINITION. Special-register moves (44_special_move.md): formats `SPCt`, `SPCf`. -/

namespace Sys2Proof.Machine

/-- The three stage bodies of `mts` (rule R190). -/
def mtsStages (g : PredRef) (sd : SReg) (rs1 : Reg) : State → Result :=
  stageOp (decodeSlot g fun s x => { x with drRs1 := s.readGpr rs1 })
    (executeSlot [rs1] fun s => .next (s.setSlot { s.slot with exResult := s.rs1 rs1 }))
    (commitSlot fun s => .next (s.writeSpecial sd s.slot.exResult).done)

/-- The three stage bodies of `mfs`: the special register is read in `decode_stage`, as committed (rule R193). -/
def mfsStages (g : PredRef) (rd : Reg) (ss : SReg) : State → Result :=
  stageOp (decodeSlot g fun s x => { x with drSs := s.readSpecial ss })
    (executeSlot [] fun s => .next (s.withResult rd s.slot.drSs)) (commitResult rd)

/-! ### The meanings -/

/-- `mts` (rule R190). -/
def execMts (g : PredRef) (sd : SReg) (rs1 : Reg) (s : State) : Result := mtsStages g sd rs1 s

/-- `mfs` (rule R193). -/
def execMfs (g : PredRef) (rd : Reg) (ss : SReg) (s : State) : Result := mfsStages g rd ss s

end Sys2Proof.Machine
end

