-- ==== Sys2Proof/Machine/StackControl.lean ====
section
/-! DEFINITION. Stack-control instructions (46_stack_control.md): formats `STCi`, `STCr`, and the stack-cache collaborator
they call (rules R49, R251).

The collaborator answers from `State.stackReplies`, which may hold any answers, the faults of rule R250 among them; where
no answer is given it does what rule R251 expects of it (DESIGN CHOICE, notes/assumptions/6.md). -/

namespace Sys2Proof.Machine

open Sys2Proof.Config

/-- The two directions in which the stack cache moves bytes (rule R251). -/
inductive StackMove where
  | toMain
  | fromMain
deriving DecidableEq, Repr

/-- `n` bytes from `lo` upward moved between the stack cache and main memory (rule R251). Where the stack area is a view
of main memory there is nothing to move. The low address must be word aligned; `n` need not be a multiple of 4, and the
bytes of a partial word are moved like the others (DESIGN CHOICE, notes/assumptions/6.md: rule R251 speaks of words, rules
R256 and R257 of a byte count). -/
def moveStack (s : State) (dir : StackMove) (lo : Word) (n : Nat) : Call Unit :=
  if n = 0 then .done () s
  else if !aligned4 lo then .raised (.unaligned lo s)
  else
    match firstUnbacked s.params.mainBacked lo n with
    | some u => .raised (.unmapped u s)
    | none =>
      if ownArea s.params .stackCache then
        match dir with
        | .toMain => .done () { s with mem := { s.mem with main := s.mem.main.copyFrom s.mem.stack lo n } }
        | .fromMain => .done () { s with mem := { s.mem with stack := s.mem.stack.copyFrom s.mem.main lo n } }
      else .done () s

/-- What one `StackCtl` operation of rule R251 asks for: the new pointers and the bytes to move. -/
structure StackPlan where
  ss : Word
  st : Word
  dir : StackMove
  lo : Word
  count : Nat
deriving DecidableEq, Repr

/-- The expected behaviour of the stack cache, whose content is the range from `ST` to `SS` (rule R251). `size` is its
capacity in bytes. -/
def stackPlan (size : Nat) (op : StackOp) (n ss st : Word) : StackPlan :=
  match op with
  | .reserve =>
    let st' := st - n
    let held := (ss - st').toNat
    if size < held then
      let ss' := st' + BitVec.ofNat 32 size
      ⟨ss', st', .toMain, ss', held - size⟩
    else ⟨ss, st', .toMain, ss, 0⟩
  | .ensure =>
    let held := (ss - st).toNat
    if held < n.toNat then ⟨st + n, st, .fromMain, ss, n.toNat - held⟩ else ⟨ss, st, .fromMain, ss, 0⟩
  | .free =>
    let st' := st + n
    if ss.toNat < st'.toNat then ⟨st', st', .fromMain, ss, 0⟩ else ⟨ss, st', .fromMain, ss, 0⟩
  | .spill => ⟨ss - n, st, .toMain, ss - n, n.toNat⟩

/-- The answer where none is given in `stackReplies`: a size of 0 is answered at once with unchanged pointers
(rule R258); a request larger than the stack cache raises `StackExceeded`, any other does what rule R251 expects. -/
def stackDefault (s : State) (op : StackOp) (n ss st : Word) : Call (Word × Word) :=
  if n = 0 then .done (ss, st) s
  else if s.params.stackCacheBytes < n.toNat then .raised (.stackExceeded n s)
  else
    let p := stackPlan s.params.stackCacheBytes op n ss st
    match moveStack s p.dir p.lo p.count with
    | .raised f => .raised f
    | .busy s' => .busy s'
    | .done _ s' => .done (p.ss, p.st) s'

/-- The state after an answer of the stack cache has been drawn. -/
def State.dropStackReply (s : State) : State := { s with stackReplies := s.stackReplies.tail }

/-- `StackCtl(op, n, ss, st)` (rule R49): the pointers are (`ss'`, `st'`) when it is done. The faults it may raise are those
of rule R250. -/
def stackCtl (s : State) (op : StackOp) (n ss st : Word) : Call (Word × Word) :=
  match s.stackReplies with
  | [] => stackDefault s op n ss st
  | .busy :: _ => .busy s.dropStackReply
  | .answer ss' st' :: _ => .done (ss', st') s.dropStackReply
  | .exceeded v :: _ => .raised (.stackExceeded v s.dropStackReply)
  | .unaligned a :: _ => .raised (.unaligned a s.dropStackReply)
  | .unmapped a :: _ => .raised (.unmapped a s.dropStackReply)

/-- `commit_stage` of stack control: `SS` and `ST` are read here and written once (rule R250). -/
def stackCommit (op : StackOp) : State → Result :=
  commitSlot fun s =>
    match stackCtl s op s.slot.exResult (s.readSpr s.params.ss) (s.readSpr s.params.st) with
    | .raised f => .fault f
    | .busy s' => .next (s'.stall .MW)
    | .done p s' => .next ((s'.writeSpr s.params.ss p.1).writeSpr s.params.st p.2).done

/-- The three stage bodies of an immediate stack-control operation (rule R250, `STCi`): a count of words. -/
def stackImmStages (op : StackOp) (g : PredRef) (imm : Nat) : State → Result :=
  stageOp (decodeSlot g fun _ x => x)
    (executeSlot [] fun s => .next (s.setSlot { s.slot with exResult := stackBytes imm })) (stackCommit op)

/-- The three stage bodies of a register stack-control operation (rule R250, `STCr`): a count of bytes. -/
def stackRegStages (op : StackOp) (g : PredRef) (rs : Reg) : State → Result :=
  stageOp (decodeSlot g fun s x => { x with drRs1 := s.readGpr rs })
    (executeSlot [rs] fun s => .next (s.setSlot { s.slot with exResult := s.rs1 rs })) (stackCommit op)

/-! ### The meanings -/

/-- `sres`, immediate (rule R252). -/
def execSresI (g : PredRef) (imm : Nat) (s : State) : Result := stackImmStages .reserve g imm s

/-- `sens`, immediate (rule R253). -/
def execSensI (g : PredRef) (imm : Nat) (s : State) : Result := stackImmStages .ensure g imm s

/-- `sfree`, immediate (rule R254). -/
def execSfreeI (g : PredRef) (imm : Nat) (s : State) : Result := stackImmStages .free g imm s

/-- `sspill`, immediate (rule R255). -/
def execSspillI (g : PredRef) (imm : Nat) (s : State) : Result := stackImmStages .spill g imm s

/-- `sens`, register (rule R256). -/
def execSensR (g : PredRef) (rs : Reg) (s : State) : Result := stackRegStages .ensure g rs s

/-- `sspill`, register (rule R257). -/
def execSspillR (g : PredRef) (rs : Reg) (s : State) : Result := stackRegStages .spill g rs s

end Sys2Proof.Machine
end

