-- ==== Sys2Proof/Machine/Dispatch.lean ====
section
/-! DEFINITION. The dispatch from an instruction to its meaning: one arm per constructor. `exec i s` is ONE invocation of a
stage operation of `i`, the stage and slot being those of `s.cur` (rule R103). -/

namespace Sys2Proof.Machine

def exec (i : Instr) (s : State) : Host.Outcome State Fault Refusal :=
  match i with
  | .addI g rd rs1 imm => Sys2Proof.Machine.execAddI g rd rs1 imm s
  | .subI g rd rs1 imm => Sys2Proof.Machine.execSubI g rd rs1 imm s
  | .xorI g rd rs1 imm => Sys2Proof.Machine.execXorI g rd rs1 imm s
  | .slI g rd rs1 imm => Sys2Proof.Machine.execSlI g rd rs1 imm s
  | .srI g rd rs1 imm => Sys2Proof.Machine.execSrI g rd rs1 imm s
  | .sraI g rd rs1 imm => Sys2Proof.Machine.execSraI g rd rs1 imm s
  | .orI g rd rs1 imm => Sys2Proof.Machine.execOrI g rd rs1 imm s
  | .andI g rd rs1 imm => Sys2Proof.Machine.execAndI g rd rs1 imm s
  | .addR g rd rs1 rs2 => Sys2Proof.Machine.execAddR g rd rs1 rs2 s
  | .subR g rd rs1 rs2 => Sys2Proof.Machine.execSubR g rd rs1 rs2 s
  | .xorR g rd rs1 rs2 => Sys2Proof.Machine.execXorR g rd rs1 rs2 s
  | .slR g rd rs1 rs2 => Sys2Proof.Machine.execSlR g rd rs1 rs2 s
  | .srR g rd rs1 rs2 => Sys2Proof.Machine.execSrR g rd rs1 rs2 s
  | .sraR g rd rs1 rs2 => Sys2Proof.Machine.execSraR g rd rs1 rs2 s
  | .orR g rd rs1 rs2 => Sys2Proof.Machine.execOrR g rd rs1 rs2 s
  | .andR g rd rs1 rs2 => Sys2Proof.Machine.execAndR g rd rs1 rs2 s
  | .norR g rd rs1 rs2 => Sys2Proof.Machine.execNorR g rd rs1 rs2 s
  | .shaddR g rd rs1 rs2 => Sys2Proof.Machine.execShaddR g rd rs1 rs2 s
  | .shadd2R g rd rs1 rs2 => Sys2Proof.Machine.execShadd2R g rd rs1 rs2 s
  | .addL g rd rs1 imm => Sys2Proof.Machine.execAddL g rd rs1 imm s
  | .subL g rd rs1 imm => Sys2Proof.Machine.execSubL g rd rs1 imm s
  | .xorL g rd rs1 imm => Sys2Proof.Machine.execXorL g rd rs1 imm s
  | .slL g rd rs1 imm => Sys2Proof.Machine.execSlL g rd rs1 imm s
  | .srL g rd rs1 imm => Sys2Proof.Machine.execSrL g rd rs1 imm s
  | .sraL g rd rs1 imm => Sys2Proof.Machine.execSraL g rd rs1 imm s
  | .orL g rd rs1 imm => Sys2Proof.Machine.execOrL g rd rs1 imm s
  | .andL g rd rs1 imm => Sys2Proof.Machine.execAndL g rd rs1 imm s
  | .norL g rd rs1 imm => Sys2Proof.Machine.execNorL g rd rs1 imm s
  | .shaddL g rd rs1 imm => Sys2Proof.Machine.execShaddL g rd rs1 imm s
  | .shadd2L g rd rs1 imm => Sys2Proof.Machine.execShadd2L g rd rs1 imm s
  | .mul g rs1 rs2 => Sys2Proof.Machine.execMul g rs1 rs2 s
  | .mulu g rs1 rs2 => Sys2Proof.Machine.execMulu g rs1 rs2 s
  | .cmpeqR g pd rs1 rs2 => Sys2Proof.Machine.execCmpeqR g pd rs1 rs2 s
  | .cmpneqR g pd rs1 rs2 => Sys2Proof.Machine.execCmpneqR g pd rs1 rs2 s
  | .cmpltR g pd rs1 rs2 => Sys2Proof.Machine.execCmpltR g pd rs1 rs2 s
  | .cmpleR g pd rs1 rs2 => Sys2Proof.Machine.execCmpleR g pd rs1 rs2 s
  | .cmpultR g pd rs1 rs2 => Sys2Proof.Machine.execCmpultR g pd rs1 rs2 s
  | .cmpuleR g pd rs1 rs2 => Sys2Proof.Machine.execCmpuleR g pd rs1 rs2 s
  | .btestR g pd rs1 rs2 => Sys2Proof.Machine.execBtestR g pd rs1 rs2 s
  | .cmpeqI g pd rs1 imm => Sys2Proof.Machine.execCmpeqI g pd rs1 imm s
  | .cmpneqI g pd rs1 imm => Sys2Proof.Machine.execCmpneqI g pd rs1 imm s
  | .cmpltI g pd rs1 imm => Sys2Proof.Machine.execCmpltI g pd rs1 imm s
  | .cmpleI g pd rs1 imm => Sys2Proof.Machine.execCmpleI g pd rs1 imm s
  | .cmpultI g pd rs1 imm => Sys2Proof.Machine.execCmpultI g pd rs1 imm s
  | .cmpuleI g pd rs1 imm => Sys2Proof.Machine.execCmpuleI g pd rs1 imm s
  | .btestI g pd rs1 imm => Sys2Proof.Machine.execBtestI g pd rs1 imm s
  | .por g pd ps1 ps2 => Sys2Proof.Machine.execPor g pd ps1 ps2 s
  | .pand g pd ps1 ps2 => Sys2Proof.Machine.execPand g pd ps1 ps2 s
  | .pxor g pd ps1 ps2 => Sys2Proof.Machine.execPxor g pd ps1 ps2 s
  | .bcopy g rd rs1 imm ps => Sys2Proof.Machine.execBcopy g rd rs1 imm ps s
  | .mts g sd rs1 => Sys2Proof.Machine.execMts g sd rs1 s
  | .mfs g rd ss => Sys2Proof.Machine.execMfs g rd ss s
  | .lws g rd ra imm => Sys2Proof.Machine.execLws g rd ra imm s
  | .lwl g rd ra imm => Sys2Proof.Machine.execLwl g rd ra imm s
  | .lwc g rd ra imm => Sys2Proof.Machine.execLwc g rd ra imm s
  | .lwm g rd ra imm => Sys2Proof.Machine.execLwm g rd ra imm s
  | .lhs g rd ra imm => Sys2Proof.Machine.execLhs g rd ra imm s
  | .lhl g rd ra imm => Sys2Proof.Machine.execLhl g rd ra imm s
  | .lhc g rd ra imm => Sys2Proof.Machine.execLhc g rd ra imm s
  | .lhm g rd ra imm => Sys2Proof.Machine.execLhm g rd ra imm s
  | .lbs g rd ra imm => Sys2Proof.Machine.execLbs g rd ra imm s
  | .lbl g rd ra imm => Sys2Proof.Machine.execLbl g rd ra imm s
  | .lbc g rd ra imm => Sys2Proof.Machine.execLbc g rd ra imm s
  | .lbm g rd ra imm => Sys2Proof.Machine.execLbm g rd ra imm s
  | .lhus g rd ra imm => Sys2Proof.Machine.execLhus g rd ra imm s
  | .lhul g rd ra imm => Sys2Proof.Machine.execLhul g rd ra imm s
  | .lhuc g rd ra imm => Sys2Proof.Machine.execLhuc g rd ra imm s
  | .lhum g rd ra imm => Sys2Proof.Machine.execLhum g rd ra imm s
  | .lbus g rd ra imm => Sys2Proof.Machine.execLbus g rd ra imm s
  | .lbul g rd ra imm => Sys2Proof.Machine.execLbul g rd ra imm s
  | .lbuc g rd ra imm => Sys2Proof.Machine.execLbuc g rd ra imm s
  | .lbum g rd ra imm => Sys2Proof.Machine.execLbum g rd ra imm s
  | .sws g ra rs imm => Sys2Proof.Machine.execSws g ra rs imm s
  | .swl g ra rs imm => Sys2Proof.Machine.execSwl g ra rs imm s
  | .swc g ra rs imm => Sys2Proof.Machine.execSwc g ra rs imm s
  | .swm g ra rs imm => Sys2Proof.Machine.execSwm g ra rs imm s
  | .shs g ra rs imm => Sys2Proof.Machine.execShs g ra rs imm s
  | .shl g ra rs imm => Sys2Proof.Machine.execShl g ra rs imm s
  | .shc g ra rs imm => Sys2Proof.Machine.execShc g ra rs imm s
  | .shm g ra rs imm => Sys2Proof.Machine.execShm g ra rs imm s
  | .sbs g ra rs imm => Sys2Proof.Machine.execSbs g ra rs imm s
  | .sbl g ra rs imm => Sys2Proof.Machine.execSbl g ra rs imm s
  | .sbc g ra rs imm => Sys2Proof.Machine.execSbc g ra rs imm s
  | .sbm g ra rs imm => Sys2Proof.Machine.execSbm g ra rs imm s
  | .sresI g imm => Sys2Proof.Machine.execSresI g imm s
  | .sensI g imm => Sys2Proof.Machine.execSensI g imm s
  | .sfreeI g imm => Sys2Proof.Machine.execSfreeI g imm s
  | .sspillI g imm => Sys2Proof.Machine.execSspillI g imm s
  | .sensR g rs => Sys2Proof.Machine.execSensR g rs s
  | .sspillR g rs => Sys2Proof.Machine.execSspillR g rs s
  | .call g d imm => Sys2Proof.Machine.execCall g d imm s
  | .br g d imm => Sys2Proof.Machine.execBr g d imm s
  | .brcf g d imm => Sys2Proof.Machine.execBrcf g d imm s
  | .trap g imm => Sys2Proof.Machine.execTrap g imm s
  | .ret g d => Sys2Proof.Machine.execRet g d s
  | .xret g d => Sys2Proof.Machine.execXret g d s
  | .callr g d rs => Sys2Proof.Machine.execCallr g d rs s
  | .brr g d rs => Sys2Proof.Machine.execBrr g d rs s
  | .brcfr g d rs => Sys2Proof.Machine.execBrcfr g d rs s
  | .brcfrPair g d rs1 rs2 => Sys2Proof.Machine.execBrcfrPair g d rs1 rs2 s

end Sys2Proof.Machine
end

