-- ==== Sys2Proof/Machine/Cycle.lean ====
section
/-! DEFINITION. The cycle driver and the fetch step (rules R100, R101, R118, R365): what one step of the machine is. -/

namespace Sys2Proof.Machine

/-- A result carried on, or the stop it ended in: the cycle is abandoned at a raise (rule R128). -/
def andThen (r : Result) (f : State → Result) : Result :=
  match r with
  | .next s => f s
  | .fault x => .fault x
  | .refused x => .refused x

/-- One invocation of a stage operation on one slot (rules R100, R103); `BUBBLE` is not invoked at all (rule R23). -/
def invoke (st : Stage) (k : SlotIx) (s : State) : Result :=
  match (s.slotAt st k).instr with
  | .bubble => .next s
  | .instr i => exec i (s.atSlot st k)
  | .intr h => intrStages h (s.atSlot st k)
  | .halt => haltStages (s.atSlot st k)

/-- Both slots of a stage, slot 0 first (rule R100). -/
def invokeStage (st : Stage) (s : State) : Result := andThen (invoke st .s0 s) (invoke st .s1)

/-- A bundle with two writers of one register is refused before it executes (rules R113, R397). -/
def checkWriters (s : State) : Result := if s.pipe.ex.twoWriters s.params then .refused .twoWriters else .next s

/-- A control transfer that can be taken, in a delay slot of a delayed transfer that has taken effect, is refused
(rule R301). -/
def checkDelaySlots (s : State) : Result :=
  if s.pipe.ex.transferInDelay || s.pipe.dr.transferInDelay || s.pipe.fetch.transferInDelay then
    .refused .transferInDelaySlot
  else .next s

/-- The stage operations of one cycle: commit, execute, decode, fetch (rules R100, R102). After each of the two stages in
which a transfer can take effect its delay slots are looked at, and before `execute_stage` the two slots of the bundle
(DEDUCED, notes/assumptions/9.md and 10.md: the rules name no moment for these refusals). -/
def stageOps (s : State) : Result :=
  andThen (invokeStage .MW { s with stallReq := none }) fun s =>
    andThen (checkDelaySlots s) fun s =>
      andThen (checkWriters s) fun s =>
        andThen (invokeStage .EX s) fun s =>
          andThen (checkDelaySlots s) fun s => andThen (invokeStage .DR s) (invokeStage .IF)

/-- A stage that holds an instruction. -/
def Bundle.occupied (b : Bundle) : Bool := decide (b.s0.instr ≠ .bubble) || decide (b.s1.instr ≠ .bubble)

/-- Every bundle moves one stage on (rule R100); what was in `MW` leaves the pipeline. Every bundle that leaves `EX`, an
injected `INTR` among them, counts as one of the bundles behind a load (DESIGN CHOICE, notes/assumptions/11.md: rule R242
speaks of the bundles of the program). -/
def advance (s : State) : State :=
  let s1 := if s.pipe.ex.occupied then s.ageLoads else s
  { s1 with pipe := { s.pipe with mw := s.pipe.ex, ex := s.pipe.dr, dr := s.pipe.fetch } }

/-- A cycle with a stall: the stage and all upstream of it hold, those downstream drain, nothing is fetched
(rules R100, R118). Only `MW` is ever stalled by an instruction. -/
def holdStages (st : Stage) (s : State) : State :=
  match st with
  | .MW => s
  | .EX => { s with pipe := { s.pipe with mw := Bundle.empty } }
  | .DR => { s with pipe := { s.pipe with mw := s.pipe.ex, ex := Bundle.empty } }
  | .IF => { s with pipe := { s.pipe with mw := s.pipe.ex, ex := s.pipe.dr, dr := Bundle.empty } }

/-- The next event at the interrupt inputs (rule R362): drawn once per fetch step. -/
def drawIrq (s : State) : State :=
  match s.exc.arrivals with
  | [] => s
  | .quiet :: rest => { s with exc := { s.exc with arrivals := rest } }
  | .raise q :: rest => { s with exc := { s.exc with arrivals := rest, pending := some q } }
  | .withdraw :: rest => { s with exc := { s.exc with arrivals := rest, pending := none } }

/-- `interrupt_to_inject()`: the interrupt to take now, if any (rule R365). -/
def irqToInject (s : State) : Option Irq :=
  if s.intrBlock = 0 ∧ s.exc.intrEnabled = true then s.exc.pending else none

/-- The `INTR` slot (rules R296, R365). -/
def intrSlot (s : State) (q : Irq) : Slot :=
  { Slot.bubble with instr := .intr q.handler, addr := s.npc, next := s.npc, base := s.base, pred := true }

/-- Injection: acceptance off, the collaborator told (`ack`), `intr_block` set; `PC` and `nPC` stay (rule R365). -/
def injectIrq (s : State) (q : Irq) : State :=
  { s with
    exc := { s.exc with intrEnabled := false, pending := none }
    intrBlock := s.params.dsIntr
    pipe := { s.pipe with fetch := ⟨intrSlot s q, Slot.bubble⟩ } }

/-- The slot of a fetched instruction (rule R101): every field not listed is 0. -/
def fetchedSlot (i : SlotInstr) (addr next base : Word) : Slot :=
  { Slot.bubble with instr := i, addr := addr, next := next, base := base }

/-- The fetched bundle put into `IF` (rule R101). A slot 1 that is `BUBBLE` has its address, next address and base like any
other. -/
def issueBundle (s : State) (f : Fetched) : State :=
  let next := s.pc + BitVec.ofNat 32 f.len
  { s with
    npc := next
    intrBlock :=
      match transferIds s.params f.i0 with
      | some n => n
      | none => s.intrBlock - 1
    pipe := { s.pipe with
      fetch :=
        ⟨fetchedSlot (.instr f.i0) s.pc next s.base,
         fetchedSlot (match f.i1 with | some i => .instr i | none => .bubble) (s.pc + 4) next s.base⟩ } }

/-- `PC <- nPC` (rule R101). -/
def takeNpc (s : State) : State := { s with pc := s.npc }

/-- The fetch step without an interrupt: the two words at `PC` are fetched, decoded and put into `IF` (rule R101). -/
def fetchBundle (s : State) : Result :=
  match mcFetch s s.pc with
  | .error f => .fault f
  | .ok (w0, w1, s') =>
    match decodeBundle s'.params.dualIssue w0 w1 with
    | .error r => .fault (.illegal r.word s'.pc s')
    | .ok f => .next (issueBundle s' f)

/-- The fetched bundle moved on from `IF` to `DR`, as rule R100 does at the end of the next cycle. -/
def moveToDecode (s : State) : State := { s with pipe := { s.pipe with dr := s.pipe.fetch, fetch := Bundle.empty } }

/-- `fetch_step()` (rule R101). -/
def fetchStep (s : State) : Result :=
  match irqToInject (drawIrq s) with
  | some q => .next (injectIrq (drawIrq s) q)
  | none => fetchBundle (takeNpc (drawIrq s))

/-- The end of a cycle: `tick()` and the cycle count (rules R100, R334); the driver's loop variables return to where
they start. -/
def finishCycle (s : State) : State := { mcTick s with cycle := s.cycle + 1, cur := ⟨.IF, .s0⟩ }

/-- The second half of a cycle, after the stage operations (rule R100). -/
def endCycle (s : State) : Result :=
  match s.stallReq with
  | none => andThen (fetchStep (advance s)) fun s => .next (finishCycle s)
  | some st => .next (finishCycle (holdStages st s))

/-- One simulated cycle (rule R100). -/
def cycle (s : State) : Result := andThen (stageOps s) endCycle

end Sys2Proof.Machine
end

