-- ==== Sys2Proof/Machine/Step.lean ====
section
/-! DEFINITION. One step of the machine is one simulated cycle (rules R100, R101: the step function of the whole machine).
The work is done in Cycle.lean and below. -/

namespace Sys2Proof.Machine

/-- One step: one simulated cycle (rule R100). -/
def step (s : State) : Host.Outcome State Fault Refusal := cycle s

/-- `s` with an instruction whose bits are `w`, numbered as spec/opcode_table.json numbers them, placed so that the very
next step runs it (notes/assumptions/2.md).

The machine does not run a word in the cycle that fetches it: rule R101 puts the bundle fetched at the end of a cycle into
`IF`, and its first stage operation, `decode_stage`, runs when it has moved to `DR`. So the word is stored in main memory at
`nPC`, and what two fetch steps do is done: the bundle at `nPC` is fetched and stands in `DR`, the bundle behind it is
fetched and stands in `IF`, `PC` and `nPC` have moved on past both. The next step invokes its `decode_stage`, the two after
it its `execute_stage` and `commit_stage`. Where a fetch would fault, the machine stands before it and the next step
raises that fault. -/
def State.withFetchWord (s : State) (nbits w : Nat) : State :=
  let placed := s.poke s.npc (tableBytes s.params.endian nbits w)
  match fetchBundle (takeNpc placed) with
  | .next first =>
    let inDR := moveToDecode first
    match fetchBundle (takeNpc inDR) with
    | .next second => second
    | .fault _ => inDR
    | .refused _ => inDR
  | .fault _ => placed
  | .refused _ => placed

end Sys2Proof.Machine
end

