-- ==== Sys2Proof/Safety.lean ====
section
/-! DEFINITION. The terms in which the statements are written: the class of every instruction with its operands
(rule R24), what each function computes, said over numbers as the rules say it, what a frame leaves alone, and the
invariants of the machine. Nothing here is used by the machine itself. -/

namespace Sys2Proof.Machine

open Sys2Proof.Config

/-! ### Classes of instructions -/

/-- The functions of rules R141 to R151. -/
inductive AluFn where
  | add
  | sub
  | xor
  | sl
  | sr
  | sra
  | or
  | and
  | nor
  | shadd
  | shadd2
deriving DecidableEq, Repr

/-- The functions of rules R166 to R172. -/
inductive CmpFn where
  | eq
  | neq
  | lt
  | le
  | ult
  | ule
  | bit
deriving DecidableEq, Repr

/-- The functions of rules R176 to R178. -/
inductive PlogFn where
  | or
  | and
  | xor
deriving DecidableEq, Repr

/-- Where a local branch goes (rules R281, R285). -/
inductive BranchTo where
  | rel (imm : Int)
  | abs (rs : Reg)
deriving DecidableEq, Repr

/-- Where base and target of a transfer dispatched in `MW` come from (rules R280 to R291). -/
inductive TransferTo where
  | imm (imm : Nat)
  | reg (rs : Reg)
  | pair (rs1 rs2 : Reg)
  | saved
  | code (imm : Nat)
deriving DecidableEq, Repr

/-- The transfers dispatched in `MW`, with the delayed flag (rule R265). `intr` is interrupt entry, the kind of the internal
instruction `INTR`; no constructor of `Instr` has it. -/
inductive TransferKind where
  | call (d : Bool)
  | fill (d : Bool)
  | ret (d : Bool)
  | xret (d : Bool)
  | trap
  | intr
deriving DecidableEq, Repr

/-- The class of an instruction and its operands, the guard apart (rule R24). -/
inductive Shape where
  | alu (f : AluFn) (rd rs1 : Reg) (o : Op2)
  | mul (signed : Bool) (rs1 rs2 : Reg)
  | cmp (f : CmpFn) (pd : PReg) (rs1 : Reg) (o : Op2)
  | plog (f : PlogFn) (pd : PReg) (ps1 ps2 : PredRef)
  | bcopy (rd rs1 : Reg) (imm : Nat) (ps : PredRef)
  | mts (sd : SReg) (rs1 : Reg)
  | mfs (rd : Reg) (ss : SReg)
  | load (area : Area) (w : Width) (signed : Bool) (rd ra : Reg) (imm : Int)
  | store (area : Area) (w : Width) (ra rs : Reg) (imm : Int)
  | stackI (op : StackOp) (imm : Nat)
  | stackR (op : StackOp) (rs : Reg)
  | branch (d : Bool) (dest : BranchTo)
  | transfer (kind : TransferKind) (dest : TransferTo)
deriving DecidableEq, Repr

/-- The class of every instruction (rules R24, R80 to R83, R265). -/
def shapeOf : Instr → Shape
  | .addI _ rd rs1 imm => .alu .add rd rs1 (.imm (zextImm imm))
  | .subI _ rd rs1 imm => .alu .sub rd rs1 (.imm (zextImm imm))
  | .xorI _ rd rs1 imm => .alu .xor rd rs1 (.imm (zextImm imm))
  | .slI _ rd rs1 imm => .alu .sl rd rs1 (.imm (zextImm imm))
  | .srI _ rd rs1 imm => .alu .sr rd rs1 (.imm (zextImm imm))
  | .sraI _ rd rs1 imm => .alu .sra rd rs1 (.imm (zextImm imm))
  | .orI _ rd rs1 imm => .alu .or rd rs1 (.imm (zextImm imm))
  | .andI _ rd rs1 imm => .alu .and rd rs1 (.imm (zextImm imm))
  | .addR _ rd rs1 rs2 => .alu .add rd rs1 (.reg rs2)
  | .subR _ rd rs1 rs2 => .alu .sub rd rs1 (.reg rs2)
  | .xorR _ rd rs1 rs2 => .alu .xor rd rs1 (.reg rs2)
  | .slR _ rd rs1 rs2 => .alu .sl rd rs1 (.reg rs2)
  | .srR _ rd rs1 rs2 => .alu .sr rd rs1 (.reg rs2)
  | .sraR _ rd rs1 rs2 => .alu .sra rd rs1 (.reg rs2)
  | .orR _ rd rs1 rs2 => .alu .or rd rs1 (.reg rs2)
  | .andR _ rd rs1 rs2 => .alu .and rd rs1 (.reg rs2)
  | .norR _ rd rs1 rs2 => .alu .nor rd rs1 (.reg rs2)
  | .shaddR _ rd rs1 rs2 => .alu .shadd rd rs1 (.reg rs2)
  | .shadd2R _ rd rs1 rs2 => .alu .shadd2 rd rs1 (.reg rs2)
  | .addL _ rd rs1 imm => .alu .add rd rs1 (.imm imm)
  | .subL _ rd rs1 imm => .alu .sub rd rs1 (.imm imm)
  | .xorL _ rd rs1 imm => .alu .xor rd rs1 (.imm imm)
  | .slL _ rd rs1 imm => .alu .sl rd rs1 (.imm imm)
  | .srL _ rd rs1 imm => .alu .sr rd rs1 (.imm imm)
  | .sraL _ rd rs1 imm => .alu .sra rd rs1 (.imm imm)
  | .orL _ rd rs1 imm => .alu .or rd rs1 (.imm imm)
  | .andL _ rd rs1 imm => .alu .and rd rs1 (.imm imm)
  | .norL _ rd rs1 imm => .alu .nor rd rs1 (.imm imm)
  | .shaddL _ rd rs1 imm => .alu .shadd rd rs1 (.imm imm)
  | .shadd2L _ rd rs1 imm => .alu .shadd2 rd rs1 (.imm imm)
  | .mul _ rs1 rs2 => .mul true rs1 rs2
  | .mulu _ rs1 rs2 => .mul false rs1 rs2
  | .cmpeqR _ pd rs1 rs2 => .cmp .eq pd rs1 (.reg rs2)
  | .cmpneqR _ pd rs1 rs2 => .cmp .neq pd rs1 (.reg rs2)
  | .cmpltR _ pd rs1 rs2 => .cmp .lt pd rs1 (.reg rs2)
  | .cmpleR _ pd rs1 rs2 => .cmp .le pd rs1 (.reg rs2)
  | .cmpultR _ pd rs1 rs2 => .cmp .ult pd rs1 (.reg rs2)
  | .cmpuleR _ pd rs1 rs2 => .cmp .ule pd rs1 (.reg rs2)
  | .btestR _ pd rs1 rs2 => .cmp .bit pd rs1 (.reg rs2)
  | .cmpeqI _ pd rs1 imm => .cmp .eq pd rs1 (.imm (zextImm imm))
  | .cmpneqI _ pd rs1 imm => .cmp .neq pd rs1 (.imm (zextImm imm))
  | .cmpltI _ pd rs1 imm => .cmp .lt pd rs1 (.imm (zextImm imm))
  | .cmpleI _ pd rs1 imm => .cmp .le pd rs1 (.imm (zextImm imm))
  | .cmpultI _ pd rs1 imm => .cmp .ult pd rs1 (.imm (zextImm imm))
  | .cmpuleI _ pd rs1 imm => .cmp .ule pd rs1 (.imm (zextImm imm))
  | .btestI _ pd rs1 imm => .cmp .bit pd rs1 (.imm (zextImm imm))
  | .por _ pd ps1 ps2 => .plog .or pd ps1 ps2
  | .pand _ pd ps1 ps2 => .plog .and pd ps1 ps2
  | .pxor _ pd ps1 ps2 => .plog .xor pd ps1 ps2
  | .bcopy _ rd rs1 imm ps => .bcopy rd rs1 imm ps
  | .mts _ sd rs1 => .mts sd rs1
  | .mfs _ rd ss => .mfs rd ss
  | .lws _ rd ra imm => .load .stackCache .word false rd ra imm
  | .lwl _ rd ra imm => .load .localMem .word false rd ra imm
  | .lwc _ rd ra imm => .load .dataCache .word false rd ra imm
  | .lwm _ rd ra imm => .load .mainMem .word false rd ra imm
  | .lhs _ rd ra imm => .load .stackCache .half true rd ra imm
  | .lhl _ rd ra imm => .load .localMem .half true rd ra imm
  | .lhc _ rd ra imm => .load .dataCache .half true rd ra imm
  | .lhm _ rd ra imm => .load .mainMem .half true rd ra imm
  | .lbs _ rd ra imm => .load .stackCache .byte true rd ra imm
  | .lbl _ rd ra imm => .load .localMem .byte true rd ra imm
  | .lbc _ rd ra imm => .load .dataCache .byte true rd ra imm
  | .lbm _ rd ra imm => .load .mainMem .byte true rd ra imm
  | .lhus _ rd ra imm => .load .stackCache .half false rd ra imm
  | .lhul _ rd ra imm => .load .localMem .half false rd ra imm
  | .lhuc _ rd ra imm => .load .dataCache .half false rd ra imm
  | .lhum _ rd ra imm => .load .mainMem .half false rd ra imm
  | .lbus _ rd ra imm => .load .stackCache .byte false rd ra imm
  | .lbul _ rd ra imm => .load .localMem .byte false rd ra imm
  | .lbuc _ rd ra imm => .load .dataCache .byte false rd ra imm
  | .lbum _ rd ra imm => .load .mainMem .byte false rd ra imm
  | .sws _ ra rs imm => .store .stackCache .word ra rs imm
  | .swl _ ra rs imm => .store .localMem .word ra rs imm
  | .swc _ ra rs imm => .store .dataCache .word ra rs imm
  | .swm _ ra rs imm => .store .mainMem .word ra rs imm
  | .shs _ ra rs imm => .store .stackCache .half ra rs imm
  | .shl _ ra rs imm => .store .localMem .half ra rs imm
  | .shc _ ra rs imm => .store .dataCache .half ra rs imm
  | .shm _ ra rs imm => .store .mainMem .half ra rs imm
  | .sbs _ ra rs imm => .store .stackCache .byte ra rs imm
  | .sbl _ ra rs imm => .store .localMem .byte ra rs imm
  | .sbc _ ra rs imm => .store .dataCache .byte ra rs imm
  | .sbm _ ra rs imm => .store .mainMem .byte ra rs imm
  | .sresI _ imm => .stackI .reserve imm
  | .sensI _ imm => .stackI .ensure imm
  | .sfreeI _ imm => .stackI .free imm
  | .sspillI _ imm => .stackI .spill imm
  | .sensR _ rs => .stackR .ensure rs
  | .sspillR _ rs => .stackR .spill rs
  | .call _ d imm => .transfer (.call d) (.imm imm)
  | .br _ d imm => .branch d (.rel imm)
  | .brcf _ d imm => .transfer (.fill d) (.imm imm)
  | .trap _ imm => .transfer .trap (.code imm)
  | .ret _ d => .transfer (.ret d) .saved
  | .xret _ d => .transfer (.xret d) .saved
  | .callr _ d rs => .transfer (.call d) (.reg rs)
  | .brr _ d rs => .branch d (.abs rs)
  | .brcfr _ d rs => .transfer (.fill d) (.reg rs)
  | .brcfrPair _ d rs1 rs2 => .transfer (.fill d) (.pair rs1 rs2)

/-- The guard of every instruction (rules R15, R64). -/
def guardOfInstr : Instr → PredRef
  | .addI g _ _ _ => g
  | .subI g _ _ _ => g
  | .xorI g _ _ _ => g
  | .slI g _ _ _ => g
  | .srI g _ _ _ => g
  | .sraI g _ _ _ => g
  | .orI g _ _ _ => g
  | .andI g _ _ _ => g
  | .addR g _ _ _ => g
  | .subR g _ _ _ => g
  | .xorR g _ _ _ => g
  | .slR g _ _ _ => g
  | .srR g _ _ _ => g
  | .sraR g _ _ _ => g
  | .orR g _ _ _ => g
  | .andR g _ _ _ => g
  | .norR g _ _ _ => g
  | .shaddR g _ _ _ => g
  | .shadd2R g _ _ _ => g
  | .addL g _ _ _ => g
  | .subL g _ _ _ => g
  | .xorL g _ _ _ => g
  | .slL g _ _ _ => g
  | .srL g _ _ _ => g
  | .sraL g _ _ _ => g
  | .orL g _ _ _ => g
  | .andL g _ _ _ => g
  | .norL g _ _ _ => g
  | .shaddL g _ _ _ => g
  | .shadd2L g _ _ _ => g
  | .mul g _ _ => g
  | .mulu g _ _ => g
  | .cmpeqR g _ _ _ => g
  | .cmpneqR g _ _ _ => g
  | .cmpltR g _ _ _ => g
  | .cmpleR g _ _ _ => g
  | .cmpultR g _ _ _ => g
  | .cmpuleR g _ _ _ => g
  | .btestR g _ _ _ => g
  | .cmpeqI g _ _ _ => g
  | .cmpneqI g _ _ _ => g
  | .cmpltI g _ _ _ => g
  | .cmpleI g _ _ _ => g
  | .cmpultI g _ _ _ => g
  | .cmpuleI g _ _ _ => g
  | .btestI g _ _ _ => g
  | .por g _ _ _ => g
  | .pand g _ _ _ => g
  | .pxor g _ _ _ => g
  | .bcopy g _ _ _ _ => g
  | .mts g _ _ => g
  | .mfs g _ _ => g
  | .lws g _ _ _ => g
  | .lwl g _ _ _ => g
  | .lwc g _ _ _ => g
  | .lwm g _ _ _ => g
  | .lhs g _ _ _ => g
  | .lhl g _ _ _ => g
  | .lhc g _ _ _ => g
  | .lhm g _ _ _ => g
  | .lbs g _ _ _ => g
  | .lbl g _ _ _ => g
  | .lbc g _ _ _ => g
  | .lbm g _ _ _ => g
  | .lhus g _ _ _ => g
  | .lhul g _ _ _ => g
  | .lhuc g _ _ _ => g
  | .lhum g _ _ _ => g
  | .lbus g _ _ _ => g
  | .lbul g _ _ _ => g
  | .lbuc g _ _ _ => g
  | .lbum g _ _ _ => g
  | .sws g _ _ _ => g
  | .swl g _ _ _ => g
  | .swc g _ _ _ => g
  | .swm g _ _ _ => g
  | .shs g _ _ _ => g
  | .shl g _ _ _ => g
  | .shc g _ _ _ => g
  | .shm g _ _ _ => g
  | .sbs g _ _ _ => g
  | .sbl g _ _ _ => g
  | .sbc g _ _ _ => g
  | .sbm g _ _ _ => g
  | .sresI g _ => g
  | .sensI g _ => g
  | .sfreeI g _ => g
  | .sspillI g _ => g
  | .sensR g _ => g
  | .sspillR g _ => g
  | .call g _ _ => g
  | .br g _ _ => g
  | .brcf g _ _ => g
  | .trap g _ => g
  | .ret g _ => g
  | .xret g _ => g
  | .callr g _ _ => g
  | .brr g _ _ => g
  | .brcfr g _ _ => g
  | .brcfrPair g _ _ _ => g

/-- The unused bits of each instruction's word (rule R64): those of the table's `strict_mask` that its `mask` leaves
out, and the `d` bit of `trap`, which is ignored (rule R283). -/
def unusedBits : Instr → Word
  | .addI _ _ _ _ => 0x000000
  | .subI _ _ _ _ => 0x000000
  | .xorI _ _ _ _ => 0x000000
  | .slI _ _ _ _ => 0x000000
  | .srI _ _ _ _ => 0x000000
  | .sraI _ _ _ _ => 0x000000
  | .orI _ _ _ _ => 0x000000
  | .andI _ _ _ _ => 0x000000
  | .addR _ _ _ _ => 0x000000
  | .subR _ _ _ _ => 0x000000
  | .xorR _ _ _ _ => 0x000000
  | .slR _ _ _ _ => 0x000000
  | .srR _ _ _ _ => 0x000000
  | .sraR _ _ _ _ => 0x000000
  | .orR _ _ _ _ => 0x000000
  | .andR _ _ _ _ => 0x000000
  | .norR _ _ _ _ => 0x000000
  | .shaddR _ _ _ _ => 0x000000
  | .shadd2R _ _ _ _ => 0x000000
  | .addL _ _ _ _ => 0x000F80
  | .subL _ _ _ _ => 0x000F80
  | .xorL _ _ _ _ => 0x000F80
  | .slL _ _ _ _ => 0x000F80
  | .srL _ _ _ _ => 0x000F80
  | .sraL _ _ _ _ => 0x000F80
  | .orL _ _ _ _ => 0x000F80
  | .andL _ _ _ _ => 0x000F80
  | .norL _ _ _ _ => 0x000F80
  | .shaddL _ _ _ _ => 0x000F80
  | .shadd2L _ _ _ _ => 0x000F80
  | .mul _ _ _ => 0x3E0000
  | .mulu _ _ _ => 0x3E0000
  | .cmpeqR _ _ _ _ => 0x300000
  | .cmpneqR _ _ _ _ => 0x300000
  | .cmpltR _ _ _ _ => 0x300000
  | .cmpleR _ _ _ _ => 0x300000
  | .cmpultR _ _ _ _ => 0x300000
  | .cmpuleR _ _ _ _ => 0x300000
  | .btestR _ _ _ _ => 0x300000
  | .cmpeqI _ _ _ _ => 0x300000
  | .cmpneqI _ _ _ _ => 0x300000
  | .cmpltI _ _ _ _ => 0x300000
  | .cmpleI _ _ _ _ => 0x300000
  | .cmpultI _ _ _ _ => 0x300000
  | .cmpuleI _ _ _ _ => 0x300000
  | .btestI _ _ _ _ => 0x300000
  | .por _ _ _ _ => 0x310800
  | .pand _ _ _ _ => 0x310800
  | .pxor _ _ _ _ => 0x310800
  | .bcopy _ _ _ _ _ => 0x000000
  | .mts _ _ _ => 0x3E0F80
  | .mfs _ _ _ => 0x01FF80
  | .lws _ _ _ _ => 0x000000
  | .lwl _ _ _ _ => 0x000000
  | .lwc _ _ _ _ => 0x000000
  | .lwm _ _ _ _ => 0x000000
  | .lhs _ _ _ _ => 0x000000
  | .lhl _ _ _ _ => 0x000000
  | .lhc _ _ _ _ => 0x000000
  | .lhm _ _ _ _ => 0x000000
  | .lbs _ _ _ _ => 0x000000
  | .lbl _ _ _ _ => 0x000000
  | .lbc _ _ _ _ => 0x000000
  | .lbm _ _ _ _ => 0x000000
  | .lhus _ _ _ _ => 0x000000
  | .lhul _ _ _ _ => 0x000000
  | .lhuc _ _ _ _ => 0x000000
  | .lhum _ _ _ _ => 0x000000
  | .lbus _ _ _ _ => 0x000000
  | .lbul _ _ _ _ => 0x000000
  | .lbuc _ _ _ _ => 0x000000
  | .lbum _ _ _ _ => 0x000000
  | .sws _ _ _ _ => 0x000000
  | .swl _ _ _ _ => 0x000000
  | .swc _ _ _ _ => 0x000000
  | .swm _ _ _ _ => 0x000000
  | .shs _ _ _ _ => 0x000000
  | .shl _ _ _ _ => 0x000000
  | .shc _ _ _ _ => 0x000000
  | .shm _ _ _ _ => 0x000000
  | .sbs _ _ _ _ => 0x000000
  | .sbl _ _ _ _ => 0x000000
  | .sbc _ _ _ _ => 0x000000
  | .sbm _ _ _ _ => 0x000000
  | .sresI _ _ => 0x000000
  | .sensI _ _ => 0x000000
  | .sfreeI _ _ => 0x000000
  | .sspillI _ _ => 0x000000
  | .sensR _ _ => 0x020FFF
  | .sspillR _ _ => 0x020FFF
  | .call _ _ _ => 0x000000
  | .br _ _ _ => 0x000000
  | .brcf _ _ _ => 0x000000
  | .trap _ _ => 0x400000
  | .ret _ _ => 0x3FFFF0
  | .xret _ _ => 0x3FFFF0
  | .callr _ _ _ => 0x3E0FF0
  | .brr _ _ _ => 0x3E0FF0
  | .brcfr _ _ _ => 0x3E0FF0
  | .brcfrPair _ _ _ _ => 0x3E0070

/-! ### What the functions compute, over numbers -/

/-- `signed(v)` taken back to a pattern: an integer modulo `2^32` (rule R6). -/
def wrap32 (z : Int) : Nat := (z % 4294967296).toNat

/-- `f(a, b)` of rules R141 to R151, `a` and `b` the unsigned values of the operands; `a >>s n` is the signed value
divided by `2^n`, rounded down. -/
def aluValue (f : AluFn) (a b : Word) : Nat :=
  match f with
  | .add => (a.toNat + b.toNat) % 4294967296
  | .sub => wrap32 (a.toNat - b.toNat)
  | .xor => a.toNat ^^^ b.toNat
  | .sl => a.toNat * 2 ^ (b.toNat % 32) % 4294967296
  | .sr => a.toNat / 2 ^ (b.toNat % 32)
  | .sra => wrap32 (a.toInt / 2 ^ (b.toNat % 32))
  | .or => a.toNat ||| b.toNat
  | .and => a.toNat &&& b.toNat
  | .nor => 4294967295 - (a.toNat ||| b.toNat)
  | .shadd => (2 * a.toNat + b.toNat) % 4294967296
  | .shadd2 => (4 * a.toNat + b.toNat) % 4294967296

/-- `c(a, b)` of rules R166 to R172. -/
def CmpHolds (f : CmpFn) (a b : Word) : Prop :=
  match f with
  | .eq => a.toNat = b.toNat
  | .neq => a.toNat ≠ b.toNat
  | .lt => a.toInt < b.toInt
  | .le => a.toInt ≤ b.toInt
  | .ult => a.toNat < b.toNat
  | .ule => a.toNat ≤ b.toNat
  | .bit => a.toNat / 2 ^ (b.toNat % 32) % 2 = 1

/-- `g(x, y)` of rules R176 to R178. -/
def PlogHolds (f : PlogFn) (x y : Bool) : Prop :=
  match f with
  | .or => x = true ∨ y = true
  | .and => x = true ∧ y = true
  | .xor => x ≠ y

/-- The product of rules R161 and R162, modulo `2^64`. -/
def productValue (signed : Bool) (a b : Word) : Nat :=
  if signed then (a.toInt * b.toInt % 18446744073709551616).toNat else a.toNat * b.toNat

/-- `n` bytes from `a` upward as one big-endian number (rule R41). -/
def bigEndian (byteAt : Word → Byte) (a : Word) : Nat → Nat
  | 0 => 0
  | n + 1 => (byteAt a).toNat * 256 ^ n + bigEndian byteAt (a + 1) n

/-- `n` bytes from `a` upward as one little-endian number. -/
def littleEndian (byteAt : Word → Byte) (a : Word) : Nat → Nat
  | 0 => 0
  | n + 1 => (byteAt a).toNat + 256 * littleEndian byteAt (a + 1) n

/-- `n` bytes from `a` upward as one number in a byte order (rule R41). -/
def numberAt (e : Endian) (byteAt : Word → Byte) (a : Word) (n : Nat) : Nat :=
  match e with
  | .big => bigEndian byteAt a n
  | .little => littleEndian byteAt a n

/-- The value a load gives (rule R42): the number at `a`, sign-extended where the load is signed. -/
def loadValue (e : Endian) (byteAt : Word → Byte) (w : Width) (signed : Bool) (a : Word) : Nat :=
  let u := numberAt e byteAt a w.bytes
  if signed = true ∧ 256 ^ w.bytes ≤ 2 * u then 4294967296 + u - 256 ^ w.bytes else u

/-- Byte `k` of the `n` bytes that a store of `v` writes, lowest address first (rules R41, R42). -/
def storedByte (e : Endian) (n : Nat) (v : Word) (k : Nat) : Nat :=
  match e with
  | .big => v.toNat / 256 ^ (n - 1 - k) % 256
  | .little => v.toNat / 256 ^ k % 256

/-- Address `b` is byte `k` of the access of width `w` at `a`, for some `k`. -/
def InAccess (a : Word) (w : Width) (b : Word) : Prop := ∃ k, k < w.bytes ∧ b = a + BitVec.ofNat 32 k

/-! ### What an invocation leaves alone -/

/-- What an invocation may change: the listed registers, and each part of the state whose flag is set. -/
structure Touch where
  gprs : List Reg := []
  preds : List PReg := []
  sprs : List SReg := []
  /-- `BASE` and `nPC`. -/
  control : Bool := false
  memory : Bool := false
  /-- The frame stack and what the profiling collector was told. -/
  frames : Bool := false
  methodCache : Bool := false
  intrEnabled : Bool := false
  /-- The answers of the collaborators that are still to come. -/
  answers : Bool := false
  stall : Bool := false
  /-- Slots other than the one being invoked. -/
  otherSlots : Bool := false

/-- Everything outside `w` is as before: every register, every byte that any area shows, the program-counter group, the
method cache, the exception-handler collaborator, the frames, the parameters, and every slot but the one invoked. -/
def KeepsRest (w : Touch) (s t : State) : Prop :=
  (∀ r, r ∉ w.gprs → t.readGpr r = s.readGpr r) ∧
  (∀ p, p ∉ w.preds → t.readPred p = s.readPred p) ∧
  (∀ i, i ∉ w.sprs → t.readSpr i = s.readSpr i) ∧
  (w.control = false → t.base = s.base ∧ t.npc = s.npc) ∧
  (w.memory = false → ∀ area a, t.readByte area a = s.readByte area a) ∧
  (w.frames = false → t.frames = s.frames ∧ t.profile = s.profile) ∧
  (w.methodCache = false → t.mc = s.mc) ∧
  (w.intrEnabled = false → t.exc.intrEnabled = s.exc.intrEnabled) ∧
  (w.answers = false → t.replies = s.replies ∧ t.stackReplies = s.stackReplies) ∧
  (w.stall = false → t.stallReq = s.stallReq) ∧
  (w.otherSlots = false → ∀ st k, (st ≠ s.cur.stage ∨ k ≠ s.cur.k) → t.slotAt st k = s.slotAt st k) ∧
  t.pc = s.pc ∧ t.cycle = s.cycle ∧ t.intrBlock = s.intrBlock ∧ t.cur = s.cur ∧ t.params = s.params ∧
  t.exc.table = s.exc.table ∧ t.exc.codeBits = s.exc.codeBits ∧ t.exc.pending = s.exc.pending ∧
  t.exc.arrivals = s.exc.arrivals

/-- The slot after `decode_stage` has stored what the class reads, as committed (rule R104 and the class's own rule). -/
def decodedSlot (sh : Shape) (s : State) (x : Slot) : Slot :=
  match sh with
  | .alu _ _ rs1 (.reg rs2) => { x with drRs1 := s.readGpr rs1, drRs2 := s.readGpr rs2 }
  | .alu _ _ rs1 (.imm v) => { x with drRs1 := s.readGpr rs1, drRs2 := v }
  | .mul _ rs1 rs2 => { x with drRs1 := s.readGpr rs1, drRs2 := s.readGpr rs2 }
  | .cmp _ _ rs1 (.reg rs2) => { x with drRs1 := s.readGpr rs1, drRs2 := s.readGpr rs2 }
  | .cmp _ _ rs1 (.imm v) => { x with drRs1 := s.readGpr rs1, drRs2 := v }
  | .plog _ _ ps1 ps2 => { x with drPs1 := s.readPred ps1.idx ^^ ps1.neg, drPs2 := s.readPred ps2.idx ^^ ps2.neg }
  | .bcopy _ rs1 _ ps => { x with drRs1 := s.readGpr rs1, drPs1 := s.readPred ps.idx ^^ ps.neg }
  | .mts _ rs1 => { x with drRs1 := s.readGpr rs1 }
  | .mfs _ ss => { x with drSs := if isPredAlias s.params ss then s.packedPreds else s.readSpr ss }
  | .load _ _ _ _ ra _ => { x with drRs1 := s.readGpr ra }
  | .store _ _ ra rs _ => { x with drRs1 := s.readGpr ra, drRs2 := s.readGpr rs }
  | .stackI _ _ => x
  | .stackR _ rs => { x with drRs1 := s.readGpr rs }
  | .branch _ (.rel _) => x
  | .branch _ (.abs rs) => { x with drRs1 := s.readGpr rs }
  | .transfer _ (.imm _) => x
  | .transfer _ (.reg rs) => { x with drRs1 := s.readGpr rs }
  | .transfer _ (.pair rs1 rs2) => { x with drRs1 := s.readGpr rs1, drRs2 := s.readGpr rs2 }
  | .transfer (.xret _) .saved => { x with drSs := s.readSpr s.params.sxb, drSsOff := s.readSpr s.params.sxo }
  | .transfer _ .saved => { x with drSs := s.readSpr s.params.srb, drSsOff := s.readSpr s.params.sro }
  | .transfer _ (.code _) => x

/-- The invocation changed the invoked slot and nothing else in the machine. -/
def OnlySlot (s t : State) : Prop := t = s.setSlot t.slot

/-- `execute_stage` of the slot runs under a true guard and no source was loaded too recently (rules R106, R242). -/
def Executes (s : State) (srcs : List Reg) : Prop :=
  s.cur.stage = .EX ∧ s.slot.pred = true ∧ ∀ r, r ∈ srcs → s.tooSoon r = false

/-- `commit_stage` of the slot runs: true guard, effect not yet applied (rules R106, R109). -/
def Commits (s : State) : Prop := s.cur.stage = .MW ∧ s.slot.pred = true ∧ s.slot.discard = false

/-- Slot `k` of stage `st` is the one being invoked. -/
def IsCurrent (s : State) (st : Stage) (k : SlotIx) : Prop := st = s.cur.stage ∧ k = s.cur.k

/-- The slots other than the invoked one after a transfer has taken effect in its stage (rules R121, R271): a
non-delayed one turns every slot upstream of its stage into `BUBBLE`; a delayed one marks the `n` bundles next upstream as
its delay slots (the model's own mark, notes/assumptions/9.md) and changes nothing else in any slot. -/
def TransferSlots (delayed : Bool) (n : Nat) (s t : State) : Prop :=
  ∀ st k, ¬ IsCurrent s st k →
    t.slotAt st k =
      if st.rank < s.cur.stage.rank then
        (if delayed then
          (if s.cur.stage.rank ≤ st.rank + n then { s.slotAt st k with inDelay := true } else s.slotAt st k)
        else Slot.bubble)
      else s.slotAt st k

/-- The slots other than the invoked one while a transfer waits in its stage (rule R271): a non-delayed one has flushed,
a delayed one has changed nothing. -/
def WaitingSlots (delayed : Bool) (s t : State) : Prop :=
  ∀ st k, ¬ IsCurrent s st k →
    t.slotAt st k = if st.rank < s.cur.stage.rank ∧ delayed = false then Slot.bubble else s.slotAt st k

/-! ### Local branches -/

/-- The general registers a local branch reads. -/
def BranchTo.sources : BranchTo → List Reg
  | .rel _ => []
  | .abs rs => [rs]

/-- The target of a local branch (rules R281, R285): relative to the branch's own address, in words, or the register. -/
def BranchTo.target (dest : BranchTo) (s : State) : Word :=
  match dest with
  | .rel imm => BitVec.ofNat 32 (wrap32 (s.slot.addr.toNat + 4 * imm))
  | .abs rs => s.rs1 rs

/-! ### Transfers dispatched in `MW` -/

/-- The general registers a transfer reads. -/
def TransferTo.sources : TransferTo → List Reg
  | .imm _ => []
  | .reg rs => [rs]
  | .pair rs1 rs2 => [rs1, rs2]
  | .saved => []
  | .code _ => []

/-- The new base `B` (rule R265); a trap's is the collaborator's. -/
def TransferTo.base (dest : TransferTo) (s : State) : Word :=
  match dest with
  | .imm n => BitVec.ofNat 32 (4 * n)
  | .reg rs => s.rs1 rs
  | .pair rs1 _ => s.rs1 rs1
  | .saved => s.slot.drSs
  | .code n => excHandler s.exc n

/-- The target `T` (rule R265): `B`, or `B` plus an offset. -/
def TransferTo.target (dest : TransferTo) (s : State) : Word :=
  match dest with
  | .imm n => BitVec.ofNat 32 (4 * n)
  | .reg rs => s.rs1 rs
  | .pair rs1 rs2 => s.rs1 rs1 + s.rs2 rs2
  | .saved => s.slot.drSs + s.slot.drSsOff
  | .code n => excHandler s.exc n

/-- The delayed flag; a trap is never delayed (rule R269). -/
def TransferKind.delayed : TransferKind → Bool
  | .call d => d
  | .fill d => d
  | .ret d => d
  | .xret d => d
  | .trap => false
  | .intr => false

/-- The pair of special registers that receives the return address (rule R265). -/
def TransferKind.pair (p : Params) : TransferKind → Option (SReg × SReg)
  | .call _ => some (p.srb, p.sro)
  | .fill _ => none
  | .ret _ => none
  | .xret _ => none
  | .trap => some (p.sxb, p.sxo)
  | .intr => some (p.sxb, p.sxo)

/-- A return pops a frame and has its own rule for address 0 (rules R272, R275). -/
def TransferKind.isReturn : TransferKind → Bool
  | .call _ => false
  | .fill _ => false
  | .ret _ => true
  | .xret _ => true
  | .trap => false
  | .intr => false

/-- The address saved (rule R274). -/
def TransferKind.returnAddress (kind : TransferKind) (s : State) : Word := if kind.delayed then s.npc else s.slot.next

/-- A trap has effect in `commit_stage` only when it fires (rule R283). -/
def TransferKind.fires (kind : TransferKind) (s : State) : Prop := kind = .trap → s.slot.trapFires = true

/-- Base and target are good: base not 0, both aligned (rules R272, R273). -/
def GoodTarget (s : State) : Prop :=
  s.slot.exBase ≠ 0 ∧ s.slot.exBase.toNat % 4 = 0 ∧ s.slot.exTarget.toNat % 4 = 0

/-- A request for the function at `a` is a hit: no fill is in progress and the function is resident, or the policy is
`IDEAL` (rules R316, R317, R323). -/
def CacheHit (s : State) (a : Word) : Prop :=
  s.params.mcPolicy = .ideal ∨ (s.mc.state = .idle ∧ ∃ e, e ∈ s.mc.entries ∧ e.addr = a)

/-- What the first invocation of a transfer does once (rules R268, R274, R275): the return address into the pair of the
kind, a frame pushed; a return pops one; a branch with cache fill does neither. -/
def SavedOnce (kind : TransferKind) (s t : State) : Prop :=
  (∀ rb ro, kind.pair s.params = some (rb, ro) →
    t.readSpr ro = kind.returnAddress s - s.slot.base ∧ (rb ≠ ro → t.readSpr rb = s.slot.base) ∧
    (∀ k, k ≠ rb → k ≠ ro → t.readSpr k = s.readSpr k) ∧
    t.frames = ⟨s.slot.base, kind.returnAddress s - s.slot.base, s.slot.exBase⟩ :: s.frames ∧
    t.profile = .entry s.slot.exBase :: s.profile) ∧
  (kind.pair s.params = none →
    (∀ k, t.readSpr k = s.readSpr k) ∧
    t.frames = (if kind.isReturn then s.frames.tail else s.frames) ∧
    t.profile = (if kind.isReturn then .exit :: s.profile else s.profile))

/-- A transfer has taken effect (rules R268, R270, R271, R274, R275, R283, R291): `BASE` and `nPC` are the slot's base and
target. On the first invocation the pair of the kind has received the return address, a frame is pushed, or by a return
popped, and a trap has switched interrupt acceptance off; on a later one none of this is repeated. `xret` has switched
acceptance on. The slot is used up, and nothing but this, the method cache and the answers still to come has changed. -/
def TransferDone (kind : TransferKind) (s t : State) : Prop :=
  t.base = s.slot.exBase ∧ t.npc = s.slot.exTarget ∧
  (s.slot.initialized = true → (∀ k, t.readSpr k = s.readSpr k) ∧ t.frames = s.frames ∧ t.profile = s.profile) ∧
  (s.slot.initialized = false → SavedOnce kind s t) ∧
  KeepsRest { sprs := [0, 1, 2, 3, 4, 5, 6, 7, 8, 9, 10, 11, 12, 13, 14, 15], control := true, frames := true,
              methodCache := true, intrEnabled := true, answers := true, otherSlots := true } s t ∧
  t.stackReplies = s.stackReplies ∧
  t.exc.intrEnabled =
    (match kind with
     | .xret _ => true
     | .trap => if s.slot.initialized then s.exc.intrEnabled else false
     | _ => s.exc.intrEnabled) ∧
  TransferSlots kind.delayed s.params.dsCall s t ∧ t.slot = { s.slot with initialized := true, discard := true }

/-- A transfer has begun (rules R268, R271, R283): what the first invocation does once is done and a non-delayed transfer
has flushed, `BASE` and `nPC` are as before, and the slot is marked as begun. Beyond this and `w` nothing has changed. -/
def TransferBegun (w : Touch) (kind : TransferKind) (s t : State) : Prop :=
  (s.slot.initialized = true → (∀ k, t.readSpr k = s.readSpr k) ∧ t.frames = s.frames ∧ t.profile = s.profile) ∧
  (s.slot.initialized = false → SavedOnce kind s t) ∧
  KeepsRest { w with sprs := [0, 1, 2, 3, 4, 5, 6, 7, 8, 9, 10, 11, 12, 13, 14, 15], frames := true,
                     intrEnabled := true, otherSlots := true } s t ∧
  t.stackReplies = s.stackReplies ∧
  t.exc.intrEnabled =
    (match kind with
     | .trap => if s.slot.initialized then s.exc.intrEnabled else false
     | _ => s.exc.intrEnabled) ∧
  WaitingSlots kind.delayed s t ∧ t.slot = { s.slot with initialized := true }

/-- A transfer waits for its function (rules R268, R271): it has begun, `MW` is stalled, and the slot is ready to be invoked
again. The method cache and the answers still to come are what the residency call left. -/
def TransferWaits (kind : TransferKind) (s t : State) : Prop :=
  t.stallReq = some .MW ∧ TransferBegun { methodCache := true, answers := true, stall := true } kind s t

/-! ### The fetch step -/

/-- The entry of the active function, the first where several had its address (rule R330). -/
def ActiveEntry (s : State) (e : McEntry) : Prop :=
  ∃ pre post, s.mc.entries = pre ++ e :: post ∧ e.addr = s.mc.active ∧ ∀ e', e' ∈ pre → e'.addr ≠ s.mc.active

/-- `pc` is a place to fetch at (rule R330): under `IDEAL` every address is; else it is not below the active function, and
below the end of its blocks and the slack, in unbounded numbers. Address 0 never is (rule R20, notes/assumptions/32.md). -/
def InFetchBounds (s : State) (pc : Word) : Prop :=
  pc ≠ 0 ∧
    (s.params.mcPolicy = .ideal ∨
      ∃ e, ActiveEntry s e ∧ e.addr.toNat ≤ pc.toNat ∧
        pc.toNat < e.addr.toNat + e.blocks * s.params.mcBlockBytes + s.params.mcFetchSlack)

/-- The bundle at `pc` whose first word is `w0` ends at `2^32` or before: 8 bytes where bit 31 is set, else 4 (rules R20,
R62). -/
def FitsBelowTop (pc w0 : Word) : Prop := pc.toNat + (if bitAt w0 31 = true then 8 else 4) ≤ 4294967296

/-- A byte of the word at `a` is not backed in main memory. -/
def WordUnbacked (s : State) (a : Word) : Prop := ∃ b, InAccess a .word b ∧ isBacked s.params.mainBacked b = false

/-- The fetch step raises this fault. The state it carries has `PC` at the address fetched from, and every register and all
of memory as before (rules R330, R350). -/
def FetchStops (s : State) (f : State → Fault) : Prop :=
  ∃ t, fetchStep s = .fault (f t) ∧ t.pc = s.npc ∧ t.gpr = s.gpr ∧ t.preds = s.preds ∧ t.spr = s.spr ∧ t.mem = s.mem

/-! ### What the model refuses -/

/-- The general registers that `execute_stage` of a class reads. -/
def Shape.sources : Shape → List Reg
  | .alu _ _ rs1 o => rs1 :: o.srcs
  | .mul _ rs1 rs2 => [rs1, rs2]
  | .cmp _ _ rs1 o => rs1 :: o.srcs
  | .plog _ _ _ _ => []
  | .bcopy _ rs1 _ _ => [rs1]
  | .mts _ rs1 => [rs1]
  | .mfs _ _ => []
  | .load _ _ _ _ ra _ => [ra]
  | .store _ _ ra rs _ => [ra, rs]
  | .stackI _ _ => []
  | .stackR _ rs => [rs]
  | .branch _ dest => dest.sources
  | .transfer _ dest => dest.sources

/-- The instruction writes predicate `p` when its guard is true: a compare or predicate logic that names it, or `mts` to
the predicate file (rules R14, R191). -/
def WritesPred (q : Params) (i : Instr) (p : PReg) : Prop :=
  p ≠ 0 ∧ (destPred i = some p ∨ ∃ sd rs1, shapeOf i = .mts sd rs1 ∧ (sd = q.sprPred ∨ q.predAlias2 = some sd))

/-- Two instructions with true guards share a bundle and write one register, or one predicate (rules R113, R397). -/
def TwoWriters (s : State) : Prop :=
  ∃ i j, s.pipe.ex.s0.instr = .instr i ∧ s.pipe.ex.s1.instr = .instr j ∧
    s.pipe.ex.s0.pred = true ∧ s.pipe.ex.s1.pred = true ∧
    ((∃ r, r ≠ 0 ∧ destGpr i = some r ∧ destGpr j = some r) ∨
      ∃ p, WritesPred s.params i p ∧ WritesPred s.params j p)

/-- A slot marked as a delay slot holds a control transfer whose guard can be true (rule R301). -/
def TransferInDelay (s : State) : Prop :=
  ∃ st k, st ≠ .MW ∧ (s.slotAt st k).inDelay = true ∧
    ((∃ i, (s.slotAt st k).instr = .instr i ∧ guardOfInstr i ≠ ⟨true, 0⟩ ∧
        ((∃ d dest, shapeOf i = .branch d dest) ∨ ∃ kind dest, shapeOf i = .transfer kind dest)) ∨
      (∃ h, (s.slotAt st k).instr = .intr h) ∨ (s.slotAt st k).instr = .halt)

/-- An access touches a byte of a resident function, the bytes from its address to its address plus its size (rules R54,
R312); under `IDEAL` no size is known. -/
def TouchesFunction (s : State) (a : Word) (w : Width) : Prop :=
  s.params.mcPolicy ≠ .ideal ∧
    ∃ e b, e ∈ s.mc.entries ∧ InAccess a w b ∧ e.addr.toNat ≤ b.toNat ∧ b.toNat < e.addr.toNat + e.sizeBytes

/-! ### Invariants -/

/-- What may stand in a slot: `HALT` nowhere (rule R93), in slot 1 only what rule R63 allows. -/
def slotContentOk (k : SlotIx) (x : Slot) : Bool :=
  match k, x.instr with
  | _, .bubble => true
  | _, .halt => false
  | .s0, _ => true
  | .s1, .instr i => i.slot1Ok
  | .s1, .intr _ => false

/-- A bypass entry never names `r0` (rule R25). -/
def bypOk (x : Slot) : Bool :=
  match x.byp with
  | none => true
  | some e => decide (e.index ≠ 0)

/-- Both slots of a stage are in order. -/
def bundleOk (b : Bundle) : Bool :=
  slotContentOk .s0 b.s0 && slotContentOk .s1 b.s1 && bypOk b.s0 && bypOk b.s1

/-- The invariant of the core: the four memories are in canonical form; the storage of `r0` is 0 and that of `p0` is true
(rules R11, R13); `BASE` and `nPC` are multiples of 4 (rules R19, R273); the slots hold what rules R25, R63 and R93
allow; only `MW` is ever stalled (rule R117). -/
def coreInv (s : State) : Bool :=
  s.mem.main.wf && s.mem.stack.wf && s.mem.loc.wf && s.mem.data.wf &&
    decide (s.gpr[0] = 0) && s.preds[0] && aligned4 s.base && aligned4 s.npc &&
    bundleOk s.pipe.fetch && bundleOk s.pipe.dr && bundleOk s.pipe.ex && bundleOk s.pipe.mw &&
    (decide (s.stallReq = none) || decide (s.stallReq = some .MW))

/-- The addresses of the resident functions. -/
def entryAddrs (m : MethodCache) : List Word := m.entries.map (·.addr)

/-- The invariant of the method cache (rules R28, R312, R314, R332), for parameters that rule R311 admits and a policy
other than `IDEAL`: the active function is that of `BASE`; entries are pairwise distinct, each has as many blocks as its
size asks for, together they stay within capacity and maximum count; the active function is resident unless a transfer
is running; the function being sized is not resident, the one being transferred is. -/
def mcInv (s : State) : Prop :=
  s.mc.active = s.base ∧
  (s.params.mcPolicy ≠ .ideal →
    (entryAddrs s.mc).Nodup ∧
    (∀ e, e ∈ s.mc.entries → e.blocks = blocksOf s.params e.sizeBytes) ∧
    usedBlocks s.mc.entries ≤ s.params.mcNumBlocks ∧
    s.mc.entries.length ≤ s.params.mcMaxEntries ∧
    (s.mc.state = .transfer ∨ s.mc.active ∈ entryAddrs s.mc) ∧
    (s.mc.state = .sizeFetch → s.mc.pending.address ∉ entryAddrs s.mc) ∧
    (s.mc.state = .transfer → s.mc.pending.address ∈ entryAddrs s.mc))

/-! ### How a run ends -/

/-- `Halt` is the only end that is no error (rules R128, R350). -/
def isError : Fault → Bool
  | .halt _ _ => false
  | .unaligned _ _ => true
  | .illegalPC _ _ => true
  | .codeExceeded _ _ _ => true
  | .stackExceeded _ _ => true
  | .illegal _ _ _ => true
  | .unmapped _ _ => true

/-- The state a fault is reported with (rule R350). -/
def faultState : Fault → State
  | .halt _ s => s
  | .unaligned _ s => s
  | .illegalPC _ s => s
  | .codeExceeded _ _ s => s
  | .stackExceeded _ s => s
  | .illegal _ _ s => s
  | .unmapped _ s => s

/-- A run of `n` steps is safe when it goes on or ends in `Halt`. -/
def safeRun (n : Nat) (s : State) : Bool :=
  match n with
  | 0 => true
  | n + 1 =>
    match step s with
    | .next t => safeRun n t
    | .fault f => !isError f
    | .refused _ => false

/-! ### One instruction alone in the pipeline -/

/-- One invocation per stage on a slot that nothing else shares the pipeline with: the rest of the state stays as it is
between the three invocations (rules R104, R107, R108). -/
def alone (i : Instr) (x : Slot) (s : State) : Result :=
  let put (st : Stage) (y : Slot) (u : State) : State :=
    let empty : Pipe := ⟨Bundle.empty, Bundle.empty, Bundle.empty, Bundle.empty⟩
    { u with pipe := empty.set st ⟨y, Slot.bubble⟩, cur := ⟨st, .s0⟩ }
  andThen (exec i (put .DR x s)) fun s1 =>
    andThen (exec i (put .EX s1.slot s1)) fun s2 => exec i (put .MW s2.slot s2)

end Sys2Proof.Machine
end

