-- ==== Sys2Proof/Certificates/Slice0/Obligations.lean ====
section
/-! DEFINITION. The statements for the provers. Each says which rules of the spec it formalises; the terms it is written in
are those of Sys2Proof/Safety.lean. -/

open Sys2Proof Sys2Proof.Machine

/-- Decoding the words of any well-formed instruction gives the instruction back. Rule R61: `decode(encode(i)) == i` for every representable instruction. -/
def Obligations.DecodeInvertsEncode : Prop :=
  ∀ i : Instr, i.wf = true →
    ∃ w rest, encode i = some (w :: rest) ∧ rest.length = (if i.isLong then 1 else 0) ∧
      ∀ other, decode w (rest.headD other) = .ok i

/-- Decoding the words of any well-formed bundle gives its instructions and its length back. Rules R61 to R63: the round trip for bundles. -/
def Obligations.BundleDecodeInvertsEncode : Prop :=
  ∀ (i0 : Instr) (i1 : Option Instr), bundleWf i0 i1 = true →
    ∃ w rest, encodeBundle i0 i1 = some (w :: rest) ∧
      ∀ other, decodeBundle true w (rest.headD other) = .ok ⟨i0, i1, 4 * (rest.length + 1)⟩

/-- A decoded word whose unused bits are 0 is exactly what the encoder writes. Rule R61, `encode(decode(w)) == w`, with the reservation of rule R64 about unused bits. -/
def Obligations.EncodeInvertsDecode : Prop :=
  ∀ (w ext : Word) (i : Instr), decode w ext = .ok i →
    i.wf = true ∧
      (w &&& unusedBits i = 0 → bitAt w 31 = i.isLong →
        encode i = some (w :: if i.isLong then [ext] else []))

/-- Every bundle the decoder accepts is well formed and has the length bit 31 tells. Rules R62 and R63, from the decoder side. -/
def Obligations.DecodedBundlesWellFormed : Prop :=
  ∀ (dual : Bool) (w0 w1 : Word) (f : Fetched), decodeBundle dual w0 w1 = .ok f →
    bundleWf f.i0 f.i1 = true ∧ f.len = (if bitAt w0 31 then 8 else 4) ∧ (f.i1.isSome = true → dual = true)

/-- encode answers nothing for an instruction with an immediate outside its field. Rule R85, last sentence on `encode`. -/
def Obligations.EncodeRejectsIllFormed : Prop :=
  (∀ i : Instr, i.wf = false → encode i = none) ∧
    ∀ (g : PredRef) (rd rs1 : Reg),
      encode (.addI g rd rs1 4096) = none ∧ (encode (.addI g rd rs1 4095)).isSome = true ∧
      encode (.lwc g rd rs1 64) = none ∧ (encode (.lwc g rd rs1 63)).isSome = true ∧
      encode (.lwc g rd rs1 (-65)) = none ∧ (encode (.lwc g rd rs1 (-64))).isSome = true

/-- A few words written out from the format tables decode to the instructions they stand for. A sanity check of the decoder against words written out by hand. -/
def Obligations.SampleWordsDecode : Prop :=
  decode 0x00400000 0 = .ok (.subI ⟨false, 0⟩ 0 0 0) ∧
    decode 0x02022180 0 = .ok (.addR ⟨false, 0⟩ 1 2 3) ∧
    decode 0x87CA0000 0x1402 = .ok (.addL ⟨false, 0⟩ 5 0 0x1402) ∧
    decode 0x02822101 0 = .ok (.lwc ⟨false, 0⟩ 1 2 1) ∧
    decode 0x02C42082 0 = .ok (.swc ⟨false, 0⟩ 2 1 2) ∧
    decode 0x04BFFBFF 0 = .ok (.br ⟨false, 0⟩ false (-1025)) ∧
    decode 0x0640530A 0 = .ok (.brcfrPair ⟨false, 0⟩ true 5 6)

/-- Every reserved opcode, function, type, op and kind code is rejected by name, and so is every bundle rules R62 and R63 forbid. Rules R77 to R84: the reserved codes, listed; then rules R62, R63 and R90 for the words of a bundle. -/
def Obligations.ReservedCodesRejected : Prop :=
  (∀ w ext : Word,
    (fldN w 22 5 ∈ [13, 14, 15, 26, 27, 28, 29, 30] ∨
      (fldN w 22 5 = 8 ∧ fldN w 4 3 ∈ [1, 7]) ∨
      (fldN w 22 5 = 8 ∧ fldN w 4 3 = 0 ∧ fldN w 0 4 ∈ [8, 9, 10, 14, 15]) ∨
      (fldN w 22 5 = 8 ∧ fldN w 4 3 = 2 ∧ 2 ≤ fldN w 0 4) ∨
      (fldN w 22 5 = 8 ∧ (fldN w 4 3 = 3 ∨ fldN w 4 3 = 6) ∧ 7 ≤ fldN w 0 4) ∨
      (fldN w 22 5 = 8 ∧ fldN w 4 3 = 4 ∧ fldN w 0 4 ∉ [6, 7, 10]) ∨
      (fldN w 22 5 = 9 ∧ fldN w 4 3 ∉ [2, 3]) ∨
      (fldN w 22 5 = 10 ∧ 20 ≤ fldN w 7 5) ∨
      (fldN w 22 5 = 11 ∧ 12 ≤ fldN w 17 5) ∨
      (fldN w 22 5 = 12 ∧ 2 ≤ fldN w 18 2) ∨
      (fldN w 22 5 = 12 ∧ fldN w 18 2 = 1 ∧ fldN w 20 2 ∈ [0, 2]) ∨
      (fldN w 23 4 = 12 ∧ fldN w 0 4 ∉ [0, 1, 4, 5, 6, 10]) ∨
      (fldN w 22 5 = 31 ∧ fldN w 4 3 ≠ 0) ∨
      (fldN w 22 5 = 31 ∧ fldN w 0 4 ∈ [8, 9, 10, 14, 15])) →
    decode w ext = .error (.reserved w)) ∧
    (∀ (dual : Bool) (w0 w1 : Word), fldN w0 22 5 = 31 → bitAt w0 31 = false →
      ∃ r, decodeBundle dual w0 w1 = .error r ∧ r.word = w0) ∧
    ∀ (w0 w1 : Word) (i0 : Instr), decode w0 w1 = .ok i0 → bitAt w0 31 = true → i0.isLong = false →
      (∃ r, decodeBundle false w0 w1 = .error r ∧ r.word = w0) ∧
      ((bitAt w1 31 = true ∨ 9 ≤ fldN w1 22 5 ∨ (fldN w1 22 5 = 8 ∧ fldN w1 4 3 = 2) ∨ ∃ r, decode w1 0 = .error r) →
        ∃ r, decodeBundle true w0 w1 = .error r ∧ r.word = w1)

/-- decode_stage stores the guard and the committed operands in its slot and changes nothing else. Rule R104 for every class, with the immediates of rule R85 as numbers. -/
def Obligations.DecodeStageReads : Prop :=
  ∀ (i : Instr) (s : State), s.cur.stage = .DR →
    exec i s = .next (s.setSlot (decodedSlot (shapeOf i) s
      { s.slot with pred := s.readPred (guardOfInstr i).idx ^^ (guardOfInstr i).neg })) ∧
    (∀ g rd rs1 imm, imm < 4096 →
      i ∈ [.addI g rd rs1 imm, .subI g rd rs1 imm, .xorI g rd rs1 imm, .slI g rd rs1 imm, .srI g rd rs1 imm,
        .sraI g rd rs1 imm, .orI g rd rs1 imm, .andI g rd rs1 imm] →
      ∃ t, exec i s = .next t ∧ t.slot.drRs1 = s.readGpr rs1 ∧ t.slot.drRs2.toNat = imm) ∧
    (∀ g pd rs1 imm, imm < 32 →
      i ∈ [.cmpeqI g pd rs1 imm, .cmpneqI g pd rs1 imm, .cmpltI g pd rs1 imm, .cmpleI g pd rs1 imm,
        .cmpultI g pd rs1 imm, .cmpuleI g pd rs1 imm, .btestI g pd rs1 imm] →
      ∃ t, exec i s = .next t ∧ t.slot.drRs1 = s.readGpr rs1 ∧ t.slot.drRs2.toNat = imm) ∧
    ∀ g rd rs1 imm,
      i ∈ [.addL g rd rs1 imm, .subL g rd rs1 imm, .xorL g rd rs1 imm, .slL g rd rs1 imm, .srL g rd rs1 imm,
        .sraL g rd rs1 imm, .orL g rd rs1 imm, .andL g rd rs1 imm, .norL g rd rs1 imm, .shaddL g rd rs1 imm,
        .shadd2L g rd rs1 imm] →
      ∃ t, exec i s = .next t ∧ t.slot.drRs1 = s.readGpr rs1 ∧ t.slot.drRs2 = imm

/-- An instruction whose guard is false changes nothing in the execute and commit stages. Rule R106. -/
def Obligations.FalseGuardDoesNothing : Prop :=
  ∀ (i : Instr) (s : State), s.cur.stage = .EX ∨ s.cur.stage = .MW → s.slot.pred = false → exec i s = .next s

/-- Once an instruction has applied its effect, invoking its commit stage again changes nothing. Rules R22 (`discard`), R103 and R109. -/
def Obligations.AppliedSlotDoesNothing : Prop :=
  ∀ (i : Instr) (s : State), s.cur.stage = .MW → s.slot.discard = true → exec i s = .next s

/-- The execute stage of every arithmetic instruction computes its function and publishes the result. Rules R140 to R151: the functions, stated over numbers. -/
def Obligations.AluExecute : Prop :=
  ∀ (i : Instr) (s : State) (f : AluFn) (rd rs1 : Reg) (o : Op2), shapeOf i = .alu f rd rs1 o →
    Executes s (rs1 :: o.srcs) →
    ∃ t, exec i s = .next t ∧ OnlySlot s t ∧ t.slot.exResult.toNat = aluValue f (s.rs1 rs1) (o.value s) ∧
      t.slot = { s.slot with
        exResult := t.slot.exResult, byp := if rd = 0 then none else some ⟨.EXE, rd, t.slot.exResult⟩ }

/-- The commit stage of arithmetic, bcopy and mfs writes rd, and only rd. Rule R108, with rules R11 and R111. -/
def Obligations.ResultCommit : Prop :=
  ∀ (i : Instr) (s : State) (rd : Reg),
    ((∃ f rs1 o, shapeOf i = .alu f rd rs1 o) ∨ (∃ rs1 imm ps, shapeOf i = .bcopy rd rs1 imm ps) ∨
      (∃ ss, shapeOf i = .mfs rd ss)) →
    (Commits s →
      ∃ t, exec i s = .next t ∧ t.readGpr rd = (if rd = 0 then 0 else s.slot.exResult) ∧
        KeepsRest { gprs := [rd] } s t ∧
        t.slot = { s.slot with
          byp := if rd = 0 then none else some ⟨.MEM, rd, s.slot.exResult⟩, discard := true }) ∧
    (s.cur.stage = .MW → s.slot.pred = false ∨ s.slot.discard = true → exec i s = .next s)

/-- An arithmetic instruction alone in the pipeline takes rd to its function of the committed operands. The sequential view of rule R125 for one arithmetic instruction. -/
def Obligations.AluAlone : Prop :=
  ∀ (i : Instr) (x : Slot) (s : State) (f : AluFn) (rd rs1 : Reg) (o : Op2), shapeOf i = .alu f rd rs1 o →
    s.readPred (guardOfInstr i).idx ≠ (guardOfInstr i).neg → x.discard = false → s.params.loadUseGap = 0 →
    ∃ t, alone i x s = .next t ∧
      (t.readGpr rd).toNat = (if rd = 0 then 0 else aluValue f (s.readGpr rs1) (o.decodeRead s)) ∧
      (∀ r, r ≠ rd → t.readGpr r = s.readGpr r) ∧ (∀ p, t.readPred p = s.readPred p) ∧
      (∀ k, t.readSpr k = s.readSpr k)

/-- The execute stage of mul and mulu computes the 64-bit product and publishes nothing. Rules R160 to R162. -/
def Obligations.MultiplyExecute : Prop :=
  ∀ (i : Instr) (s : State) (signed : Bool) (rs1 rs2 : Reg), shapeOf i = .mul signed rs1 rs2 →
    Executes s [rs1, rs2] →
    ∃ t, exec i s = .next t ∧ OnlySlot s t ∧
      t.slot.exResultHi.toNat * 4294967296 + t.slot.exResult.toNat = productValue signed (s.rs1 rs1) (s.rs2 rs2) ∧
      t.slot = { s.slot with exResult := t.slot.exResult, exResultHi := t.slot.exResultHi }

/-- The commit stage of mul and mulu writes SL and SH, and nothing else. Rule R160, `commit_stage`. -/
def Obligations.MultiplyCommit : Prop :=
  ∀ (i : Instr) (s : State) (signed : Bool) (rs1 rs2 : Reg), shapeOf i = .mul signed rs1 rs2 → Commits s →
    ∃ t, exec i s = .next t ∧ t.readSpr s.params.sh = s.slot.exResultHi ∧
      (s.params.sl ≠ s.params.sh → t.readSpr s.params.sl = s.slot.exResult) ∧
      KeepsRest { sprs := [s.params.sl, s.params.sh] } s t ∧ t.slot = { s.slot with discard := true }

/-- The execute stage of a compare or btest writes its predicate, and only that. Rules R165 to R172. -/
def Obligations.CompareExecute : Prop :=
  ∀ (i : Instr) (s : State) (f : CmpFn) (pd : PReg) (rs1 : Reg) (o : Op2), shapeOf i = .cmp f pd rs1 o →
    Executes s (rs1 :: o.srcs) →
    ∃ t, exec i s = .next t ∧ (pd ≠ 0 → (t.readPred pd = true ↔ CmpHolds f (s.rs1 rs1) (o.value s))) ∧
      t.readPred 0 = true ∧ KeepsRest { preds := [pd] } s t ∧ t.slot = s.slot

/-- The execute stage of por, pand and pxor writes its predicate, and only that; with pd = 0 nothing. Rules R175 to R179. -/
def Obligations.PredicateLogicExecute : Prop :=
  ∀ (i : Instr) (s : State),
    (∀ f pd ps1 ps2, shapeOf i = .plog f pd ps1 ps2 → Executes s [] →
      ∃ t, exec i s = .next t ∧ (pd ≠ 0 → (t.readPred pd = true ↔ PlogHolds f s.slot.drPs1 s.slot.drPs2)) ∧
        (pd = 0 → t = s) ∧ t.readPred 0 = true ∧ KeepsRest { preds := [pd] } s t ∧ t.slot = s.slot) ∧
    ∀ f rs1 o, shapeOf i = .cmp f 0 rs1 o → Executes s (rs1 :: o.srcs) → exec i s = .next s

/-- Compares and predicate logic do nothing in the commit stage. Rules R165 and R175: `commit_stage: nothing`. -/
def Obligations.NothingLeftToCommit : Prop :=
  ∀ (i : Instr) (s : State),
    ((∃ f pd rs1 o, shapeOf i = .cmp f pd rs1 o) ∨ (∃ f pd ps1 ps2, shapeOf i = .plog f pd ps1 ps2)) →
    s.cur.stage = .MW → exec i s = .next s

/-- bcopy, stage by stage: one bit of rs1 replaced by the predicate operand. Rule R182. -/
def Obligations.BitInsertExecute : Prop :=
  ∀ (i : Instr) (s : State) (rd rs1 : Reg) (imm : Nat) (ps : PredRef), shapeOf i = .bcopy rd rs1 imm ps →
    imm < 32 →
    (s.cur.stage = .DR → exec i s = .next (s.setSlot { s.slot with
      pred := s.readPred (guardOfInstr i).idx ^^ (guardOfInstr i).neg,
      drRs1 := s.readGpr rs1, drPs1 := s.readPred ps.idx ^^ ps.neg })) ∧
    (Executes s [rs1] →
      ∃ t, exec i s = .next t ∧ OnlySlot s t ∧
        (∀ k, k < 32 → t.slot.exResult.getLsbD k = if k = imm then s.slot.drPs1 else (s.rs1 rs1).getLsbD k) ∧
        t.slot = { s.slot with
          exResult := t.slot.exResult, byp := if rd = 0 then none else some ⟨.EXE, rd, t.slot.exResult⟩ }) ∧
    (Commits s →
      ∃ t, exec i s = .next t ∧ t.readGpr rd = (if rd = 0 then 0 else s.slot.exResult) ∧
        KeepsRest { gprs := [rd] } s t ∧
        t.slot = { s.slot with
          byp := if rd = 0 then none else some ⟨.MEM, rd, s.slot.exResult⟩, discard := true })

/-- mts writes its special register, or predicates 1 to 7 where the index is an alias of the predicate file. Rules R190 and R191, with the second alias of rule R195 where it is set. -/
def Obligations.MoveToSpecial : Prop :=
  ∀ (i : Instr) (s : State) (sd : SReg) (rs1 : Reg), shapeOf i = .mts sd rs1 →
    (s.cur.stage = .DR → exec i s = .next (s.setSlot { s.slot with
      pred := s.readPred (guardOfInstr i).idx ^^ (guardOfInstr i).neg, drRs1 := s.readGpr rs1 })) ∧
    (Executes s [rs1] → exec i s = .next (s.setSlot { s.slot with exResult := s.rs1 rs1 })) ∧
    (Commits s → (sd = s.params.sprPred ∨ s.params.predAlias2 = some sd) →
      ∃ t, exec i s = .next t ∧ (∀ p : PReg, p ≠ 0 → t.readPred p = s.slot.exResult.getLsbD p.toNat) ∧
        t.readPred 0 = true ∧ KeepsRest { preds := [1, 2, 3, 4, 5, 6, 7] } s t ∧
        t.slot = { s.slot with discard := true }) ∧
    (Commits s → sd ≠ s.params.sprPred → s.params.predAlias2 ≠ some sd →
      ∃ t, exec i s = .next t ∧ t.readSpr sd = s.slot.exResult ∧ KeepsRest { sprs := [sd] } s t ∧
        t.slot = { s.slot with discard := true })

/-- mfs, stage by stage: the special register as the decode stage reads it, published, then written to rd. Rule R193, with the alias of rules R194 and R195. -/
def Obligations.MoveFromSpecial : Prop :=
  ∀ (i : Instr) (s : State) (rd : Reg) (ss : SReg), shapeOf i = .mfs rd ss →
    (s.cur.stage = .DR → exec i s = .next (s.setSlot { s.slot with
      pred := s.readPred (guardOfInstr i).idx ^^ (guardOfInstr i).neg,
      drSs := if ss = s.params.sprPred ∨ s.params.predAlias2 = some ss then s.packedPreds else s.readSpr ss })) ∧
    (Executes s [] →
      exec i s = .next (s.setSlot { s.slot with
        exResult := s.slot.drSs, byp := if rd = 0 then none else some ⟨.EXE, rd, s.slot.drSs⟩ })) ∧
    (Commits s →
      ∃ t, exec i s = .next t ∧ t.readGpr rd = (if rd = 0 then 0 else s.slot.exResult) ∧
        KeepsRest { gprs := [rd] } s t ∧
        t.slot = { s.slot with
          byp := if rd = 0 then none else some ⟨.MEM, rd, s.slot.exResult⟩, discard := true })

/-- The packed predicate word holds every predicate at its own bit, 0 above, and writing it back restores them. Rule R194. -/
def Obligations.PackedPredicates : Prop :=
  ∀ s u : State,
    (∀ k : PReg, s.packedPreds.getLsbD k.toNat = s.readPred k) ∧
    (∀ k, 8 ≤ k → s.packedPreds.getLsbD k = false) ∧ s.packedPreds.getLsbD 0 = true ∧
    ∀ k : PReg, (u.bulkPreds s.packedPreds).readPred k = s.readPred k

/-- The execute stage of every load and store computes base plus scaled signed offset, modulo 2^32. Rules R201 to R203, `execute_stage`. -/
def Obligations.AddressExecute : Prop :=
  ∀ (i : Instr) (s : State),
    (∀ area w signed rd ra imm, shapeOf i = .load area w signed rd ra imm → Executes s [ra] →
      ∃ t, exec i s = .next t ∧ OnlySlot s t ∧
        t.slot.exAddress.toNat = wrap32 ((s.rs1 ra).toNat + imm * w.bytes) ∧
        t.slot = { s.slot with exAddress := t.slot.exAddress }) ∧
    ∀ area w ra rs imm, shapeOf i = .store area w ra rs imm → Executes s [ra, rs] →
      ∃ t, exec i s = .next t ∧ OnlySlot s t ∧
        t.slot.exAddress.toNat = wrap32 ((s.rs1 ra).toNat + imm * w.bytes) ∧
        t.slot = { s.slot with exAddress := t.slot.exAddress, exResult := s.rs2 rs }

/-- A load whose read completes writes the value in memory to rd, and changes nothing else. Rules R41, R42, R44 and R202. -/
def Obligations.LoadCompletes : Prop :=
  ∀ (i : Instr) (s : State) (area : Area) (w : Width) (signed : Bool) (rd ra : Reg) (imm : Int),
    shapeOf i = .load area w signed rd ra imm → Commits s → s.slot.exAddress.toNat % w.bytes = 0 →
    (∀ b, InAccess s.slot.exAddress w b → isBacked (backedRegions s.params area) b = true) →
    s.nextReply = .done →
    ∃ t v, exec i s = .next t ∧ v.toNat = loadValue s.params.endian (s.readByte area) w signed s.slot.exAddress ∧
      t.readGpr rd = (if rd = 0 then 0 else v) ∧ KeepsRest { gprs := [rd], answers := true } s t ∧
      t.replies = s.replies.tail ∧ t.stackReplies = s.stackReplies ∧
      t.slot = { s.slot with byp := if rd = 0 then none else some ⟨.MEM, rd, v⟩, discard := true }

/-- A store whose write completes puts its bytes at ex_address and changes no other byte; one into a resident function is refused. Rules R41, R42, R45, R54 and R203; that the refusal comes when the write would happen is notes/assumptions/16.md. -/
def Obligations.StoreCompletes : Prop :=
  ∀ (i : Instr) (s : State) (area : Area) (w : Width) (ra rs : Reg) (imm : Int),
    shapeOf i = .store area w ra rs imm → Commits s → s.slot.exAddress.toNat % w.bytes = 0 →
    (∀ b, InAccess s.slot.exAddress w b → isBacked (backedRegions s.params area) b = true) →
    s.nextReply = .done →
    (homeArea s.params area = .mainMem → TouchesFunction s s.slot.exAddress w → exec i s = .refused .storeToCode) ∧
    (coreInv s = true → homeArea s.params area ≠ .mainMem ∨ ¬ TouchesFunction s s.slot.exAddress w →
      ∃ t, exec i s = .next t ∧
        (∀ k, k < w.bytes →
          (t.readByte area (s.slot.exAddress + BitVec.ofNat 32 k)).toNat =
            storedByte s.params.endian w.bytes s.slot.exResult k) ∧
        (∀ other b, ¬ InAccess s.slot.exAddress w b → t.readByte other b = s.readByte other b) ∧
        (∀ other b, homeArea s.params other ≠ homeArea s.params area → t.readByte other b = s.readByte other b) ∧
        KeepsRest { memory := true, answers := true } s t ∧ t.replies = s.replies.tail ∧
        t.stackReplies = s.stackReplies ∧ t.slot = { s.slot with discard := true })

/-- A load or store whose access is not done stalls MW and has no other effect. Rules R44, R45, R109 and R119: one busy answer costs one stalled cycle and nothing else. -/
def Obligations.AccessWaits : Prop :=
  ∀ (i : Instr) (s : State) (area : Area) (w : Width),
    ((∃ signed rd ra imm, shapeOf i = .load area w signed rd ra imm) ∨
      (∃ ra rs imm, shapeOf i = .store area w ra rs imm)) →
    Commits s → s.slot.exAddress.toNat % w.bytes = 0 →
    (∀ b, InAccess s.slot.exAddress w b → isBacked (backedRegions s.params area) b = true) →
    s.nextReply = .busy →
    ∃ t, exec i s = .next t ∧ t.stallReq = some .MW ∧ KeepsRest { answers := true, stall := true } s t ∧
      t.replies = s.replies.tail ∧ t.stackReplies = s.stackReplies ∧ t.slot = s.slot

/-- A misaligned access raises Unaligned, an unbacked one Unmapped, with nothing done and whatever the collaborator answers. Rules R43, R44, R202 and R240. That Unmapped comes before the readiness answer is the choice of this model in notes/assumptions/22.md, that one unbacked byte makes the whole access Unmapped the one in notes/assumptions/29.md. -/
def Obligations.BadAccessFaults : Prop :=
  ∀ (i : Instr) (s : State) (area : Area) (w : Width),
    ((∃ signed rd ra imm, shapeOf i = .load area w signed rd ra imm) ∨
      (∃ ra rs imm, shapeOf i = .store area w ra rs imm)) →
    Commits s →
    (s.slot.exAddress.toNat % w.bytes ≠ 0 → exec i s = .fault (.unaligned s.slot.exAddress s)) ∧
    (s.slot.exAddress.toNat % w.bytes = 0 →
      (∃ b, InAccess s.slot.exAddress w b ∧ isBacked (backedRegions s.params area) b = false) →
      exec i s = .fault (.unmapped s.slot.exAddress s)) ∧
    ∀ v, s.slot.exAddress.toNat % w.bytes = 0 →
      (∀ b, InAccess s.slot.exAddress w b → isBacked (backedRegions s.params area) b = true) →
      s.nextReply = .exceeded v → area = .stackCache →
      ∃ t, exec i s = .fault (.stackExceeded v t) ∧ KeepsRest { answers := true } s t ∧ t.slot = s.slot

/-- A load after a store of the same width gives the stored value, and a narrower load its own bytes of it. Rules R41, R42 and R243. -/
def Obligations.StoreThenLoad : Prop :=
  ∀ (m : Memory) (a v : Word), m.wf = true →
    (∀ e : Config.Endian,
      (m.store e .word a v).load e .word false a = v ∧
      (m.store e .half a v).load e .half false a = (v.setWidth 16).setWidth 32 ∧
      (m.store e .half a v).load e .half true a = (v.setWidth 16).signExtend 32 ∧
      (m.store e .byte a v).load e .byte false a = (v.setWidth 8).setWidth 32 ∧
      (m.store e .byte a v).load e .byte true a = (v.setWidth 8).signExtend 32) ∧
    (m.store .big .word a v).load .big .byte false a = v >>> 24 ∧
    (m.store .big .word a v).load .big .half false (a + 2) = v &&& 0xFFFF ∧
    (m.store .little .word a v).load .little .byte false a = v &&& 0xFF ∧
    (m.store .little .word a v).load .little .half false (a + 2) = v >>> 16

/-- The execute stage of stack control forms the byte count: four times the immediate, or the register. Rule R250, `execute_stage`. -/
def Obligations.StackExecute : Prop :=
  ∀ (i : Instr) (s : State),
    (∀ op imm, shapeOf i = .stackI op imm → imm < 262144 → Executes s [] →
      ∃ t, exec i s = .next t ∧ OnlySlot s t ∧ t.slot.exResult.toNat = 4 * imm ∧
        t.slot = { s.slot with exResult := t.slot.exResult }) ∧
    ∀ op rs, shapeOf i = .stackR op rs → Executes s [rs] →
      exec i s = .next (s.setSlot { s.slot with exResult := s.rs1 rs })

/-- Stack control writes the pointers the collaborator answers, waits while it is busy, and faults when it is exhausted. Rules R49 and R250. That an answer with new pointers changes no byte of memory is the choice of this model in notes/assumptions/23.md. -/
def Obligations.StackAnswered : Prop :=
  ∀ (i : Instr) (s : State) (op : StackOp),
    ((∃ imm, shapeOf i = .stackI op imm) ∨ (∃ rs, shapeOf i = .stackR op rs)) → Commits s →
    (∀ p q rest, s.stackReplies = .answer p q :: rest →
      ∃ t, exec i s = .next t ∧ t.readSpr s.params.st = q ∧ (s.params.ss ≠ s.params.st → t.readSpr s.params.ss = p) ∧
        KeepsRest { sprs := [s.params.ss, s.params.st], answers := true } s t ∧ t.replies = s.replies ∧
        t.stackReplies = rest ∧ t.slot = { s.slot with discard := true }) ∧
    (∀ rest, s.stackReplies = .busy :: rest →
      ∃ t, exec i s = .next t ∧ t.stallReq = some .MW ∧ KeepsRest { answers := true, stall := true } s t ∧
        t.replies = s.replies ∧ t.stackReplies = rest ∧ t.slot = s.slot) ∧
    ∀ (v : Word) (rest : List StackReply),
      (s.stackReplies = .exceeded v :: rest →
        ∃ t, exec i s = .fault (.stackExceeded v t) ∧ KeepsRest { answers := true } s t ∧ t.slot = s.slot) ∧
      (s.stackReplies = .unaligned v :: rest →
        ∃ t, exec i s = .fault (.unaligned v t) ∧ KeepsRest { answers := true } s t ∧ t.slot = s.slot) ∧
      (s.stackReplies = .unmapped v :: rest →
        ∃ t, exec i s = .fault (.unmapped v t) ∧ KeepsRest { answers := true } s t ∧ t.slot = s.slot)

/-- With no answer given the stack cache does what rule R251 expects (the model's choice, log entry 6). Rule R251 is the spec's orientation only; that the model follows it is the design choice of notes/assumptions/6.md. -/
def Obligations.StackDefault : Prop :=
  ∀ (i : Instr) (s : State) (op : StackOp) (ss st n : Word),
    ((∃ imm, shapeOf i = .stackI op imm) ∨ (∃ rs, shapeOf i = .stackR op rs)) → Commits s →
    s.stackReplies = [] → s.params.stackCfg.own = false → s.params.mainBacked = Config.wholeSpace →
    s.params.stackCacheBytes < 4294967296 → s.params.stackCacheBytes % 4 = 0 →
    s.params.ss ≠ s.params.st →
    ss = s.readSpr s.params.ss → st = s.readSpr s.params.st → n = s.slot.exResult →
    ss.toNat % 4 = 0 → st.toNat % 4 = 0 → n.toNat % 4 = 0 → n.toNat ≤ s.params.stackCacheBytes →
    ∃ t, exec i s = .next t ∧ KeepsRest { sprs := [s.params.ss, s.params.st] } s t ∧
      t.slot = { s.slot with discard := true } ∧
      (n = 0 → t.readSpr s.params.ss = ss ∧ t.readSpr s.params.st = st) ∧
      (n ≠ 0 →
        match op with
        | .reserve => t.readSpr s.params.st = st - n ∧
            ((ss - (st - n)).toNat ≤ s.params.stackCacheBytes → t.readSpr s.params.ss = ss) ∧
            (s.params.stackCacheBytes < (ss - (st - n)).toNat →
              (t.readSpr s.params.ss - (st - n)).toNat = s.params.stackCacheBytes)
        | .ensure => t.readSpr s.params.st = st ∧ (n.toNat ≤ (ss - st).toNat → t.readSpr s.params.ss = ss) ∧
            ((ss - st).toNat < n.toNat → t.readSpr s.params.ss - st = n)
        | .free => t.readSpr s.params.st = st + n ∧
            t.readSpr s.params.ss = if ss.toNat < (st + n).toNat then st + n else ss
        | .spill => t.readSpr s.params.st = st ∧ t.readSpr s.params.ss = ss - n)

/-- br and brr dispatch in the execute stage: they wait for MW, stop at a bad target, else set nPC and flush two bundles. Rule R267, with rules R266, R271 to R273, R281 and R285. The mark of the delay slots, from which the refusal of rule R301 is made, is the bookkeeping of this model, notes/assumptions/9.md. -/
def Obligations.LocalBranchDispatch : Prop :=
  ∀ (i : Instr) (s : State) (d : Bool) (dest : BranchTo), shapeOf i = .branch d dest →
    (Executes s dest.sources → s.slot.discard = true ∨ s.stallReq = some .MW → exec i s = .next s) ∧
    (Executes s dest.sources → s.slot.discard = false → s.stallReq ≠ some .MW →
      (dest.target s = 0 → exec i s = .fault (.halt (s.readGpr s.params.exitReg) s)) ∧
      ((dest.target s).toNat % 4 ≠ 0 → exec i s = .fault (.unaligned (dest.target s) s)) ∧
      (dest.target s ≠ 0 → (dest.target s).toNat % 4 = 0 →
        ∃ t, exec i s = .next t ∧ t.npc = dest.target s ∧ t.base = s.base ∧ TransferSlots d s.params.dsBranch s t ∧
          KeepsRest { control := true, otherSlots := true } s t ∧ t.slot = { s.slot with discard := true })) ∧
    (s.cur.stage = .MW → exec i s = .next s)

/-- The execute stage of call, brcf, callr, brcfr, ret, xret and trap computes base and target. Rules R265, R280, R282 to R284, R286, R287, R290 and R291, `execute_stage`. That the handler table is a list whose first entry of a code counts, that a code without an entry is not enabled, and the number of bits looked at are the choices of this model in notes/assumptions/15.md. -/
def Obligations.TransferExecute : Prop :=
  ∀ (i : Instr) (s : State) (kind : TransferKind) (dest : TransferTo), shapeOf i = .transfer kind dest →
    Executes s dest.sources →
    (kind ≠ .trap →
      exec i s = .next (s.setSlot { s.slot with exBase := dest.base s, exTarget := dest.target s })) ∧
    ∀ code, dest = .code code →
      ((∀ e, e ∈ s.exc.table → e.code ≠ code % 2 ^ s.exc.codeBits) →
        exec i s = .next (s.setSlot { s.slot with trapFires := false })) ∧
      ∀ pre e post, s.exc.table = pre ++ e :: post → e.code = code % 2 ^ s.exc.codeBits →
        (∀ e', e' ∈ pre → e'.code ≠ code % 2 ^ s.exc.codeBits) →
        exec i s = .next (s.setSlot (if e.enabled then
          { s.slot with trapFires := true, exBase := e.handler, exTarget := e.handler }
        else { s.slot with trapFires := false }))

/-- A transfer whose function is resident, or becomes so in this call, takes effect: BASE, nPC, the saved pair, the frame, interrupt acceptance, the flush. Rules R265, R268, R270, R271, R274, R275, R283, R290 and R291, with R316 for the residency call. The mark of the delay slots is the bookkeeping of this model, notes/assumptions/9.md. -/
def Obligations.TransferCompletes : Prop :=
  ∀ (i : Instr) (s : State) (kind : TransferKind) (dest : TransferTo), shapeOf i = .transfer kind dest →
    Commits s → kind.fires s → GoodTarget s →
    (CacheHit s s.slot.exBase →
      ∃ t, exec i s = .next t ∧ TransferDone kind s t ∧ t.replies = s.replies ∧
        t.mc.active = s.slot.exBase ∧ t.mc.hits = s.mc.hits + 1 ∧ t.mc.misses = s.mc.misses ∧
        t.mc.state = s.mc.state ∧ t.mc.entries.length = s.mc.entries.length) ∧
    ∀ m rs, ensureResident s.slot.exBase s = .resident { s with mc := m, replies := rs } →
      ∃ t, exec i s = .next t ∧ TransferDone kind s t ∧ t.mc = m ∧ t.replies = rs

/-- A transfer to a function that is not resident does its one-time block, flushes and stalls MW, once, and waits on while the fill does. Rules R268, R271, R275, R283, R315, R316 and the order of `90_conflicts.md` C6. -/
def Obligations.TransferWaitsForFunction : Prop :=
  ∀ (i : Instr) (s : State) (kind : TransferKind) (dest : TransferTo), shapeOf i = .transfer kind dest →
    Commits s → kind.fires s → GoodTarget s →
    (s.params.mcPolicy ≠ .ideal → s.mc.state = .idle → (∀ e, e ∈ s.mc.entries → e.addr ≠ s.slot.exBase) →
      s.nextReply = .busy →
      ∃ t, exec i s = .next t ∧ TransferWaits kind s t ∧ t.replies = s.replies.tail ∧ t.mc.state = .sizeFetch ∧
        t.mc.pending.address = s.slot.exBase ∧ t.mc.misses = s.mc.misses + 1 ∧ t.mc.entries = s.mc.entries ∧
        t.mc.active = s.mc.active ∧ t.mc.hits = s.mc.hits) ∧
    ∀ m rs, ensureResident s.slot.exBase s = .wait { s with mc := m, replies := rs } →
      ∃ t, exec i s = .next t ∧ TransferWaits kind s t ∧ t.mc = m ∧ t.replies = rs

/-- Where a transfer stops: address 0 halts or is IllegalPC, a misaligned target is Unaligned, with nothing saved; a stop of the residency call is its stop. Rules R268, R272, R273, R283, R319, R358 and R359. That the target is the one reported where base and target are both misaligned is the choice of this model in notes/assumptions/21.md. -/
def Obligations.TransferStops : Prop :=
  ∀ (i : Instr) (s : State) (kind : TransferKind) (dest : TransferTo), shapeOf i = .transfer kind dest →
    Commits s →
    (kind = .trap → s.slot.trapFires = false → exec i s = .next s) ∧
    (kind.fires s →
      ∃ u, KeepsRest { otherSlots := true } s u ∧ u.slot = s.slot ∧
        (s.slot.exBase = 0 → (kind.isReturn = true → s.slot.drSsOff = 0) →
          exec i s = .fault (.halt (s.readGpr s.params.exitReg) u)) ∧
        (s.slot.exBase = 0 → kind.isReturn = true → s.slot.drSsOff ≠ 0 →
          exec i s = .fault (.illegalPC s.slot.drSsOff u)) ∧
        (s.slot.exBase ≠ 0 → s.slot.exTarget.toNat % 4 ≠ 0 → exec i s = .fault (.unaligned s.slot.exTarget u)) ∧
        (s.slot.exBase ≠ 0 → s.slot.exTarget.toNat % 4 = 0 → s.slot.exBase.toNat % 4 ≠ 0 →
          exec i s = .fault (.unaligned s.slot.exBase u))) ∧
    (kind.fires s → GoodTarget s →
      ∃ u, TransferBegun {} kind s u ∧
        (∀ f, ensureResident s.slot.exBase u = .raised f → exec i s = .fault f) ∧
        ∀ r, ensureResident s.slot.exBase u = .refused r → exec i s = .refused r)

/-- A pending interrupt is injected exactly when acceptance is on and intr_block is 0. Rule R365. -/
def Obligations.InterruptInjected : Prop :=
  ∀ s : State,
    (∀ q, (drawIrq s).exc.pending = some q → s.exc.intrEnabled = true → s.intrBlock = 0 →
      ∃ t, fetchStep s = .next t ∧ t.pipe.fetch.s0.instr = .intr q.handler ∧ t.pipe.fetch.s0.pred = true ∧
        t.pipe.fetch.s0.addr = s.npc ∧ t.pipe.fetch.s0.next = s.npc ∧ t.pipe.fetch.s0.base = s.base ∧
        t.pipe.fetch.s1 = Slot.bubble ∧ t.exc.intrEnabled = false ∧ t.exc.pending = none ∧ t.intrBlock = s.params.dsIntr ∧
        t.pc = s.pc ∧ t.npc = s.npc ∧ t.base = s.base ∧ t.gpr = s.gpr ∧ t.preds = s.preds ∧ t.spr = s.spr ∧
        t.mem = s.mem ∧ t.mc = s.mc ∧ t.frames = s.frames) ∧
    ∀ t, fetchStep s = .next t →
      (drawIrq s).exc.pending = none ∨ s.exc.intrEnabled = false ∨ s.intrBlock ≠ 0 →
      (∀ h, t.pipe.fetch.s0.instr ≠ .intr h) ∧ t.exc.intrEnabled = s.exc.intrEnabled

/-- INTR, stage by stage and invocation by invocation: it computes its handler, saves the exception pair once, flushes, waits for the handler, goes there or stops. Rules R296 and R366, with the dispatch of rules R268, R270 to R275 and R358. That the target is the one reported where base and target are both misaligned is the choice of this model in notes/assumptions/21.md. -/
def Obligations.InterruptEntry : Prop :=
  ∀ (h : Word) (s : State),
    (s.cur.stage = .DR → intrStages h s = .next (s.setSlot { s.slot with pred := true })) ∧
    (Executes s [] → intrStages h s = .next (s.setSlot { s.slot with exBase := h, exTarget := h })) ∧
    (Commits s → GoodTarget s →
      (CacheHit s s.slot.exBase →
        ∃ t, intrStages h s = .next t ∧ TransferDone .intr s t ∧ t.replies = s.replies ∧
          t.mc.active = s.slot.exBase ∧ t.mc.hits = s.mc.hits + 1 ∧ t.mc.misses = s.mc.misses) ∧
      (∀ m rs, ensureResident s.slot.exBase s = .resident { s with mc := m, replies := rs } →
        ∃ t, intrStages h s = .next t ∧ TransferDone .intr s t ∧ t.mc = m ∧ t.replies = rs) ∧
      (∀ m rs, ensureResident s.slot.exBase s = .wait { s with mc := m, replies := rs } →
        ∃ t, intrStages h s = .next t ∧ TransferWaits .intr s t ∧ t.mc = m ∧ t.replies = rs) ∧
      ∃ u, TransferBegun {} .intr s u ∧
        (∀ f, ensureResident s.slot.exBase u = .raised f → intrStages h s = .fault f) ∧
        ∀ r, ensureResident s.slot.exBase u = .refused r → intrStages h s = .refused r) ∧
    (Commits s →
      ∃ u, KeepsRest { otherSlots := true } s u ∧ u.slot = s.slot ∧
        (s.slot.exBase = 0 → intrStages h s = .fault (.halt (s.readGpr s.params.exitReg) u)) ∧
        (s.slot.exBase ≠ 0 → s.slot.exTarget.toNat % 4 ≠ 0 →
          intrStages h s = .fault (.unaligned s.slot.exTarget u)) ∧
        (s.slot.exBase ≠ 0 → s.slot.exTarget.toNat % 4 = 0 → s.slot.exBase.toNat % 4 ≠ 0 →
          intrStages h s = .fault (.unaligned s.slot.exBase u)))

/-- No instruction but trap and xret changes whether interrupts are accepted; trap can only clear it, xret only set it. Rules R283, R291 and R371. -/
def Obligations.OnlyTrapAndXretSwitchInterrupts : Prop :=
  (∀ (i : Instr) (s t : State), exec i s = .next t → t.exc.intrEnabled ≠ s.exc.intrEnabled →
      s.cur.stage = .MW ∧ s.slot.pred = true ∧
        ((∃ dest, shapeOf i = .transfer .trap dest ∧ s.slot.trapFires = true ∧ t.exc.intrEnabled = false) ∨
          (∃ d dest, shapeOf i = .transfer (.xret d) dest ∧ t.exc.intrEnabled = true))) ∧
    ∀ (h : Word) (s t : State), intrStages h s = .next t → t.exc.intrEnabled = s.exc.intrEnabled

/-- An operand is read from the MEM entries of MW, then its EXE entries, slot 1 before slot 0, then from the decode stage. Rule R112. -/
def Obligations.BypassPrecedence : Prop :=
  ∀ (s : State) (r : Reg) (dr : Word),
    (r = 0 → s.operand r dr = 0) ∧
    (r ≠ 0 →
      (∀ v, s.pipe.mw.s1.byp = some ⟨.MEM, r, v⟩ → s.operand r dr = v) ∧
      ((∀ v, s.pipe.mw.s1.byp ≠ some ⟨.MEM, r, v⟩) →
        (∀ v, s.pipe.mw.s0.byp = some ⟨.MEM, r, v⟩ → s.operand r dr = v) ∧
        ((∀ v, s.pipe.mw.s0.byp ≠ some ⟨.MEM, r, v⟩) →
          (∀ v, s.pipe.mw.s1.byp = some ⟨.EXE, r, v⟩ → s.operand r dr = v) ∧
          ((∀ v, s.pipe.mw.s1.byp ≠ some ⟨.EXE, r, v⟩) →
            (∀ v, s.pipe.mw.s0.byp = some ⟨.EXE, r, v⟩ → s.operand r dr = v) ∧
            ((∀ v, s.pipe.mw.s0.byp ≠ some ⟨.EXE, r, v⟩) → s.operand r dr = dr)))))

/-- After a commit stage has written rd, the execute stage of the next bundle reads the new value. Rules R111 to R113 and R242: the second writer wins. -/
def Obligations.CommittedResultIsForwarded : Prop :=
  ∀ (i : Instr) (s t : State) (rd : Reg) (dr : Word), destGpr i = some rd → rd ≠ 0 → Commits s →
    exec i s = .next t → t.slot.discard = true →
    (∀ k e, k ≠ s.cur.k → (s.slotAt .MW k).byp = some e → e.index ≠ rd) →
    t.operand rd dr = t.readGpr rd

/-- A general register changes only in the commit stage of an instruction that has it as destination. Rules R12, R106 and R108. -/
def Obligations.OnlyCommitWritesRegisters : Prop :=
  ∀ (i : Instr) (s t : State) (r : Reg), exec i s = .next t → t.readGpr r ≠ s.readGpr r →
    s.cur.stage = .MW ∧ s.slot.pred = true ∧ s.slot.discard = false ∧ destGpr i = some r

/-- Predicates and special registers change only by the instructions and in the stages the rules name. Rules R14, R16 and R391. -/
def Obligations.WhoWritesPredicatesAndSpecials : Prop :=
  ∀ (i : Instr) (s t : State), exec i s = .next t →
    (∀ p, t.readPred p ≠ s.readPred p →
      (s.cur.stage = .EX ∧ destPred i = some p) ∨
        (s.cur.stage = .MW ∧ ∃ sd rs1, shapeOf i = .mts sd rs1 ∧ isPredAlias s.params sd = true)) ∧
    ∀ k, t.readSpr k ≠ s.readSpr k →
      s.cur.stage = .MW ∧ s.slot.pred = true ∧ s.slot.discard = false ∧
        ((∃ rs1, shapeOf i = .mts k rs1) ∨
          ((k = s.params.sl ∨ k = s.params.sh) ∧ ∃ g a b, shapeOf i = .mul g a b) ∨
          ((k = s.params.ss ∨ k = s.params.st) ∧
            ((∃ op n, shapeOf i = .stackI op n) ∨ ∃ op r, shapeOf i = .stackR op r)) ∨
          ((k = s.params.srb ∨ k = s.params.sro) ∧ ∃ d dest, shapeOf i = .transfer (.call d) dest) ∨
          ((k = s.params.sxb ∨ k = s.params.sxo) ∧ s.slot.trapFires = true ∧ ∃ dest, shapeOf i = .transfer .trap dest))

/-- Memory changes only by stores and stack control in the commit stage, BASE and nPC only by control transfers. Rules R20, R51 and R106. -/
def Obligations.WhoWritesMemoryAndControl : Prop :=
  ∀ (i : Instr) (s t : State), exec i s = .next t →
    (∀ area a, t.readByte area a ≠ s.readByte area a →
      s.cur.stage = .MW ∧ s.slot.pred = true ∧ s.slot.discard = false ∧
        ((∃ ar w ra rs imm, shapeOf i = .store ar w ra rs imm) ∨ (∃ op n, shapeOf i = .stackI op n) ∨
          ∃ op r, shapeOf i = .stackR op r)) ∧
    (t.npc ≠ s.npc →
      (s.cur.stage = .EX ∧ ∃ d dest, shapeOf i = .branch d dest) ∨
        (s.cur.stage = .MW ∧ ∃ kind dest, shapeOf i = .transfer kind dest)) ∧
    (t.base ≠ s.base → s.cur.stage = .MW ∧ ∃ kind dest, shapeOf i = .transfer kind dest) ∧
    t.pc = s.pc ∧ t.cycle = s.cycle ∧ t.intrBlock = s.intrBlock ∧ t.params = s.params

/-- A step invokes the stage operation of what every occupied slot holds, commit before execute before decode, then ends the cycle. Rules R100, R102, R103, R23, R296 and R299: how exec reaches a run. Where the two tests for what the spec has a model refuse stand is the model's own, notes/assumptions/9.md and 10.md; the statement RefusedBundles says what they refuse. -/
def Obligations.StepInvokesSlots : Prop :=
  (∀ s : State,
      step s =
        andThen (invoke .MW .s0 { s with stallReq := none }) fun a =>
        andThen (invoke .MW .s1 a) fun b =>
        andThen (checkDelaySlots b) fun b => andThen (checkWriters b) fun b =>
        andThen (invoke .EX .s0 b) fun c => andThen (invoke .EX .s1 c) fun d =>
        andThen (checkDelaySlots d) fun d =>
        andThen (invoke .DR .s0 d) fun e => andThen (invoke .DR .s1 e) fun f =>
        andThen (invoke .IF .s0 f) fun g => andThen (invoke .IF .s1 g) fun h => endCycle h) ∧
    (∀ (s : State) (st : Stage) (k : SlotIx) (i : Instr), (s.slotAt st k).instr = .instr i →
      invoke st k s = exec i (s.atSlot st k)) ∧
    (∀ (s : State) (st : Stage) (k : SlotIx) (h : Word), (s.slotAt st k).instr = .intr h →
      invoke st k s = intrStages h (s.atSlot st k)) ∧
    (∀ (s : State) (st : Stage) (k : SlotIx), (s.slotAt st k).instr = .halt →
      invoke st k s = haltStages (s.atSlot st k)) ∧
    (∀ (s : State) (st : Stage) (k : SlotIx), (s.slotAt st k).instr = .bubble → invoke st k s = .next s) ∧
    ∀ s : State, s.cur.stage = .IF →
      (∀ i, exec i s = .next s) ∧ (∀ h, intrStages h s = .next s) ∧ haltStages s = .next s

/-- Exactly which bundles the machine refuses: two writers of one register, a use too soon after a load, a transfer in a delay slot. Rules R113, R242, R301 and R397; the moments at which the model refuses are notes/assumptions/9.md, 10.md and 11.md. -/
def Obligations.RefusedBundles : Prop :=
  ∀ s : State,
    (TwoWriters s → checkWriters s = .refused .twoWriters) ∧ (¬ TwoWriters s → checkWriters s = .next s) ∧
    (TransferInDelay s → checkDelaySlots s = .refused .transferInDelaySlot) ∧
    (¬ TransferInDelay s → checkDelaySlots s = .next s) ∧
    (∀ r, s.tooSoon r = true ↔ ∃ n, (r, n) ∈ s.loadHist ∧ n < s.params.loadUseGap) ∧
    ∀ i : Instr, s.cur.stage = .EX →
      (exec i s = .refused .loadUseGap ↔ s.slot.pred = true ∧ ∃ r, r ∈ (shapeOf i).sources ∧ s.tooSoon r = true)

/-- The fetch step puts the bundle that the words at nPC decode to into IF and moves PC and nPC on. Rules R20, R90, R101, R269, R330 and R356. That Illegal carries the address of the bundle also where the second word is the rejected one is the choice of this model in notes/assumptions/21.md. -/
def Obligations.FetchIssuesDecodedBundle : Prop :=
  ∀ (s : State) (a w0 w1 : Word), irqToInject (drawIrq s) = none → a = s.npc → a.toNat % 4 = 0 →
    InFetchBounds s a → FitsBelowTop a w0 → peekWord s a = .ok w0 → peekWord s (a + 4) = .ok w1 →
    (∀ f, decodeBundle s.params.dualIssue w0 w1 = .ok f →
      ∃ t, fetchStep s = .next t ∧ t.pc = a ∧ t.npc = a + BitVec.ofNat 32 f.len ∧ t.base = s.base ∧
        t.pipe.fetch.s0 =
          { Slot.bubble with instr := .instr f.i0, addr := a, next := a + BitVec.ofNat 32 f.len, base := s.base } ∧
        (f.i1 = none → t.pipe.fetch.s1 =
          { Slot.bubble with addr := a + 4, next := a + BitVec.ofNat 32 f.len, base := s.base }) ∧
        (∀ j, f.i1 = some j → t.pipe.fetch.s1 =
          { Slot.bubble with instr := .instr j, addr := a + 4, next := a + BitVec.ofNat 32 f.len, base := s.base }) ∧
        (∀ d, transferIds s.params f.i0 = some d → t.intrBlock = d) ∧
        (transferIds s.params f.i0 = none → t.intrBlock = s.intrBlock - 1) ∧
        t.pipe.dr = s.pipe.dr ∧ t.pipe.ex = s.pipe.ex ∧ t.pipe.mw = s.pipe.mw ∧
        t.gpr = s.gpr ∧ t.preds = s.preds ∧ t.spr = s.spr ∧ t.mem = s.mem) ∧
    ∀ r, decodeBundle s.params.dualIssue w0 w1 = .error r →
      ∃ t, fetchStep s = .fault (.illegal r.word a t) ∧ t.pc = a ∧ (r.word = w0 ∨ r.word = w1)

/-- Where the fetch stops: misaligned is Unaligned, outside the active function and its slack or past the top IllegalPC, a word not backed Unmapped. Rules R20, R46, R330, R353 and R357. That the fetch at 0 counts as wrapped under every policy, and where the test for a wrap stands, is notes/assumptions/32.md; that one unbacked byte makes the whole word Unmapped, reported with its own address, is the choice of this model in notes/assumptions/21.md and 29.md. -/
def Obligations.FetchOutOfBounds : Prop :=
  ∀ s : State, irqToInject (drawIrq s) = none →
    (s.npc.toNat % 4 ≠ 0 → FetchStops s (.unaligned s.npc)) ∧
    (s.npc = 0 → FetchStops s (.illegalPC s.npc)) ∧
    (∀ e, s.params.mcPolicy ≠ .ideal → s.npc.toNat % 4 = 0 → ActiveEntry s e →
      (s.npc.toNat < e.addr.toNat ∨
        e.addr.toNat + e.blocks * s.params.mcBlockBytes + s.params.mcFetchSlack ≤ s.npc.toNat) →
      FetchStops s (.illegalPC s.npc)) ∧
    (s.npc.toNat % 4 = 0 → InFetchBounds s s.npc →
      (WordUnbacked s s.npc → FetchStops s (.unmapped s.npc)) ∧
      ∀ w0, peekWord s s.npc = .ok w0 →
        (¬ FitsBelowTop s.npc w0 → FetchStops s (.illegalPC s.npc)) ∧
        (FitsBelowTop s.npc w0 → WordUnbacked s (s.npc + 4) → FetchStops s (.unmapped (s.npc + 4))))

/-- From reset, the very next step runs the decode stage of a well-formed instruction placed with withFetchWord. How a placed word enters the pipeline and runs; withFetchWord and the reset vector are the choices of notes/assumptions/2.md and 3.md. -/
def Obligations.PlacedWordIsFetched : Prop :=
  ∀ (i : Instr) (w : Word) (rest : List Word) (s : State), encode i = some (w :: rest) →
    s = State.reset.withFetchWord 64 (w.toNat + 4294967296 * (rest.headD 0).toNat) →
    (s.slotAt .DR .s0).instr = .instr i ∧ (s.slotAt .DR .s0).addr = State.reset.npc ∧
      (∀ k, s.slotAt .EX k = Slot.bubble ∧ s.slotAt .MW k = Slot.bubble) ∧
      ∃ d t, exec i (s.atSlot .DR .s0) = .next d ∧ step s = .next t ∧ t.slotAt .EX .s0 = d.slotAt .DR .s0 ∧
        (t.slotAt .EX .s0).instr = .instr i ∧ t.cycle = 1

/-- A cycle in which MW stalls moves nothing and fetches nothing. Rule R118. -/
def Obligations.StallHoldsPipeline : Prop :=
  ∀ s u : State, stageOps s = .next u → u.stallReq = some .MW →
    step s = .next { u with
      cycle := u.cycle + 1
      cur := ⟨.IF, .s0⟩
      mc := { u.mc with
        stallCycles := if u.mc.state = .idle then u.mc.stallCycles else u.mc.stallCycles + 1 } }

/-- A cycle without a stall moves every bundle one stage on and fetches. Rules R100 and R101. -/
def Obligations.AdvanceMovesBundles : Prop :=
  ∀ s u t : State, stageOps s = .next u → u.stallReq = none → step s = .next t →
    t.pipe.mw = u.pipe.ex ∧ t.pipe.ex = u.pipe.dr ∧ t.pipe.dr = u.pipe.fetch ∧ t.gpr = u.gpr ∧
      t.preds = u.preds ∧ t.spr = u.spr ∧ t.mem = u.mem ∧ t.frames = u.frames ∧ t.base = u.base ∧
      ∃ v, fetchStep (advance u) = .next v ∧ t = finishCycle v ∧ t.pipe.fetch = v.pipe.fetch ∧ t.pc = v.pc ∧
        t.npc = v.npc ∧ t.exc = v.exc ∧ t.intrBlock = v.intrBlock

/-- Every step counts one cycle and leaves the parameters and the handler table alone. Rules R5, R21 and R100. That no step changes the enable set and the handler table is the choice of this model in notes/assumptions/15.md, that none changes the parameters the one in notes/assumptions/20.md. -/
def Obligations.StepCountsCycles : Prop :=
  ∀ s t : State, step s = .next t →
    t.cycle = s.cycle + 1 ∧ t.params = s.params ∧ t.exc.table = s.exc.table ∧ t.exc.codeBits = s.exc.codeBits

/-- Every step keeps the invariant of the core. The invariant `coreInv` over every step from every state. -/
def Obligations.CoreInvariantKept : Prop :=
  ∀ s t : State, coreInv s = true → step s = .next t → coreInv t = true

/-- Every step keeps the invariant of the method cache: distinct entries within capacity and count, the active one that of BASE. Rules R28, R314 and R332, as an invariant over every step. -/
def Obligations.MethodCacheInvariantKept : Prop :=
  ∀ s t : State, s.params.ok = true → mcInv s → step s = .next t → mcInv t

/-- What reset leaves in every piece of state the spec gives a reset value. Rules R380 and R32; the choices of this model are ENTRY and the empty memory (notes/assumptions/2.md and 3.md), the bytes of the stack, local and data areas (5.md) and the fields of a BUBBLE that are no flags (14.md). -/
def Obligations.ResetState : Prop :=
  (∀ r, State.reset.readGpr r = 0) ∧ (∀ p, State.reset.readPred p = decide (p = 0)) ∧
    (∀ k, State.reset.readSpr k = 0) ∧ State.reset.packedPreds = 1 ∧
    State.reset.base = State.reset.params.entry ∧ State.reset.npc = State.reset.params.entry ∧
    State.reset.pc = State.reset.params.entry ∧ State.reset.cycle = 0 ∧
    (∀ st k, State.reset.slotAt st k = Slot.bubble) ∧ State.reset.stallReq = none ∧ State.reset.intrBlock = 0 ∧
    State.reset.frames = [] ∧ State.reset.mc.state = .idle ∧
    State.reset.mc.entries = [⟨State.reset.params.entry, 0, 0, 0⟩] ∧
    State.reset.mc.active = State.reset.params.entry ∧ State.reset.mc.hits = 0 ∧ State.reset.mc.misses = 0 ∧
    State.reset.mc.evictions = 0 ∧ State.reset.mc.bytesTransferred = 0 ∧ State.reset.mc.stallCycles = 0 ∧
    State.reset.exc.intrEnabled = true ∧ State.reset.exc.pending = none ∧
    (∀ area a, State.reset.readByte area a = 0)

/-- The invariants hold at reset and after boot, which makes the entry function resident and active or ends the run. The base case of the two invariants, and rule R382. The order of the ends of boot is the choice of this model in notes/assumptions/33.md, that IDEAL leaves no entries the one in notes/assumptions/24.md; that no program is loaded at reset is notes/assumptions/2.md. -/
def Obligations.InvariantsHoldAtReset : Prop :=
  (State.reset.params.ok = true ∧ coreInv State.reset = true ∧ mcInv State.reset ∧
      boot State.reset = .next State.reset) ∧
    ∀ (s u : State) (a : Word), a = s.params.entry → u = { s with base := a, pc := a, npc := a } →
      (a = 0 → boot s = .fault (.halt 0 u)) ∧
      (a ≠ 0 → a.toNat % 4 ≠ 0 → boot s = .fault (.unaligned a u)) ∧
      (a ≠ 0 → a.toNat % 4 = 0 → s.params.mcPolicy = .ideal →
        boot s = .next { u with mc := { s.mc with state := .idle, entries := [], active := a } }) ∧
      (a ≠ 0 → a.toNat % 4 = 0 → s.params.mcPolicy ≠ .ideal →
        (∀ f, peekWord u (a - 4) = .error f → boot s = .fault f) ∧
        ∀ size, peekWord u (a - 4) = .ok size →
          (s.params.mcNumBlocks < blocksOf s.params size.toNat → boot s = .fault (.codeExceeded a size.toNat u)) ∧
          (blocksOf s.params size.toNat ≤ s.params.mcNumBlocks → 4294967296 < a.toNat + size.toNat →
            boot s = .refused .functionWraps) ∧
          (blocksOf s.params size.toNat ≤ s.params.mcNumBlocks → a.toNat + size.toNat ≤ 4294967296 →
            boot s = .next { u with mc := { s.mc with
              state := .idle
              entries := [⟨a, size.toNat, blocksOf s.params size.toNat, 0⟩]
              active := a } })) ∧
      ∀ t, coreInv s = true → s.params.ok = true → boot s = .next t → coreInv t = true ∧ mcInv t

/-- Under LRU eviction takes the fewest entries from the front that make room, and always makes room. Rules R318 and R320 under `LRU`. -/
def Obligations.EvictionIsMinimal : Prop :=
  ∀ (p : Config.Params) (active : Word) (n : Nat) (es : List McEntry), p.ok = true → p.mcPolicy ≠ .fifo →
    n ≤ p.mcNumBlocks →
    ∃ k, evictFor p active n es = (es.drop k, k) ∧ k ≤ es.length ∧
      usedBlocks (es.drop k) + n ≤ p.mcNumBlocks ∧ (es.drop k).length + 1 ≤ p.mcMaxEntries ∧
      ∀ j, j < k → p.mcNumBlocks < usedBlocks (es.drop j) + n ∨ p.mcMaxEntries < (es.drop j).length + 1

/-- Under FIFO the active entry is not evicted while it and the request can both stay. Rule R320 under `FIFO`: the pin. -/
def Obligations.FifoPinsActiveEntry : Prop :=
  ∀ (p : Config.Params) (active : Word) (n : Nat) (es : List McEntry), p.ok = true → p.mcPolicy = .fifo →
    n ≤ p.mcNumBlocks → (es.map (·.addr)).Nodup →
    (∀ e, e ∈ (evictFor p active n es).1 → e ∈ es) ∧
    usedBlocks (evictFor p active n es).1 + n ≤ p.mcNumBlocks ∧
    (evictFor p active n es).1.length + 1 ≤ p.mcMaxEntries ∧
    (evictFor p active n es).1.length + (evictFor p active n es).2 = es.length ∧
    ∀ e, e ∈ es → e.addr = active → e.blocks + n ≤ p.mcNumBlocks → 2 ≤ p.mcMaxEntries →
      e ∈ (evictFor p active n es).1

/-- A hit makes the function active, counts once, and reorders only under LRU. Rule R317. -/
def Obligations.ResidencyHit : Prop :=
  ∀ (s : State) (e : McEntry) (pre post : List McEntry), s.params.mcPolicy ≠ .ideal → s.mc.state = .idle →
    s.mc.entries = pre ++ e :: post → (entryAddrs s.mc).Nodup →
    ∃ m, ensureResident e.addr s = .resident { s with mc := m } ∧ m.active = e.addr ∧ m.hits = s.mc.hits + 1 ∧
      m.misses = s.mc.misses ∧ m.evictions = s.mc.evictions ∧ m.bytesTransferred = s.mc.bytesTransferred ∧
      m.stallCycles = s.mc.stallCycles ∧ m.state = .idle ∧
      (s.params.mcPolicy = .fifo → m.entries = pre ++ e :: post) ∧
      (s.params.mcPolicy = .lru → m.entries = pre ++ post ++ [e])

/-- A fill, call by call: a miss starts it, a busy answer waits, SizeFetch admits or raises CodeExceeded, Transfer completes it; what is not backed is Unmapped. Rules R312, R315, R316 and R318 to R322. That CodeExceeded is tested before the refusal of a function that runs past 2^32 is the order of this model, notes/assumptions/12.md; that Unmapped comes with the answer and reports the first unbacked byte, notes/assumptions/21.md and 22.md, and that bytes past 2^32 are tested at the wrapped addresses, 30.md. -/
def Obligations.ResidencyMissFills : Prop :=
  ∀ (s : State) (a : Word), s.params.mcPolicy ≠ .ideal →
    (0 < s.params.mcBlockBytes → ∀ n, n ≤ blocksOf s.params n * s.params.mcBlockBytes ∧
      ∀ b, n ≤ b * s.params.mcBlockBytes → blocksOf s.params n ≤ b) ∧
    (s.mc.state = .idle → (∀ e, e ∈ s.mc.entries → e.addr ≠ a) →
      ensureResident a s = ensureResident a { s with mc := { s.mc with
        misses := s.mc.misses + 1, state := .sizeFetch, pending := { s.mc.pending with address := a } } }) ∧
    (s.mc.state = .sizeFetch → s.mc.pending.address = a →
      (s.nextReply = .busy → ensureResident a s = .wait { s with replies := s.replies.tail }) ∧
      (∀ f, s.nextReply ≠ .busy → peekWord { s with replies := s.replies.tail } (a - 4) = .error f →
        ensureResident a s = .raised f) ∧
      ∀ size, s.nextReply ≠ .busy → peekWord s (a - 4) = .ok size →
        (s.params.mcNumBlocks < blocksOf s.params size.toNat →
          ∃ t, ensureResident a s = .raised (.codeExceeded a size.toNat t) ∧ t.mc = s.mc) ∧
        (blocksOf s.params size.toNat ≤ s.params.mcNumBlocks → 4294967296 < a.toNat + size.toNat →
          ensureResident a s = .refused .functionWraps) ∧
        (blocksOf s.params size.toNat ≤ s.params.mcNumBlocks → a.toNat + size.toNat ≤ 4294967296 →
          ensureResident a s = ensureResident a { s with
            replies := s.replies.tail
            mc := { s.mc with
              entries := (evictFor s.params s.mc.active (blocksOf s.params size.toNat) s.mc.entries).1 ++
                [⟨a, size.toNat, blocksOf s.params size.toNat, 0⟩]
              evictions := s.mc.evictions +
                (evictFor s.params s.mc.active (blocksOf s.params size.toNat) s.mc.entries).2
              pending := ⟨a, size.toNat, blocksOf s.params size.toNat⟩
              state := .transfer } })) ∧
    (s.mc.state = .transfer → s.mc.pending.address = a →
      (s.nextReply = .busy → ensureResident a s = .wait { s with replies := s.replies.tail }) ∧
      (∀ k, s.nextReply ≠ .busy → k < s.mc.pending.blocks * s.params.mcBlockBytes →
        (∀ j, j < k → isBacked s.params.mainBacked (a + BitVec.ofNat 32 j) = true) →
        isBacked s.params.mainBacked (a + BitVec.ofNat 32 k) = false →
        ensureResident a s = .raised (.unmapped (a + BitVec.ofNat 32 k) { s with replies := s.replies.tail })) ∧
      (s.nextReply ≠ .busy →
        (∀ k, k < s.mc.pending.blocks * s.params.mcBlockBytes →
          isBacked s.params.mainBacked (a + BitVec.ofNat 32 k) = true) →
        ensureResident a s = .resident { s with
          replies := s.replies.tail
          mc := { s.mc with
            bytesTransferred := s.mc.bytesTransferred + s.mc.pending.blocks * s.params.mcBlockBytes
            state := .idle
            active := a } }))
end

