-- ==== Sys2Proof/Laws/State.lean ====
section
/-! SUPPORT. One lemma per field per update of the state, and per accessor that an update does not touch, true by `rfl`;
then what an accessor reads after the update of what it reads. No later proof unfolds a record update. -/

namespace Sys2Proof.Machine

variable (s : State)

/-! ### Fields -/

@[simp] theorem State.writeGpr_params (i : Reg) (v : Word) : (s.writeGpr i v).params = s.params := rfl
@[simp] theorem State.writeGpr_preds (i : Reg) (v : Word) : (s.writeGpr i v).preds = s.preds := rfl
@[simp] theorem State.writeGpr_spr (i : Reg) (v : Word) : (s.writeGpr i v).spr = s.spr := rfl
@[simp] theorem State.writeGpr_base (i : Reg) (v : Word) : (s.writeGpr i v).base = s.base := rfl
@[simp] theorem State.writeGpr_pc (i : Reg) (v : Word) : (s.writeGpr i v).pc = s.pc := rfl
@[simp] theorem State.writeGpr_npc (i : Reg) (v : Word) : (s.writeGpr i v).npc = s.npc := rfl
@[simp] theorem State.writeGpr_cycle (i : Reg) (v : Word) : (s.writeGpr i v).cycle = s.cycle := rfl
@[simp] theorem State.writeGpr_pipe (i : Reg) (v : Word) : (s.writeGpr i v).pipe = s.pipe := rfl
@[simp] theorem State.writeGpr_stallReq (i : Reg) (v : Word) : (s.writeGpr i v).stallReq = s.stallReq := rfl
@[simp] theorem State.writeGpr_intrBlock (i : Reg) (v : Word) : (s.writeGpr i v).intrBlock = s.intrBlock := rfl
@[simp] theorem State.writeGpr_cur (i : Reg) (v : Word) : (s.writeGpr i v).cur = s.cur := rfl
@[simp] theorem State.writeGpr_frames (i : Reg) (v : Word) : (s.writeGpr i v).frames = s.frames := rfl
@[simp] theorem State.writeGpr_profile (i : Reg) (v : Word) : (s.writeGpr i v).profile = s.profile := rfl
@[simp] theorem State.writeGpr_mc (i : Reg) (v : Word) : (s.writeGpr i v).mc = s.mc := rfl
@[simp] theorem State.writeGpr_exc (i : Reg) (v : Word) : (s.writeGpr i v).exc = s.exc := rfl
@[simp] theorem State.writeGpr_mem (i : Reg) (v : Word) : (s.writeGpr i v).mem = s.mem := rfl
@[simp] theorem State.writeGpr_replies (i : Reg) (v : Word) : (s.writeGpr i v).replies = s.replies := rfl
@[simp] theorem State.writeGpr_stackReplies (i : Reg) (v : Word) : (s.writeGpr i v).stackReplies = s.stackReplies := rfl
@[simp] theorem State.writeGpr_loadHist (i : Reg) (v : Word) : (s.writeGpr i v).loadHist = s.loadHist := rfl

@[simp] theorem State.writePred_params (i : PReg) (b : Bool) : (s.writePred i b).params = s.params := rfl
@[simp] theorem State.writePred_gpr (i : PReg) (b : Bool) : (s.writePred i b).gpr = s.gpr := rfl
@[simp] theorem State.writePred_spr (i : PReg) (b : Bool) : (s.writePred i b).spr = s.spr := rfl
@[simp] theorem State.writePred_base (i : PReg) (b : Bool) : (s.writePred i b).base = s.base := rfl
@[simp] theorem State.writePred_pc (i : PReg) (b : Bool) : (s.writePred i b).pc = s.pc := rfl
@[simp] theorem State.writePred_npc (i : PReg) (b : Bool) : (s.writePred i b).npc = s.npc := rfl
@[simp] theorem State.writePred_cycle (i : PReg) (b : Bool) : (s.writePred i b).cycle = s.cycle := rfl
@[simp] theorem State.writePred_pipe (i : PReg) (b : Bool) : (s.writePred i b).pipe = s.pipe := rfl
@[simp] theorem State.writePred_stallReq (i : PReg) (b : Bool) : (s.writePred i b).stallReq = s.stallReq := rfl
@[simp] theorem State.writePred_intrBlock (i : PReg) (b : Bool) : (s.writePred i b).intrBlock = s.intrBlock := rfl
@[simp] theorem State.writePred_cur (i : PReg) (b : Bool) : (s.writePred i b).cur = s.cur := rfl
@[simp] theorem State.writePred_frames (i : PReg) (b : Bool) : (s.writePred i b).frames = s.frames := rfl
@[simp] theorem State.writePred_profile (i : PReg) (b : Bool) : (s.writePred i b).profile = s.profile := rfl
@[simp] theorem State.writePred_mc (i : PReg) (b : Bool) : (s.writePred i b).mc = s.mc := rfl
@[simp] theorem State.writePred_exc (i : PReg) (b : Bool) : (s.writePred i b).exc = s.exc := rfl
@[simp] theorem State.writePred_mem (i : PReg) (b : Bool) : (s.writePred i b).mem = s.mem := rfl
@[simp] theorem State.writePred_replies (i : PReg) (b : Bool) : (s.writePred i b).replies = s.replies := rfl
@[simp] theorem State.writePred_stackReplies (i : PReg) (b : Bool) : (s.writePred i b).stackReplies = s.stackReplies := rfl
@[simp] theorem State.writePred_loadHist (i : PReg) (b : Bool) : (s.writePred i b).loadHist = s.loadHist := rfl

@[simp] theorem State.bulkPreds_params (v : Word) : (s.bulkPreds v).params = s.params := rfl
@[simp] theorem State.bulkPreds_gpr (v : Word) : (s.bulkPreds v).gpr = s.gpr := rfl
@[simp] theorem State.bulkPreds_spr (v : Word) : (s.bulkPreds v).spr = s.spr := rfl
@[simp] theorem State.bulkPreds_base (v : Word) : (s.bulkPreds v).base = s.base := rfl
@[simp] theorem State.bulkPreds_pc (v : Word) : (s.bulkPreds v).pc = s.pc := rfl
@[simp] theorem State.bulkPreds_npc (v : Word) : (s.bulkPreds v).npc = s.npc := rfl
@[simp] theorem State.bulkPreds_cycle (v : Word) : (s.bulkPreds v).cycle = s.cycle := rfl
@[simp] theorem State.bulkPreds_pipe (v : Word) : (s.bulkPreds v).pipe = s.pipe := rfl
@[simp] theorem State.bulkPreds_stallReq (v : Word) : (s.bulkPreds v).stallReq = s.stallReq := rfl
@[simp] theorem State.bulkPreds_intrBlock (v : Word) : (s.bulkPreds v).intrBlock = s.intrBlock := rfl
@[simp] theorem State.bulkPreds_cur (v : Word) : (s.bulkPreds v).cur = s.cur := rfl
@[simp] theorem State.bulkPreds_frames (v : Word) : (s.bulkPreds v).frames = s.frames := rfl
@[simp] theorem State.bulkPreds_profile (v : Word) : (s.bulkPreds v).profile = s.profile := rfl
@[simp] theorem State.bulkPreds_mc (v : Word) : (s.bulkPreds v).mc = s.mc := rfl
@[simp] theorem State.bulkPreds_exc (v : Word) : (s.bulkPreds v).exc = s.exc := rfl
@[simp] theorem State.bulkPreds_mem (v : Word) : (s.bulkPreds v).mem = s.mem := rfl
@[simp] theorem State.bulkPreds_replies (v : Word) : (s.bulkPreds v).replies = s.replies := rfl
@[simp] theorem State.bulkPreds_stackReplies (v : Word) : (s.bulkPreds v).stackReplies = s.stackReplies := rfl
@[simp] theorem State.bulkPreds_loadHist (v : Word) : (s.bulkPreds v).loadHist = s.loadHist := rfl

@[simp] theorem State.writeSpr_params (i : SReg) (v : Word) : (s.writeSpr i v).params = s.params := rfl
@[simp] theorem State.writeSpr_gpr (i : SReg) (v : Word) : (s.writeSpr i v).gpr = s.gpr := rfl
@[simp] theorem State.writeSpr_preds (i : SReg) (v : Word) : (s.writeSpr i v).preds = s.preds := rfl
@[simp] theorem State.writeSpr_base (i : SReg) (v : Word) : (s.writeSpr i v).base = s.base := rfl
@[simp] theorem State.writeSpr_pc (i : SReg) (v : Word) : (s.writeSpr i v).pc = s.pc := rfl
@[simp] theorem State.writeSpr_npc (i : SReg) (v : Word) : (s.writeSpr i v).npc = s.npc := rfl
@[simp] theorem State.writeSpr_cycle (i : SReg) (v : Word) : (s.writeSpr i v).cycle = s.cycle := rfl
@[simp] theorem State.writeSpr_pipe (i : SReg) (v : Word) : (s.writeSpr i v).pipe = s.pipe := rfl
@[simp] theorem State.writeSpr_stallReq (i : SReg) (v : Word) : (s.writeSpr i v).stallReq = s.stallReq := rfl
@[simp] theorem State.writeSpr_intrBlock (i : SReg) (v : Word) : (s.writeSpr i v).intrBlock = s.intrBlock := rfl
@[simp] theorem State.writeSpr_cur (i : SReg) (v : Word) : (s.writeSpr i v).cur = s.cur := rfl
@[simp] theorem State.writeSpr_frames (i : SReg) (v : Word) : (s.writeSpr i v).frames = s.frames := rfl
@[simp] theorem State.writeSpr_profile (i : SReg) (v : Word) : (s.writeSpr i v).profile = s.profile := rfl
@[simp] theorem State.writeSpr_mc (i : SReg) (v : Word) : (s.writeSpr i v).mc = s.mc := rfl
@[simp] theorem State.writeSpr_exc (i : SReg) (v : Word) : (s.writeSpr i v).exc = s.exc := rfl
@[simp] theorem State.writeSpr_mem (i : SReg) (v : Word) : (s.writeSpr i v).mem = s.mem := rfl
@[simp] theorem State.writeSpr_replies (i : SReg) (v : Word) : (s.writeSpr i v).replies = s.replies := rfl
@[simp] theorem State.writeSpr_stackReplies (i : SReg) (v : Word) : (s.writeSpr i v).stackReplies = s.stackReplies := rfl
@[simp] theorem State.writeSpr_loadHist (i : SReg) (v : Word) : (s.writeSpr i v).loadHist = s.loadHist := rfl

@[simp] theorem State.writeSpecial_params (i : SReg) (v : Word) : (s.writeSpecial i v).params = s.params := rfl
@[simp] theorem State.writeSpecial_gpr (i : SReg) (v : Word) : (s.writeSpecial i v).gpr = s.gpr := rfl
@[simp] theorem State.writeSpecial_base (i : SReg) (v : Word) : (s.writeSpecial i v).base = s.base := rfl
@[simp] theorem State.writeSpecial_pc (i : SReg) (v : Word) : (s.writeSpecial i v).pc = s.pc := rfl
@[simp] theorem State.writeSpecial_npc (i : SReg) (v : Word) : (s.writeSpecial i v).npc = s.npc := rfl
@[simp] theorem State.writeSpecial_cycle (i : SReg) (v : Word) : (s.writeSpecial i v).cycle = s.cycle := rfl
@[simp] theorem State.writeSpecial_pipe (i : SReg) (v : Word) : (s.writeSpecial i v).pipe = s.pipe := rfl
@[simp] theorem State.writeSpecial_stallReq (i : SReg) (v : Word) : (s.writeSpecial i v).stallReq = s.stallReq := rfl
@[simp] theorem State.writeSpecial_intrBlock (i : SReg) (v : Word) : (s.writeSpecial i v).intrBlock = s.intrBlock := rfl
@[simp] theorem State.writeSpecial_cur (i : SReg) (v : Word) : (s.writeSpecial i v).cur = s.cur := rfl
@[simp] theorem State.writeSpecial_frames (i : SReg) (v : Word) : (s.writeSpecial i v).frames = s.frames := rfl
@[simp] theorem State.writeSpecial_profile (i : SReg) (v : Word) : (s.writeSpecial i v).profile = s.profile := rfl
@[simp] theorem State.writeSpecial_mc (i : SReg) (v : Word) : (s.writeSpecial i v).mc = s.mc := rfl
@[simp] theorem State.writeSpecial_exc (i : SReg) (v : Word) : (s.writeSpecial i v).exc = s.exc := rfl
@[simp] theorem State.writeSpecial_mem (i : SReg) (v : Word) : (s.writeSpecial i v).mem = s.mem := rfl
@[simp] theorem State.writeSpecial_replies (i : SReg) (v : Word) : (s.writeSpecial i v).replies = s.replies := rfl
@[simp] theorem State.writeSpecial_stackReplies (i : SReg) (v : Word) : (s.writeSpecial i v).stackReplies = s.stackReplies := rfl
@[simp] theorem State.writeSpecial_loadHist (i : SReg) (v : Word) : (s.writeSpecial i v).loadHist = s.loadHist := rfl

@[simp] theorem State.setSlot_params (x : Slot) : (s.setSlot x).params = s.params := rfl
@[simp] theorem State.setSlot_gpr (x : Slot) : (s.setSlot x).gpr = s.gpr := rfl
@[simp] theorem State.setSlot_preds (x : Slot) : (s.setSlot x).preds = s.preds := rfl
@[simp] theorem State.setSlot_spr (x : Slot) : (s.setSlot x).spr = s.spr := rfl
@[simp] theorem State.setSlot_base (x : Slot) : (s.setSlot x).base = s.base := rfl
@[simp] theorem State.setSlot_pc (x : Slot) : (s.setSlot x).pc = s.pc := rfl
@[simp] theorem State.setSlot_npc (x : Slot) : (s.setSlot x).npc = s.npc := rfl
@[simp] theorem State.setSlot_cycle (x : Slot) : (s.setSlot x).cycle = s.cycle := rfl
@[simp] theorem State.setSlot_stallReq (x : Slot) : (s.setSlot x).stallReq = s.stallReq := rfl
@[simp] theorem State.setSlot_intrBlock (x : Slot) : (s.setSlot x).intrBlock = s.intrBlock := rfl
@[simp] theorem State.setSlot_cur (x : Slot) : (s.setSlot x).cur = s.cur := rfl
@[simp] theorem State.setSlot_frames (x : Slot) : (s.setSlot x).frames = s.frames := rfl
@[simp] theorem State.setSlot_profile (x : Slot) : (s.setSlot x).profile = s.profile := rfl
@[simp] theorem State.setSlot_mc (x : Slot) : (s.setSlot x).mc = s.mc := rfl
@[simp] theorem State.setSlot_exc (x : Slot) : (s.setSlot x).exc = s.exc := rfl
@[simp] theorem State.setSlot_mem (x : Slot) : (s.setSlot x).mem = s.mem := rfl
@[simp] theorem State.setSlot_replies (x : Slot) : (s.setSlot x).replies = s.replies := rfl
@[simp] theorem State.setSlot_stackReplies (x : Slot) : (s.setSlot x).stackReplies = s.stackReplies := rfl
@[simp] theorem State.setSlot_loadHist (x : Slot) : (s.setSlot x).loadHist = s.loadHist := rfl

@[simp] theorem State.atSlot_params (st : Stage) (j : SlotIx) : (s.atSlot st j).params = s.params := rfl
@[simp] theorem State.atSlot_gpr (st : Stage) (j : SlotIx) : (s.atSlot st j).gpr = s.gpr := rfl
@[simp] theorem State.atSlot_preds (st : Stage) (j : SlotIx) : (s.atSlot st j).preds = s.preds := rfl
@[simp] theorem State.atSlot_spr (st : Stage) (j : SlotIx) : (s.atSlot st j).spr = s.spr := rfl
@[simp] theorem State.atSlot_base (st : Stage) (j : SlotIx) : (s.atSlot st j).base = s.base := rfl
@[simp] theorem State.atSlot_pc (st : Stage) (j : SlotIx) : (s.atSlot st j).pc = s.pc := rfl
@[simp] theorem State.atSlot_npc (st : Stage) (j : SlotIx) : (s.atSlot st j).npc = s.npc := rfl
@[simp] theorem State.atSlot_cycle (st : Stage) (j : SlotIx) : (s.atSlot st j).cycle = s.cycle := rfl
@[simp] theorem State.atSlot_pipe (st : Stage) (j : SlotIx) : (s.atSlot st j).pipe = s.pipe := rfl
@[simp] theorem State.atSlot_stallReq (st : Stage) (j : SlotIx) : (s.atSlot st j).stallReq = s.stallReq := rfl
@[simp] theorem State.atSlot_intrBlock (st : Stage) (j : SlotIx) : (s.atSlot st j).intrBlock = s.intrBlock := rfl
@[simp] theorem State.atSlot_frames (st : Stage) (j : SlotIx) : (s.atSlot st j).frames = s.frames := rfl
@[simp] theorem State.atSlot_profile (st : Stage) (j : SlotIx) : (s.atSlot st j).profile = s.profile := rfl
@[simp] theorem State.atSlot_mc (st : Stage) (j : SlotIx) : (s.atSlot st j).mc = s.mc := rfl
@[simp] theorem State.atSlot_exc (st : Stage) (j : SlotIx) : (s.atSlot st j).exc = s.exc := rfl
@[simp] theorem State.atSlot_mem (st : Stage) (j : SlotIx) : (s.atSlot st j).mem = s.mem := rfl
@[simp] theorem State.atSlot_replies (st : Stage) (j : SlotIx) : (s.atSlot st j).replies = s.replies := rfl
@[simp] theorem State.atSlot_stackReplies (st : Stage) (j : SlotIx) : (s.atSlot st j).stackReplies = s.stackReplies := rfl
@[simp] theorem State.atSlot_loadHist (st : Stage) (j : SlotIx) : (s.atSlot st j).loadHist = s.loadHist := rfl

@[simp] theorem State.done_params : (s.done).params = s.params := rfl
@[simp] theorem State.done_gpr : (s.done).gpr = s.gpr := rfl
@[simp] theorem State.done_preds : (s.done).preds = s.preds := rfl
@[simp] theorem State.done_spr : (s.done).spr = s.spr := rfl
@[simp] theorem State.done_base : (s.done).base = s.base := rfl
@[simp] theorem State.done_pc : (s.done).pc = s.pc := rfl
@[simp] theorem State.done_npc : (s.done).npc = s.npc := rfl
@[simp] theorem State.done_cycle : (s.done).cycle = s.cycle := rfl
@[simp] theorem State.done_stallReq : (s.done).stallReq = s.stallReq := rfl
@[simp] theorem State.done_intrBlock : (s.done).intrBlock = s.intrBlock := rfl
@[simp] theorem State.done_cur : (s.done).cur = s.cur := rfl
@[simp] theorem State.done_frames : (s.done).frames = s.frames := rfl
@[simp] theorem State.done_profile : (s.done).profile = s.profile := rfl
@[simp] theorem State.done_mc : (s.done).mc = s.mc := rfl
@[simp] theorem State.done_exc : (s.done).exc = s.exc := rfl
@[simp] theorem State.done_mem : (s.done).mem = s.mem := rfl
@[simp] theorem State.done_replies : (s.done).replies = s.replies := rfl
@[simp] theorem State.done_stackReplies : (s.done).stackReplies = s.stackReplies := rfl
@[simp] theorem State.done_loadHist : (s.done).loadHist = s.loadHist := rfl

@[simp] theorem State.withResult_params (rd : Reg) (v : Word) : (s.withResult rd v).params = s.params := rfl
@[simp] theorem State.withResult_gpr (rd : Reg) (v : Word) : (s.withResult rd v).gpr = s.gpr := rfl
@[simp] theorem State.withResult_preds (rd : Reg) (v : Word) : (s.withResult rd v).preds = s.preds := rfl
@[simp] theorem State.withResult_spr (rd : Reg) (v : Word) : (s.withResult rd v).spr = s.spr := rfl
@[simp] theorem State.withResult_base (rd : Reg) (v : Word) : (s.withResult rd v).base = s.base := rfl
@[simp] theorem State.withResult_pc (rd : Reg) (v : Word) : (s.withResult rd v).pc = s.pc := rfl
@[simp] theorem State.withResult_npc (rd : Reg) (v : Word) : (s.withResult rd v).npc = s.npc := rfl
@[simp] theorem State.withResult_cycle (rd : Reg) (v : Word) : (s.withResult rd v).cycle = s.cycle := rfl
@[simp] theorem State.withResult_stallReq (rd : Reg) (v : Word) : (s.withResult rd v).stallReq = s.stallReq := rfl
@[simp] theorem State.withResult_intrBlock (rd : Reg) (v : Word) : (s.withResult rd v).intrBlock = s.intrBlock := rfl
@[simp] theorem State.withResult_cur (rd : Reg) (v : Word) : (s.withResult rd v).cur = s.cur := rfl
@[simp] theorem State.withResult_frames (rd : Reg) (v : Word) : (s.withResult rd v).frames = s.frames := rfl
@[simp] theorem State.withResult_profile (rd : Reg) (v : Word) : (s.withResult rd v).profile = s.profile := rfl
@[simp] theorem State.withResult_mc (rd : Reg) (v : Word) : (s.withResult rd v).mc = s.mc := rfl
@[simp] theorem State.withResult_exc (rd : Reg) (v : Word) : (s.withResult rd v).exc = s.exc := rfl
@[simp] theorem State.withResult_mem (rd : Reg) (v : Word) : (s.withResult rd v).mem = s.mem := rfl
@[simp] theorem State.withResult_replies (rd : Reg) (v : Word) : (s.withResult rd v).replies = s.replies := rfl
@[simp] theorem State.withResult_stackReplies (rd : Reg) (v : Word) : (s.withResult rd v).stackReplies = s.stackReplies := rfl
@[simp] theorem State.withResult_loadHist (rd : Reg) (v : Word) : (s.withResult rd v).loadHist = s.loadHist := rfl

@[simp] theorem State.withTarget_params (b t : Word) : (s.withTarget b t).params = s.params := rfl
@[simp] theorem State.withTarget_gpr (b t : Word) : (s.withTarget b t).gpr = s.gpr := rfl
@[simp] theorem State.withTarget_preds (b t : Word) : (s.withTarget b t).preds = s.preds := rfl
@[simp] theorem State.withTarget_spr (b t : Word) : (s.withTarget b t).spr = s.spr := rfl
@[simp] theorem State.withTarget_base (b t : Word) : (s.withTarget b t).base = s.base := rfl
@[simp] theorem State.withTarget_pc (b t : Word) : (s.withTarget b t).pc = s.pc := rfl
@[simp] theorem State.withTarget_npc (b t : Word) : (s.withTarget b t).npc = s.npc := rfl
@[simp] theorem State.withTarget_cycle (b t : Word) : (s.withTarget b t).cycle = s.cycle := rfl
@[simp] theorem State.withTarget_stallReq (b t : Word) : (s.withTarget b t).stallReq = s.stallReq := rfl
@[simp] theorem State.withTarget_intrBlock (b t : Word) : (s.withTarget b t).intrBlock = s.intrBlock := rfl
@[simp] theorem State.withTarget_cur (b t : Word) : (s.withTarget b t).cur = s.cur := rfl
@[simp] theorem State.withTarget_frames (b t : Word) : (s.withTarget b t).frames = s.frames := rfl
@[simp] theorem State.withTarget_profile (b t : Word) : (s.withTarget b t).profile = s.profile := rfl
@[simp] theorem State.withTarget_mc (b t : Word) : (s.withTarget b t).mc = s.mc := rfl
@[simp] theorem State.withTarget_exc (b t : Word) : (s.withTarget b t).exc = s.exc := rfl
@[simp] theorem State.withTarget_mem (b t : Word) : (s.withTarget b t).mem = s.mem := rfl
@[simp] theorem State.withTarget_replies (b t : Word) : (s.withTarget b t).replies = s.replies := rfl
@[simp] theorem State.withTarget_stackReplies (b t : Word) : (s.withTarget b t).stackReplies = s.stackReplies := rfl
@[simp] theorem State.withTarget_loadHist (b t : Word) : (s.withTarget b t).loadHist = s.loadHist := rfl

@[simp] theorem State.stall_params (st : Stage) : (s.stall st).params = s.params := rfl
@[simp] theorem State.stall_gpr (st : Stage) : (s.stall st).gpr = s.gpr := rfl
@[simp] theorem State.stall_preds (st : Stage) : (s.stall st).preds = s.preds := rfl
@[simp] theorem State.stall_spr (st : Stage) : (s.stall st).spr = s.spr := rfl
@[simp] theorem State.stall_base (st : Stage) : (s.stall st).base = s.base := rfl
@[simp] theorem State.stall_pc (st : Stage) : (s.stall st).pc = s.pc := rfl
@[simp] theorem State.stall_npc (st : Stage) : (s.stall st).npc = s.npc := rfl
@[simp] theorem State.stall_cycle (st : Stage) : (s.stall st).cycle = s.cycle := rfl
@[simp] theorem State.stall_pipe (st : Stage) : (s.stall st).pipe = s.pipe := rfl
@[simp] theorem State.stall_intrBlock (st : Stage) : (s.stall st).intrBlock = s.intrBlock := rfl
@[simp] theorem State.stall_cur (st : Stage) : (s.stall st).cur = s.cur := rfl
@[simp] theorem State.stall_frames (st : Stage) : (s.stall st).frames = s.frames := rfl
@[simp] theorem State.stall_profile (st : Stage) : (s.stall st).profile = s.profile := rfl
@[simp] theorem State.stall_mc (st : Stage) : (s.stall st).mc = s.mc := rfl
@[simp] theorem State.stall_exc (st : Stage) : (s.stall st).exc = s.exc := rfl
@[simp] theorem State.stall_mem (st : Stage) : (s.stall st).mem = s.mem := rfl
@[simp] theorem State.stall_replies (st : Stage) : (s.stall st).replies = s.replies := rfl
@[simp] theorem State.stall_stackReplies (st : Stage) : (s.stall st).stackReplies = s.stackReplies := rfl
@[simp] theorem State.stall_loadHist (st : Stage) : (s.stall st).loadHist = s.loadHist := rfl

@[simp] theorem State.flushUpstream_params (st : Stage) : (s.flushUpstream st).params = s.params := rfl
@[simp] theorem State.flushUpstream_gpr (st : Stage) : (s.flushUpstream st).gpr = s.gpr := rfl
@[simp] theorem State.flushUpstream_preds (st : Stage) : (s.flushUpstream st).preds = s.preds := rfl
@[simp] theorem State.flushUpstream_spr (st : Stage) : (s.flushUpstream st).spr = s.spr := rfl
@[simp] theorem State.flushUpstream_base (st : Stage) : (s.flushUpstream st).base = s.base := rfl
@[simp] theorem State.flushUpstream_pc (st : Stage) : (s.flushUpstream st).pc = s.pc := rfl
@[simp] theorem State.flushUpstream_npc (st : Stage) : (s.flushUpstream st).npc = s.npc := rfl
@[simp] theorem State.flushUpstream_cycle (st : Stage) : (s.flushUpstream st).cycle = s.cycle := rfl
@[simp] theorem State.flushUpstream_stallReq (st : Stage) : (s.flushUpstream st).stallReq = s.stallReq := rfl
@[simp] theorem State.flushUpstream_intrBlock (st : Stage) : (s.flushUpstream st).intrBlock = s.intrBlock := rfl
@[simp] theorem State.flushUpstream_cur (st : Stage) : (s.flushUpstream st).cur = s.cur := rfl
@[simp] theorem State.flushUpstream_frames (st : Stage) : (s.flushUpstream st).frames = s.frames := rfl
@[simp] theorem State.flushUpstream_profile (st : Stage) : (s.flushUpstream st).profile = s.profile := rfl
@[simp] theorem State.flushUpstream_mc (st : Stage) : (s.flushUpstream st).mc = s.mc := rfl
@[simp] theorem State.flushUpstream_exc (st : Stage) : (s.flushUpstream st).exc = s.exc := rfl
@[simp] theorem State.flushUpstream_mem (st : Stage) : (s.flushUpstream st).mem = s.mem := rfl
@[simp] theorem State.flushUpstream_replies (st : Stage) : (s.flushUpstream st).replies = s.replies := rfl
@[simp] theorem State.flushUpstream_stackReplies (st : Stage) : (s.flushUpstream st).stackReplies = s.stackReplies := rfl
@[simp] theorem State.flushUpstream_loadHist (st : Stage) : (s.flushUpstream st).loadHist = s.loadHist := rfl

@[simp] theorem State.markDelaySlots_params (n : Nat) (st : Stage) : (s.markDelaySlots n st).params = s.params := rfl
@[simp] theorem State.markDelaySlots_gpr (n : Nat) (st : Stage) : (s.markDelaySlots n st).gpr = s.gpr := rfl
@[simp] theorem State.markDelaySlots_preds (n : Nat) (st : Stage) : (s.markDelaySlots n st).preds = s.preds := rfl
@[simp] theorem State.markDelaySlots_spr (n : Nat) (st : Stage) : (s.markDelaySlots n st).spr = s.spr := rfl
@[simp] theorem State.markDelaySlots_base (n : Nat) (st : Stage) : (s.markDelaySlots n st).base = s.base := rfl
@[simp] theorem State.markDelaySlots_pc (n : Nat) (st : Stage) : (s.markDelaySlots n st).pc = s.pc := rfl
@[simp] theorem State.markDelaySlots_npc (n : Nat) (st : Stage) : (s.markDelaySlots n st).npc = s.npc := rfl
@[simp] theorem State.markDelaySlots_cycle (n : Nat) (st : Stage) : (s.markDelaySlots n st).cycle = s.cycle := rfl
@[simp] theorem State.markDelaySlots_stallReq (n : Nat) (st : Stage) : (s.markDelaySlots n st).stallReq = s.stallReq := rfl
@[simp] theorem State.markDelaySlots_intrBlock (n : Nat) (st : Stage) : (s.markDelaySlots n st).intrBlock = s.intrBlock := rfl
@[simp] theorem State.markDelaySlots_cur (n : Nat) (st : Stage) : (s.markDelaySlots n st).cur = s.cur := rfl
@[simp] theorem State.markDelaySlots_frames (n : Nat) (st : Stage) : (s.markDelaySlots n st).frames = s.frames := rfl
@[simp] theorem State.markDelaySlots_profile (n : Nat) (st : Stage) : (s.markDelaySlots n st).profile = s.profile := rfl
@[simp] theorem State.markDelaySlots_mc (n : Nat) (st : Stage) : (s.markDelaySlots n st).mc = s.mc := rfl
@[simp] theorem State.markDelaySlots_exc (n : Nat) (st : Stage) : (s.markDelaySlots n st).exc = s.exc := rfl
@[simp] theorem State.markDelaySlots_mem (n : Nat) (st : Stage) : (s.markDelaySlots n st).mem = s.mem := rfl
@[simp] theorem State.markDelaySlots_replies (n : Nat) (st : Stage) : (s.markDelaySlots n st).replies = s.replies := rfl
@[simp] theorem State.markDelaySlots_stackReplies (n : Nat) (st : Stage) : (s.markDelaySlots n st).stackReplies = s.stackReplies := rfl
@[simp] theorem State.markDelaySlots_loadHist (n : Nat) (st : Stage) : (s.markDelaySlots n st).loadHist = s.loadHist := rfl

@[simp] theorem State.noteWrite_params (i : Reg) (b : Bool) : (s.noteWrite i b).params = s.params := rfl
@[simp] theorem State.noteWrite_gpr (i : Reg) (b : Bool) : (s.noteWrite i b).gpr = s.gpr := rfl
@[simp] theorem State.noteWrite_preds (i : Reg) (b : Bool) : (s.noteWrite i b).preds = s.preds := rfl
@[simp] theorem State.noteWrite_spr (i : Reg) (b : Bool) : (s.noteWrite i b).spr = s.spr := rfl
@[simp] theorem State.noteWrite_base (i : Reg) (b : Bool) : (s.noteWrite i b).base = s.base := rfl
@[simp] theorem State.noteWrite_pc (i : Reg) (b : Bool) : (s.noteWrite i b).pc = s.pc := rfl
@[simp] theorem State.noteWrite_npc (i : Reg) (b : Bool) : (s.noteWrite i b).npc = s.npc := rfl
@[simp] theorem State.noteWrite_cycle (i : Reg) (b : Bool) : (s.noteWrite i b).cycle = s.cycle := rfl
@[simp] theorem State.noteWrite_pipe (i : Reg) (b : Bool) : (s.noteWrite i b).pipe = s.pipe := rfl
@[simp] theorem State.noteWrite_stallReq (i : Reg) (b : Bool) : (s.noteWrite i b).stallReq = s.stallReq := rfl
@[simp] theorem State.noteWrite_intrBlock (i : Reg) (b : Bool) : (s.noteWrite i b).intrBlock = s.intrBlock := rfl
@[simp] theorem State.noteWrite_cur (i : Reg) (b : Bool) : (s.noteWrite i b).cur = s.cur := rfl
@[simp] theorem State.noteWrite_frames (i : Reg) (b : Bool) : (s.noteWrite i b).frames = s.frames := rfl
@[simp] theorem State.noteWrite_profile (i : Reg) (b : Bool) : (s.noteWrite i b).profile = s.profile := rfl
@[simp] theorem State.noteWrite_mc (i : Reg) (b : Bool) : (s.noteWrite i b).mc = s.mc := rfl
@[simp] theorem State.noteWrite_exc (i : Reg) (b : Bool) : (s.noteWrite i b).exc = s.exc := rfl
@[simp] theorem State.noteWrite_mem (i : Reg) (b : Bool) : (s.noteWrite i b).mem = s.mem := rfl
@[simp] theorem State.noteWrite_replies (i : Reg) (b : Bool) : (s.noteWrite i b).replies = s.replies := rfl
@[simp] theorem State.noteWrite_stackReplies (i : Reg) (b : Bool) : (s.noteWrite i b).stackReplies = s.stackReplies := rfl

@[simp] theorem State.ageLoads_params : (s.ageLoads).params = s.params := rfl
@[simp] theorem State.ageLoads_gpr : (s.ageLoads).gpr = s.gpr := rfl
@[simp] theorem State.ageLoads_preds : (s.ageLoads).preds = s.preds := rfl
@[simp] theorem State.ageLoads_spr : (s.ageLoads).spr = s.spr := rfl
@[simp] theorem State.ageLoads_base : (s.ageLoads).base = s.base := rfl
@[simp] theorem State.ageLoads_pc : (s.ageLoads).pc = s.pc := rfl
@[simp] theorem State.ageLoads_npc : (s.ageLoads).npc = s.npc := rfl
@[simp] theorem State.ageLoads_cycle : (s.ageLoads).cycle = s.cycle := rfl
@[simp] theorem State.ageLoads_pipe : (s.ageLoads).pipe = s.pipe := rfl
@[simp] theorem State.ageLoads_stallReq : (s.ageLoads).stallReq = s.stallReq := rfl
@[simp] theorem State.ageLoads_intrBlock : (s.ageLoads).intrBlock = s.intrBlock := rfl
@[simp] theorem State.ageLoads_cur : (s.ageLoads).cur = s.cur := rfl
@[simp] theorem State.ageLoads_frames : (s.ageLoads).frames = s.frames := rfl
@[simp] theorem State.ageLoads_profile : (s.ageLoads).profile = s.profile := rfl
@[simp] theorem State.ageLoads_mc : (s.ageLoads).mc = s.mc := rfl
@[simp] theorem State.ageLoads_exc : (s.ageLoads).exc = s.exc := rfl
@[simp] theorem State.ageLoads_mem : (s.ageLoads).mem = s.mem := rfl
@[simp] theorem State.ageLoads_replies : (s.ageLoads).replies = s.replies := rfl
@[simp] theorem State.ageLoads_stackReplies : (s.ageLoads).stackReplies = s.stackReplies := rfl

@[simp] theorem State.commitGpr_params (rd : Reg) (v : Word) (b : Bool) : (s.commitGpr rd v b).params = s.params := rfl
@[simp] theorem State.commitGpr_preds (rd : Reg) (v : Word) (b : Bool) : (s.commitGpr rd v b).preds = s.preds := rfl
@[simp] theorem State.commitGpr_spr (rd : Reg) (v : Word) (b : Bool) : (s.commitGpr rd v b).spr = s.spr := rfl
@[simp] theorem State.commitGpr_base (rd : Reg) (v : Word) (b : Bool) : (s.commitGpr rd v b).base = s.base := rfl
@[simp] theorem State.commitGpr_pc (rd : Reg) (v : Word) (b : Bool) : (s.commitGpr rd v b).pc = s.pc := rfl
@[simp] theorem State.commitGpr_npc (rd : Reg) (v : Word) (b : Bool) : (s.commitGpr rd v b).npc = s.npc := rfl
@[simp] theorem State.commitGpr_cycle (rd : Reg) (v : Word) (b : Bool) : (s.commitGpr rd v b).cycle = s.cycle := rfl
@[simp] theorem State.commitGpr_stallReq (rd : Reg) (v : Word) (b : Bool) : (s.commitGpr rd v b).stallReq = s.stallReq := rfl
@[simp] theorem State.commitGpr_intrBlock (rd : Reg) (v : Word) (b : Bool) : (s.commitGpr rd v b).intrBlock = s.intrBlock := rfl
@[simp] theorem State.commitGpr_cur (rd : Reg) (v : Word) (b : Bool) : (s.commitGpr rd v b).cur = s.cur := rfl
@[simp] theorem State.commitGpr_frames (rd : Reg) (v : Word) (b : Bool) : (s.commitGpr rd v b).frames = s.frames := rfl
@[simp] theorem State.commitGpr_profile (rd : Reg) (v : Word) (b : Bool) : (s.commitGpr rd v b).profile = s.profile := rfl
@[simp] theorem State.commitGpr_mc (rd : Reg) (v : Word) (b : Bool) : (s.commitGpr rd v b).mc = s.mc := rfl
@[simp] theorem State.commitGpr_exc (rd : Reg) (v : Word) (b : Bool) : (s.commitGpr rd v b).exc = s.exc := rfl
@[simp] theorem State.commitGpr_mem (rd : Reg) (v : Word) (b : Bool) : (s.commitGpr rd v b).mem = s.mem := rfl
@[simp] theorem State.commitGpr_replies (rd : Reg) (v : Word) (b : Bool) : (s.commitGpr rd v b).replies = s.replies := rfl
@[simp] theorem State.commitGpr_stackReplies (rd : Reg) (v : Word) (b : Bool) : (s.commitGpr rd v b).stackReplies = s.stackReplies := rfl

@[simp] theorem State.setIntrEnabled_params (b : Bool) : (s.setIntrEnabled b).params = s.params := rfl
@[simp] theorem State.setIntrEnabled_gpr (b : Bool) : (s.setIntrEnabled b).gpr = s.gpr := rfl
@[simp] theorem State.setIntrEnabled_preds (b : Bool) : (s.setIntrEnabled b).preds = s.preds := rfl
@[simp] theorem State.setIntrEnabled_spr (b : Bool) : (s.setIntrEnabled b).spr = s.spr := rfl
@[simp] theorem State.setIntrEnabled_base (b : Bool) : (s.setIntrEnabled b).base = s.base := rfl
@[simp] theorem State.setIntrEnabled_pc (b : Bool) : (s.setIntrEnabled b).pc = s.pc := rfl
@[simp] theorem State.setIntrEnabled_npc (b : Bool) : (s.setIntrEnabled b).npc = s.npc := rfl
@[simp] theorem State.setIntrEnabled_cycle (b : Bool) : (s.setIntrEnabled b).cycle = s.cycle := rfl
@[simp] theorem State.setIntrEnabled_pipe (b : Bool) : (s.setIntrEnabled b).pipe = s.pipe := rfl
@[simp] theorem State.setIntrEnabled_stallReq (b : Bool) : (s.setIntrEnabled b).stallReq = s.stallReq := rfl
@[simp] theorem State.setIntrEnabled_intrBlock (b : Bool) : (s.setIntrEnabled b).intrBlock = s.intrBlock := rfl
@[simp] theorem State.setIntrEnabled_cur (b : Bool) : (s.setIntrEnabled b).cur = s.cur := rfl
@[simp] theorem State.setIntrEnabled_frames (b : Bool) : (s.setIntrEnabled b).frames = s.frames := rfl
@[simp] theorem State.setIntrEnabled_profile (b : Bool) : (s.setIntrEnabled b).profile = s.profile := rfl
@[simp] theorem State.setIntrEnabled_mc (b : Bool) : (s.setIntrEnabled b).mc = s.mc := rfl
@[simp] theorem State.setIntrEnabled_mem (b : Bool) : (s.setIntrEnabled b).mem = s.mem := rfl
@[simp] theorem State.setIntrEnabled_replies (b : Bool) : (s.setIntrEnabled b).replies = s.replies := rfl
@[simp] theorem State.setIntrEnabled_stackReplies (b : Bool) : (s.setIntrEnabled b).stackReplies = s.stackReplies := rfl
@[simp] theorem State.setIntrEnabled_loadHist (b : Bool) : (s.setIntrEnabled b).loadHist = s.loadHist := rfl

@[simp] theorem State.pushFrame_params (f : Frame) : (s.pushFrame f).params = s.params := rfl
@[simp] theorem State.pushFrame_gpr (f : Frame) : (s.pushFrame f).gpr = s.gpr := rfl
@[simp] theorem State.pushFrame_preds (f : Frame) : (s.pushFrame f).preds = s.preds := rfl
@[simp] theorem State.pushFrame_spr (f : Frame) : (s.pushFrame f).spr = s.spr := rfl
@[simp] theorem State.pushFrame_base (f : Frame) : (s.pushFrame f).base = s.base := rfl
@[simp] theorem State.pushFrame_pc (f : Frame) : (s.pushFrame f).pc = s.pc := rfl
@[simp] theorem State.pushFrame_npc (f : Frame) : (s.pushFrame f).npc = s.npc := rfl
@[simp] theorem State.pushFrame_cycle (f : Frame) : (s.pushFrame f).cycle = s.cycle := rfl
@[simp] theorem State.pushFrame_pipe (f : Frame) : (s.pushFrame f).pipe = s.pipe := rfl
@[simp] theorem State.pushFrame_stallReq (f : Frame) : (s.pushFrame f).stallReq = s.stallReq := rfl
@[simp] theorem State.pushFrame_intrBlock (f : Frame) : (s.pushFrame f).intrBlock = s.intrBlock := rfl
@[simp] theorem State.pushFrame_cur (f : Frame) : (s.pushFrame f).cur = s.cur := rfl
@[simp] theorem State.pushFrame_mc (f : Frame) : (s.pushFrame f).mc = s.mc := rfl
@[simp] theorem State.pushFrame_exc (f : Frame) : (s.pushFrame f).exc = s.exc := rfl
@[simp] theorem State.pushFrame_mem (f : Frame) : (s.pushFrame f).mem = s.mem := rfl
@[simp] theorem State.pushFrame_replies (f : Frame) : (s.pushFrame f).replies = s.replies := rfl
@[simp] theorem State.pushFrame_stackReplies (f : Frame) : (s.pushFrame f).stackReplies = s.stackReplies := rfl
@[simp] theorem State.pushFrame_loadHist (f : Frame) : (s.pushFrame f).loadHist = s.loadHist := rfl

@[simp] theorem State.popFrame_params : (s.popFrame).params = s.params := rfl
@[simp] theorem State.popFrame_gpr : (s.popFrame).gpr = s.gpr := rfl
@[simp] theorem State.popFrame_preds : (s.popFrame).preds = s.preds := rfl
@[simp] theorem State.popFrame_spr : (s.popFrame).spr = s.spr := rfl
@[simp] theorem State.popFrame_base : (s.popFrame).base = s.base := rfl
@[simp] theorem State.popFrame_pc : (s.popFrame).pc = s.pc := rfl
@[simp] theorem State.popFrame_npc : (s.popFrame).npc = s.npc := rfl
@[simp] theorem State.popFrame_cycle : (s.popFrame).cycle = s.cycle := rfl
@[simp] theorem State.popFrame_pipe : (s.popFrame).pipe = s.pipe := rfl
@[simp] theorem State.popFrame_stallReq : (s.popFrame).stallReq = s.stallReq := rfl
@[simp] theorem State.popFrame_intrBlock : (s.popFrame).intrBlock = s.intrBlock := rfl
@[simp] theorem State.popFrame_cur : (s.popFrame).cur = s.cur := rfl
@[simp] theorem State.popFrame_mc : (s.popFrame).mc = s.mc := rfl
@[simp] theorem State.popFrame_exc : (s.popFrame).exc = s.exc := rfl
@[simp] theorem State.popFrame_mem : (s.popFrame).mem = s.mem := rfl
@[simp] theorem State.popFrame_replies : (s.popFrame).replies = s.replies := rfl
@[simp] theorem State.popFrame_stackReplies : (s.popFrame).stackReplies = s.stackReplies := rfl
@[simp] theorem State.popFrame_loadHist : (s.popFrame).loadHist = s.loadHist := rfl

@[simp] theorem State.withMc_params (m : MethodCache) : (s.withMc m).params = s.params := rfl
@[simp] theorem State.withMc_gpr (m : MethodCache) : (s.withMc m).gpr = s.gpr := rfl
@[simp] theorem State.withMc_preds (m : MethodCache) : (s.withMc m).preds = s.preds := rfl
@[simp] theorem State.withMc_spr (m : MethodCache) : (s.withMc m).spr = s.spr := rfl
@[simp] theorem State.withMc_base (m : MethodCache) : (s.withMc m).base = s.base := rfl
@[simp] theorem State.withMc_pc (m : MethodCache) : (s.withMc m).pc = s.pc := rfl
@[simp] theorem State.withMc_npc (m : MethodCache) : (s.withMc m).npc = s.npc := rfl
@[simp] theorem State.withMc_cycle (m : MethodCache) : (s.withMc m).cycle = s.cycle := rfl
@[simp] theorem State.withMc_pipe (m : MethodCache) : (s.withMc m).pipe = s.pipe := rfl
@[simp] theorem State.withMc_stallReq (m : MethodCache) : (s.withMc m).stallReq = s.stallReq := rfl
@[simp] theorem State.withMc_intrBlock (m : MethodCache) : (s.withMc m).intrBlock = s.intrBlock := rfl
@[simp] theorem State.withMc_cur (m : MethodCache) : (s.withMc m).cur = s.cur := rfl
@[simp] theorem State.withMc_frames (m : MethodCache) : (s.withMc m).frames = s.frames := rfl
@[simp] theorem State.withMc_profile (m : MethodCache) : (s.withMc m).profile = s.profile := rfl
@[simp] theorem State.withMc_exc (m : MethodCache) : (s.withMc m).exc = s.exc := rfl
@[simp] theorem State.withMc_mem (m : MethodCache) : (s.withMc m).mem = s.mem := rfl
@[simp] theorem State.withMc_replies (m : MethodCache) : (s.withMc m).replies = s.replies := rfl
@[simp] theorem State.withMc_stackReplies (m : MethodCache) : (s.withMc m).stackReplies = s.stackReplies := rfl
@[simp] theorem State.withMc_loadHist (m : MethodCache) : (s.withMc m).loadHist = s.loadHist := rfl

@[simp] theorem State.dropReply_params : (s.dropReply).params = s.params := rfl
@[simp] theorem State.dropReply_gpr : (s.dropReply).gpr = s.gpr := rfl
@[simp] theorem State.dropReply_preds : (s.dropReply).preds = s.preds := rfl
@[simp] theorem State.dropReply_spr : (s.dropReply).spr = s.spr := rfl
@[simp] theorem State.dropReply_base : (s.dropReply).base = s.base := rfl
@[simp] theorem State.dropReply_pc : (s.dropReply).pc = s.pc := rfl
@[simp] theorem State.dropReply_npc : (s.dropReply).npc = s.npc := rfl
@[simp] theorem State.dropReply_cycle : (s.dropReply).cycle = s.cycle := rfl
@[simp] theorem State.dropReply_pipe : (s.dropReply).pipe = s.pipe := rfl
@[simp] theorem State.dropReply_stallReq : (s.dropReply).stallReq = s.stallReq := rfl
@[simp] theorem State.dropReply_intrBlock : (s.dropReply).intrBlock = s.intrBlock := rfl
@[simp] theorem State.dropReply_cur : (s.dropReply).cur = s.cur := rfl
@[simp] theorem State.dropReply_frames : (s.dropReply).frames = s.frames := rfl
@[simp] theorem State.dropReply_profile : (s.dropReply).profile = s.profile := rfl
@[simp] theorem State.dropReply_mc : (s.dropReply).mc = s.mc := rfl
@[simp] theorem State.dropReply_exc : (s.dropReply).exc = s.exc := rfl
@[simp] theorem State.dropReply_mem : (s.dropReply).mem = s.mem := rfl
@[simp] theorem State.dropReply_stackReplies : (s.dropReply).stackReplies = s.stackReplies := rfl
@[simp] theorem State.dropReply_loadHist : (s.dropReply).loadHist = s.loadHist := rfl

@[simp] theorem State.dropStackReply_params : (s.dropStackReply).params = s.params := rfl
@[simp] theorem State.dropStackReply_gpr : (s.dropStackReply).gpr = s.gpr := rfl
@[simp] theorem State.dropStackReply_preds : (s.dropStackReply).preds = s.preds := rfl
@[simp] theorem State.dropStackReply_spr : (s.dropStackReply).spr = s.spr := rfl
@[simp] theorem State.dropStackReply_base : (s.dropStackReply).base = s.base := rfl
@[simp] theorem State.dropStackReply_pc : (s.dropStackReply).pc = s.pc := rfl
@[simp] theorem State.dropStackReply_npc : (s.dropStackReply).npc = s.npc := rfl
@[simp] theorem State.dropStackReply_cycle : (s.dropStackReply).cycle = s.cycle := rfl
@[simp] theorem State.dropStackReply_pipe : (s.dropStackReply).pipe = s.pipe := rfl
@[simp] theorem State.dropStackReply_stallReq : (s.dropStackReply).stallReq = s.stallReq := rfl
@[simp] theorem State.dropStackReply_intrBlock : (s.dropStackReply).intrBlock = s.intrBlock := rfl
@[simp] theorem State.dropStackReply_cur : (s.dropStackReply).cur = s.cur := rfl
@[simp] theorem State.dropStackReply_frames : (s.dropStackReply).frames = s.frames := rfl
@[simp] theorem State.dropStackReply_profile : (s.dropStackReply).profile = s.profile := rfl
@[simp] theorem State.dropStackReply_mc : (s.dropStackReply).mc = s.mc := rfl
@[simp] theorem State.dropStackReply_exc : (s.dropStackReply).exc = s.exc := rfl
@[simp] theorem State.dropStackReply_mem : (s.dropStackReply).mem = s.mem := rfl
@[simp] theorem State.dropStackReply_replies : (s.dropStackReply).replies = s.replies := rfl
@[simp] theorem State.dropStackReply_loadHist : (s.dropStackReply).loadHist = s.loadHist := rfl

@[simp] theorem State.setControl_params (b t : Word) : (s.setControl b t).params = s.params := rfl
@[simp] theorem State.setControl_gpr (b t : Word) : (s.setControl b t).gpr = s.gpr := rfl
@[simp] theorem State.setControl_preds (b t : Word) : (s.setControl b t).preds = s.preds := rfl
@[simp] theorem State.setControl_spr (b t : Word) : (s.setControl b t).spr = s.spr := rfl
@[simp] theorem State.setControl_pc (b t : Word) : (s.setControl b t).pc = s.pc := rfl
@[simp] theorem State.setControl_cycle (b t : Word) : (s.setControl b t).cycle = s.cycle := rfl
@[simp] theorem State.setControl_pipe (b t : Word) : (s.setControl b t).pipe = s.pipe := rfl
@[simp] theorem State.setControl_stallReq (b t : Word) : (s.setControl b t).stallReq = s.stallReq := rfl
@[simp] theorem State.setControl_intrBlock (b t : Word) : (s.setControl b t).intrBlock = s.intrBlock := rfl
@[simp] theorem State.setControl_cur (b t : Word) : (s.setControl b t).cur = s.cur := rfl
@[simp] theorem State.setControl_frames (b t : Word) : (s.setControl b t).frames = s.frames := rfl
@[simp] theorem State.setControl_profile (b t : Word) : (s.setControl b t).profile = s.profile := rfl
@[simp] theorem State.setControl_mc (b t : Word) : (s.setControl b t).mc = s.mc := rfl
@[simp] theorem State.setControl_exc (b t : Word) : (s.setControl b t).exc = s.exc := rfl
@[simp] theorem State.setControl_mem (b t : Word) : (s.setControl b t).mem = s.mem := rfl
@[simp] theorem State.setControl_replies (b t : Word) : (s.setControl b t).replies = s.replies := rfl
@[simp] theorem State.setControl_stackReplies (b t : Word) : (s.setControl b t).stackReplies = s.stackReplies := rfl
@[simp] theorem State.setControl_loadHist (b t : Word) : (s.setControl b t).loadHist = s.loadHist := rfl

@[simp] theorem State.setAreaMem_params (a : Area) (m : Memory) : (s.setAreaMem a m).params = s.params := rfl
@[simp] theorem State.setAreaMem_gpr (a : Area) (m : Memory) : (s.setAreaMem a m).gpr = s.gpr := rfl
@[simp] theorem State.setAreaMem_preds (a : Area) (m : Memory) : (s.setAreaMem a m).preds = s.preds := rfl
@[simp] theorem State.setAreaMem_spr (a : Area) (m : Memory) : (s.setAreaMem a m).spr = s.spr := rfl
@[simp] theorem State.setAreaMem_base (a : Area) (m : Memory) : (s.setAreaMem a m).base = s.base := rfl
@[simp] theorem State.setAreaMem_pc (a : Area) (m : Memory) : (s.setAreaMem a m).pc = s.pc := rfl
@[simp] theorem State.setAreaMem_npc (a : Area) (m : Memory) : (s.setAreaMem a m).npc = s.npc := rfl
@[simp] theorem State.setAreaMem_cycle (a : Area) (m : Memory) : (s.setAreaMem a m).cycle = s.cycle := rfl
@[simp] theorem State.setAreaMem_pipe (a : Area) (m : Memory) : (s.setAreaMem a m).pipe = s.pipe := rfl
@[simp] theorem State.setAreaMem_stallReq (a : Area) (m : Memory) : (s.setAreaMem a m).stallReq = s.stallReq := rfl
@[simp] theorem State.setAreaMem_intrBlock (a : Area) (m : Memory) : (s.setAreaMem a m).intrBlock = s.intrBlock := rfl
@[simp] theorem State.setAreaMem_cur (a : Area) (m : Memory) : (s.setAreaMem a m).cur = s.cur := rfl
@[simp] theorem State.setAreaMem_frames (a : Area) (m : Memory) : (s.setAreaMem a m).frames = s.frames := rfl
@[simp] theorem State.setAreaMem_profile (a : Area) (m : Memory) : (s.setAreaMem a m).profile = s.profile := rfl
@[simp] theorem State.setAreaMem_mc (a : Area) (m : Memory) : (s.setAreaMem a m).mc = s.mc := rfl
@[simp] theorem State.setAreaMem_exc (a : Area) (m : Memory) : (s.setAreaMem a m).exc = s.exc := rfl
@[simp] theorem State.setAreaMem_replies (a : Area) (m : Memory) : (s.setAreaMem a m).replies = s.replies := rfl
@[simp] theorem State.setAreaMem_stackReplies (a : Area) (m : Memory) : (s.setAreaMem a m).stackReplies = s.stackReplies := rfl
@[simp] theorem State.setAreaMem_loadHist (a : Area) (m : Memory) : (s.setAreaMem a m).loadHist = s.loadHist := rfl

@[simp] theorem State.poke_params (a : Word) (bs : List Byte) : (s.poke a bs).params = s.params := rfl
@[simp] theorem State.poke_gpr (a : Word) (bs : List Byte) : (s.poke a bs).gpr = s.gpr := rfl
@[simp] theorem State.poke_preds (a : Word) (bs : List Byte) : (s.poke a bs).preds = s.preds := rfl
@[simp] theorem State.poke_spr (a : Word) (bs : List Byte) : (s.poke a bs).spr = s.spr := rfl
@[simp] theorem State.poke_base (a : Word) (bs : List Byte) : (s.poke a bs).base = s.base := rfl
@[simp] theorem State.poke_pc (a : Word) (bs : List Byte) : (s.poke a bs).pc = s.pc := rfl
@[simp] theorem State.poke_npc (a : Word) (bs : List Byte) : (s.poke a bs).npc = s.npc := rfl
@[simp] theorem State.poke_cycle (a : Word) (bs : List Byte) : (s.poke a bs).cycle = s.cycle := rfl
@[simp] theorem State.poke_pipe (a : Word) (bs : List Byte) : (s.poke a bs).pipe = s.pipe := rfl
@[simp] theorem State.poke_stallReq (a : Word) (bs : List Byte) : (s.poke a bs).stallReq = s.stallReq := rfl
@[simp] theorem State.poke_intrBlock (a : Word) (bs : List Byte) : (s.poke a bs).intrBlock = s.intrBlock := rfl
@[simp] theorem State.poke_cur (a : Word) (bs : List Byte) : (s.poke a bs).cur = s.cur := rfl
@[simp] theorem State.poke_frames (a : Word) (bs : List Byte) : (s.poke a bs).frames = s.frames := rfl
@[simp] theorem State.poke_profile (a : Word) (bs : List Byte) : (s.poke a bs).profile = s.profile := rfl
@[simp] theorem State.poke_mc (a : Word) (bs : List Byte) : (s.poke a bs).mc = s.mc := rfl
@[simp] theorem State.poke_exc (a : Word) (bs : List Byte) : (s.poke a bs).exc = s.exc := rfl
@[simp] theorem State.poke_replies (a : Word) (bs : List Byte) : (s.poke a bs).replies = s.replies := rfl
@[simp] theorem State.poke_stackReplies (a : Word) (bs : List Byte) : (s.poke a bs).stackReplies = s.stackReplies := rfl
@[simp] theorem State.poke_loadHist (a : Word) (bs : List Byte) : (s.poke a bs).loadHist = s.loadHist := rfl

/-! ### Accessors -/

@[simp] theorem State.readPred_writeGpr (i : Reg) (v : Word) (p : PReg) : (s.writeGpr i v).readPred p = s.readPred p := rfl
@[simp] theorem State.readSpr_writeGpr (i : Reg) (v : Word) (k : SReg) : (s.writeGpr i v).readSpr k = s.readSpr k := rfl
@[simp] theorem State.slotAt_writeGpr (i : Reg) (v : Word) (sg : Stage) (kx : SlotIx) : (s.writeGpr i v).slotAt sg kx = s.slotAt sg kx := rfl
@[simp] theorem State.slot_writeGpr (i : Reg) (v : Word) : (s.writeGpr i v).slot = s.slot := rfl
@[simp] theorem State.readByte_writeGpr (i : Reg) (v : Word) (ar : Area) (ad : Word) : (s.writeGpr i v).readByte ar ad = s.readByte ar ad := rfl
@[simp] theorem State.bypassList_writeGpr (i : Reg) (v : Word) : (s.writeGpr i v).bypassList = s.bypassList := rfl
@[simp] theorem State.operand_writeGpr (i : Reg) (v : Word) (r : Reg) (dr : Word) : (s.writeGpr i v).operand r dr = s.operand r dr := rfl
@[simp] theorem State.tooSoon_writeGpr (i : Reg) (v : Word) (r : Reg) : (s.writeGpr i v).tooSoon r = s.tooSoon r := rfl
@[simp] theorem State.nextReply_writeGpr (i : Reg) (v : Word) : (s.writeGpr i v).nextReply = s.nextReply := rfl

@[simp] theorem State.readGpr_writePred (i : PReg) (b : Bool) (r : Reg) : (s.writePred i b).readGpr r = s.readGpr r := rfl
@[simp] theorem State.readSpr_writePred (i : PReg) (b : Bool) (k : SReg) : (s.writePred i b).readSpr k = s.readSpr k := rfl
@[simp] theorem State.slotAt_writePred (i : PReg) (b : Bool) (sg : Stage) (kx : SlotIx) : (s.writePred i b).slotAt sg kx = s.slotAt sg kx := rfl
@[simp] theorem State.slot_writePred (i : PReg) (b : Bool) : (s.writePred i b).slot = s.slot := rfl
@[simp] theorem State.readByte_writePred (i : PReg) (b : Bool) (ar : Area) (ad : Word) : (s.writePred i b).readByte ar ad = s.readByte ar ad := rfl
@[simp] theorem State.bypassList_writePred (i : PReg) (b : Bool) : (s.writePred i b).bypassList = s.bypassList := rfl
@[simp] theorem State.operand_writePred (i : PReg) (b : Bool) (r : Reg) (dr : Word) : (s.writePred i b).operand r dr = s.operand r dr := rfl
@[simp] theorem State.tooSoon_writePred (i : PReg) (b : Bool) (r : Reg) : (s.writePred i b).tooSoon r = s.tooSoon r := rfl
@[simp] theorem State.nextReply_writePred (i : PReg) (b : Bool) : (s.writePred i b).nextReply = s.nextReply := rfl

@[simp] theorem State.readGpr_bulkPreds (v : Word) (r : Reg) : (s.bulkPreds v).readGpr r = s.readGpr r := rfl
@[simp] theorem State.readSpr_bulkPreds (v : Word) (k : SReg) : (s.bulkPreds v).readSpr k = s.readSpr k := rfl
@[simp] theorem State.slotAt_bulkPreds (v : Word) (sg : Stage) (kx : SlotIx) : (s.bulkPreds v).slotAt sg kx = s.slotAt sg kx := rfl
@[simp] theorem State.slot_bulkPreds (v : Word) : (s.bulkPreds v).slot = s.slot := rfl
@[simp] theorem State.readByte_bulkPreds (v : Word) (ar : Area) (ad : Word) : (s.bulkPreds v).readByte ar ad = s.readByte ar ad := rfl
@[simp] theorem State.bypassList_bulkPreds (v : Word) : (s.bulkPreds v).bypassList = s.bypassList := rfl
@[simp] theorem State.operand_bulkPreds (v : Word) (r : Reg) (dr : Word) : (s.bulkPreds v).operand r dr = s.operand r dr := rfl
@[simp] theorem State.tooSoon_bulkPreds (v : Word) (r : Reg) : (s.bulkPreds v).tooSoon r = s.tooSoon r := rfl
@[simp] theorem State.nextReply_bulkPreds (v : Word) : (s.bulkPreds v).nextReply = s.nextReply := rfl

@[simp] theorem State.readGpr_writeSpr (i : SReg) (v : Word) (r : Reg) : (s.writeSpr i v).readGpr r = s.readGpr r := rfl
@[simp] theorem State.readPred_writeSpr (i : SReg) (v : Word) (p : PReg) : (s.writeSpr i v).readPred p = s.readPred p := rfl
@[simp] theorem State.slotAt_writeSpr (i : SReg) (v : Word) (sg : Stage) (kx : SlotIx) : (s.writeSpr i v).slotAt sg kx = s.slotAt sg kx := rfl
@[simp] theorem State.slot_writeSpr (i : SReg) (v : Word) : (s.writeSpr i v).slot = s.slot := rfl
@[simp] theorem State.readByte_writeSpr (i : SReg) (v : Word) (ar : Area) (ad : Word) : (s.writeSpr i v).readByte ar ad = s.readByte ar ad := rfl
@[simp] theorem State.bypassList_writeSpr (i : SReg) (v : Word) : (s.writeSpr i v).bypassList = s.bypassList := rfl
@[simp] theorem State.operand_writeSpr (i : SReg) (v : Word) (r : Reg) (dr : Word) : (s.writeSpr i v).operand r dr = s.operand r dr := rfl
@[simp] theorem State.tooSoon_writeSpr (i : SReg) (v : Word) (r : Reg) : (s.writeSpr i v).tooSoon r = s.tooSoon r := rfl
@[simp] theorem State.nextReply_writeSpr (i : SReg) (v : Word) : (s.writeSpr i v).nextReply = s.nextReply := rfl

@[simp] theorem State.readGpr_writeSpecial (i : SReg) (v : Word) (r : Reg) : (s.writeSpecial i v).readGpr r = s.readGpr r := rfl
@[simp] theorem State.slotAt_writeSpecial (i : SReg) (v : Word) (sg : Stage) (kx : SlotIx) : (s.writeSpecial i v).slotAt sg kx = s.slotAt sg kx := rfl
@[simp] theorem State.slot_writeSpecial (i : SReg) (v : Word) : (s.writeSpecial i v).slot = s.slot := rfl
@[simp] theorem State.readByte_writeSpecial (i : SReg) (v : Word) (ar : Area) (ad : Word) : (s.writeSpecial i v).readByte ar ad = s.readByte ar ad := rfl
@[simp] theorem State.bypassList_writeSpecial (i : SReg) (v : Word) : (s.writeSpecial i v).bypassList = s.bypassList := rfl
@[simp] theorem State.operand_writeSpecial (i : SReg) (v : Word) (r : Reg) (dr : Word) : (s.writeSpecial i v).operand r dr = s.operand r dr := rfl
@[simp] theorem State.tooSoon_writeSpecial (i : SReg) (v : Word) (r : Reg) : (s.writeSpecial i v).tooSoon r = s.tooSoon r := rfl
@[simp] theorem State.nextReply_writeSpecial (i : SReg) (v : Word) : (s.writeSpecial i v).nextReply = s.nextReply := rfl

@[simp] theorem State.readGpr_setSlot (x : Slot) (r : Reg) : (s.setSlot x).readGpr r = s.readGpr r := rfl
@[simp] theorem State.readPred_setSlot (x : Slot) (p : PReg) : (s.setSlot x).readPred p = s.readPred p := rfl
@[simp] theorem State.readSpr_setSlot (x : Slot) (k : SReg) : (s.setSlot x).readSpr k = s.readSpr k := rfl
@[simp] theorem State.readByte_setSlot (x : Slot) (ar : Area) (ad : Word) : (s.setSlot x).readByte ar ad = s.readByte ar ad := rfl
@[simp] theorem State.tooSoon_setSlot (x : Slot) (r : Reg) : (s.setSlot x).tooSoon r = s.tooSoon r := rfl
@[simp] theorem State.nextReply_setSlot (x : Slot) : (s.setSlot x).nextReply = s.nextReply := rfl

@[simp] theorem State.readGpr_atSlot (st : Stage) (j : SlotIx) (r : Reg) : (s.atSlot st j).readGpr r = s.readGpr r := rfl
@[simp] theorem State.readPred_atSlot (st : Stage) (j : SlotIx) (p : PReg) : (s.atSlot st j).readPred p = s.readPred p := rfl
@[simp] theorem State.readSpr_atSlot (st : Stage) (j : SlotIx) (k : SReg) : (s.atSlot st j).readSpr k = s.readSpr k := rfl
@[simp] theorem State.slotAt_atSlot (st : Stage) (j : SlotIx) (sg : Stage) (kx : SlotIx) : (s.atSlot st j).slotAt sg kx = s.slotAt sg kx := rfl
@[simp] theorem State.readByte_atSlot (st : Stage) (j : SlotIx) (ar : Area) (ad : Word) : (s.atSlot st j).readByte ar ad = s.readByte ar ad := rfl
@[simp] theorem State.bypassList_atSlot (st : Stage) (j : SlotIx) : (s.atSlot st j).bypassList = s.bypassList := rfl
@[simp] theorem State.operand_atSlot (st : Stage) (j : SlotIx) (r : Reg) (dr : Word) : (s.atSlot st j).operand r dr = s.operand r dr := rfl
@[simp] theorem State.tooSoon_atSlot (st : Stage) (j : SlotIx) (r : Reg) : (s.atSlot st j).tooSoon r = s.tooSoon r := rfl
@[simp] theorem State.nextReply_atSlot (st : Stage) (j : SlotIx) : (s.atSlot st j).nextReply = s.nextReply := rfl

@[simp] theorem State.readGpr_done (r : Reg) : (s.done).readGpr r = s.readGpr r := rfl
@[simp] theorem State.readPred_done (p : PReg) : (s.done).readPred p = s.readPred p := rfl
@[simp] theorem State.readSpr_done (k : SReg) : (s.done).readSpr k = s.readSpr k := rfl
@[simp] theorem State.readByte_done (ar : Area) (ad : Word) : (s.done).readByte ar ad = s.readByte ar ad := rfl
@[simp] theorem State.tooSoon_done (r : Reg) : (s.done).tooSoon r = s.tooSoon r := rfl
@[simp] theorem State.nextReply_done : (s.done).nextReply = s.nextReply := rfl

@[simp] theorem State.readGpr_withResult (rd : Reg) (v : Word) (r : Reg) : (s.withResult rd v).readGpr r = s.readGpr r := rfl
@[simp] theorem State.readPred_withResult (rd : Reg) (v : Word) (p : PReg) : (s.withResult rd v).readPred p = s.readPred p := rfl
@[simp] theorem State.readSpr_withResult (rd : Reg) (v : Word) (k : SReg) : (s.withResult rd v).readSpr k = s.readSpr k := rfl
@[simp] theorem State.readByte_withResult (rd : Reg) (v : Word) (ar : Area) (ad : Word) : (s.withResult rd v).readByte ar ad = s.readByte ar ad := rfl
@[simp] theorem State.tooSoon_withResult (rd : Reg) (v : Word) (r : Reg) : (s.withResult rd v).tooSoon r = s.tooSoon r := rfl
@[simp] theorem State.nextReply_withResult (rd : Reg) (v : Word) : (s.withResult rd v).nextReply = s.nextReply := rfl

@[simp] theorem State.readGpr_withTarget (b t : Word) (r : Reg) : (s.withTarget b t).readGpr r = s.readGpr r := rfl
@[simp] theorem State.readPred_withTarget (b t : Word) (p : PReg) : (s.withTarget b t).readPred p = s.readPred p := rfl
@[simp] theorem State.readSpr_withTarget (b t : Word) (k : SReg) : (s.withTarget b t).readSpr k = s.readSpr k := rfl
@[simp] theorem State.readByte_withTarget (b t : Word) (ar : Area) (ad : Word) : (s.withTarget b t).readByte ar ad = s.readByte ar ad := rfl
@[simp] theorem State.tooSoon_withTarget (b t : Word) (r : Reg) : (s.withTarget b t).tooSoon r = s.tooSoon r := rfl
@[simp] theorem State.nextReply_withTarget (b t : Word) : (s.withTarget b t).nextReply = s.nextReply := rfl

@[simp] theorem State.readGpr_stall (st : Stage) (r : Reg) : (s.stall st).readGpr r = s.readGpr r := rfl
@[simp] theorem State.readPred_stall (st : Stage) (p : PReg) : (s.stall st).readPred p = s.readPred p := rfl
@[simp] theorem State.readSpr_stall (st : Stage) (k : SReg) : (s.stall st).readSpr k = s.readSpr k := rfl
@[simp] theorem State.slotAt_stall (st : Stage) (sg : Stage) (kx : SlotIx) : (s.stall st).slotAt sg kx = s.slotAt sg kx := rfl
@[simp] theorem State.slot_stall (st : Stage) : (s.stall st).slot = s.slot := rfl
@[simp] theorem State.readByte_stall (st : Stage) (ar : Area) (ad : Word) : (s.stall st).readByte ar ad = s.readByte ar ad := rfl
@[simp] theorem State.bypassList_stall (st : Stage) : (s.stall st).bypassList = s.bypassList := rfl
@[simp] theorem State.operand_stall (st : Stage) (r : Reg) (dr : Word) : (s.stall st).operand r dr = s.operand r dr := rfl
@[simp] theorem State.tooSoon_stall (st : Stage) (r : Reg) : (s.stall st).tooSoon r = s.tooSoon r := rfl
@[simp] theorem State.nextReply_stall (st : Stage) : (s.stall st).nextReply = s.nextReply := rfl

@[simp] theorem State.readGpr_flushUpstream (st : Stage) (r : Reg) : (s.flushUpstream st).readGpr r = s.readGpr r := rfl
@[simp] theorem State.readPred_flushUpstream (st : Stage) (p : PReg) : (s.flushUpstream st).readPred p = s.readPred p := rfl
@[simp] theorem State.readSpr_flushUpstream (st : Stage) (k : SReg) : (s.flushUpstream st).readSpr k = s.readSpr k := rfl
@[simp] theorem State.readByte_flushUpstream (st : Stage) (ar : Area) (ad : Word) : (s.flushUpstream st).readByte ar ad = s.readByte ar ad := rfl
@[simp] theorem State.tooSoon_flushUpstream (st : Stage) (r : Reg) : (s.flushUpstream st).tooSoon r = s.tooSoon r := rfl
@[simp] theorem State.nextReply_flushUpstream (st : Stage) : (s.flushUpstream st).nextReply = s.nextReply := rfl

@[simp] theorem State.readGpr_markDelaySlots (n : Nat) (st : Stage) (r : Reg) : (s.markDelaySlots n st).readGpr r = s.readGpr r := rfl
@[simp] theorem State.readPred_markDelaySlots (n : Nat) (st : Stage) (p : PReg) : (s.markDelaySlots n st).readPred p = s.readPred p := rfl
@[simp] theorem State.readSpr_markDelaySlots (n : Nat) (st : Stage) (k : SReg) : (s.markDelaySlots n st).readSpr k = s.readSpr k := rfl
@[simp] theorem State.readByte_markDelaySlots (n : Nat) (st : Stage) (ar : Area) (ad : Word) : (s.markDelaySlots n st).readByte ar ad = s.readByte ar ad := rfl
@[simp] theorem State.tooSoon_markDelaySlots (n : Nat) (st : Stage) (r : Reg) : (s.markDelaySlots n st).tooSoon r = s.tooSoon r := rfl
@[simp] theorem State.nextReply_markDelaySlots (n : Nat) (st : Stage) : (s.markDelaySlots n st).nextReply = s.nextReply := rfl

@[simp] theorem State.readGpr_noteWrite (i : Reg) (b : Bool) (r : Reg) : (s.noteWrite i b).readGpr r = s.readGpr r := rfl
@[simp] theorem State.readPred_noteWrite (i : Reg) (b : Bool) (p : PReg) : (s.noteWrite i b).readPred p = s.readPred p := rfl
@[simp] theorem State.readSpr_noteWrite (i : Reg) (b : Bool) (k : SReg) : (s.noteWrite i b).readSpr k = s.readSpr k := rfl
@[simp] theorem State.slotAt_noteWrite (i : Reg) (b : Bool) (sg : Stage) (kx : SlotIx) : (s.noteWrite i b).slotAt sg kx = s.slotAt sg kx := rfl
@[simp] theorem State.slot_noteWrite (i : Reg) (b : Bool) : (s.noteWrite i b).slot = s.slot := rfl
@[simp] theorem State.readByte_noteWrite (i : Reg) (b : Bool) (ar : Area) (ad : Word) : (s.noteWrite i b).readByte ar ad = s.readByte ar ad := rfl
@[simp] theorem State.bypassList_noteWrite (i : Reg) (b : Bool) : (s.noteWrite i b).bypassList = s.bypassList := rfl
@[simp] theorem State.operand_noteWrite (i : Reg) (b : Bool) (r : Reg) (dr : Word) : (s.noteWrite i b).operand r dr = s.operand r dr := rfl
@[simp] theorem State.nextReply_noteWrite (i : Reg) (b : Bool) : (s.noteWrite i b).nextReply = s.nextReply := rfl

@[simp] theorem State.readGpr_ageLoads (r : Reg) : (s.ageLoads).readGpr r = s.readGpr r := rfl
@[simp] theorem State.readPred_ageLoads (p : PReg) : (s.ageLoads).readPred p = s.readPred p := rfl
@[simp] theorem State.readSpr_ageLoads (k : SReg) : (s.ageLoads).readSpr k = s.readSpr k := rfl
@[simp] theorem State.slotAt_ageLoads (sg : Stage) (kx : SlotIx) : (s.ageLoads).slotAt sg kx = s.slotAt sg kx := rfl
@[simp] theorem State.slot_ageLoads : (s.ageLoads).slot = s.slot := rfl
@[simp] theorem State.readByte_ageLoads (ar : Area) (ad : Word) : (s.ageLoads).readByte ar ad = s.readByte ar ad := rfl
@[simp] theorem State.bypassList_ageLoads : (s.ageLoads).bypassList = s.bypassList := rfl
@[simp] theorem State.operand_ageLoads (r : Reg) (dr : Word) : (s.ageLoads).operand r dr = s.operand r dr := rfl
@[simp] theorem State.nextReply_ageLoads : (s.ageLoads).nextReply = s.nextReply := rfl

@[simp] theorem State.readPred_commitGpr (rd : Reg) (v : Word) (b : Bool) (p : PReg) : (s.commitGpr rd v b).readPred p = s.readPred p := rfl
@[simp] theorem State.readSpr_commitGpr (rd : Reg) (v : Word) (b : Bool) (k : SReg) : (s.commitGpr rd v b).readSpr k = s.readSpr k := rfl
@[simp] theorem State.readByte_commitGpr (rd : Reg) (v : Word) (b : Bool) (ar : Area) (ad : Word) : (s.commitGpr rd v b).readByte ar ad = s.readByte ar ad := rfl
@[simp] theorem State.nextReply_commitGpr (rd : Reg) (v : Word) (b : Bool) : (s.commitGpr rd v b).nextReply = s.nextReply := rfl

@[simp] theorem State.readGpr_setIntrEnabled (b : Bool) (r : Reg) : (s.setIntrEnabled b).readGpr r = s.readGpr r := rfl
@[simp] theorem State.readPred_setIntrEnabled (b : Bool) (p : PReg) : (s.setIntrEnabled b).readPred p = s.readPred p := rfl
@[simp] theorem State.readSpr_setIntrEnabled (b : Bool) (k : SReg) : (s.setIntrEnabled b).readSpr k = s.readSpr k := rfl
@[simp] theorem State.slotAt_setIntrEnabled (b : Bool) (sg : Stage) (kx : SlotIx) : (s.setIntrEnabled b).slotAt sg kx = s.slotAt sg kx := rfl
@[simp] theorem State.slot_setIntrEnabled (b : Bool) : (s.setIntrEnabled b).slot = s.slot := rfl
@[simp] theorem State.readByte_setIntrEnabled (b : Bool) (ar : Area) (ad : Word) : (s.setIntrEnabled b).readByte ar ad = s.readByte ar ad := rfl
@[simp] theorem State.bypassList_setIntrEnabled (b : Bool) : (s.setIntrEnabled b).bypassList = s.bypassList := rfl
@[simp] theorem State.operand_setIntrEnabled (b : Bool) (r : Reg) (dr : Word) : (s.setIntrEnabled b).operand r dr = s.operand r dr := rfl
@[simp] theorem State.tooSoon_setIntrEnabled (b : Bool) (r : Reg) : (s.setIntrEnabled b).tooSoon r = s.tooSoon r := rfl
@[simp] theorem State.nextReply_setIntrEnabled (b : Bool) : (s.setIntrEnabled b).nextReply = s.nextReply := rfl

@[simp] theorem State.readGpr_pushFrame (f : Frame) (r : Reg) : (s.pushFrame f).readGpr r = s.readGpr r := rfl
@[simp] theorem State.readPred_pushFrame (f : Frame) (p : PReg) : (s.pushFrame f).readPred p = s.readPred p := rfl
@[simp] theorem State.readSpr_pushFrame (f : Frame) (k : SReg) : (s.pushFrame f).readSpr k = s.readSpr k := rfl
@[simp] theorem State.slotAt_pushFrame (f : Frame) (sg : Stage) (kx : SlotIx) : (s.pushFrame f).slotAt sg kx = s.slotAt sg kx := rfl
@[simp] theorem State.slot_pushFrame (f : Frame) : (s.pushFrame f).slot = s.slot := rfl
@[simp] theorem State.readByte_pushFrame (f : Frame) (ar : Area) (ad : Word) : (s.pushFrame f).readByte ar ad = s.readByte ar ad := rfl
@[simp] theorem State.bypassList_pushFrame (f : Frame) : (s.pushFrame f).bypassList = s.bypassList := rfl
@[simp] theorem State.operand_pushFrame (f : Frame) (r : Reg) (dr : Word) : (s.pushFrame f).operand r dr = s.operand r dr := rfl
@[simp] theorem State.tooSoon_pushFrame (f : Frame) (r : Reg) : (s.pushFrame f).tooSoon r = s.tooSoon r := rfl
@[simp] theorem State.nextReply_pushFrame (f : Frame) : (s.pushFrame f).nextReply = s.nextReply := rfl

@[simp] theorem State.readGpr_popFrame (r : Reg) : (s.popFrame).readGpr r = s.readGpr r := rfl
@[simp] theorem State.readPred_popFrame (p : PReg) : (s.popFrame).readPred p = s.readPred p := rfl
@[simp] theorem State.readSpr_popFrame (k : SReg) : (s.popFrame).readSpr k = s.readSpr k := rfl
@[simp] theorem State.slotAt_popFrame (sg : Stage) (kx : SlotIx) : (s.popFrame).slotAt sg kx = s.slotAt sg kx := rfl
@[simp] theorem State.slot_popFrame : (s.popFrame).slot = s.slot := rfl
@[simp] theorem State.readByte_popFrame (ar : Area) (ad : Word) : (s.popFrame).readByte ar ad = s.readByte ar ad := rfl
@[simp] theorem State.bypassList_popFrame : (s.popFrame).bypassList = s.bypassList := rfl
@[simp] theorem State.operand_popFrame (r : Reg) (dr : Word) : (s.popFrame).operand r dr = s.operand r dr := rfl
@[simp] theorem State.tooSoon_popFrame (r : Reg) : (s.popFrame).tooSoon r = s.tooSoon r := rfl
@[simp] theorem State.nextReply_popFrame : (s.popFrame).nextReply = s.nextReply := rfl

@[simp] theorem State.readGpr_withMc (m : MethodCache) (r : Reg) : (s.withMc m).readGpr r = s.readGpr r := rfl
@[simp] theorem State.readPred_withMc (m : MethodCache) (p : PReg) : (s.withMc m).readPred p = s.readPred p := rfl
@[simp] theorem State.readSpr_withMc (m : MethodCache) (k : SReg) : (s.withMc m).readSpr k = s.readSpr k := rfl
@[simp] theorem State.slotAt_withMc (m : MethodCache) (sg : Stage) (kx : SlotIx) : (s.withMc m).slotAt sg kx = s.slotAt sg kx := rfl
@[simp] theorem State.slot_withMc (m : MethodCache) : (s.withMc m).slot = s.slot := rfl
@[simp] theorem State.readByte_withMc (m : MethodCache) (ar : Area) (ad : Word) : (s.withMc m).readByte ar ad = s.readByte ar ad := rfl
@[simp] theorem State.bypassList_withMc (m : MethodCache) : (s.withMc m).bypassList = s.bypassList := rfl
@[simp] theorem State.operand_withMc (m : MethodCache) (r : Reg) (dr : Word) : (s.withMc m).operand r dr = s.operand r dr := rfl
@[simp] theorem State.tooSoon_withMc (m : MethodCache) (r : Reg) : (s.withMc m).tooSoon r = s.tooSoon r := rfl
@[simp] theorem State.nextReply_withMc (m : MethodCache) : (s.withMc m).nextReply = s.nextReply := rfl

@[simp] theorem State.readGpr_dropReply (r : Reg) : (s.dropReply).readGpr r = s.readGpr r := rfl
@[simp] theorem State.readPred_dropReply (p : PReg) : (s.dropReply).readPred p = s.readPred p := rfl
@[simp] theorem State.readSpr_dropReply (k : SReg) : (s.dropReply).readSpr k = s.readSpr k := rfl
@[simp] theorem State.slotAt_dropReply (sg : Stage) (kx : SlotIx) : (s.dropReply).slotAt sg kx = s.slotAt sg kx := rfl
@[simp] theorem State.slot_dropReply : (s.dropReply).slot = s.slot := rfl
@[simp] theorem State.readByte_dropReply (ar : Area) (ad : Word) : (s.dropReply).readByte ar ad = s.readByte ar ad := rfl
@[simp] theorem State.bypassList_dropReply : (s.dropReply).bypassList = s.bypassList := rfl
@[simp] theorem State.operand_dropReply (r : Reg) (dr : Word) : (s.dropReply).operand r dr = s.operand r dr := rfl
@[simp] theorem State.tooSoon_dropReply (r : Reg) : (s.dropReply).tooSoon r = s.tooSoon r := rfl

@[simp] theorem State.readGpr_dropStackReply (r : Reg) : (s.dropStackReply).readGpr r = s.readGpr r := rfl
@[simp] theorem State.readPred_dropStackReply (p : PReg) : (s.dropStackReply).readPred p = s.readPred p := rfl
@[simp] theorem State.readSpr_dropStackReply (k : SReg) : (s.dropStackReply).readSpr k = s.readSpr k := rfl
@[simp] theorem State.slotAt_dropStackReply (sg : Stage) (kx : SlotIx) : (s.dropStackReply).slotAt sg kx = s.slotAt sg kx := rfl
@[simp] theorem State.slot_dropStackReply : (s.dropStackReply).slot = s.slot := rfl
@[simp] theorem State.readByte_dropStackReply (ar : Area) (ad : Word) : (s.dropStackReply).readByte ar ad = s.readByte ar ad := rfl
@[simp] theorem State.bypassList_dropStackReply : (s.dropStackReply).bypassList = s.bypassList := rfl
@[simp] theorem State.operand_dropStackReply (r : Reg) (dr : Word) : (s.dropStackReply).operand r dr = s.operand r dr := rfl
@[simp] theorem State.tooSoon_dropStackReply (r : Reg) : (s.dropStackReply).tooSoon r = s.tooSoon r := rfl
@[simp] theorem State.nextReply_dropStackReply : (s.dropStackReply).nextReply = s.nextReply := rfl

@[simp] theorem State.readGpr_setControl (b t : Word) (r : Reg) : (s.setControl b t).readGpr r = s.readGpr r := rfl
@[simp] theorem State.readPred_setControl (b t : Word) (p : PReg) : (s.setControl b t).readPred p = s.readPred p := rfl
@[simp] theorem State.readSpr_setControl (b t : Word) (k : SReg) : (s.setControl b t).readSpr k = s.readSpr k := rfl
@[simp] theorem State.slotAt_setControl (b t : Word) (sg : Stage) (kx : SlotIx) : (s.setControl b t).slotAt sg kx = s.slotAt sg kx := rfl
@[simp] theorem State.slot_setControl (b t : Word) : (s.setControl b t).slot = s.slot := rfl
@[simp] theorem State.readByte_setControl (b t : Word) (ar : Area) (ad : Word) : (s.setControl b t).readByte ar ad = s.readByte ar ad := rfl
@[simp] theorem State.bypassList_setControl (b t : Word) : (s.setControl b t).bypassList = s.bypassList := rfl
@[simp] theorem State.operand_setControl (b t : Word) (r : Reg) (dr : Word) : (s.setControl b t).operand r dr = s.operand r dr := rfl
@[simp] theorem State.tooSoon_setControl (b t : Word) (r : Reg) : (s.setControl b t).tooSoon r = s.tooSoon r := rfl
@[simp] theorem State.nextReply_setControl (b t : Word) : (s.setControl b t).nextReply = s.nextReply := rfl

@[simp] theorem State.readGpr_setAreaMem (a : Area) (m : Memory) (r : Reg) : (s.setAreaMem a m).readGpr r = s.readGpr r := rfl
@[simp] theorem State.readPred_setAreaMem (a : Area) (m : Memory) (p : PReg) : (s.setAreaMem a m).readPred p = s.readPred p := rfl
@[simp] theorem State.readSpr_setAreaMem (a : Area) (m : Memory) (k : SReg) : (s.setAreaMem a m).readSpr k = s.readSpr k := rfl
@[simp] theorem State.slotAt_setAreaMem (a : Area) (m : Memory) (sg : Stage) (kx : SlotIx) : (s.setAreaMem a m).slotAt sg kx = s.slotAt sg kx := rfl
@[simp] theorem State.slot_setAreaMem (a : Area) (m : Memory) : (s.setAreaMem a m).slot = s.slot := rfl
@[simp] theorem State.bypassList_setAreaMem (a : Area) (m : Memory) : (s.setAreaMem a m).bypassList = s.bypassList := rfl
@[simp] theorem State.operand_setAreaMem (a : Area) (m : Memory) (r : Reg) (dr : Word) : (s.setAreaMem a m).operand r dr = s.operand r dr := rfl
@[simp] theorem State.tooSoon_setAreaMem (a : Area) (m : Memory) (r : Reg) : (s.setAreaMem a m).tooSoon r = s.tooSoon r := rfl
@[simp] theorem State.nextReply_setAreaMem (a : Area) (m : Memory) : (s.setAreaMem a m).nextReply = s.nextReply := rfl

@[simp] theorem State.readGpr_poke (a : Word) (bs : List Byte) (r : Reg) : (s.poke a bs).readGpr r = s.readGpr r := rfl
@[simp] theorem State.readPred_poke (a : Word) (bs : List Byte) (p : PReg) : (s.poke a bs).readPred p = s.readPred p := rfl
@[simp] theorem State.readSpr_poke (a : Word) (bs : List Byte) (k : SReg) : (s.poke a bs).readSpr k = s.readSpr k := rfl
@[simp] theorem State.slotAt_poke (a : Word) (bs : List Byte) (sg : Stage) (kx : SlotIx) : (s.poke a bs).slotAt sg kx = s.slotAt sg kx := rfl
@[simp] theorem State.slot_poke (a : Word) (bs : List Byte) : (s.poke a bs).slot = s.slot := rfl
@[simp] theorem State.bypassList_poke (a : Word) (bs : List Byte) : (s.poke a bs).bypassList = s.bypassList := rfl
@[simp] theorem State.operand_poke (a : Word) (bs : List Byte) (r : Reg) (dr : Word) : (s.poke a bs).operand r dr = s.operand r dr := rfl
@[simp] theorem State.tooSoon_poke (a : Word) (bs : List Byte) (r : Reg) : (s.poke a bs).tooSoon r = s.tooSoon r := rfl
@[simp] theorem State.nextReply_poke (a : Word) (bs : List Byte) : (s.poke a bs).nextReply = s.nextReply := rfl
/-! ### Explicit updates -/

@[simp] theorem State.stall_stallReq_mw : (s.stall .MW).stallReq = some .MW := by
  unfold State.stall
  cases h : s.stallReq with
  | none => rfl
  | some old => cases old <;> rfl

@[simp] theorem State.setIntrEnabled_exc (b : Bool) :
    (s.setIntrEnabled b).exc = { s.exc with intrEnabled := b } := rfl

@[simp] theorem State.pushFrame_frames (f : Frame) : (s.pushFrame f).frames = f :: s.frames := rfl

@[simp] theorem State.pushFrame_profile (f : Frame) :
    (s.pushFrame f).profile = .entry f.callee :: s.profile := rfl

@[simp] theorem State.popFrame_frames : s.popFrame.frames = s.frames.tail := rfl

@[simp] theorem State.popFrame_profile : s.popFrame.profile = .exit :: s.profile := rfl

@[simp] theorem State.withMc_mc (m : MethodCache) : (s.withMc m).mc = m := rfl

@[simp] theorem State.withMc_self : s.withMc s.mc = s := rfl

@[simp] theorem State.withMc_withMc (m n : MethodCache) : (s.withMc m).withMc n = s.withMc n := rfl

@[simp] theorem State.dropReply_replies : s.dropReply.replies = s.replies.tail := rfl

@[simp] theorem State.dropStackReply_stackReplies : s.dropStackReply.stackReplies = s.stackReplies.tail := rfl

@[simp] theorem State.setControl_base (b t : Word) : (s.setControl b t).base = b := rfl

@[simp] theorem State.setControl_npc (b t : Word) : (s.setControl b t).npc = t := rfl

@[simp] theorem State.atSlot_cur (st : Stage) (k : SlotIx) : (s.atSlot st k).cur = ⟨st, k⟩ := rfl

@[simp] theorem State.atSlot_slot (st : Stage) (k : SlotIx) : (s.atSlot st k).slot = s.slotAt st k := rfl

@[simp] theorem State.commitGpr_readGpr (rd r : Reg) (v : Word) (b : Bool) :
    (s.commitGpr rd v b).readGpr r = (s.writeGpr rd v).readGpr r := rfl

/-! ### Registers -/

@[simp] theorem State.readGpr_zero : s.readGpr 0#5 = 0#32 := rfl

@[simp] theorem State.readPred_zero : s.readPred 0#3 = true := rfl

theorem State.readGpr_writeGpr (i r : Reg) (v : Word) :
    (s.writeGpr i v).readGpr r = if r = i then (if i = 0 then 0 else v) else s.readGpr r := by
  by_cases hi : i = 0
  · subst hi
    by_cases h : r = 0
    · rw [if_pos h, if_pos rfl, h]; rfl
    · rw [if_neg h]; rfl
  · rw [if_neg hi]
    unfold State.readGpr State.writeGpr
    rw [if_neg hi]
    by_cases h : r = i
    · subst h; rw [if_neg hi, if_pos rfl]; exact Vector.getElem_set_self _
    · have hn : i.toNat ≠ r.toNat := fun e => h (BitVec.eq_of_toNat_eq e.symm)
      rw [if_neg h]
      by_cases hr : r = 0
      · rw [if_pos hr, if_pos hr]
      · rw [if_neg hr, if_neg hr]; exact Vector.getElem_set_ne i.isLt r.isLt hn

theorem State.readPred_writePred (i r : PReg) (v : Bool) :
    (s.writePred i v).readPred r = if r = i then (if i = 0 then true else v) else s.readPred r := by
  by_cases hi : i = 0
  · subst hi
    by_cases h : r = 0
    · rw [if_pos h, if_pos rfl, h]; rfl
    · rw [if_neg h]; rfl
  · rw [if_neg hi]
    unfold State.readPred State.writePred
    rw [if_neg hi]
    by_cases h : r = i
    · subst h; rw [if_neg hi, if_pos rfl]; exact Vector.getElem_set_self _
    · have hn : i.toNat ≠ r.toNat := fun e => h (BitVec.eq_of_toNat_eq e.symm)
      rw [if_neg h]
      by_cases hr : r = 0
      · rw [if_pos hr, if_pos hr]
      · rw [if_neg hr, if_neg hr]; exact Vector.getElem_set_ne i.isLt r.isLt hn

theorem State.readSpr_writeSpr (i k : SReg) (v : Word) :
    (s.writeSpr i v).readSpr k = if k = i then v else s.readSpr k := by
  unfold State.readSpr State.writeSpr
  by_cases h : k = i
  · subst h; simp
  · have hn : i.toNat ≠ k.toNat := fun e => h (BitVec.eq_of_toNat_eq e.symm)
    simp [h, Vector.getElem_set_ne, hn]

@[simp] theorem State.writeGpr_zero (v : Word) : s.writeGpr 0#5 v = s := rfl

@[simp] theorem State.writePred_zero (b : Bool) : s.writePred 0#3 b = s := rfl

/-! ### Slots -/

@[simp] theorem Pipe.get_set_same (p : Pipe) (st : Stage) (b : Bundle) : (p.set st b).get st = b := by
  cases st <;> rfl

theorem Pipe.get_set_ne (p : Pipe) {st sg : Stage} (b : Bundle) (h : sg ≠ st) : (p.set st b).get sg = p.get sg := by
  cases st <;> cases sg <;> first | rfl | exact absurd rfl h

@[simp] theorem Bundle.get_set_same (b : Bundle) (k : SlotIx) (x : Slot) : (b.set k x).get k = x := by
  cases k <;> rfl

theorem Bundle.get_set_ne (b : Bundle) {k j : SlotIx} (x : Slot) (h : j ≠ k) : (b.set k x).get j = b.get j := by
  cases k <;> cases j <;> first | rfl | exact absurd rfl h

@[simp] theorem State.slot_setSlot (x : Slot) : (s.setSlot x).slot = x := by
  simp [State.slot, State.slotAt, State.setSlot]

@[simp] theorem State.slot_done : s.done.slot = { s.slot with discard := true } := s.slot_setSlot _

@[simp] theorem State.slot_withResult (rd : Reg) (v : Word) :
    (s.withResult rd v).slot = { s.slot with exResult := v }.publish rd v := s.slot_setSlot _

@[simp] theorem State.slot_withTarget (b t : Word) :
    (s.withTarget b t).slot = { s.slot with exBase := b, exTarget := t } := s.slot_setSlot _

theorem State.slotAt_setSlot_ne (x : Slot) {st : Stage} {k : SlotIx} (h : st ≠ s.cur.stage ∨ k ≠ s.cur.k) :
    (s.setSlot x).slotAt st k = s.slotAt st k := by
  unfold State.slotAt State.setSlot
  by_cases hst : st = s.cur.stage
  · subst hst
    have hk : k ≠ s.cur.k := h.resolve_left (fun n => n rfl)
    simp [Bundle.get_set_ne _ _ hk]
  · simp [Pipe.get_set_ne _ _ hst]

@[simp] theorem State.setSlot_setSlot (x y : Slot) : (s.setSlot x).setSlot y = s.setSlot y := by
  unfold State.setSlot
  simp
  cases s.cur.stage <;> cases s.cur.k <;> rfl

@[simp] theorem State.setSlot_slot : s.setSlot s.slot = s := by
  unfold State.setSlot State.slot State.slotAt
  cases s; rename_i pipe _ _ cur _ _ _ _ _ _ _ _
  cases cur; rename_i st k
  cases st <;> cases k <;> rfl

theorem State.slot_flushUpstream (x : State) : (x.flushUpstream x.cur.stage).slot = x.slot := by
  unfold State.slot State.slotAt State.flushUpstream
  rcases x with ⟨⟩; rename_i cur _ _ _ _ _ _ _ _
  cases cur; rename_i st k
  cases st <;> cases k <;> rfl

theorem State.slot_markDelaySlots (n : Nat) (x : State) : (x.markDelaySlots n x.cur.stage).slot = x.slot := by
  unfold State.slot State.slotAt State.markDelaySlots
  rcases x with ⟨⟩; rename_i cur _ _ _ _ _ _ _ _
  cases cur; rename_i st k
  cases st <;> cases k <;> rfl

theorem State.slotAt_flushUpstream (st sg : Stage) (k : SlotIx) :
    (s.flushUpstream st).slotAt sg k = if sg.rank < st.rank then Slot.bubble else s.slotAt sg k := by
  cases st <;> cases sg <;> cases k <;> rfl

theorem Bundle.get_markDelayIf (b : Bundle) (c : Bool) (k : SlotIx) :
    (b.markDelayIf c).get k = if c then (b.get k).markDelay else b.get k := by
  cases c <;> cases k <;> rfl

/-- The delay slots of a transfer in `st`: the `n` bundles next upstream, whole. -/
theorem State.slotAt_markDelaySlots (n : Nat) (st sg : Stage) (k : SlotIx) :
    (s.markDelaySlots n st).slotAt sg k =
      if sg.rank < st.rank ∧ st.rank ≤ sg.rank + n then (s.slotAt sg k).markDelay else s.slotAt sg k := by
  cases st <;> cases sg <;>
    simp [State.slotAt, State.markDelaySlots, Pipe.markDelay, Pipe.get, Bundle.get_markDelayIf, Stage.rank] <;>
    simp [Nat.add_comm, Nat.succ_le_iff]

end Sys2Proof.Machine
end

