-- ==== Sys2Proof/Laws/Exec.lean ====
section
/-! SUPPORT. `exec` by class: the hundred meanings are thirteen shapes (rule R24), so that a lemma about a shape's stage
bodies speaks of every instruction of that shape; then each shape's bodies, stage by stage. -/

namespace Sys2Proof.Machine

open Sys2Proof.Config

/-- The function of the model behind a name. -/
def AluFn.fn : AluFn → Word → Word → Word
  | .add => aluAdd
  | .sub => aluSub
  | .xor => aluXor
  | .sl => aluSl
  | .sr => aluSr
  | .sra => aluSra
  | .or => aluOr
  | .and => aluAnd
  | .nor => aluNor
  | .shadd => aluShadd
  | .shadd2 => aluShadd2

/-- The compare function of the model behind a name. -/
def CmpFn.fn : CmpFn → Word → Word → Bool
  | .eq => cmpEq
  | .neq => cmpNeq
  | .lt => cmpLt
  | .le => cmpLe
  | .ult => cmpUlt
  | .ule => cmpUle
  | .bit => bitTest

/-- The predicate function of the model behind a name. -/
def PlogFn.fn : PlogFn → Bool → Bool → Bool
  | .or => predOr
  | .and => predAnd
  | .xor => predXor

/-- What `decode_stage` of a shape stores. -/
def shapeDecode (g : PredRef) (sh : Shape) : State → Result := fun s =>
  .next (s.setSlot (decodedSlot sh s { s.slot with pred := s.predRef g }))

/-- `execute_stage` of a shape. -/
def shapeExecute : Shape → State → Result
  | .alu f rd rs1 o => aluExecute f.fn rd rs1 o
  | .mul sg rs1 rs2 => mulExecute (if sg then productSigned else productUnsigned) rs1 rs2
  | .cmp f pd rs1 o => cmpExecute f.fn pd rs1 o
  | .plog f pd _ _ => executeSlot [] fun s => .next (s.writePred pd (f.fn s.slot.drPs1 s.slot.drPs2))
  | .bcopy rd rs1 imm _ =>
    executeSlot [rs1] fun s => .next (s.withResult rd (insertBit (s.rs1 rs1) imm s.slot.drPs1))
  | .mts _ rs1 => executeSlot [rs1] fun s => .next (s.setSlot { s.slot with exResult := s.rs1 rs1 })
  | .mfs rd _ => executeSlot [] fun s => .next (s.withResult rd s.slot.drSs)
  | .load _ w _ _ ra imm =>
    executeSlot [ra] fun s => .next (s.setSlot { s.slot with exAddress := effAddr (s.rs1 ra) imm w })
  | .store _ w ra rs imm => executeSlot [ra, rs] fun s =>
      .next (s.setSlot { s.slot with exAddress := effAddr (s.rs1 ra) imm w, exResult := s.rs2 rs })
  | .stackI _ imm => executeSlot [] fun s => .next (s.setSlot { s.slot with exResult := stackBytes imm })
  | .stackR _ rs => executeSlot [rs] fun s => .next (s.setSlot { s.slot with exResult := s.rs1 rs })
  | .branch d (.rel imm) => executeSlot [] fun s => dispatchEX d (relTarget s.slot.addr imm) s
  | .branch d (.abs rs) => executeSlot [rs] fun s => dispatchEX d (s.rs1 rs) s
  | .transfer _ (.imm n) => entryExecute [] fun _ => absTarget n
  | .transfer _ (.reg rs) => entryExecute [rs] fun s => s.rs1 rs
  | .transfer _ (.pair rs1 rs2) =>
    executeSlot [rs1, rs2] fun s => .next (s.withTarget (s.rs1 rs1) (s.rs1 rs1 + s.rs2 rs2))
  | .transfer _ .saved => returnExecute
  | .transfer _ (.code n) => trapExecute n

/-- The transfer record of a kind. -/
def TransferKind.record (p : Params) : TransferKind → Transfer
  | .call d => callTransfer p d
  | .fill d => fillTransferOf d
  | .ret d => retTransfer d
  | .xret d => ⟨d, none, true, false, true⟩
  | .trap => ⟨false, some (p.sxb, p.sxo), false, true, false⟩
  | .intr => ⟨false, some (p.sxb, p.sxo), false, false, false⟩

/-- `commit_stage` of a shape. -/
def shapeCommit : Shape → State → Result
  | .alu _ rd _ _ => commitResult rd
  | .mul _ _ _ => mulCommit
  | .cmp _ _ _ _ => noEffect
  | .plog _ _ _ _ => noEffect
  | .bcopy rd _ _ _ => commitResult rd
  | .mts sd _ => commitSlot fun s => .next (s.writeSpecial sd s.slot.exResult).done
  | .mfs rd _ => commitResult rd
  | .load area w sg rd _ _ => loadCommit area w sg rd
  | .store area w _ _ _ => storeCommit area w
  | .stackI op _ => stackCommit op
  | .stackR op _ => stackCommit op
  | .branch _ _ => noEffect
  | .transfer .trap _ => trapCommit
  | .transfer k _ => commitSlot fun s => dispatchMW (k.record s.params) s

/-- Every meaning is the three bodies of its shape. -/
theorem exec_eq (i : Instr) (s : State) :
    exec i s = stageOp (shapeDecode (guardOfInstr i) (shapeOf i)) (shapeExecute (shapeOf i)) (shapeCommit (shapeOf i)) s := by
  cases i <;> rfl

/-- Interrupt entry is the kind of no instruction that a word decodes to (rule R296). -/
theorem shapeOf_ne_intr (i : Instr) (dest : TransferTo) : shapeOf i ≠ .transfer .intr dest := by
  cases i <;> nofun

theorem exec_fetch {i : Instr} {s : State} (h : s.cur.stage = .IF) : exec i s = .next s := by
  rw [exec_eq]; simp only [stageOp, h]

theorem exec_decode {i : Instr} {s : State} (h : s.cur.stage = .DR) :
    exec i s = .next (s.setSlot (decodedSlot (shapeOf i) s { s.slot with pred := s.predRef (guardOfInstr i) })) := by
  rw [exec_eq]; simp only [stageOp, h, shapeDecode]

theorem exec_execute {i : Instr} {s : State} (h : s.cur.stage = .EX) : exec i s = shapeExecute (shapeOf i) s := by
  rw [exec_eq]; simp only [stageOp, h]

theorem exec_commit {i : Instr} {s : State} (h : s.cur.stage = .MW) : exec i s = shapeCommit (shapeOf i) s := by
  rw [exec_eq]; simp only [stageOp, h]

/-! ### The two guarded shells -/

theorem executeSlot_off {srcs : List Reg} {body : State → Result} {s : State} (h : s.slot.pred = false) :
    executeSlot srcs body s = .next s := by
  unfold executeSlot; simp [h]

theorem executeSlot_on {srcs : List Reg} {body : State → Result} {s : State} (h : Executes s srcs) :
    executeSlot srcs body s = body s := by
  unfold executeSlot
  have : srcs.any s.tooSoon = false := by simpa using h.2.2
  simp [h.2.1, this]

/-- All that an `execute_stage` under its guard can do. -/
theorem executeSlot_next {srcs : List Reg} {body : State → Result} {s t : State}
    (h : executeSlot srcs body s = .next t) :
    (s.slot.pred = false ∧ t = s) ∨ (s.slot.pred = true ∧ srcs.any s.tooSoon = false ∧ body s = .next t) := by
  unfold executeSlot at h
  split at h
  · split at h
    · cases h
    · exact .inr ⟨‹_›, by simpa using ‹¬ srcs.any s.tooSoon = true›, h⟩
  · cases h; exact .inl ⟨by simpa using ‹¬ s.slot.pred = true›, rfl⟩

theorem commitSlot_off {body : State → Result} {s : State} (h : s.slot.pred = false ∨ s.slot.discard = true) :
    commitSlot body s = .next s := by
  unfold commitSlot; rcases h with h | h <;> simp [h]

theorem commitSlot_on {body : State → Result} {s : State} (h : Commits s) : commitSlot body s = body s := by
  unfold commitSlot; simp [h.2.1, h.2.2]

/-- All that a `commit_stage` under its guard can do. -/
theorem commitSlot_next {body : State → Result} {s t : State} (h : commitSlot body s = .next t) :
    ((s.slot.pred = false ∨ s.slot.discard = true) ∧ t = s) ∨
      (s.slot.pred = true ∧ s.slot.discard = false ∧ body s = .next t) := by
  unfold commitSlot at h
  split at h
  · rename_i hg
    simp only [Bool.and_eq_true, Bool.not_eq_true'] at hg
    exact .inr ⟨hg.1, hg.2, h⟩
  · rename_i hg
    cases h
    refine .inl ⟨?_, rfl⟩
    cases hp : s.slot.pred <;> simp_all

/-! ### Stages over every shape -/

theorem shapeExecute_off {sh : Shape} {s : State} (h : s.slot.pred = false) : shapeExecute sh s = .next s := by
  cases sh with
  | branch d e => cases e <;> simp only [shapeExecute, executeSlot_off h]
  | transfer k e =>
    cases e <;> simp only [shapeExecute, entryExecute, returnExecute, trapExecute, executeSlot_off h]
  | _ => simp only [shapeExecute, aluExecute, mulExecute, cmpExecute, executeSlot_off h]

theorem shapeCommit_off {sh : Shape} {s : State} (h : s.slot.pred = false ∨ s.slot.discard = true) :
    shapeCommit sh s = .next s := by
  cases sh with
  | transfer k e => cases k <;> simp only [shapeCommit, trapCommit, commitSlot_off h]
  | cmp => rfl
  | plog => rfl
  | branch => rfl
  | _ => simp only [shapeCommit, commitResult, mulCommit, loadCommit, storeCommit, stackCommit, commitSlot_off h]

end Sys2Proof.Machine
end

