-- ==== Sys2Proof/Laws/Frame.lean ====
section
/-! SUPPORT. Frames: what each named operation leaves alone, once; a frame of a meaning is their composition. -/

namespace Sys2Proof.Machine

open Sys2Proof.Config

theorem KeepsRest.setSlot (s : State) (w : Touch) (x : Slot) : KeepsRest w s (s.setSlot x) := by
  refine ⟨?_, ?_, ?_, ?_, ?_, ?_, ?_, ?_, ?_, ?_, ?_, ?_, ?_, ?_, ?_, ?_, ?_, ?_, ?_, ?_⟩ <;> intros <;>
    first | rfl | exact ⟨rfl, rfl⟩ | (exact State.slotAt_setSlot_ne _ _ (by assumption))

theorem KeepsRest.refl (s : State) (w : Touch) : KeepsRest w s s := by
  refine ⟨?_, ?_, ?_, ?_, ?_, ?_, ?_, ?_, ?_, ?_, ?_, ?_, ?_, ?_, ?_, ?_, ?_, ?_, ?_, ?_⟩ <;> intros <;>
    first | rfl | exact ⟨rfl, rfl⟩

theorem KeepsRest.trans {s t u : State} {w : Touch} (h : KeepsRest w s t) (k : KeepsRest w t u) : KeepsRest w s u := by
  obtain ⟨a1, a2, a3, a4, a5, a6, a7, a8, a9, a10, a11, a12, a13, a14, a15, a16, a17, a18, a19, a20⟩ := h
  obtain ⟨b1, b2, b3, b4, b5, b6, b7, b8, b9, b10, b11, b12, b13, b14, b15, b16, b17, b18, b19, b20⟩ := k
  refine ⟨fun r h => (b1 r h).trans (a1 r h), fun r h => (b2 r h).trans (a2 r h), fun r h => (b3 r h).trans (a3 r h),
    fun h => ⟨(b4 h).1.trans (a4 h).1, (b4 h).2.trans (a4 h).2⟩, fun h x y => (b5 h x y).trans (a5 h x y), 
    fun h => ⟨(b6 h).1.trans (a6 h).1, (b6 h).2.trans (a6 h).2⟩, fun h => (b7 h).trans (a7 h),
    fun h => (b8 h).trans (a8 h), fun h => ⟨(b9 h).1.trans (a9 h).1, (b9 h).2.trans (a9 h).2⟩,
    fun h => (b10 h).trans (a10 h), fun h st k hk => (b11 h st k (by rw [a15]; exact hk)).trans (a11 h st k hk), b12.trans a12, b13.trans a13,
    b14.trans a14, b15.trans a15, b16.trans a16, b17.trans a17, b18.trans a18, b19.trans a19, b20.trans a20⟩

theorem KeepsRest.writeGpr (s : State) (w : Touch) (r : Reg) (v : Word) (h : r ∈ w.gprs) : KeepsRest w s (s.writeGpr r v) := by
  refine ⟨fun q hq => ?_, ?_, ?_, ?_, ?_, ?_, ?_, ?_, ?_, ?_, ?_, ?_, ?_, ?_, ?_, ?_, ?_, ?_, ?_, ?_⟩
  · rw [State.readGpr_writeGpr, if_neg (fun e : q = r => hq (by rw [e]; exact h))]
  all_goals intros; first | rfl | exact ⟨rfl, rfl⟩

theorem KeepsRest.writePred (s : State) (w : Touch) (r : PReg) (v : Bool) (h : r ∈ w.preds) : KeepsRest w s (s.writePred r v) := by
  refine ⟨?_, fun q hq => ?_, ?_, ?_, ?_, ?_, ?_, ?_, ?_, ?_, ?_, ?_, ?_, ?_, ?_, ?_, ?_, ?_, ?_, ?_⟩
  on_goal 2 => rw [State.readPred_writePred, if_neg (fun e : q = r => hq (by rw [e]; exact h))]
  all_goals intros; first | rfl | exact ⟨rfl, rfl⟩

theorem KeepsRest.writeSpr (s : State) (w : Touch) (r : SReg) (v : Word) (h : r ∈ w.sprs) : KeepsRest w s (s.writeSpr r v) := by
  refine ⟨?_, ?_, fun q hq => ?_, ?_, ?_, ?_, ?_, ?_, ?_, ?_, ?_, ?_, ?_, ?_, ?_, ?_, ?_, ?_, ?_, ?_⟩
  on_goal 3 => rw [State.readSpr_writeSpr, if_neg (fun e : q = r => hq (by rw [e]; exact h))]
  all_goals intros; first | rfl | exact ⟨rfl, rfl⟩

theorem KeepsRest.noteWrite (s : State) (w : Touch) (r : Reg) (b : Bool) : KeepsRest w s (s.noteWrite r b) := by
  refine ⟨?_, ?_, ?_, ?_, ?_, ?_, ?_, ?_, ?_, ?_, ?_, ?_, ?_, ?_, ?_, ?_, ?_, ?_, ?_, ?_⟩ <;> intros <;>
    first | rfl | exact ⟨rfl, rfl⟩

theorem KeepsRest.commitGpr (s : State) (w : Touch) (r : Reg) (v : Word) (b : Bool) (h : r ∈ w.gprs) : KeepsRest w s (s.commitGpr r v b) :=
  KeepsRest.trans (KeepsRest.trans (KeepsRest.writeGpr s w r v h) (KeepsRest.noteWrite _ w r b)) (KeepsRest.setSlot _ w _)

theorem State.slot_commitGpr (s : State) (r : Reg) (v : Word) (b : Bool) :
    (s.commitGpr r v b).slot = { s.slot.republish r v with discard := true } := State.slot_setSlot _ _

theorem KeepsRest.dropReply (s : State) (w : Touch) (h : w.answers = true) : KeepsRest w s s.dropReply := by
  refine ⟨?_, ?_, ?_, ?_, ?_, ?_, ?_, ?_, ?_, ?_, ?_, ?_, ?_, ?_, ?_, ?_, ?_, ?_, ?_, ?_⟩ <;> intros <;>
    first | rfl | exact ⟨rfl, rfl⟩ | simp_all

theorem KeepsRest.stall (s : State) (st : Stage) (w : Touch) (h : w.stall = true) : KeepsRest w s (s.stall st) := by
  refine ⟨?_, ?_, ?_, ?_, ?_, ?_, ?_, ?_, ?_, ?_, ?_, ?_, ?_, ?_, ?_, ?_, ?_, ?_, ?_, ?_⟩ <;> intros <;>
    first | rfl | exact ⟨rfl, rfl⟩ | simp_all

theorem KeepsRest.setAreaMem (s : State) (a : Area) (m : Memory) (w : Touch) (h : w.memory = true) : KeepsRest w s (s.setAreaMem a m) := by
  refine ⟨?_, ?_, ?_, ?_, ?_, ?_, ?_, ?_, ?_, ?_, ?_, ?_, ?_, ?_, ?_, ?_, ?_, ?_, ?_, ?_⟩ <;> intros <;>
    first | rfl | exact ⟨rfl, rfl⟩ | simp_all

theorem KeepsRest.dropStackReply (s : State) (w : Touch) (h : w.answers = true) : KeepsRest w s s.dropStackReply := by
  refine ⟨?_, ?_, ?_, ?_, ?_, ?_, ?_, ?_, ?_, ?_, ?_, ?_, ?_, ?_, ?_, ?_, ?_, ?_, ?_, ?_⟩ <;> intros <;>
    first | rfl | exact ⟨rfl, rfl⟩ | simp_all

theorem KeepsRest.setControl (s : State) (w : Touch) (b t : Word) (h : w.control = true) : KeepsRest w s (s.setControl b t) := by
  refine ⟨?_, ?_, ?_, ?_, ?_, ?_, ?_, ?_, ?_, ?_, ?_, ?_, ?_, ?_, ?_, ?_, ?_, ?_, ?_, ?_⟩ <;> intros <;>
    first | rfl | exact ⟨rfl, rfl⟩ | simp_all

theorem KeepsRest.withMc (s : State) (w : Touch) (m : MethodCache) (h : w.methodCache = true) : KeepsRest w s (s.withMc m) := by
  refine ⟨?_, ?_, ?_, ?_, ?_, ?_, ?_, ?_, ?_, ?_, ?_, ?_, ?_, ?_, ?_, ?_, ?_, ?_, ?_, ?_⟩ <;> intros <;>
    first | rfl | exact ⟨rfl, rfl⟩ | simp_all

theorem KeepsRest.pushFrame (s : State) (w : Touch) (f : Frame) (h : w.frames = true) : KeepsRest w s (s.pushFrame f) := by
  refine ⟨?_, ?_, ?_, ?_, ?_, ?_, ?_, ?_, ?_, ?_, ?_, ?_, ?_, ?_, ?_, ?_, ?_, ?_, ?_, ?_⟩ <;> intros <;>
    first | rfl | exact ⟨rfl, rfl⟩ | simp_all

theorem KeepsRest.popFrame (s : State) (w : Touch) (h : w.frames = true) : KeepsRest w s s.popFrame := by
  refine ⟨?_, ?_, ?_, ?_, ?_, ?_, ?_, ?_, ?_, ?_, ?_, ?_, ?_, ?_, ?_, ?_, ?_, ?_, ?_, ?_⟩ <;> intros <;>
    first | rfl | exact ⟨rfl, rfl⟩ | simp_all

theorem KeepsRest.setIntrEnabled (s : State) (w : Touch) (b : Bool) (h : w.intrEnabled = true) :
    KeepsRest w s (s.setIntrEnabled b) := by
  refine ⟨?_, ?_, ?_, ?_, ?_, ?_, ?_, ?_, ?_, ?_, ?_, ?_, ?_, ?_, ?_, ?_, ?_, ?_, ?_, ?_⟩ <;> intros <;>
    first | rfl | exact ⟨rfl, rfl⟩ | simp_all

theorem KeepsRest.flushUpstream (s : State) (w : Touch) (st : Stage) (h : w.otherSlots = true) :
    KeepsRest w s (s.flushUpstream st) := by
  refine ⟨?_, ?_, ?_, ?_, ?_, ?_, ?_, ?_, ?_, ?_, ?_, ?_, ?_, ?_, ?_, ?_, ?_, ?_, ?_, ?_⟩ <;> intros <;>
    first | rfl | exact ⟨rfl, rfl⟩ | simp_all

theorem KeepsRest.markDelaySlots (s : State) (w : Touch) (n : Nat) (st : Stage) (h : w.otherSlots = true) :
    KeepsRest w s (s.markDelaySlots n st) := by
  refine ⟨?_, ?_, ?_, ?_, ?_, ?_, ?_, ?_, ?_, ?_, ?_, ?_, ?_, ?_, ?_, ?_, ?_, ?_, ?_, ?_⟩ <;> intros <;>
    first | rfl | exact ⟨rfl, rfl⟩ | simp_all

end Sys2Proof.Machine
end

