-- ==== Sys2Proof/Laws/Memory.lean ====
section
/-! SUPPORT. Memory: a read after a write to the same place gives the value written, a write leaves every other place
alone, and every operation keeps the canonical form. -/

namespace Sys2Proof.Machine

open Sys2Proof.Config

/-! ### The list of cells -/

theorem cellsWf_mono {lo lo' : Nat} (h : lo' ≤ lo) : {cs : List Host.Cell} → cellsWf lo cs = true → cellsWf lo' cs = true
  | [], _ => rfl
  | (k, v) :: rest, hw => by
    simp only [cellsWf, Bool.and_eq_true, decide_eq_true_eq] at hw ⊢
    exact ⟨⟨⟨by omega, hw.1.1.2⟩, hw.1.2⟩, hw.2⟩

theorem cellsRead_below {lo a : Nat} (h : a < lo) : {cs : List Host.Cell} → cellsWf lo cs = true → cellsRead cs a = 0
  | [], _ => rfl
  | (k, v) :: rest, hw => by
    simp only [cellsWf, Bool.and_eq_true, decide_eq_true_eq] at hw
    rw [cellsRead, if_neg (by omega)]
    exact cellsRead_below (by omega) hw.2

theorem cellsWf_write {lo a : Nat} (b : Byte) (hlo : lo ≤ a) (ha : a < 4294967296) :
    {cs : List Host.Cell} → cellsWf lo cs = true → cellsWf lo (cellsWrite cs a b) = true
  | [], _ => by
    by_cases hb : b = 0
    · rw [cellsWrite, if_pos hb]; rfl
    · rw [cellsWrite, if_neg hb]
      simp only [cellsWf, Bool.and_eq_true, decide_eq_true_eq]
      exact ⟨⟨⟨hlo, ha⟩, hb⟩, trivial⟩
  | (k, v) :: rest, hw => by
    have hw' := hw
    simp only [cellsWf, Bool.and_eq_true, decide_eq_true_eq] at hw
    rw [cellsWrite]
    split
    · split
      · exact hw'
      · rename_i hak hb
        simp only [cellsWf, Bool.and_eq_true, decide_eq_true_eq]
        exact ⟨⟨⟨hlo, ha⟩, hb⟩, ⟨⟨by omega, hw.1.1.2⟩, hw.1.2⟩, hw.2⟩
    · split
      · split
        · exact cellsWf_mono (by omega) hw.2
        · rename_i hb
          simp only [cellsWf, Bool.and_eq_true, decide_eq_true_eq]
          exact ⟨⟨hw.1.1, hb⟩, hw.2⟩
      · simp only [cellsWf, Bool.and_eq_true, decide_eq_true_eq]
        exact ⟨hw.1, cellsWf_write b (by omega) ha hw.2⟩

theorem cellsRead_write {lo a : Nat} (b : Byte) (c : Nat) :
    {cs : List Host.Cell} → cellsWf lo cs = true →
      cellsRead (cellsWrite cs a b) c = if c = a then b else cellsRead cs c
  | [], _ => by
    by_cases hb : b = 0
    · rw [cellsWrite, if_pos hb]; simp [cellsRead, hb]
    · rw [cellsWrite, if_neg hb]; simp [cellsRead, eq_comm]
  | (k, v) :: rest, hw => by
    have hw' := hw
    simp only [cellsWf, Bool.and_eq_true, decide_eq_true_eq] at hw
    rw [cellsWrite]
    split
    · rename_i hak
      split
      · rename_i hb
        split
        · rename_i hc
          subst hc
          rw [cellsRead, if_neg (by omega), cellsRead_below (by omega) hw.2, hb]
        · rfl
      · rw [cellsRead]
        by_cases hc : c = a
        · rw [if_pos hc.symm, if_pos hc]
        · rw [if_neg (fun e => hc e.symm), if_neg hc]
    · split
      · rename_i hak
        split
        · rename_i hb
          by_cases hc : c = a
          · rw [if_pos hc, hc, cellsRead_below (by omega) hw.2, hb]
          · rw [if_neg hc, cellsRead, if_neg (by omega)]
        · rw [cellsRead, cellsRead]
          by_cases hc : c = a
          · rw [if_pos hc, if_pos (by omega)]
          · rw [if_neg hc, if_neg (by omega), if_neg (by omega)]
      · rw [cellsRead, cellsRead, cellsRead_write b c hw.2]
        by_cases hc : k = c
        · rw [if_pos hc, if_neg (by omega), if_pos hc]
        · rw [if_neg hc, if_neg hc]

/-! ### One memory -/

theorem Memory.read_write {m : Memory} (h : m.wf = true) (a c : Word) (b : Byte) :
    (m.write a b).read c = if c = a then b else m.read c := by
  simp only [Memory.read, Memory.write, cellsRead_write b c.toNat h, BitVec.toNat_inj]

theorem Memory.wf_write {m : Memory} (h : m.wf = true) (a : Word) (b : Byte) : (m.write a b).wf = true :=
  cellsWf_write b (Nat.zero_le _) a.isLt h

theorem Memory.wf_writeBytes (a : Word) (bs : List Byte) : {m : Memory} → m.wf = true → (m.writeBytes a bs).wf = true := by
  induction bs generalizing a with
  | nil => intro m h; exact h
  | cons b bs ih => intro m h; exact ih _ (Memory.wf_write h _ _)

theorem Memory.wf_copyFrom (src : Memory) (a : Word) (n : Nat) :
    {m : Memory} → m.wf = true → (m.copyFrom src a n).wf = true := by
  induction n generalizing a with
  | zero => intro m h; exact h
  | succ n ih => intro m h; exact ih _ (Memory.wf_write h _ _)

theorem Memory.wf_store {m : Memory} (h : m.wf = true) (e : Endian) (w : Width) (a v : Word) :
    (m.store e w a v).wf = true :=
  Memory.wf_writeBytes _ _ h

/-- What any address reads after bytes have been stored from `a` upward. -/
theorem Memory.read_writeBytes (a c : Word) (bs : List Byte) (hl : bs.length ≤ 4294967296) :
    {m : Memory} → m.wf = true →
      (m.writeBytes a bs).read c = (bs[(c - a).toNat]?).getD (m.read c) := by
  induction bs generalizing a with
  | nil => intro m h; rfl
  | cons b bs ih =>
    intro m h
    have hl' : bs.length < 4294967296 := by simpa using hl
    rw [Memory.writeBytes, ih _ (by omega) (Memory.wf_write h _ _), Memory.read_write h]
    by_cases hc : c = a
    · subst hc
      have e : (c - (c + 1)).toNat = 4294967295 := by bv_omega
      rw [e, List.getElem?_eq_none (by omega)]
      simp
    · have e : (c - a).toNat = (c - (a + 1)).toNat + 1 := by
        have : c.toNat ≠ a.toNat := fun e => hc (BitVec.eq_of_toNat_eq e)
        bv_omega
      rw [if_neg hc, e, List.getElem?_cons_succ]

theorem storeBytes_length (e : Endian) (w : Width) (v : Word) : (storeBytes e w v).length = w.bytes := by
  cases e <;> cases w <;> rfl

/-- After a store, the bytes of the access are those stored, and every other byte is as before. -/
theorem Memory.read_store {m : Memory} (h : m.wf = true) (e : Endian) (w : Width) (a v c : Word) :
    (m.store e w a v).read c = ((storeBytes e w v)[(c - a).toNat]?).getD (m.read c) :=
  Memory.read_writeBytes a c _ (by rw [storeBytes_length]; cases w <;> simp [Width.bytes]) h

theorem Memory.read_store_outside {m : Memory} (h : m.wf = true) {e : Endian} {w : Width} {a v c : Word}
    (hc : ¬ InAccess a w c) : (m.store e w a v).read c = m.read c := by
  rw [Memory.read_store h, List.getElem?_eq_none]
  · rfl
  · rw [storeBytes_length]
    by_contra hlt
    exact hc ⟨(c - a).toNat, by omega, by bv_omega⟩

theorem toNat_signExtend32 {n : Nat} (x : BitVec n) (h0 : 0 < n) (h : n ≤ 32) :
    (x.signExtend 32).toNat = if 2 ^ n ≤ 2 * x.toNat then 4294967296 + x.toNat - 2 ^ n else x.toNat := by
  rw [BitVec.toNat_signExtend, BitVec.toNat_setWidth, BitVec.msb_eq_decide]
  have h1 : x.toNat < 2 ^ n := x.isLt
  have h2 : 2 ^ n ≤ 2 ^ 32 := Nat.pow_le_pow_right (by norm_num) h
  have h3 : 2 ^ n = 2 * 2 ^ (n - 1) := by rw [← pow_succ']; congr 1; omega
  rw [Nat.mod_eq_of_lt (by omega)]
  by_cases hm : 2 ^ (n - 1) ≤ x.toNat
  · rw [if_pos (by simpa using hm), if_pos (by omega)]; omega
  · rw [if_neg (by simpa using hm), if_neg (by omega)]; omega

/-! ### Values -/

theorem bigEndian_one (f : Word → Byte) (a : Word) : bigEndian f a 1 = (f a).toNat := by
  show (f a).toNat * 256 ^ 0 + 0 = _; omega

theorem bigEndian_two (f : Word → Byte) (a : Word) : bigEndian f a 2 = (f a).toNat * 256 + (f (a + 1)).toNat := by
  show (f a).toNat * 256 + bigEndian f (a + 1) 1 = _; rw [bigEndian_one]

theorem bigEndian_four (f : Word → Byte) (a : Word) : bigEndian f a 4 =
    (f a).toNat * 16777216 + (f (a + 1)).toNat * 65536 + (f (a + 2)).toNat * 256 + (f (a + 3)).toNat := by
  show (f a).toNat * 256 ^ 3 + ((f (a + 1)).toNat * 256 ^ 2 + bigEndian f (a + 1 + 1) 2) = _
  rw [bigEndian_two, show a + 1 + 1 = a + 2 by bv_omega, show a + 2 + 1 = a + 3 by bv_omega]; omega

theorem littleEndian_one (f : Word → Byte) (a : Word) : littleEndian f a 1 = (f a).toNat := by
  show (f a).toNat + 256 * 0 = _; omega

theorem littleEndian_two (f : Word → Byte) (a : Word) :
    littleEndian f a 2 = (f (a + 1)).toNat * 256 + (f a).toNat := by
  show (f a).toNat + 256 * littleEndian f (a + 1) 1 = _; rw [littleEndian_one]; omega

theorem littleEndian_four (f : Word → Byte) (a : Word) : littleEndian f a 4 =
    (f (a + 3)).toNat * 16777216 + (f (a + 2)).toNat * 65536 + (f (a + 1)).toNat * 256 + (f a).toNat := by
  show (f a).toNat + 256 * ((f (a + 1)).toNat + 256 * littleEndian f (a + 1 + 1) 2) = _
  rw [littleEndian_two, show a + 1 + 1 = a + 2 by bv_omega, show a + 2 + 1 = a + 3 by bv_omega]; omega

theorem toNat_append_byte {n : Nat} (x : BitVec n) (y : Byte) : (x ++ y).toNat = x.toNat * 256 + y.toNat := by
  rw [BitVec.toNat_append, ← Nat.shiftLeft_add_eq_or_of_lt y.isLt, Nat.shiftLeft_eq]

/-- The half-word at an address, as the number its two bytes are in the byte order (rule R41). -/
theorem toNat_halfOfBytes (e : Endian) (f : Word → Byte) (a : Word) :
    (halfOfBytes e (f a) (f (a + 1))).toNat = numberAt e f a 2 := by
  cases e
  · show (f a ++ f (a + 1)).toNat = bigEndian f a 2
    rw [toNat_append_byte, bigEndian_two]
  · show (f (a + 1) ++ f a).toNat = littleEndian f a 2
    rw [toNat_append_byte, littleEndian_two]

/-- The word at an address, as the number its four bytes are in the byte order (rule R41). -/
theorem toNat_wordOfBytes (e : Endian) (f : Word → Byte) (a : Word) :
    (wordOfBytes e (f a) (f (a + 1)) (f (a + 2)) (f (a + 3))).toNat = numberAt e f a 4 := by
  cases e
  · show (f a ++ f (a + 1) ++ f (a + 2) ++ f (a + 3)).toNat = bigEndian f a 4
    rw [toNat_append_byte, toNat_append_byte, toNat_append_byte, bigEndian_four]; omega
  · show (f (a + 3) ++ f (a + 2) ++ f (a + 1) ++ f a).toNat = littleEndian f a 4
    rw [toNat_append_byte, toNat_append_byte, toNat_append_byte, littleEndian_four]; omega

theorem numberAt_one (e : Endian) (f : Word → Byte) (a : Word) : numberAt e f a 1 = (f a).toNat := by
  cases e
  · exact bigEndian_one f a
  · exact littleEndian_one f a

/-- A load's value is the number at the address in the byte order, extended (rules R41, R42). -/
theorem Memory.toNat_load (m : Memory) (e : Endian) (w : Width) (sg : Bool) (a : Word) :
    (m.load e w sg a).toNat = loadValue e m.read w sg a := by
  have lv (n : Nat) : ∀ w : Width, w.bytes = n → loadValue e m.read w sg a =
      if sg = true ∧ 256 ^ n ≤ 2 * numberAt e m.read a n then
        4294967296 + numberAt e m.read a n - 256 ^ n else numberAt e m.read a n := by rintro w rfl; rfl
  cases w
  · rw [lv 1 _ rfl, numberAt_one]
    have := (m.read a).isLt
    cases sg
    · rw [if_neg (by simp)]
      show ((m.read a).setWidth 32).toNat = _
      rw [BitVec.toNat_setWidth, Nat.mod_eq_of_lt (by omega)]
    · show ((m.read a).signExtend 32).toNat = _
      rw [toNat_signExtend32 _ (by omega) (by omega)]; simp
  · rw [lv 2 _ rfl, ← toNat_halfOfBytes]
    have := (halfOfBytes e (m.read a) (m.read (a + 1))).isLt
    cases sg
    · rw [if_neg (by simp)]
      show ((halfOfBytes e (m.read a) (m.read (a + 1))).setWidth 32).toNat = _
      rw [BitVec.toNat_setWidth, Nat.mod_eq_of_lt (by omega)]
    · show ((halfOfBytes e (m.read a) (m.read (a + 1))).signExtend 32).toNat = _
      rw [toNat_signExtend32 _ (by omega) (by omega)]; simp
  · rw [lv 4 _ rfl, ← toNat_wordOfBytes]
    have := (wordOfBytes e (m.read a) (m.read (a + 1)) (m.read (a + 2)) (m.read (a + 3))).isLt
    show (wordOfBytes e (m.read a) (m.read (a + 1)) (m.read (a + 2)) (m.read (a + 3))).toNat = _
    split <;> omega

@[simp] theorem Memory.load_byte_unsigned (m : Memory) (e : Endian) (a : Word) :
    m.load e .byte false a = (m.read a).setWidth 32 := by simp [Memory.load]

@[simp] theorem Memory.load_byte_signed (m : Memory) (e : Endian) (a : Word) :
    m.load e .byte true a = (m.read a).signExtend 32 := by simp [Memory.load]

@[simp] theorem Memory.load_half_unsigned (m : Memory) (e : Endian) (a : Word) :
    m.load e .half false a = (halfOfBytes e (m.read a) (m.read (a + 1))).setWidth 32 := by simp [Memory.load]

@[simp] theorem Memory.load_half_signed (m : Memory) (e : Endian) (a : Word) :
    m.load e .half true a = (halfOfBytes e (m.read a) (m.read (a + 1))).signExtend 32 := by simp [Memory.load]

@[simp] theorem Memory.load_word (m : Memory) (e : Endian) (sg : Bool) (a : Word) :
    m.load e .word sg a = wordOfBytes e (m.read a) (m.read (a + 1)) (m.read (a + 2)) (m.read (a + 3)) := by
  simp [Memory.load]

/-- Byte `k` of a store, as a number. -/
theorem toNat_storeBytes (e : Endian) (w : Width) (v : Word) (k : Nat) (h : k < w.bytes) :
    ((storeBytes e w v)[k]?).map BitVec.toNat = some (storedByte e w.bytes v k) := by
  have := v.isLt
  cases e <;> cases w <;> simp only [Width.bytes] at h <;> interval_cases k <;>
    simp [storeBytes, storedByte, byteOfWord, Width.bytes, BitVec.extractLsb'_toNat, Nat.shiftRight_eq_div_pow]

/-! ### The four memories -/

@[simp] theorem Mems.get_set_same (m : Mems) (a : Area) (x : Memory) : (m.set a x).get a = x := by cases a <;> rfl

theorem Mems.get_set_ne (m : Mems) {a b : Area} (x : Memory) (h : b ≠ a) : (m.set a x).get b = m.get b := by
  cases a <;> cases b <;> first | rfl | exact absurd rfl h

/-- The canonical form of all four memories. -/
def Mems.wf (m : Mems) : Bool := m.main.wf && m.stack.wf && m.loc.wf && m.data.wf

theorem Mems.wf_get {m : Mems} (h : m.wf = true) (a : Area) : (m.get a).wf = true := by
  simp only [Mems.wf, Bool.and_eq_true] at h
  cases a
  · exact h.1.1.2
  · exact h.1.2
  · exact h.2
  · exact h.1.1.1

theorem Mems.wf_set {m : Mems} (h : m.wf = true) (a : Area) {x : Memory} (hx : x.wf = true) : (m.set a x).wf = true := by
  simp only [Mems.wf, Bool.and_eq_true] at h ⊢
  cases a
  · exact ⟨⟨⟨h.1.1.1, hx⟩, h.1.2⟩, h.2⟩
  · exact ⟨⟨⟨h.1.1.1, h.1.1.2⟩, hx⟩, h.2⟩
  · exact ⟨⟨⟨h.1.1.1, h.1.1.2⟩, h.1.2⟩, hx⟩
  · exact ⟨⟨⟨hx, h.1.1.2⟩, h.1.2⟩, h.2⟩

theorem State.areaMem_setAreaMem (s : State) (a b : Area) (x : Memory) :
    (s.setAreaMem a x).areaMem b = if homeArea s.params b = homeArea s.params a then x else s.areaMem b := by
  unfold State.areaMem State.setAreaMem
  by_cases h : homeArea s.params b = homeArea s.params a
  · simp [h]
  · simp [h, Mems.get_set_ne _ _ h]

/-- A store keeps the canonical form of the memories. -/
theorem State.wf_store {s : State} (h : s.mem.wf = true) (e : Endian) (area : Area) (w : Width) (a v : Word) :
    (s.setAreaMem area ((s.areaMem area).store e w a v)).mem.wf = true :=
  Mems.wf_set h _ (Memory.wf_store (Mems.wf_get h _) _ _ _ _)

/-- Loading a program image keeps the canonical form. -/
theorem State.wf_poke {s : State} (h : s.mem.wf = true) (a : Word) (bs : List Byte) : (s.poke a bs).mem.wf = true := by
  have hm := h
  simp only [Mems.wf, Bool.and_eq_true] at h ⊢
  exact ⟨⟨⟨Memory.wf_writeBytes _ _ h.1.1.1, h.1.1.2⟩, h.1.2⟩, h.2⟩

/-- The memories at reset are in canonical form. -/
theorem State.reset_mem_wf : State.reset.mem.wf = true := rfl

/-! ### The calls of the collaborators -/

/-- All that the test before a data access can find. -/
theorem accessFault_cases (s : State) (area : Area) (w : Width) (a : Word) :
    (a.toNat % w.bytes ≠ 0 ∧ accessFault s area w a = some (.unaligned a s)) ∨
    (a.toNat % w.bytes = 0 ∧ (firstUnbacked (backedRegions s.params area) a w.bytes).isSome = true ∧
      accessFault s area w a = some (.unmapped a s)) ∨
    (a.toNat % w.bytes = 0 ∧ firstUnbacked (backedRegions s.params area) a w.bytes = none ∧
      accessFault s area w a = none) := by
  unfold accessFault Width.aligned
  by_cases h : a.toNat % w.bytes = 0
  · cases hf : firstUnbacked (backedRegions s.params area) a w.bytes <;> simp [h]
  · simp [h]

theorem firstUnbacked_eq_none {rs : List Config.Region} {n : Nat} : {a : Word} →
    (firstUnbacked rs a n = none ↔ ∀ k, k < n → isBacked rs (a + BitVec.ofNat 32 k) = true) := by
  induction n with
  | zero => intro a; simp [firstUnbacked]
  | succ n ih =>
    intro a
    rw [firstUnbacked]
    by_cases h : isBacked rs a = true
    · rw [if_pos h, ih]
      constructor
      · intro hk k hlt
        cases k with
        | zero => simpa using h
        | succ k =>
          have := hk k (by omega)
          rw [show a + BitVec.ofNat 32 (k + 1) = a + 1 + BitVec.ofNat 32 k by
            rw [BitVec.add_assoc]; congr 1; rw [Nat.add_comm, BitVec.ofNat_add]; rfl]
          exact this
      · intro hk k hlt
        have := hk (k + 1) (by omega)
        rwa [show a + BitVec.ofNat 32 (k + 1) = a + 1 + BitVec.ofNat 32 k by
            rw [BitVec.add_assoc]; congr 1; rw [Nat.add_comm, BitVec.ofNat_add]; rfl] at this
    · rw [if_neg h]
      simp only [reduceCtorEq, false_iff, not_forall]
      exact ⟨0, by omega, by simpa using h⟩

/-- The whole of an access is backed. -/
theorem firstUnbacked_access {rs : List Config.Region} {a : Word} {w : Width} :
    firstUnbacked rs a w.bytes = none ↔ ∀ b, InAccess a w b → isBacked rs b = true := by
  rw [firstUnbacked_eq_none]
  constructor
  · rintro h b ⟨k, hk, rfl⟩; exact h k hk
  · intro h k hk; exact h _ ⟨k, hk, rfl⟩

theorem accessFault_none {s : State} {area : Area} {w : Width} {a : Word} (h : a.toNat % w.bytes = 0)
    (hb : ∀ b, InAccess a w b → isBacked (backedRegions s.params area) b = true) : accessFault s area w a = none := by
  have := firstUnbacked_access.mpr hb
  simp [accessFault, Width.aligned, h, this]

/-- All that `MemRead` can do when it completes. -/
theorem memRead_done {s s' : State} {area : Area} {w : Width} {sg : Bool} {a v : Word}
    (h : memRead s area w sg a = .done v s') : s' = s.dropReply ∧ v = (s.areaMem area).load s.params.endian w sg a := by
  unfold memRead at h
  split at h
  · cases h
  · unfold accessReply at h
    split at h <;> rename_i hr
    · cases h
    · cases h
    · split at hr
      · cases hr
      · split at hr <;> cases hr
        cases h; exact ⟨rfl, rfl⟩
      · cases hr; cases h; exact ⟨rfl, rfl⟩

theorem memRead_busy {s s' : State} {area : Area} {w : Width} {sg : Bool} {a : Word}
    (h : memRead s area w sg a = .busy s') : s' = s.dropReply := by
  unfold memRead at h
  split at h
  · cases h
  · unfold accessReply at h
    split at h <;> rename_i hr
    · cases h
    · cases h
      split at hr
      · cases hr; rfl
      · split at hr <;> cases hr
      · cases hr
    · cases h

/-- All that `MemWrite` can do when it completes. -/
theorem memWrite_done {s s' : State} {area : Area} {w : Width} {a v : Word} {u : Unit}
    (h : memWrite s area w a v = .done u s') :
    s' = s.dropReply.setAreaMem area ((s.areaMem area).store s.params.endian w a v) := by
  unfold memWrite at h
  split at h
  · cases h
  · unfold accessReply at h
    split at h <;> rename_i hr
    · cases h
    · cases h
    · split at hr
      · cases hr
      · split at hr <;> cases hr
        cases h; rfl
      · cases hr; cases h; rfl

theorem memWrite_busy {s s' : State} {area : Area} {w : Width} {a v : Word}
    (h : memWrite s area w a v = .busy s') : s' = s.dropReply := by
  unfold memWrite at h
  split at h
  · cases h
  · unfold accessReply at h
    split at h <;> rename_i hr
    · cases h
    · cases h
      split at hr
      · cases hr; rfl
      · split at hr <;> cases hr
      · cases hr
    · cases h

/-! ### Reading main memory -/

/-- `Peek` depends on the memory and the parameters alone. -/
theorem peekWord_congr {s t : State} {a w : Word} (hp : t.params = s.params) (hm : t.mem = s.mem)
    (h : peekWord s a = .ok w) : peekWord t a = .ok w := by
  unfold peekWord peek accessFault at h ⊢
  rw [hp, hm]
  cases h1 : Width.word.aligned a
  · rw [h1] at h; cases h
  · rw [h1] at h
    cases h2 : firstUnbacked (backedRegions s.params .mainMem) a Width.word.bytes
    · rw [h2] at h; exact h
    · rw [h2] at h; cases h

/-- A word that can be read is the word at its address. -/
theorem peekWord_ok {s : State} {a w : Word} (h : peekWord s a = .ok w) :
    w = s.mem.main.load s.params.endian .word false a := by
  unfold peekWord peek at h
  split at h
  · cases h
  · cases h; rfl

/-- A word of which a byte is not backed is `Unmapped` at its own address. -/
theorem peekWord_unmapped {s : State} {a : Word} (h : a.toNat % 4 = 0) (hu : WordUnbacked s a) :
    peekWord s a = .error (.unmapped a s) := by
  obtain ⟨b, hb, hn⟩ := hu
  have hf : firstUnbacked s.params.mainBacked a Width.word.bytes ≠ none := fun e => by
    rw [firstUnbacked_access.mp e b hb] at hn
    cases hn
  unfold peekWord peek
  rcases accessFault_cases s .mainMem .word a with ⟨h1, _⟩ | ⟨_, _, h1⟩ | ⟨_, h1, _⟩
  · exact absurd h h1
  · rw [h1]
  · exact absurd h1 hf

end Sys2Proof.Machine
end

