-- ==== Sys2Proof/Laws/MethodCache.lean ====
section
/-! SUPPORT. The method cache: what one call of `ensure_resident` can do, eviction, and residency. -/

namespace Sys2Proof.Machine

/-! ### What a call can do to the state -/

/-- A state that differs from `s` in the method cache and in the answers still to come, at most. -/
def OnlyCache (s t : State) : Prop := ∃ m r, t = { s with mc := m, replies := r }

theorem OnlyCache.refl (s : State) : OnlyCache s s := ⟨s.mc, s.replies, rfl⟩

theorem OnlyCache.withMc {s t : State} (h : OnlyCache s t) (m : MethodCache) : OnlyCache s (t.withMc m) := by
  obtain ⟨m', r, rfl⟩ := h; exact ⟨m, r, rfl⟩

theorem OnlyCache.dropReply {s t : State} (h : OnlyCache s t) : OnlyCache s t.dropReply := by
  obtain ⟨m', r, rfl⟩ := h; exact ⟨m', r.tail, rfl⟩

theorem OnlyCache.trans {s t u : State} (h : OnlyCache s t) (k : OnlyCache t u) : OnlyCache s u := by
  obtain ⟨m, r, rfl⟩ := h; obtain ⟨m', r', rfl⟩ := k; exact ⟨m', r', rfl⟩

theorem OnlyCache.keeps {s t : State} (h : OnlyCache s t) {w : Touch} (hm : w.methodCache = true)
    (ha : w.answers = true) : KeepsRest w s t := by
  obtain ⟨m, r, rfl⟩ := h
  refine ⟨?_, ?_, ?_, ?_, ?_, ?_, ?_, ?_, ?_, ?_, ?_, ?_, ?_, ?_, ?_, ?_, ?_, ?_, ?_, ?_⟩ <;> intros <;>
    first | rfl | exact ⟨rfl, rfl⟩ | simp_all

/-- All that `Transfer` can do. -/
theorem fillTransfer_cases (a : Word) (s : State) :
    (s.nextReply = .busy ∧ fillTransfer a s = .wait s.dropReply) ∨
    (∃ u, s.nextReply ≠ .busy ∧
      firstUnbacked s.params.mainBacked a (s.mc.pending.blocks * s.params.mcBlockBytes) = some u ∧
      fillTransfer a s = .raised (.unmapped u s.dropReply)) ∨
    (s.nextReply ≠ .busy ∧
      firstUnbacked s.params.mainBacked a (s.mc.pending.blocks * s.params.mcBlockBytes) = none ∧
      fillTransfer a s = .resident (s.dropReply.withMc { s.mc with
        bytesTransferred := s.mc.bytesTransferred + s.mc.pending.blocks * s.params.mcBlockBytes,
        state := .idle, active := a })) := by
  unfold fillTransfer
  by_cases h : s.nextReply = .busy
  · exact .inl ⟨h, by simp [h]⟩
  · cases hf : firstUnbacked s.params.mainBacked a (s.mc.pending.blocks * s.params.mcBlockBytes) with
    | none => exact .inr (.inr ⟨h, rfl, by simp [h, hf]⟩)
    | some u => exact .inr (.inl ⟨u, h, rfl, by simp [h, hf]⟩)

/-- All that `SizeFetch` can do. -/
theorem fillSize_cases (a : Word) (s : State) :
    (s.nextReply = .busy ∧ fillSize a s = .wait s.dropReply) ∨
    (∃ f, s.nextReply ≠ .busy ∧ fillSize a s = .raised f) ∨
    (fillSize a s = .refused .functionWraps) ∨
    (∃ w : Word, s.nextReply ≠ .busy ∧ peekWord s.dropReply (a - 4) = .ok w ∧
      blocksOf s.params w.toNat ≤ s.params.mcNumBlocks ∧ a.toNat + w.toNat ≤ 4294967296 ∧
      fillSize a s = fillTransfer a (admitEntry a w.toNat (blocksOf s.params w.toNat) s.dropReply)) := by
  unfold fillSize
  by_cases h : s.nextReply = .busy
  · exact .inl ⟨h, by simp [h]⟩
  · simp only [h, if_false]
    cases hp : peekWord s.dropReply (a - 4) with
    | error f => exact .inr (.inl ⟨f, h, by simp⟩)
    | ok w =>
      by_cases h1 : s.params.mcNumBlocks < blocksOf s.params w.toNat
      · exact .inr (.inl ⟨.codeExceeded a w.toNat s.dropReply, h, by simp [h1]⟩)
      · by_cases h2 : 4294967296 < a.toNat + w.toNat
        · exact .inr (.inr (.inl (by simp [h1, h2])))
        · exact .inr (.inr (.inr ⟨w, h, rfl, by omega, by omega, by simp [h1, h2]⟩))

/-- A call that returns leaves the rest of the machine alone. -/
theorem ensureResident_only {a : Word} {s t : State}
    (h : ensureResident a s = .resident t ∨ ensureResident a s = .wait t) : OnlyCache s t := by
  have ht (u : State) (hu : OnlyCache s u) (h : fillTransfer a u = .resident t ∨ fillTransfer a u = .wait t) :
      OnlyCache s t := by
    rcases fillTransfer_cases a u with ⟨_, e⟩ | ⟨_, _, _, e⟩ | ⟨_, _, e⟩ <;> rw [e] at h <;> simp at h
    · exact h ▸ hu.dropReply
    · exact h ▸ hu.dropReply.withMc _
  have hs (u : State) (hu : OnlyCache s u) (h : fillSize a u = .resident t ∨ fillSize a u = .wait t) :
      OnlyCache s t := by
    rcases fillSize_cases a u with ⟨_, e⟩ | ⟨_, _, e⟩ | e | ⟨w, _, _, _, _, e⟩ <;> rw [e] at h
    · simp at h; exact h ▸ hu.dropReply
    · simp at h
    · simp at h
    · exact ht _ (hu.dropReply.withMc _) h
  unfold ensureResident at h
  by_cases hp : s.params.mcPolicy = .ideal
  · simp [hp] at h; exact h ▸ (OnlyCache.refl s).withMc _
  · simp only [hp, if_false] at h
    cases hm : s.mc.state <;> simp only [hm] at h
    · split at h
      · simp at h; exact h ▸ (OnlyCache.refl s).withMc _
      · exact hs _ ((OnlyCache.refl s).withMc _) h
    · split at h
      · exact hs _ (OnlyCache.refl s) h
      · simp at h
    · split at h
      · exact ht _ (OnlyCache.refl s) h
      · simp at h

/-- `s` and `u` agree in all that the method cache looks at. -/
def SameCache (s u : State) : Prop := u.params = s.params ∧ u.mc = s.mc ∧ u.replies = s.replies ∧ u.mem = s.mem

/-- A state reached from `u` as another is from `s`, by the same change of the method cache and the answers. -/
theorem sameChange {s u s' u' : State} {m : MethodCache} {rs : List Reply}
    (h : s' = { s with mc := m, replies := rs }) (hu : u' = { u with mc := u'.mc, replies := u'.replies })
    (hm : u'.mc = s'.mc) (hr : u'.replies = s'.replies) : u' = { u with mc := m, replies := rs } := by
  rw [hu, hm, hr, h]

theorem fillTransfer_congr {a : Word} {s u : State} (h : SameCache s u) {m : MethodCache} {rs : List Reply} :
    (fillTransfer a s = .resident { s with mc := m, replies := rs } →
      fillTransfer a u = .resident { u with mc := m, replies := rs }) ∧
    (fillTransfer a s = .wait { s with mc := m, replies := rs } →
      fillTransfer a u = .wait { u with mc := m, replies := rs }) := by
  obtain ⟨hp, hm, hr, _⟩ := h
  have hn : u.nextReply = s.nextReply := by unfold State.nextReply; rw [hr]
  have hd : u.replies.tail = s.replies.tail := congrArg List.tail hr
  rcases fillTransfer_cases a s with ⟨b, es⟩ | ⟨_, b, f, es⟩ | ⟨b, f, es⟩ <;>
    rcases fillTransfer_cases a u with ⟨c, eu⟩ | ⟨_, c, g, eu⟩ | ⟨c, g, eu⟩ <;> rw [es, eu]
  · exact ⟨nofun, fun e => congrArg Fill.wait (sameChange (Fill.wait.inj e) rfl hm hd)⟩
  · exact absurd (hn.trans b) c
  · exact absurd (hn.trans b) c
  · exact ⟨nofun, nofun⟩
  · exact ⟨nofun, nofun⟩
  · exact ⟨nofun, nofun⟩
  · exact absurd (hn.symm.trans c) b
  · rw [hp, hm, f] at g; cases g
  · refine ⟨fun e => congrArg Fill.resident (sameChange (Fill.resident.inj e) rfl ?_ hd), nofun⟩
    show MethodCache.mk _ _ _ _ _ _ _ _ _ = MethodCache.mk _ _ _ _ _ _ _ _ _
    rw [hp, hm]

theorem fillSize_congr {a : Word} {s u : State} (h : SameCache s u) {m : MethodCache} {rs : List Reply} :
    (fillSize a s = .resident { s with mc := m, replies := rs } →
      fillSize a u = .resident { u with mc := m, replies := rs }) ∧
    (fillSize a s = .wait { s with mc := m, replies := rs } →
      fillSize a u = .wait { u with mc := m, replies := rs }) := by
  obtain ⟨hp, hm, hr, hmem⟩ := h
  have hn : u.nextReply = s.nextReply := by unfold State.nextReply; rw [hr]
  rcases fillSize_cases a s with ⟨hb, e0⟩ | ⟨f, _, e0⟩ | e0 | ⟨w, hb, hw, h1, h2, e0⟩
  · have : fillSize a u = .wait u.dropReply := by unfold fillSize; simp [hn, hb]
    rw [e0, this]
    exact ⟨nofun, fun e => congrArg Fill.wait (sameChange (Fill.wait.inj e) rfl hm (congrArg List.tail hr))⟩
  · rw [e0]; exact ⟨nofun, nofun⟩
  · rw [e0]; exact ⟨nofun, nofun⟩
  · have hw' : peekWord u.dropReply (a - 4) = .ok w := peekWord_congr (s := s.dropReply) hp hmem hw
    have : fillSize a u = fillTransfer a (admitEntry a w.toNat (blocksOf s.params w.toNat) u.dropReply) := by
      unfold fillSize
      rw [hn, if_neg hb]
      dsimp only
      rw [hw', show u.dropReply.params = s.params from hp]
      dsimp only
      rw [if_neg (by omega), if_neg (by omega)]
    rw [e0, this]
    refine fillTransfer_congr (s := admitEntry a w.toNat (blocksOf s.params w.toNat) s.dropReply)
      (u := admitEntry a w.toNat (blocksOf s.params w.toNat) u.dropReply) ⟨hp, ?_, ?_, hmem⟩
    · unfold admitEntry
      simp only [State.withMc_mc, State.dropReply_mc, State.dropReply_params, hp, hm]
    · show u.replies.tail = s.replies.tail; rw [hr]

/-- A call gives the same answer in any two states that agree in all that the method cache looks at. -/
theorem ensureResident_congr {a : Word} {s u : State} (h : SameCache s u) {m : MethodCache} {rs : List Reply} :
    (ensureResident a s = .resident { s with mc := m, replies := rs } →
      ensureResident a u = .resident { u with mc := m, replies := rs }) ∧
    (ensureResident a s = .wait { s with mc := m, replies := rs } →
      ensureResident a u = .wait { u with mc := m, replies := rs }) := by
  obtain ⟨hp, hm, hr, hmem⟩ := h
  by_cases hi : s.params.mcPolicy = .ideal
  · have er (x : State) (hx : x.params = s.params) : ensureResident a x = .resident (idealHit a x) := by
      unfold ensureResident; rw [if_pos (hx ▸ hi)]
    rw [er s rfl, er u hp]
    refine ⟨fun e => congrArg Fill.resident (sameChange (Fill.resident.inj e) rfl ?_ hr), nofun⟩
    simp [idealHit, hm]
  · have er (x : State) (hx : x.params = s.params) (hy : x.mc = s.mc) : ensureResident a x =
        match s.mc.state with
        | .idle => if (findEntry s.mc.entries a).isSome then .resident (hitEntry a x) else fillSize a (missEntry a x)
        | .sizeFetch => if s.mc.pending.address = a then fillSize a x else .refused .otherFillPending
        | .transfer => if s.mc.pending.address = a then fillTransfer a x else .refused .otherFillPending := by
      unfold ensureResident; rw [if_neg (hx ▸ hi)]; cases h : s.mc.state <;> simp only [hy, h]
    rw [er s rfl rfl, er u hp hm]
    cases s.mc.state <;> dsimp only <;> split
    · refine ⟨fun e => congrArg Fill.resident (sameChange (Fill.resident.inj e) rfl ?_ hr), nofun⟩
      simp [hitEntry, hm, hp]
    · exact fillSize_congr (s := missEntry a s) (u := missEntry a u) (m := m) (rs := rs)
        ⟨hp, by simp [missEntry, hm], hr, hmem⟩
    · exact fillSize_congr ⟨hp, hm, hr, hmem⟩
    · exact ⟨nofun, nofun⟩
    · exact fillTransfer_congr ⟨hp, hm, hr, hmem⟩
    · exact ⟨nofun, nofun⟩

/-! ### Residency -/

theorem findEntry_isSome {es : List McEntry} {a : Word} : (findEntry es a).isSome = true ↔ ∃ e, e ∈ es ∧ e.addr = a := by
  simp [findEntry]

theorem findEntry_none {es : List McEntry} {a : Word} : findEntry es a = none ↔ ∀ e, e ∈ es → e.addr ≠ a := by
  simp [findEntry]

theorem moveToLast_perm (es : List McEntry) (a : Word) : (moveToLast es a).Perm es := by
  have h := List.filter_append_perm (fun e : McEntry => decide (e.addr ≠ a)) es
  refine List.Perm.trans ?_ h
  unfold moveToLast
  refine List.Perm.append_left _ (List.Perm.of_eq ?_)
  congr 1
  funext e
  by_cases he : e.addr = a <;> simp [he]

/-- A call that hits (rule R317). -/
theorem ensureResident_hit {a : Word} {s : State} (h : CacheHit s a) :
    ∃ m, ensureResident a s = .resident (s.withMc m) ∧ m.active = a ∧ m.hits = s.mc.hits + 1 ∧
      m.misses = s.mc.misses ∧ m.state = s.mc.state ∧ m.entries.Perm s.mc.entries := by
  unfold ensureResident
  by_cases hp : s.params.mcPolicy = .ideal
  · rw [if_pos hp]; exact ⟨_, rfl, rfl, rfl, rfl, rfl, List.Perm.refl _⟩
  · rw [if_neg hp]
    obtain ⟨hi, he⟩ := h.resolve_left hp
    rw [hi]
    simp only [findEntry_isSome.mpr he, if_true]
    refine ⟨_, rfl, rfl, rfl, rfl, hi, ?_⟩
    dsimp only
    split
    · exact moveToLast_perm _ _
    · exact List.Perm.refl _

/-- A call that misses starts a fill (rule R316). -/
theorem ensureResident_miss {a : Word} {s : State} (hp : s.params.mcPolicy ≠ .ideal) (hi : s.mc.state = .idle)
    (h : ∀ e, e ∈ s.mc.entries → e.addr ≠ a) : ensureResident a s = fillSize a (missEntry a s) := by
  unfold ensureResident
  rw [if_neg hp, hi]
  simp [findEntry_none.mpr h]

/-! ### Stores into code (rule R54) -/

/-- What the test before a store finds: an aligned access touches a resident function. -/
theorem touchesCode_iff {s : State} {a : Word} {w : Width} (h : a.toNat % w.bytes = 0) :
    touchesCode s a w.bytes = true ↔ TouchesFunction s a w := by
  have hw : 0 < w.bytes ∧ a.toNat + w.bytes ≤ 4294967296 := by
    have := a.isLt
    cases w <;> simp only [Width.bytes] at h ⊢ <;> omega
  have at_k (k : Nat) (hk : k < w.bytes) : (a + BitVec.ofNat 32 k).toNat = a.toNat + k := by
    rw [BitVec.toNat_add, BitVec.toNat_ofNat]; omega
  simp only [touchesCode, TouchesFunction, InAccess, Bool.and_eq_true, decide_eq_true_eq, List.any_eq_true, ne_eq]
  refine and_congr_right fun _ => ⟨?_, ?_⟩
  · rintro ⟨e, he, ⟨h1, h2⟩, h3⟩
    refine ⟨e, a + BitVec.ofNat 32 (e.addr.toNat - a.toNat), he, ⟨_, ?_, rfl⟩, ?_⟩
    · omega
    · rw [at_k _ (by omega)]; omega
  · rintro ⟨e, b, he, ⟨k, hk, rfl⟩, h1, h2⟩
    rw [at_k k hk] at h1 h2
    exact ⟨e, he, ⟨by omega, by omega⟩, by omega⟩

/-! ### Eviction -/

theorem usedBlocks_append (xs ys : List McEntry) : usedBlocks (xs ++ ys) = usedBlocks xs + usedBlocks ys := by
  induction xs with
  | nil => simp [usedBlocks]
  | cons x xs ih => simp [usedBlocks, ih]; omega

theorem usedBlocks_perm {xs ys : List McEntry} (h : xs.Perm ys) : usedBlocks xs = usedBlocks ys := by
  induction h with
  | nil => rfl
  | cons x _ ih => simp [usedBlocks, ih]
  | swap x y l => simp [usedBlocks]; omega
  | trans _ _ ih1 ih2 => exact ih1.trans ih2

theorem usedBlocks_sublist {xs ys : List McEntry} (h : List.Sublist xs ys) : usedBlocks xs ≤ usedBlocks ys := by
  induction h with
  | slnil => exact Nat.le_refl _
  | cons x _ ih => simp [usedBlocks]; omega
  | cons_cons x _ ih => simp [usedBlocks]; omega

/-- One eviction removes one entry and keeps the order of the others. -/
theorem evictOne_sublist (p : Config.Params) (active : Word) (es : List McEntry) :
    List.Sublist (evictOne p active es) es ∧ (evictOne p active es).length = es.length - 1 := by
  match es with
  | [] => exact ⟨List.Sublist.refl _, rfl⟩
  | [e] => exact ⟨List.nil_sublist _, rfl⟩
  | e0 :: e1 :: es =>
    rw [evictOne]
    split
    · exact ⟨List.Sublist.cons_cons _ (List.sublist_cons_self _ _), by simp⟩
    · exact ⟨List.sublist_cons_self _ _, by simp⟩

/-- Eviction keeps a sublist of the entries and counts what it removed. -/
theorem evictLoop_sublist (p : Config.Params) (active : Word) (n fuel : Nat) (es : List McEntry)
    (hf : fuel ≤ es.length) :
    List.Sublist (evictLoop p active n fuel es).1 es ∧
      (evictLoop p active n fuel es).1.length + (evictLoop p active n fuel es).2 = es.length := by
  induction fuel generalizing es with
  | zero => exact ⟨List.Sublist.refl _, by simp [evictLoop]⟩
  | succ fuel ih =>
    rw [evictLoop]
    split
    · obtain ⟨h1, h2⟩ := evictOne_sublist p active es
      obtain ⟨i1, i2⟩ := ih (evictOne p active es) (by omega)
      exact ⟨i1.trans h1, by dsimp only; omega⟩
    · exact ⟨List.Sublist.refl _, rfl⟩

theorem evictFor_sublist (p : Config.Params) (active : Word) (n : Nat) (es : List McEntry) :
    List.Sublist (evictFor p active n es).1 es ∧
      (evictFor p active n es).1.length + (evictFor p active n es).2 = es.length :=
  evictLoop_sublist _ _ _ _ _ (Nat.le_refl _)

/-- The loop ends with room for the request, or with nothing left to remove. -/
theorem evictLoop_room (p : Config.Params) (active : Word) (n fuel : Nat) (es : List McEntry)
    (hf : es.length ≤ fuel) :
    noRoom p n (evictLoop p active n fuel es).1 = false ∨ (evictLoop p active n fuel es).1 = [] := by
  induction fuel generalizing es with
  | zero =>
    have : es = [] := List.eq_nil_of_length_eq_zero (by omega)
    exact .inr (by simp [evictLoop, this])
  | succ fuel ih =>
    rw [evictLoop]
    split
    · have := (evictOne_sublist p active es).2
      exact ih _ (by omega)
    · rename_i h; exact .inl (by simpa using h)

/-- After eviction the request fits (rule R320). -/
theorem evictFor_room {p : Config.Params} (active : Word) {n : Nat} (es : List McEntry) (hp : p.ok = true)
    (hn : n ≤ p.mcNumBlocks) :
    usedBlocks (evictFor p active n es).1 + n ≤ p.mcNumBlocks ∧
      (evictFor p active n es).1.length + 1 ≤ p.mcMaxEntries := by
  rcases evictLoop_room p active n es.length es (Nat.le_refl _) with h | h
  · simp only [noRoom, Bool.or_eq_false_iff, decide_eq_false_iff_not] at h
    exact ⟨by unfold evictFor; omega, by unfold evictFor; omega⟩
  · simp only [Config.Params.ok, Bool.and_eq_true, decide_eq_true_eq] at hp
    unfold evictFor
    rw [h]
    exact ⟨by simpa [usedBlocks] using hn, by simpa using hp.2⟩

end Sys2Proof.Machine
end

