-- ==== Sys2Proof/Laws/Transfer.lean ====
section
/-! SUPPORT. Control transfers dispatched in `MW` (rule R268): what the one-time block, the residency call and the
completion do. -/

namespace Sys2Proof.Machine

open Sys2Proof.Config

/-- Every transfer that fires in `commit_stage` is the one dispatch sequence. -/
theorem shapeCommit_transfer {kind : TransferKind} {dest : TransferTo} {s : State} (h : Commits s) (hf : kind.fires s) :
    shapeCommit (.transfer kind dest) s = dispatchMW (kind.record s.params) s := by
  cases kind with
  | trap => simp only [shapeCommit, trapCommit]; rw [commitSlot_on h]; simp [hf rfl]; rfl
  | _ => simp only [shapeCommit]; rw [commitSlot_on h]

/-- `commit_stage` of `INTR` is the dispatch sequence of its kind (rule R296). -/
theorem intrStages_commit {a : Word} {s : State} (h : Commits s) :
    intrStages a s = dispatchMW (TransferKind.intr.record s.params) s := by
  unfold intrStages stageOp; simp only [h.1]; rw [commitSlot_on h]; rfl

@[simp] theorem TransferKind.record_delayed (p : Params) (kind : TransferKind) :
    (kind.record p).delayed = kind.delayed := by cases kind <;> rfl

@[simp] theorem TransferKind.record_saves (p : Params) (kind : TransferKind) :
    (kind.record p).saves = kind.pair p := by cases kind <;> rfl

@[simp] theorem TransferKind.record_isReturn (p : Params) (kind : TransferKind) :
    (kind.record p).isReturn = kind.isReturn := by cases kind <;> rfl

theorem IsCurrent.ne {s : State} {st : Stage} {k : SlotIx} (h : ¬ IsCurrent s st k) : st ≠ s.cur.stage ∨ k ≠ s.cur.k := by
  by_contra hc; push Not at hc; exact h hc

theorem KeepsRest.saveReturn (t : Transfer) (s : State) (w : Touch) (hs : ∀ rb ro, t.saves = some (rb, ro) → rb ∈ w.sprs ∧ ro ∈ w.sprs)
    (hf : w.frames = true) : KeepsRest w s (saveReturn t s) := by
  unfold Machine.saveReturn
  split
  · rename_i rb ro e
    obtain ⟨h1, h2⟩ := hs _ _ e
    exact ((KeepsRest.writeSpr _ _ _ _ h1).trans (KeepsRest.writeSpr _ _ _ _ h2)).trans (KeepsRest.pushFrame _ _ _ hf)
  · split
    · exact KeepsRest.popFrame _ _ hf
    · exact KeepsRest.refl _ _

theorem KeepsRest.transferOnce (t : Transfer) (s : State) (w : Touch) (hs : ∀ rb ro, t.saves = some (rb, ro) → rb ∈ w.sprs ∧ ro ∈ w.sprs)
    (hf : w.frames = true) (hi : w.intrEnabled = true) : KeepsRest w s (transferOnce t s) := by
  unfold Machine.transferOnce
  split
  · exact KeepsRest.refl _ _
  · dsimp only
    refine KeepsRest.trans ?_ (KeepsRest.setSlot _ _ _)
    split
    · exact (KeepsRest.saveReturn _ _ _ hs hf).trans (KeepsRest.setIntrEnabled _ _ _ hi)
    · exact KeepsRest.saveReturn _ _ _ hs hf

@[simp] theorem saveReturn_slotAt (t : Transfer) (s : State) (sg : Stage) (k : SlotIx) : (saveReturn t s).slotAt sg k = s.slotAt sg k := by
  unfold saveReturn; split
  · rfl
  · split <;> rfl

@[simp] theorem saveReturn_cur (t : Transfer) (s : State) : (saveReturn t s).cur = s.cur := by
  unfold saveReturn; split
  · rfl
  · split <;> rfl

@[simp] theorem saveReturn_slot (t : Transfer) (s : State) : (saveReturn t s).slot = s.slot := by
  unfold saveReturn; split
  · rfl
  · split <;> rfl

@[simp] theorem saveReturn_mc (t : Transfer) (s : State) : (saveReturn t s).mc = s.mc := by
  unfold saveReturn; split
  · rfl
  · split <;> rfl

@[simp] theorem saveReturn_params (t : Transfer) (s : State) : (saveReturn t s).params = s.params := by
  unfold saveReturn; split
  · rfl
  · split <;> rfl

@[simp] theorem saveReturn_exc (t : Transfer) (s : State) : (saveReturn t s).exc = s.exc := by
  unfold saveReturn; split
  · rfl
  · split <;> rfl

@[simp] theorem saveReturn_replies (t : Transfer) (s : State) : (saveReturn t s).replies = s.replies := by
  unfold saveReturn; split
  · rfl
  · split <;> rfl

theorem transferOnce_slot (t : Transfer) (s : State) : (transferOnce t s).slot = { s.slot with initialized := true } := by
  unfold transferOnce
  split
  · rename_i h; 
    have : s.slot = { s.slot with initialized := s.slot.initialized } := rfl
    rw [h] at this; exact this
  · simp only [State.slot_setSlot]
    split <;> simp

theorem transferOnce_slotAt (t : Transfer) (s : State) {sg k} (h : ¬ IsCurrent s sg k) : (transferOnce t s).slotAt sg k = s.slotAt sg k := by
  unfold transferOnce
  split
  · rfl
  · dsimp only
    rw [State.slotAt_setSlot_ne]
    · split <;> simp
    · split <;> simpa using IsCurrent.ne h

@[simp] theorem transferOnce_cur (t : Transfer) (s : State) : (transferOnce t s).cur = s.cur := by
  unfold transferOnce
  split
  · rfl
  · dsimp only; split <;> simp

@[simp] theorem transferOnce_mc (t : Transfer) (s : State) : (transferOnce t s).mc = s.mc := by
  unfold transferOnce
  split
  · rfl
  · dsimp only; split <;> simp

@[simp] theorem transferOnce_params (t : Transfer) (s : State) : (transferOnce t s).params = s.params := by
  unfold transferOnce
  split
  · rfl
  · dsimp only; split <;> simp

@[simp] theorem transferOnce_replies (t : Transfer) (s : State) : (transferOnce t s).replies = s.replies := by
  unfold transferOnce
  split
  · rfl
  · dsimp only; split <;> simp

theorem transferOnce_exc (t : Transfer) (s : State) : (transferOnce t s).exc = if s.slot.initialized = false ∧ t.switchesOff = true then {s.exc with intrEnabled := false} else s.exc := by
  unfold transferOnce
  split
  · rename_i h; simp [h]
  · rename_i h; simp at h; dsimp only; split <;> simp [*]

theorem checkTarget_good {t : Transfer} {s : State} (h : GoodTarget s) : checkTarget t s = none := by
  obtain ⟨h1, h2, h3⟩ := h
  unfold checkTarget
  dsimp only
  rw [if_neg h1]; simp [aligned4, h2, h3]

/-- The flush of a non-delayed transfer, before anything else (rule R271). -/
def preFlush (t : Transfer) (s : State) : State := if t.delayed then s else s.flushUpstream .MW

theorem preFlush_slot {t : Transfer} {s : State} (h : s.cur.stage = .MW) : (preFlush t s).slot = s.slot := by
  unfold preFlush
  split
  · rfl
  · have := State.slot_flushUpstream s; rwa [h] at this

theorem preFlush_slotAt (t : Transfer) (s : State) (sg : Stage) (k : SlotIx) :
    (preFlush t s).slotAt sg k = if sg.rank < Stage.MW.rank ∧ t.delayed = false then Slot.bubble else s.slotAt sg k := by
  unfold preFlush
  cases h : t.delayed <;> simp [State.slotAt_flushUpstream]

theorem KeepsRest.preFlush (t : Transfer) (s : State) (w : Touch) (h : w.otherSlots = true) :
    KeepsRest w s (preFlush t s) := by
  unfold Machine.preFlush
  split
  · exact KeepsRest.refl _ _
  · exact KeepsRest.flushUpstream _ _ _ h

/-- Everything but the pipeline is as before the flush. -/
theorem preFlush_eq (t : Transfer) (s : State) : preFlush t s = { s with pipe := (preFlush t s).pipe } := by
  unfold preFlush
  split <;> rfl

/-- The dispatch sequence, its flush named. -/
theorem dispatchMW_eq (t : Transfer) (s : State) :
    dispatchMW t s =
      match checkTarget t (preFlush t s) with
      | some f => .fault f
      | none =>
        match ensureResident (transferOnce t (preFlush t s)).slot.exBase (transferOnce t (preFlush t s)) with
        | .raised f => .fault f
        | .refused r => .refused r
        | .wait s3 => .next (s3.stall .MW)
        | .resident s3 => .next (completeTransfer t s3) := rfl

/-- A transfer with a good target: the one-time block, then the residency call. -/
theorem dispatchMW_good {t : Transfer} {s : State} (hs : s.cur.stage = .MW) (hg : GoodTarget s) :
    dispatchMW t s =
      match ensureResident s.slot.exBase (transferOnce t (preFlush t s)) with
      | .raised f => .fault f
      | .refused r => .refused r
      | .wait s3 => .next (s3.stall .MW)
      | .resident s3 => .next (completeTransfer t s3) := by
  have hp : (preFlush t s).slot = s.slot := preFlush_slot hs
  have hc : checkTarget t (preFlush t s) = none := checkTarget_good (by unfold GoodTarget; rw [hp]; exact hg)
  have hx : (transferOnce t (preFlush t s)).slot.exBase = s.slot.exBase := by rw [transferOnce_slot, hp]
  rw [dispatchMW_eq, hc, hx]

/-! ### The completion -/

theorem KeepsRest.completeTransfer (t : Transfer) (s : State) (w : Touch) (h1 : w.control = true) (h2 : w.otherSlots = true) (h3 : w.intrEnabled = true ∨ t.switchesOn = false) :
    KeepsRest w s (completeTransfer t s) := by
  have a : KeepsRest w s (if t.switchesOn then (s.setControl s.slot.exBase s.slot.exTarget).setIntrEnabled true else s.setControl s.slot.exBase s.slot.exTarget) := by
    refine (KeepsRest.setControl s w s.slot.exBase s.slot.exTarget h1).trans ?_
    split
    · rcases h3 with h3 | h3
      · exact KeepsRest.setIntrEnabled _ _ _ h3
      · simp_all
    · exact KeepsRest.refl _ _
  unfold Machine.completeTransfer
  dsimp only
  split
  · exact (a.trans (KeepsRest.setSlot _ _ _)).trans (KeepsRest.markDelaySlots _ _ _ _ h2)
  · exact a.trans (KeepsRest.setSlot _ _ _)

theorem completeTransfer_slot {t : Transfer} {s : State} (h : s.cur.stage = .MW) : (completeTransfer t s).slot = { s.slot with discard := true } := by
  unfold completeTransfer
  dsimp only
  have e : (if t.switchesOn then (s.setControl s.slot.exBase s.slot.exTarget).setIntrEnabled true else s.setControl s.slot.exBase s.slot.exTarget).done.slot = { s.slot with discard := true } := by
    split <;> simp
  split
  · rw [← e]
    have := State.slot_markDelaySlots s.params.dsCall (if t.switchesOn then (s.setControl s.slot.exBase s.slot.exTarget).setIntrEnabled true else s.setControl s.slot.exBase s.slot.exTarget).done
    rw [← this]; congr 2; split <;> simp [h]
  · exact e

theorem completeTransfer_slotAt {t : Transfer} {s : State} {sg : Stage} {k : SlotIx} (h : ¬ IsCurrent s sg k) :
   (completeTransfer t s).slotAt sg k =
     if t.delayed = true ∧ sg.rank < 3 ∧ 3 ≤ sg.rank + s.params.dsCall then (s.slotAt sg k).markDelay else s.slotAt sg k := by
  have e : (if t.switchesOn then (s.setControl s.slot.exBase s.slot.exTarget).setIntrEnabled true else s.setControl s.slot.exBase s.slot.exTarget).done.slotAt sg k = s.slotAt sg k := by
    unfold State.done
    rw [State.slotAt_setSlot_ne]
    · split <;> simp
    · have := IsCurrent.ne h; split <;> simpa using this
  unfold completeTransfer
  dsimp only
  by_cases hd : t.delayed = true
  · rw [if_pos hd, State.slotAt_markDelaySlots, e]; simp [hd]; rfl
  · rw [if_neg hd, e]; simp [hd]

theorem completeTransfer_fields (t : Transfer) (s : State) : (completeTransfer t s).base = s.slot.exBase ∧ (completeTransfer t s).npc = s.slot.exTarget ∧
   (completeTransfer t s).mc = s.mc ∧ (completeTransfer t s).spr = s.spr ∧ (completeTransfer t s).frames = s.frames ∧ (completeTransfer t s).profile = s.profile ∧
   (completeTransfer t s).exc = if t.switchesOn then { s.exc with intrEnabled := true } else s.exc := by
  unfold completeTransfer
  dsimp only
  cases t.switchesOn <;> cases t.delayed <;> refine ⟨?_, ?_, ?_, ?_, ?_, ?_, ?_⟩ <;> rfl

/-- The one-time block of a transfer that saves a return address (rules R268, R274, R275). -/
theorem transferOnce_saves {t : Transfer} {s : State} {rb ro : SReg} (h : t.saves = some (rb, ro))
    (hi : s.slot.initialized = false) :
    (transferOnce t s).readSpr ro = returnAddress t s - s.slot.base ∧
      (rb ≠ ro → (transferOnce t s).readSpr rb = s.slot.base) ∧
      (∀ k, k ≠ rb → k ≠ ro → (transferOnce t s).readSpr k = s.readSpr k) ∧
      (transferOnce t s).frames = ⟨s.slot.base, returnAddress t s - s.slot.base, s.slot.exBase⟩ :: s.frames ∧
      (transferOnce t s).profile = .entry s.slot.exBase :: s.profile := by
  unfold transferOnce saveReturn
  simp only [hi, h]
  cases t.switchesOff <;> refine ⟨?_, ?_, ?_, ?_, ?_⟩ <;> simp +contextual [State.readSpr_writeSpr]

/-- The one-time block of a transfer that saves none: a return pops a frame (rules R268, R275). -/
theorem transferOnce_nosaves {t : Transfer} {s : State} (h : t.saves = none) (hi : s.slot.initialized = false) :
    (∀ k, (transferOnce t s).readSpr k = s.readSpr k) ∧
      (transferOnce t s).frames = (if t.isReturn then s.frames.tail else s.frames) ∧
      (transferOnce t s).profile = if t.isReturn then .exit :: s.profile else s.profile := by
  unfold transferOnce saveReturn
  simp only [hi, h]
  cases t.switchesOff <;> cases t.isReturn <;> exact ⟨fun _ => rfl, rfl, rfl⟩

/-- On a later invocation there is nothing left of it to do (rule R268). -/
theorem transferOnce_later {t : Transfer} {s : State} (hi : s.slot.initialized = true) : transferOnce t s = s := by
  unfold transferOnce; rw [if_pos hi]

end Sys2Proof.Machine
end

