-- ==== Sys2Proof/Laws/Inversion.lean ====
section
/-! SUPPORT. Everything a stage operation can do, once: if `exec` answers `next t` in a stage, `t` is one of these. -/

namespace Sys2Proof.Machine

open Sys2Proof.Config

/-- The shapes whose `execute_stage` writes a predicate. -/
def Shape.predDest : Shape → Option PReg
  | .cmp _ pd _ _ => some pd
  | .plog _ pd _ _ => some pd
  | _ => none

/-- The shapes whose `commit_stage` writes a general register. -/
def Shape.gprDest : Shape → Option Reg
  | .alu _ rd _ _ => some rd
  | .bcopy rd _ _ _ => some rd
  | .mfs rd _ => some rd
  | .load _ _ _ rd _ _ => some rd
  | _ => none

theorem destGpr_eq (i : Instr) : destGpr i = (shapeOf i).gprDest := by cases i <;> rfl

theorem destPred_eq (i : Instr) : destPred i = (shapeOf i).predDest := by cases i <;> rfl

/-- What `dispatchEX` can do when it goes on. -/
theorem dispatchEX_next {d : Bool} {a : Word} {s t : State} (h : dispatchEX d a s = .next t) :
    t = s ∨ (a ≠ 0 ∧ aligned4 a = true ∧ s.slot.discard = false ∧ t = completeBranch d a s) := by
  unfold dispatchEX at h
  split at h
  · cases h; exact .inl rfl
  · rename_i h0
    simp only [Bool.or_eq_true, decide_eq_true_eq, not_or, Bool.not_eq_true] at h0
    split at h
    · cases h
    · rename_i h2
      split at h
      · cases h
      · rename_i h3
        cases h
        exact .inr ⟨h2, by simpa using h3, h0.1, rfl⟩

/-- Everything `execute_stage` can do. -/
theorem shapeExecute_next {sh : Shape} {s t : State} (h : shapeExecute sh s = .next t) :
    t = s ∨ (s.slot.pred = true ∧
      ((∃ x, t = s.setSlot x ∧ x.instr = s.slot.instr ∧ x.inDelay = s.slot.inDelay ∧
          (x.byp = s.slot.byp ∨ ∃ rd v, x.byp = if rd = 0 then none else some ⟨.EXE, rd, v⟩)) ∨
        (∃ pd b, sh.predDest = some pd ∧ t = s.writePred pd b) ∨
        (∃ d e a, sh = .branch d e ∧ a ≠ 0 ∧ aligned4 a = true ∧ t = completeBranch d a s))) := by
  have pub (x : Slot) (i : Reg) (v : Word) (hx : x.pred = true) :
      (x.publish i v).byp = if i = 0 then none else some ⟨.EXE, i, v⟩ := by
    simp [Slot.publish, hx]
  cases sh with
  | cmp f pd r1 o =>
    simp only [shapeExecute, cmpExecute] at h
    rcases executeSlot_next h with ⟨_, e⟩ | ⟨hp, _, e⟩
    · exact .inl e
    · cases e; exact .inr ⟨hp, .inr (.inl ⟨pd, _, rfl, rfl⟩)⟩
  | plog f pd a b =>
    simp only [shapeExecute] at h
    rcases executeSlot_next h with ⟨_, e⟩ | ⟨hp, _, e⟩
    · exact .inl e
    · cases e; exact .inr ⟨hp, .inr (.inl ⟨pd, _, rfl, rfl⟩)⟩
  | branch d e =>
    cases e <;>
    · simp only [shapeExecute] at h
      rcases executeSlot_next h with ⟨_, e⟩ | ⟨hp, _, e⟩
      · exact .inl e
      · rcases dispatchEX_next e with e | ⟨h1, h2, _, e⟩
        · exact .inl e
        · exact .inr ⟨hp, .inr (.inr ⟨d, _, _, rfl, h1, h2, e⟩)⟩
  | alu f rd r1 o =>
    simp only [shapeExecute, aluExecute] at h
    rcases executeSlot_next h with ⟨_, e⟩ | ⟨hp, _, e⟩
    · exact .inl e
    · cases e; exact .inr ⟨hp, .inl ⟨_, rfl, rfl, rfl, .inr ⟨rd, _, pub _ _ _ hp⟩⟩⟩
  | bcopy rd r1 n ps =>
    simp only [shapeExecute] at h
    rcases executeSlot_next h with ⟨_, e⟩ | ⟨hp, _, e⟩
    · exact .inl e
    · cases e; exact .inr ⟨hp, .inl ⟨_, rfl, rfl, rfl, .inr ⟨rd, _, pub _ _ _ hp⟩⟩⟩
  | mfs rd ss =>
    simp only [shapeExecute] at h
    rcases executeSlot_next h with ⟨_, e⟩ | ⟨hp, _, e⟩
    · exact .inl e
    · cases e; exact .inr ⟨hp, .inl ⟨_, rfl, rfl, rfl, .inr ⟨rd, _, pub _ _ _ hp⟩⟩⟩
  | transfer k e =>
    cases e
    case code n =>
      simp only [shapeExecute, trapExecute] at h
      rcases executeSlot_next h with ⟨_, e⟩ | ⟨hp, _, e⟩
      · exact .inl e
      · split at e <;> cases e <;> exact .inr ⟨hp, .inl ⟨_, rfl, rfl, rfl, .inl rfl⟩⟩
    all_goals
      simp only [shapeExecute, entryExecute, returnExecute] at h
      rcases executeSlot_next h with ⟨_, e⟩ | ⟨hp, _, e⟩
      · exact .inl e
      · cases e; exact .inr ⟨hp, .inl ⟨_, rfl, rfl, rfl, .inl rfl⟩⟩
  | _ =>
    simp only [shapeExecute, mulExecute] at h
    rcases executeSlot_next h with ⟨_, e⟩ | ⟨hp, _, e⟩
    · exact .inl e
    · cases e; exact .inr ⟨hp, .inl ⟨_, rfl, rfl, rfl, .inl rfl⟩⟩

/-- Everything the dispatch sequence in `MW` can do when it goes on. -/
theorem dispatchMW_next {t : Transfer} {s u : State} (hs : s.cur.stage = .MW) (h : dispatchMW t s = .next u) :
    GoodTarget s ∧
      ((∃ v, ensureResident s.slot.exBase (transferOnce t (preFlush t s)) = .wait v ∧ u = v.stall .MW) ∨
        (∃ v, ensureResident s.slot.exBase (transferOnce t (preFlush t s)) = .resident v ∧ u = completeTransfer t v)) := by
  have hg : GoodTarget s := by
    have hp : (preFlush t s).slot = s.slot := preFlush_slot hs
    have hc : checkTarget t (preFlush t s) = none := by
      rw [dispatchMW_eq] at h
      cases hc : checkTarget t (preFlush t s) with
      | none => rfl
      | some f => rw [hc] at h; cases h
    unfold checkTarget at hc
    rw [hp] at hc
    dsimp only at hc
    split at hc
    · split at hc
      · split at hc <;> cases hc
      · cases hc
    · rename_i h0
      split at hc
      · cases hc
      · rename_i h1
        split at hc
        · cases hc
        · rename_i h2
          exact ⟨h0, by simpa [aligned4] using h2, by simpa [aligned4] using h1⟩
  rw [dispatchMW_good hs hg] at h
  refine ⟨hg, ?_⟩
  split at h
  · cases h
  · cases h
  · rename_i v e; cases h; exact .inl ⟨v, e, rfl⟩
  · rename_i v e; cases h; exact .inr ⟨v, e, rfl⟩

/-- What moving bytes between the stack cache and main memory can change. -/
theorem moveStack_done {s t : State} {d : StackMove} {lo : Word} {n : Nat} {u : Unit}
    (h : moveStack s d lo n = .done u t) :
    t = s ∨ t = { s with mem := { s.mem with main := s.mem.main.copyFrom s.mem.stack lo n } } ∨
      t = { s with mem := { s.mem with stack := s.mem.stack.copyFrom s.mem.main lo n } } := by
  unfold moveStack at h
  split at h
  · cases h; exact .inl rfl
  · split at h
    · cases h
    · split at h
      · cases h
      · split at h
        · split at h
          · cases h; exact .inr (.inl rfl)
          · cases h; exact .inr (.inr rfl)
        · cases h; exact .inl rfl

theorem moveStack_busy {s t : State} {d : StackMove} {lo : Word} {n : Nat} : moveStack s d lo n ≠ .busy t := by
  intro h
  unfold moveStack at h
  repeat' split at h
  all_goals cases h

/-- What one call of the stack cache can change. -/
theorem stackCtl_done {s t : State} {op : StackOp} {n a b : Word} {p : Word × Word}
    (h : stackCtl s op n a b = .done p t) :
    t = s ∨ t = s.dropStackReply ∨
      ∃ lo k, t = { s with mem := { s.mem with main := s.mem.main.copyFrom s.mem.stack lo k } } ∨
        t = { s with mem := { s.mem with stack := s.mem.stack.copyFrom s.mem.main lo k } } := by
  unfold stackCtl at h
  split at h
  · unfold stackDefault at h
    split at h
    · cases h; exact .inl rfl
    · split at h
      · cases h
      · dsimp only at h
        split at h
        · cases h
        · cases h
        · rename_i e
          cases h
          rcases moveStack_done e with e | e | e
          · exact .inl e
          · exact .inr (.inr ⟨_, _, .inl e⟩)
          · exact .inr (.inr ⟨_, _, .inr e⟩)
  · cases h
  · cases h; exact .inr (.inl rfl)
  · cases h
  · cases h
  · cases h

theorem stackCtl_busy {s t : State} {op : StackOp} {n a b : Word} (h : stackCtl s op n a b = .busy t) :
    t = s.dropStackReply := by
  unfold stackCtl at h
  split at h
  · unfold stackDefault at h
    split at h
    · cases h
    · split at h
      · cases h
      · dsimp only at h
        split at h
        · cases h
        · rename_i e; exact absurd e moveStack_busy
        · cases h
  · cases h; rfl
  · cases h
  · cases h
  · cases h
  · cases h

/-- Everything `commit_stage` can do. -/
theorem shapeCommit_next {sh : Shape} {s t : State} (h : shapeCommit sh s = .next t) :
    t = s ∨ (s.slot.pred = true ∧ s.slot.discard = false ∧
      ((∃ rd v b, sh.gprDest = some rd ∧ (t = s.commitGpr rd v b ∨ t = s.dropReply.commitGpr rd v b)) ∨
        (∃ sg a b p q, sh = .mul sg a b ∧ t = ((s.writeSpr s.params.sl p).writeSpr s.params.sh q).done) ∨
        (∃ sd r v, sh = .mts sd r ∧ t = (s.writeSpecial sd v).done) ∨
        (∃ area w sg rd ra imm, sh = .load area w sg rd ra imm ∧ t = s.dropReply.stall .MW) ∨
        (∃ area w ra rs imm, sh = .store area w ra rs imm ∧
          (t = s.dropReply.stall .MW ∨
            t = (s.dropReply.setAreaMem area ((s.areaMem area).store s.params.endian w s.slot.exAddress s.slot.exResult)).done)) ∨
        (∃ op, ((∃ n, sh = .stackI op n) ∨ ∃ r, sh = .stackR op r) ∧
          (t = s.dropStackReply.stall .MW ∨
            ∃ u p q, (u = s ∨ u = s.dropStackReply ∨
              ∃ lo k, u = { s with mem := { s.mem with main := s.mem.main.copyFrom s.mem.stack lo k } } ∨
                u = { s with mem := { s.mem with stack := s.mem.stack.copyFrom s.mem.main lo k } }) ∧
              t = ((u.writeSpr s.params.ss p).writeSpr s.params.st q).done)) ∨
        (∃ k e, sh = .transfer k e ∧ k.fires s ∧ dispatchMW (k.record s.params) s = .next t))) := by
  have res (rd : Reg) (hd : sh.gprDest = some rd) (h : commitResult rd s = .next t) :
      t = s ∨ (s.slot.pred = true ∧ s.slot.discard = false ∧
        ∃ rd v b, sh.gprDest = some rd ∧ (t = s.commitGpr rd v b ∨ t = s.dropReply.commitGpr rd v b)) := by
    simp only [commitResult] at h
    rcases commitSlot_next h with ⟨_, e⟩ | ⟨hp, hq, e⟩
    · exact .inl e
    · cases e; exact .inr ⟨hp, hq, rd, _, _, hd, .inl rfl⟩
  have stk (op : StackOp) (hd : (∃ n, sh = .stackI op n) ∨ ∃ r, sh = .stackR op r) (h : stackCommit op s = .next t) :
      t = s ∨ (s.slot.pred = true ∧ s.slot.discard = false ∧
        ∃ op, ((∃ n, sh = .stackI op n) ∨ ∃ r, sh = .stackR op r) ∧
          (t = s.dropStackReply.stall .MW ∨
            ∃ u p q, (u = s ∨ u = s.dropStackReply ∨
              ∃ lo k, u = { s with mem := { s.mem with main := s.mem.main.copyFrom s.mem.stack lo k } } ∨
                u = { s with mem := { s.mem with stack := s.mem.stack.copyFrom s.mem.main lo k } }) ∧
              t = ((u.writeSpr s.params.ss p).writeSpr s.params.st q).done)) := by
    simp only [stackCommit] at h
    rcases commitSlot_next h with ⟨_, e⟩ | ⟨hp, hq, e⟩
    · exact .inl e
    · refine .inr ⟨hp, hq, op, hd, ?_⟩
      split at e
      · cases e
      · rename_i u hu; cases e; exact .inl (by rw [stackCtl_busy hu])
      · rename_i p u hu; cases e; exact .inr ⟨u, p.1, p.2, stackCtl_done hu, rfl⟩
  cases sh with
  | alu f rd r1 o =>
    exact (res rd rfl h).imp id fun ⟨a, b, c⟩ => ⟨a, b, .inl c⟩
  | bcopy rd r1 n ps =>
    exact (res rd rfl h).imp id fun ⟨a, b, c⟩ => ⟨a, b, .inl c⟩
  | mfs rd r =>
    exact (res rd rfl h).imp id fun ⟨a, b, c⟩ => ⟨a, b, .inl c⟩
  | cmp => simp only [shapeCommit, noEffect] at h; cases h; exact .inl rfl
  | plog => simp only [shapeCommit, noEffect] at h; cases h; exact .inl rfl
  | branch => simp only [shapeCommit, noEffect] at h; cases h; exact .inl rfl
  | mul sg a b =>
    simp only [shapeCommit, mulCommit] at h
    rcases commitSlot_next h with ⟨_, e⟩ | ⟨hp, hq, e⟩
    · exact .inl e
    · cases e; exact .inr ⟨hp, hq, .inr (.inl ⟨sg, a, b, _, _, rfl, rfl⟩)⟩
  | mts sd r =>
    simp only [shapeCommit] at h
    rcases commitSlot_next h with ⟨_, e⟩ | ⟨hp, hq, e⟩
    · exact .inl e
    · cases e; exact .inr ⟨hp, hq, .inr (.inr (.inl ⟨sd, r, _, rfl, rfl⟩))⟩
  | load area w sg rd ra imm =>
    simp only [shapeCommit, loadCommit] at h
    rcases commitSlot_next h with ⟨_, e⟩ | ⟨hp, hq, e⟩
    · exact .inl e
    · split at e
      · cases e
      · rename_i u hu; cases e
        exact .inr ⟨hp, hq, .inr (.inr (.inr (.inl ⟨area, w, sg, rd, ra, imm, rfl, by rw [memRead_busy hu]⟩)))⟩
      · rename_i v u hu; cases e
        exact .inr ⟨hp, hq, .inl ⟨rd, v, true, rfl, .inr (by rw [(memRead_done hu).1])⟩⟩
  | store area w ra rs imm =>
    simp only [shapeCommit, storeCommit] at h
    rcases commitSlot_next h with ⟨_, e⟩ | ⟨hp, hq, e⟩
    · exact .inl e
    · split at e
      · cases e
      · rename_i u hu; cases e
        exact .inr ⟨hp, hq, .inr (.inr (.inr (.inr (.inl ⟨area, w, ra, rs, imm, rfl, .inl (by rw [memWrite_busy hu])⟩))))⟩
      · rename_i v u hu
        split at e
        · cases e
        cases e
        exact .inr ⟨hp, hq, .inr (.inr (.inr (.inr (.inl ⟨area, w, ra, rs, imm, rfl, .inr (by rw [memWrite_done hu])⟩))))⟩
  | stackI op n =>
    exact (stk op (.inl ⟨n, rfl⟩) h).imp id fun ⟨a, b, c⟩ => ⟨a, b, .inr (.inr (.inr (.inr (.inr (.inl c)))))⟩
  | stackR op r =>
    exact (stk op (.inr ⟨r, rfl⟩) h).imp id fun ⟨a, b, c⟩ => ⟨a, b, .inr (.inr (.inr (.inr (.inr (.inl c)))))⟩
  | transfer k e =>
    have tr (hk : k ≠ .trap) (h : commitSlot (fun s => dispatchMW (k.record s.params) s) s = .next t) :
        t = s ∨ (s.slot.pred = true ∧ s.slot.discard = false ∧
          ∃ k' e', Shape.transfer k e = .transfer k' e' ∧ k'.fires s ∧ dispatchMW (k'.record s.params) s = .next t) := by
      rcases commitSlot_next h with ⟨_, e⟩ | ⟨hp, hq, e'⟩
      · exact .inl e
      · exact .inr ⟨hp, hq, k, e, rfl, fun hk' => absurd hk' hk, e'⟩
    cases k
    case trap =>
      simp only [shapeCommit, trapCommit] at h
      rcases commitSlot_next h with ⟨_, e⟩ | ⟨hp, hq, e'⟩
      · exact .inl e
      · split at e'
        · rename_i hf
          exact .inr ⟨hp, hq, .inr (.inr (.inr (.inr (.inr (.inr ⟨.trap, e, rfl, fun _ => hf, e'⟩)))))⟩
        · cases e'; exact .inl rfl
    all_goals
      exact (tr (by simp) h).imp id fun ⟨a, b, c⟩ => ⟨a, b, .inr (.inr (.inr (.inr (.inr (.inr c)))))⟩

/-! ### Frames of the transfers -/

/-- What a transfer dispatched in `MW` leaves alone. -/
theorem KeepsRest.dispatchMW {t : Transfer} {s u : State} (w : Touch) (hs : s.cur.stage = .MW) (h : dispatchMW t s = .next u)
   (h1 : w.control = true) (h2 : w.otherSlots = true) (h3 : w.intrEnabled = true) (h4 : w.frames = true) (h5 : w.methodCache = true)
   (h6 : w.answers = true) (h7 : w.stall = true) (h8 : ∀ rb ro, t.saves = some (rb, ro) → rb ∈ w.sprs ∧ ro ∈ w.sprs) : KeepsRest w s u := by
  obtain ⟨hg, hv⟩ := dispatchMW_next hs h
  have a : KeepsRest w s (Machine.transferOnce t (Machine.preFlush t s)) := (KeepsRest.preFlush _ _ _ h2).trans (KeepsRest.transferOnce _ _ _ h8 h4 h3)
  rcases hv with ⟨v, e, rfl⟩ | ⟨v, e, rfl⟩
  · exact (a.trans ((ensureResident_only (.inr e)).keeps h5 h6)).trans (KeepsRest.stall _ _ _ h7)
  · exact (a.trans ((ensureResident_only (.inl e)).keeps h5 h6)).trans (KeepsRest.completeTransfer _ _ _ h1 h2 (.inl h3))

theorem KeepsRest.completeBranch (d : Bool) (a : Word) (s : State) (w : Touch) (h1 : w.control = true) (h2 : w.otherSlots = true) : KeepsRest w s (completeBranch d a s) := by
  unfold Machine.completeBranch
  cases d
  · exact ((KeepsRest.setControl _ _ _ _ h1).trans (KeepsRest.flushUpstream _ _ _ h2)).trans (KeepsRest.setSlot _ _ _)
  · exact ((KeepsRest.setControl _ _ _ _ h1).trans (KeepsRest.markDelaySlots _ _ _ _ h2)).trans (KeepsRest.setSlot _ _ _)

end Sys2Proof.Machine
end

