-- ==== Sys2Proof/Laws/Cycle.lean ====
section
/-! SUPPORT. The fetch step and the end of a cycle: what each can do (rules R100, R101, R365). -/

namespace Sys2Proof.Machine

/-! ### Sequencing -/

@[simp] theorem andThen_next (s : State) (f : State → Result) : andThen (.next s) f = f s := rfl

theorem andThen_assoc (r : Result) (f g : State → Result) :
    andThen (andThen r f) g = andThen r (fun s => andThen (f s) g) := by
  cases r <;> rfl

theorem andThen_eq_next {r : Result} {f : State → Result} {t : State} (h : andThen r f = .next t) :
    ∃ s, r = .next s ∧ f s = .next t := by
  cases r with
  | next s => exact ⟨s, rfl, h⟩
  | fault _ => cases h
  | refused _ => cases h

/-! ### Fetching -/

/-- The entry that the bounds test looks at (rule R330). -/
theorem findEntry_active {s : State} {e : McEntry} : findEntry s.mc.entries s.mc.active = some e ↔ ActiveEntry s e := by
  unfold findEntry ActiveEntry
  rw [List.find?_eq_some_iff_append]
  simp only [decide_eq_true_eq, Bool.not_eq_true', decide_eq_false_iff_not]
  exact ⟨fun ⟨h1, pre, post, h2, h3⟩ => ⟨pre, post, h2, h1, h3⟩, fun ⟨pre, post, h2, h1, h3⟩ => ⟨h1, pre, post, h2, h3⟩⟩

/-- The bounds test says what rule R330 says. -/
theorem fetchInBounds_iff {s : State} {pc : Word} : fetchInBounds s pc = true ↔ InFetchBounds s pc := by
  unfold fetchInBounds InFetchBounds
  rw [Bool.and_eq_true, decide_eq_true_eq]
  refine and_congr_right fun _ => ?_
  by_cases hi : s.params.mcPolicy = .ideal
  · simp [hi]
  · simp only [hi, if_false, false_or]
    cases hf : findEntry s.mc.entries s.mc.active with
    | none =>
      refine ⟨nofun, fun ⟨e, h, _⟩ => ?_⟩
      rw [findEntry_active.mpr h] at hf
      cases hf
    | some e =>
      simp only [Bool.and_eq_true, decide_eq_true_eq]
      refine ⟨fun h => ⟨e, findEntry_active.mp hf, h⟩, fun ⟨e', h, hb⟩ => ?_⟩
      rw [findEntry_active.mpr h] at hf
      cases hf
      exact hb

/-- All that `fetch` can answer. -/
theorem mcFetch_ok {s u : State} {pc w0 w1 : Word} (h : mcFetch s pc = .ok (w0, w1, u)) :
    aligned4 pc = true ∧ fetchInBounds s pc = true ∧ peekWord s pc = .ok w0 ∧ fetchWraps pc w0 = false ∧
      peekWord s (pc + 4) = .ok w1 ∧ u = markRead pc s := by
  unfold mcFetch at h
  cases h1 : aligned4 pc
  · rw [h1] at h; cases h
  · cases h2 : fetchInBounds s pc
    · rw [h1, h2] at h; cases h
    · rw [h1, h2] at h
      cases h3 : peekWord s pc with
      | error f => rw [h3] at h; cases h
      | ok w0' =>
        rw [h3] at h
        cases h5 : fetchWraps pc w0'
        · cases h4 : peekWord s (pc + 4) with
          | error f => simp only [h5, h4, if_true] at h; cases h
          | ok w1' =>
            simp only [h5, h4, if_true] at h
            cases h
            exact ⟨rfl, rfl, rfl, h5, rfl, rfl⟩
        · simp only [h5, if_true] at h; cases h

theorem mcFetch_of {s : State} {pc w0 w1 : Word} (h1 : aligned4 pc = true) (h2 : fetchInBounds s pc = true)
    (h3 : peekWord s pc = .ok w0) (h5 : fetchWraps pc w0 = false) (h4 : peekWord s (pc + 4) = .ok w1) :
    mcFetch s pc = .ok (w0, w1, markRead pc s) := by
  unfold mcFetch
  simp only [h1, h2, h3, h5, h4, if_true]
  rfl

/-- The test for a wrap says what rule R20 says. -/
theorem fetchWraps_eq_false {pc w0 : Word} : fetchWraps pc w0 = false ↔ FitsBelowTop pc w0 := by
  unfold fetchWraps FitsBelowTop bundleBytes
  rw [decide_eq_false_iff_not, Nat.not_lt]

theorem fetchBundle_next {s t : State} (h : fetchBundle s = .next t) :
    ∃ w0 w1 f, mcFetch s s.pc = .ok (w0, w1, markRead s.pc s) ∧ decodeBundle s.params.dualIssue w0 w1 = .ok f ∧
      t = issueBundle (markRead s.pc s) f := by
  unfold fetchBundle at h
  split at h
  · cases h
  · rename_i w0 w1 u hm
    split at h
    · cases h
    · rename_i f hd
      cases h
      obtain ⟨_, _, _, _, _, rfl⟩ := mcFetch_ok hm
      exact ⟨w0, w1, f, hm, hd, rfl⟩

/-- Drawing an interrupt event changes the exception unit alone, and there only what is pending. -/
theorem drawIrq_fields (s : State) :
    ∃ e, drawIrq s = { s with exc := e } ∧ e.intrEnabled = s.exc.intrEnabled ∧ e.table = s.exc.table ∧
      e.codeBits = s.exc.codeBits := by
  unfold drawIrq
  split
  · exact ⟨s.exc, rfl, rfl, rfl, rfl⟩
  · exact ⟨_, rfl, rfl, rfl, rfl⟩
  · exact ⟨_, rfl, rfl, rfl, rfl⟩
  · exact ⟨_, rfl, rfl, rfl, rfl⟩

theorem fetchStep_none {s : State} (h : irqToInject (drawIrq s) = none) :
    fetchStep s = fetchBundle (takeNpc (drawIrq s)) := by
  unfold fetchStep; rw [h]

theorem fetchStep_some {s : State} {q : Irq} (h : irqToInject (drawIrq s) = some q) :
    fetchStep s = .next (injectIrq (drawIrq s) q) := by
  unfold fetchStep; rw [h]

/-- What a fetch step can change. -/
theorem fetchStep_keeps {s t : State} (h : fetchStep s = .next t) :
    ∃ e b ir m pc npc,
      t = { s with exc := e, pipe := { s.pipe with fetch := b }, intrBlock := ir, mc := m, pc := pc, npc := npc } ∧
        e.table = s.exc.table ∧ e.codeBits = s.exc.codeBits := by
  obtain ⟨e, he, _, he3, he4⟩ := drawIrq_fields s
  cases hq : irqToInject (drawIrq s) with
  | some q =>
    rw [fetchStep_some hq, he] at h; cases h
    exact ⟨_, _, _, _, _, _, rfl, he3, he4⟩
  | none =>
    rw [fetchStep_none hq, he] at h
    obtain ⟨w0, w1, f, _, _, rfl⟩ := fetchBundle_next h
    exact ⟨_, _, _, _, _, _, rfl, he3, he4⟩

/-! ### A whole step -/

/-- A step is the stage operations and then the end of the cycle; only an unstalled cycle fetches. -/
theorem step_cases {s t : State} (h : step s = .next t) :
    ∃ u, stageOps s = .next u ∧
      ((∃ st, u.stallReq = some st ∧ t = finishCycle (holdStages st u)) ∨
        (u.stallReq = none ∧ ∃ v, fetchStep (advance u) = .next v ∧ t = finishCycle v)) := by
  unfold step cycle at h
  obtain ⟨u, hu, h⟩ := andThen_eq_next h
  refine ⟨u, hu, ?_⟩
  unfold endCycle at h
  split at h
  · rename_i hs
    obtain ⟨v, hv, h⟩ := andThen_eq_next h
    cases h
    exact .inr ⟨hs, v, hv, rfl⟩
  · rename_i st hs
    cases h
    exact .inl ⟨st, hs, rfl⟩

/-- One invocation: nothing for a bubble, else the meaning of what the slot holds. -/
theorem invoke_cases {st : Stage} {k : SlotIx} {s t : State} (h : invoke st k s = .next t) :
    ((s.slotAt st k).instr = .bubble ∧ t = s) ∨
      (∃ i, (s.slotAt st k).instr = .instr i ∧ exec i (s.atSlot st k) = .next t) ∨
      (∃ a, (s.slotAt st k).instr = .intr a ∧ intrStages a (s.atSlot st k) = .next t) ∨
      ((s.slotAt st k).instr = .halt ∧ haltStages (s.atSlot st k) = .next t) := by
  unfold invoke at h
  split at h
  · rename_i e; cases h; exact .inl ⟨e, rfl⟩
  · rename_i i e; exact .inr (.inl ⟨i, e, h⟩)
  · rename_i a e; exact .inr (.inr (.inl ⟨a, e, h⟩))
  · rename_i e; exact .inr (.inr (.inr ⟨e, h⟩))

/-- When a slot writes a general register (rule R113). -/
theorem Slot.gprTarget_eq_some {x : Slot} {r : Reg} :
    x.gprTarget = some r ↔ ∃ i, x.instr = .instr i ∧ x.pred = true ∧ r ≠ 0 ∧ destGpr i = some r := by
  unfold Slot.gprTarget
  cases x.instr <;> dsimp only
  case instr i =>
    cases x.pred
    · simp
    · rw [if_pos rfl, Option.filter_eq_some_iff, decide_eq_true_eq]
      exact ⟨fun h => ⟨i, rfl, rfl, h.2, h.1⟩, fun ⟨_, e, _, h1, h2⟩ => by
        cases e
        exact ⟨h2, h1⟩⟩
  all_goals simp

/-- When a slot writes a predicate (rules R14, R191, R397). -/
theorem Slot.mem_predTargets {q : Config.Params} {x : Slot} {p : PReg} :
    p ∈ x.predTargets q ↔ ∃ i, x.instr = .instr i ∧ x.pred = true ∧ WritesPred q i p := by
  have seven : p ∈ ([1, 2, 3, 4, 5, 6, 7] : List PReg) ↔ p ≠ 0 := by revert p; decide
  have other (i : Instr) (hi : ∀ sd r, shapeOf i ≠ .mts sd r) :
      p ∈ (destPred i).toList.filter (fun r => decide (r ≠ 0)) ↔ WritesPred q i p := by
    unfold WritesPred
    rw [List.mem_filter, Option.mem_toList, decide_eq_true_eq]
    exact ⟨fun h => ⟨h.2, .inl h.1⟩, fun h => ⟨h.2.resolve_right fun ⟨sd, r, e, _⟩ => hi sd r e, h.1⟩⟩
  have own (i : Instr) : p ∈ (match i with
      | .mts _ sd _ => if isPredAlias q sd then ([1, 2, 3, 4, 5, 6, 7] : List PReg) else []
      | _ => (destPred i).toList.filter fun r => decide (r ≠ 0)) ↔ WritesPred q i p := by
    cases i
    case mts g sd r =>
      dsimp only
      unfold WritesPred isPredAlias
      simp only [Bool.or_eq_true, decide_eq_true_eq]
      split
      · rename_i h
        exact seven.trans ⟨fun h0 => ⟨h0, .inr ⟨sd, r, rfl, h⟩⟩, fun h0 => h0.1⟩
      · rename_i h
        refine ⟨fun h0 => absurd h0 (by simp), ?_⟩
        rintro ⟨_, e | ⟨sd', r', e, h'⟩⟩
        · cases e
        · cases e; exact absurd h' h
    all_goals exact other _ nofun
  unfold Slot.predTargets
  cases x.instr <;> dsimp only
  case instr i =>
    cases x.pred
    · simp
    · rw [if_pos rfl]
      exact (own i).trans ⟨fun h => ⟨i, rfl, rfl, h⟩, fun ⟨_, e, _, h⟩ => by
        cases e
        exact h⟩
  all_goals simp

/-- The test for two writers of one register goes on with the state as it is, or refuses (rules R113, R397). -/
theorem checkWriters_next {s t : State} (h : checkWriters s = .next t) :
    t = s ∧ s.pipe.ex.twoWriters s.params = false := by
  unfold checkWriters at h
  split at h
  · cases h
  · rename_i hw; cases h; exact ⟨rfl, by simpa using hw⟩

/-- The test of the delay slots goes on with the state as it is, or refuses (rule R301). -/
theorem checkDelaySlots_next {s t : State} (h : checkDelaySlots s = .next t) :
    t = s ∧ s.pipe.ex.transferInDelay = false ∧ s.pipe.dr.transferInDelay = false ∧
      s.pipe.fetch.transferInDelay = false := by
  unfold checkDelaySlots at h
  split at h
  · cases h
  · cases h; simp_all

/-- A property that every invocation keeps is kept by the stage operations. -/
theorem stageOps_induct {P : State → Prop} {s t : State} (h0 : P { s with stallReq := none })
    (hi : ∀ st k u v, P u → invoke st k u = .next v → P v) (h : stageOps s = .next t) : P t := by
  have stage (st : Stage) (u v : State) (hu : P u) (h : invokeStage st u = .next v) : P v := by
    obtain ⟨w, h1, h2⟩ := andThen_eq_next h
    exact hi _ _ _ _ (hi _ _ _ _ hu h1) h2
  unfold stageOps at h
  obtain ⟨a, ha, h⟩ := andThen_eq_next h
  obtain ⟨b, hb, h⟩ := andThen_eq_next h
  obtain ⟨c, hc, h⟩ := andThen_eq_next h
  obtain ⟨d, hd, h⟩ := andThen_eq_next h
  obtain ⟨e, he, h⟩ := andThen_eq_next h
  obtain ⟨f, hf, h⟩ := andThen_eq_next h
  rw [(checkWriters_next hc).1, (checkDelaySlots_next hb).1] at hd
  rw [(checkDelaySlots_next he).1] at hf
  exact stage _ _ _ (stage _ _ _ (stage _ _ _ (stage _ _ _ h0 ha) hd) hf) h

end Sys2Proof.Machine
end

