-- ==== Sys2Proof/Laws/Encode.lean ====
section
/-! SUPPORT. Fields of words: what a field reads in a word put together from placed fields. -/

namespace Sys2Proof

/-! ### A field of a combined word -/

theorem fld_or (a b : Word) (lo len : Nat) : fld (a ||| b) lo len = fld a lo len ||| fld b lo len := by
  unfold fld
  ext k hk
  simp

theorem bitAt_or (a b : Word) (k : Nat) : bitAt (a ||| b) k = (bitAt a k || bitAt b k) := by
  simp [bitAt]

/-! ### A placed field -/

theorem bitAt_place {n : Nat} (v : BitVec n) (p k : Nat) :
    bitAt (place v p) k = (decide (k < 32) && decide (p ≤ k) && v.getLsbD (k - p)) := by
  unfold bitAt place
  rw [BitVec.getLsbD_shiftLeft, BitVec.getLsbD_setWidth]
  by_cases h1 : k < 32
  · by_cases h2 : k < p
    · have : ¬ p ≤ k := by omega
      simp [h1, h2, this]
    · have h3 : p ≤ k := by omega
      have h4 : k - p < 32 := by omega
      simp [h1, h2, h3, h4]
  · simp [h1]

theorem fld_place_same {n : Nat} (v : BitVec n) (p : Nat) (h : p + n ≤ 32) : fld (place v p) p n = v := by
  ext k hk
  have hb := bitAt_place v p (p + k)
  unfold bitAt at hb
  unfold fld
  rw [BitVec.getElem_extractLsb', hb]
  have h1 : p + k < 32 := by omega
  simp [h1, BitVec.getLsbD_eq_getElem hk]

theorem fld_place_apart {n : Nat} (v : BitVec n) (p lo len : Nat) (h : p + n ≤ lo ∨ lo + len ≤ p) :
    fld (place v p) lo len = 0#len := by
  ext k hk
  have hb := bitAt_place v p (lo + k)
  unfold bitAt at hb
  unfold fld
  rw [BitVec.getElem_extractLsb', hb]
  rcases h with h | h
  · rw [BitVec.getLsbD_of_ge v _ (by omega)]; simp
  · have : ¬ p ≤ lo + k := by omega
    simp [this]

theorem bitAt_placeBit_same (b : Bool) (k : Nat) (h : k < 32) : bitAt (placeBit b k) k = b := by
  unfold placeBit
  rw [bitAt_place]
  simp [h]

theorem bitAt_place_apart {n : Nat} (v : BitVec n) (p k : Nat) (h : p + n ≤ k ∨ k < p) :
    bitAt (place v p) k = false := by
  rw [bitAt_place]
  rcases h with h | h
  · rw [BitVec.getLsbD_of_ge v _ (by omega)]; simp
  · have : ¬ p ≤ k := by omega
    simp [this]

theorem bitAt_placeBit_apart (b : Bool) (p k : Nat) (h : k ≠ p) : bitAt (placeBit b p) k = false :=
  bitAt_place_apart _ _ _ (by omega)

theorem fld_placeBit_apart (b : Bool) (p lo len : Nat) (h : p + 1 ≤ lo ∨ lo + len ≤ p) :
    fld (placeBit b p) lo len = 0#len := fld_place_apart _ _ _ _ h

theorem fld_placePred_apart (r : PredRef) (p lo len : Nat) (h : p + 4 ≤ lo ∨ lo + len ≤ p) :
    fld (placePred r p) lo len = 0#len := by
  unfold placePred
  rw [fld_or, fld_placeBit_apart _ _ _ _ (by omega), fld_place_apart _ _ _ _ (by omega)]
  simp

theorem bitAt_placePred_apart (r : PredRef) (p k : Nat) (h : p + 4 ≤ k ∨ k < p) : bitAt (placePred r p) k = false := by
  unfold placePred
  rw [bitAt_or, bitAt_placeBit_apart _ _ _ (by omega), bitAt_place_apart _ _ _ (by omega)]
  rfl

theorem fld_placePred_idx (r : PredRef) (p : Nat) (h : p + 4 ≤ 32) : fld (placePred r p) p 3 = r.idx := by
  unfold placePred
  rw [fld_or, fld_placeBit_apart _ _ _ _ (by omega), fld_place_same _ _ (by omega)]
  simp

theorem bitAt_placePred_neg (r : PredRef) (p : Nat) (h : p + 4 ≤ 32) : bitAt (placePred r p) (p + 3) = r.neg := by
  unfold placePred
  rw [bitAt_or, bitAt_placeBit_same _ _ (by omega), bitAt_place_apart _ _ _ (by omega)]
  simp

theorem bitAt_guard_neg (g : PredRef) : bitAt (placePred g 27) 30 = g.neg := bitAt_placePred_neg g 27 (by omega)

theorem bitAt_ps1_neg (g : PredRef) : bitAt (placePred g 12) 15 = g.neg := bitAt_placePred_neg g 12 (by omega)

theorem bitAt_ps2_neg (g : PredRef) : bitAt (placePred g 7) 10 = g.neg := bitAt_placePred_neg g 7 (by omega)

theorem bitAt_ps_neg (g : PredRef) : bitAt (placePred g 0) 3 = g.neg := bitAt_placePred_neg g 0 (by omega)

/-! ### A written-out word -/

theorem fld_lit (n lo len : Nat) : fld (BitVec.ofNat 32 n) lo len = BitVec.ofNat len ((n % 4294967296) >>> lo) := by
  unfold fld
  apply BitVec.eq_of_toNat_eq
  simp [BitVec.extractLsb'_toNat]

theorem bitAt_lit (n k : Nat) : bitAt (BitVec.ofNat 32 n) k = decide ((n % 4294967296) >>> k % 2 = 1) := by
  unfold bitAt BitVec.getLsbD
  rw [BitVec.toNat_ofNat, Nat.testBit_eq_decide_div_mod_eq, Nat.shiftRight_eq_div_pow]

/-! ### Immediates -/

theorem toNat_ofNat_imm {n v : Nat} (h : immU n v = true) : (BitVec.ofNat n v).toNat = v := by
  rw [BitVec.toNat_ofNat]
  exact Nat.mod_eq_of_lt (by simpa [immU] using h)

theorem toInt_ofInt_imm {n : Nat} {v : Int} (hn : 0 < n) (h : immS n v = true) : (BitVec.ofInt n v).toInt = v := by
  simp only [immS, Bool.and_eq_true, decide_eq_true_eq] at h
  rw [BitVec.toInt_ofInt]
  have h2 : (2 : Nat) ^ n = 2 * 2 ^ (n - 1) := by rw [← pow_succ']; congr 1; omega
  have h3 : ((2 ^ (n - 1) : Nat) : Int) = 2 ^ (n - 1) := by norm_cast
  rw [h2]
  exact Int.bmod_eq_of_le (by push_cast; omega) (by push_cast; omega)

/-! ### The head of a word: its guard and bit 31 -/

/-- The guard field of `w` is `g` and its bit 31 is `l` (rules R62, R64). -/
def WordHead (w : Word) (g : PredRef) (l : Bool) : Prop := guardOf w = g ∧ bitAt w 31 = l
deriving Decidable

theorem WordHead.withGuard {base : Word} {l : Bool} (g : PredRef) (h : WordHead base ⟨false, 0⟩ l) :
    WordHead (withGuard base g) g l := by
  obtain ⟨h1, h2⟩ := h
  simp only [guardOf, PredRef.mk.injEq] at h1
  refine ⟨?_, ?_⟩
  · simp [guardOf, Sys2Proof.withGuard, bitAt_or, fld_or, h1, bitAt_guard_neg, fld_placePred_idx]
  · simp [Sys2Proof.withGuard, bitAt_or, h2, bitAt_placePred_apart]

theorem WordHead.place {w : Word} {g : PredRef} {l : Bool} {n : Nat} (v : BitVec n) (p : Nat) (hp : p + n ≤ 27)
    (h : WordHead w g l) : WordHead (w ||| place v p) g l := by
  obtain ⟨h1, h2⟩ := h
  refine ⟨?_, ?_⟩
  · rw [← h1]
    simp [guardOf, bitAt_or, fld_or, fld_place_apart _ _ 27 3 (.inl hp), bitAt_place_apart _ _ 30 (.inl (by omega : p + n ≤ 30))]
  · rw [bitAt_or, h2, bitAt_place_apart _ _ _ (.inl (by omega)), Bool.or_false]

theorem WordHead.placePred {w : Word} {g : PredRef} {l : Bool} (r : PredRef) (p : Nat) (hp : p + 4 ≤ 27)
    (h : WordHead w g l) : WordHead (w ||| placePred r p) g l := by
  obtain ⟨h1, h2⟩ := h
  refine ⟨?_, ?_⟩
  · rw [← h1]
    simp [guardOf, bitAt_or, fld_or, fld_placePred_apart r p 27 3 (.inl hp),
      bitAt_placePred_apart r p 30 (.inl (by omega : p + 4 ≤ 30))]
  · rw [bitAt_or, h2, bitAt_placePred_apart _ _ _ (.inl (by omega)), Bool.or_false]

end Sys2Proof
end

