-- ==== Sys2Proof/Laws/PerInstr.lean ====
section
/-! SUPPORT. The family of lemmas `EncodeWord`, one per constructor of `Instr`: the head of the word that `encodeWord`
writes (its guard field and bit 31, rules R62, R64, R66), and that exactly the `ALUl` forms have a second word
(rule R60). No statement here is about what `exec` does. -/

namespace Sys2Proof.Laws

/-! ### One lemma per format -/

theorem wordHead_ALUi {base : Word} {l : Bool} (g : PredRef) (rd rs1 : Reg) (imm : Nat)
    (h : WordHead base ⟨false, 0⟩ l) : WordHead (wALUi base g rd rs1 imm) g l :=
  .place _ 0 (by decide) (.place _ 12 (by decide) (.place _ 17 (by decide) (h.withGuard g)))

theorem wordHead_ALUl {base : Word} {l : Bool} (g : PredRef) (rd rs1 : Reg)
    (h : WordHead base ⟨false, 0⟩ l) : WordHead (wALUl base g rd rs1) g l :=
  .place _ 12 (by decide) (.place _ 17 (by decide) (h.withGuard g))

theorem wordHead_ALUr {base : Word} {l : Bool} (g : PredRef) (rd rs1 rs2 : Reg)
    (h : WordHead base ⟨false, 0⟩ l) : WordHead (wALUr base g rd rs1 rs2) g l :=
  .place _ 7 (by decide) (.place _ 12 (by decide) (.place _ 17 (by decide) (h.withGuard g)))

theorem wordHead_ALUm {base : Word} {l : Bool} (g : PredRef) (rs1 rs2 : Reg)
    (h : WordHead base ⟨false, 0⟩ l) : WordHead (wALUm base g rs1 rs2) g l :=
  .place _ 7 (by decide) (.place _ 12 (by decide) (h.withGuard g))

theorem wordHead_ALUc {base : Word} {l : Bool} (g : PredRef) (pd : PReg) (rs1 rs2 : Reg)
    (h : WordHead base ⟨false, 0⟩ l) : WordHead (wALUc base g pd rs1 rs2) g l :=
  .place _ 7 (by decide) (.place _ 12 (by decide) (.place _ 17 (by decide) (h.withGuard g)))

theorem wordHead_ALUci {base : Word} {l : Bool} (g : PredRef) (pd : PReg) (rs1 : Reg) (imm : Nat)
    (h : WordHead base ⟨false, 0⟩ l) : WordHead (wALUci base g pd rs1 imm) g l :=
  .place _ 7 (by decide) (.place _ 12 (by decide) (.place _ 17 (by decide) (h.withGuard g)))

theorem wordHead_ALUp {base : Word} {l : Bool} (g : PredRef) (pd : PReg) (ps1 ps2 : PredRef)
    (h : WordHead base ⟨false, 0⟩ l) : WordHead (wALUp base g pd ps1 ps2) g l :=
  .placePred _ 7 (by decide) (.placePred _ 12 (by decide) (.place _ 17 (by decide) (h.withGuard g)))

theorem wordHead_ALUb {base : Word} {l : Bool} (g : PredRef) (rd rs1 : Reg) (imm : Nat) (ps : PredRef)
    (h : WordHead base ⟨false, 0⟩ l) : WordHead (wALUb base g rd rs1 imm ps) g l :=
  .placePred _ 0 (by decide) (.place _ 7 (by decide) (.place _ 12 (by decide) (.place _ 17 (by decide) (h.withGuard g))))

theorem wordHead_SPCt {base : Word} {l : Bool} (g : PredRef) (sd : SReg) (rs1 : Reg)
    (h : WordHead base ⟨false, 0⟩ l) : WordHead (wSPCt base g sd rs1) g l :=
  .place _ 0 (by decide) (.place _ 12 (by decide) (h.withGuard g))

theorem wordHead_SPCf {base : Word} {l : Bool} (g : PredRef) (rd : Reg) (ss : SReg)
    (h : WordHead base ⟨false, 0⟩ l) : WordHead (wSPCf base g rd ss) g l :=
  .place _ 0 (by decide) (.place _ 17 (by decide) (h.withGuard g))

theorem wordHead_LDT {base : Word} {l : Bool} (g : PredRef) (rd ra : Reg) (imm : Int)
    (h : WordHead base ⟨false, 0⟩ l) : WordHead (wLDT base g rd ra imm) g l :=
  .place _ 0 (by decide) (.place _ 12 (by decide) (.place _ 17 (by decide) (h.withGuard g)))

theorem wordHead_STT {base : Word} {l : Bool} (g : PredRef) (ra rs : Reg) (imm : Int)
    (h : WordHead base ⟨false, 0⟩ l) : WordHead (wSTT base g ra rs imm) g l :=
  .place _ 0 (by decide) (.place _ 7 (by decide) (.place _ 12 (by decide) (h.withGuard g)))

theorem wordHead_STCi {base : Word} {l : Bool} (g : PredRef) (imm : Nat)
    (h : WordHead base ⟨false, 0⟩ l) : WordHead (wSTCi base g imm) g l :=
  .place _ 0 (by decide) (h.withGuard g)

theorem wordHead_STCr {base : Word} {l : Bool} (g : PredRef) (rs : Reg)
    (h : WordHead base ⟨false, 0⟩ l) : WordHead (wSTCr base g rs) g l :=
  .place _ 12 (by decide) (h.withGuard g)

theorem wordHead_CFLi {base : Word} {l : Bool} (g : PredRef) (d : Bool) (imm : Nat)
    (h : WordHead base ⟨false, 0⟩ l) : WordHead (wCFLi base g d imm) g l :=
  .place _ 0 (by decide) (.place _ 22 (by decide) (h.withGuard g))

theorem wordHead_CFLz {base : Word} {l : Bool} (g : PredRef) (d : Bool) (imm : Int)
    (h : WordHead base ⟨false, 0⟩ l) : WordHead (wCFLz base g d imm) g l :=
  .place _ 0 (by decide) (.place _ 22 (by decide) (h.withGuard g))

theorem wordHead_CFLri {base : Word} {l : Bool} (g : PredRef) (d : Bool)
    (h : WordHead base ⟨false, 0⟩ l) : WordHead (wCFLri base g d) g l :=
  .place _ 22 (by decide) (h.withGuard g)

theorem wordHead_CFLrs {base : Word} {l : Bool} (g : PredRef) (d : Bool) (rs : Reg)
    (h : WordHead base ⟨false, 0⟩ l) : WordHead (wCFLrs base g d rs) g l :=
  .place _ 12 (by decide) (.place _ 22 (by decide) (h.withGuard g))

theorem wordHead_CFLrt {base : Word} {l : Bool} (g : PredRef) (d : Bool) (rs1 rs2 : Reg)
    (h : WordHead base ⟨false, 0⟩ l) : WordHead (wCFLrt base g d rs1 rs2) g l :=
  .place _ 7 (by decide) (.place _ 12 (by decide) (.place _ 22 (by decide) (h.withGuard g)))

/-! ### The family -/

/-- What the encoder writes into the head of an instruction's word, and how many words the instruction has. -/
def EncodeWord.Statement (i : Instr) : Prop :=
  WordHead (encodeWord i) (Machine.guardOfInstr i) i.isLong ∧ (encodeExt i).isSome = i.isLong ∧
    (i.slot1Ok = true → i.isLong = false)

theorem EncodeWord.addI (g : PredRef) (rd rs1 : Reg) (imm : Nat) : EncodeWord.Statement (.addI g rd rs1 imm) :=
  ⟨wordHead_ALUi (l := false) g rd rs1 imm (by decide), rfl, fun _ => rfl⟩

theorem EncodeWord.subI (g : PredRef) (rd rs1 : Reg) (imm : Nat) : EncodeWord.Statement (.subI g rd rs1 imm) :=
  ⟨wordHead_ALUi (l := false) g rd rs1 imm (by decide), rfl, fun _ => rfl⟩

theorem EncodeWord.xorI (g : PredRef) (rd rs1 : Reg) (imm : Nat) : EncodeWord.Statement (.xorI g rd rs1 imm) :=
  ⟨wordHead_ALUi (l := false) g rd rs1 imm (by decide), rfl, fun _ => rfl⟩

theorem EncodeWord.slI (g : PredRef) (rd rs1 : Reg) (imm : Nat) : EncodeWord.Statement (.slI g rd rs1 imm) :=
  ⟨wordHead_ALUi (l := false) g rd rs1 imm (by decide), rfl, fun _ => rfl⟩

theorem EncodeWord.srI (g : PredRef) (rd rs1 : Reg) (imm : Nat) : EncodeWord.Statement (.srI g rd rs1 imm) :=
  ⟨wordHead_ALUi (l := false) g rd rs1 imm (by decide), rfl, fun _ => rfl⟩

theorem EncodeWord.sraI (g : PredRef) (rd rs1 : Reg) (imm : Nat) : EncodeWord.Statement (.sraI g rd rs1 imm) :=
  ⟨wordHead_ALUi (l := false) g rd rs1 imm (by decide), rfl, fun _ => rfl⟩

theorem EncodeWord.orI (g : PredRef) (rd rs1 : Reg) (imm : Nat) : EncodeWord.Statement (.orI g rd rs1 imm) :=
  ⟨wordHead_ALUi (l := false) g rd rs1 imm (by decide), rfl, fun _ => rfl⟩

theorem EncodeWord.andI (g : PredRef) (rd rs1 : Reg) (imm : Nat) : EncodeWord.Statement (.andI g rd rs1 imm) :=
  ⟨wordHead_ALUi (l := false) g rd rs1 imm (by decide), rfl, fun _ => rfl⟩

theorem EncodeWord.addR (g : PredRef) (rd rs1 rs2 : Reg) : EncodeWord.Statement (.addR g rd rs1 rs2) :=
  ⟨wordHead_ALUr (l := false) g rd rs1 rs2 (by decide), rfl, fun _ => rfl⟩

theorem EncodeWord.subR (g : PredRef) (rd rs1 rs2 : Reg) : EncodeWord.Statement (.subR g rd rs1 rs2) :=
  ⟨wordHead_ALUr (l := false) g rd rs1 rs2 (by decide), rfl, fun _ => rfl⟩

theorem EncodeWord.xorR (g : PredRef) (rd rs1 rs2 : Reg) : EncodeWord.Statement (.xorR g rd rs1 rs2) :=
  ⟨wordHead_ALUr (l := false) g rd rs1 rs2 (by decide), rfl, fun _ => rfl⟩

theorem EncodeWord.slR (g : PredRef) (rd rs1 rs2 : Reg) : EncodeWord.Statement (.slR g rd rs1 rs2) :=
  ⟨wordHead_ALUr (l := false) g rd rs1 rs2 (by decide), rfl, fun _ => rfl⟩

theorem EncodeWord.srR (g : PredRef) (rd rs1 rs2 : Reg) : EncodeWord.Statement (.srR g rd rs1 rs2) :=
  ⟨wordHead_ALUr (l := false) g rd rs1 rs2 (by decide), rfl, fun _ => rfl⟩

theorem EncodeWord.sraR (g : PredRef) (rd rs1 rs2 : Reg) : EncodeWord.Statement (.sraR g rd rs1 rs2) :=
  ⟨wordHead_ALUr (l := false) g rd rs1 rs2 (by decide), rfl, fun _ => rfl⟩

theorem EncodeWord.orR (g : PredRef) (rd rs1 rs2 : Reg) : EncodeWord.Statement (.orR g rd rs1 rs2) :=
  ⟨wordHead_ALUr (l := false) g rd rs1 rs2 (by decide), rfl, fun _ => rfl⟩

theorem EncodeWord.andR (g : PredRef) (rd rs1 rs2 : Reg) : EncodeWord.Statement (.andR g rd rs1 rs2) :=
  ⟨wordHead_ALUr (l := false) g rd rs1 rs2 (by decide), rfl, fun _ => rfl⟩

theorem EncodeWord.norR (g : PredRef) (rd rs1 rs2 : Reg) : EncodeWord.Statement (.norR g rd rs1 rs2) :=
  ⟨wordHead_ALUr (l := false) g rd rs1 rs2 (by decide), rfl, fun _ => rfl⟩

theorem EncodeWord.shaddR (g : PredRef) (rd rs1 rs2 : Reg) : EncodeWord.Statement (.shaddR g rd rs1 rs2) :=
  ⟨wordHead_ALUr (l := false) g rd rs1 rs2 (by decide), rfl, fun _ => rfl⟩

theorem EncodeWord.shadd2R (g : PredRef) (rd rs1 rs2 : Reg) : EncodeWord.Statement (.shadd2R g rd rs1 rs2) :=
  ⟨wordHead_ALUr (l := false) g rd rs1 rs2 (by decide), rfl, fun _ => rfl⟩

theorem EncodeWord.addL (g : PredRef) (rd rs1 : Reg) (imm : Word) : EncodeWord.Statement (.addL g rd rs1 imm) :=
  ⟨wordHead_ALUl (l := true) g rd rs1 (by decide), rfl, Bool.noConfusion⟩

theorem EncodeWord.subL (g : PredRef) (rd rs1 : Reg) (imm : Word) : EncodeWord.Statement (.subL g rd rs1 imm) :=
  ⟨wordHead_ALUl (l := true) g rd rs1 (by decide), rfl, Bool.noConfusion⟩

theorem EncodeWord.xorL (g : PredRef) (rd rs1 : Reg) (imm : Word) : EncodeWord.Statement (.xorL g rd rs1 imm) :=
  ⟨wordHead_ALUl (l := true) g rd rs1 (by decide), rfl, Bool.noConfusion⟩

theorem EncodeWord.slL (g : PredRef) (rd rs1 : Reg) (imm : Word) : EncodeWord.Statement (.slL g rd rs1 imm) :=
  ⟨wordHead_ALUl (l := true) g rd rs1 (by decide), rfl, Bool.noConfusion⟩

theorem EncodeWord.srL (g : PredRef) (rd rs1 : Reg) (imm : Word) : EncodeWord.Statement (.srL g rd rs1 imm) :=
  ⟨wordHead_ALUl (l := true) g rd rs1 (by decide), rfl, Bool.noConfusion⟩

theorem EncodeWord.sraL (g : PredRef) (rd rs1 : Reg) (imm : Word) : EncodeWord.Statement (.sraL g rd rs1 imm) :=
  ⟨wordHead_ALUl (l := true) g rd rs1 (by decide), rfl, Bool.noConfusion⟩

theorem EncodeWord.orL (g : PredRef) (rd rs1 : Reg) (imm : Word) : EncodeWord.Statement (.orL g rd rs1 imm) :=
  ⟨wordHead_ALUl (l := true) g rd rs1 (by decide), rfl, Bool.noConfusion⟩

theorem EncodeWord.andL (g : PredRef) (rd rs1 : Reg) (imm : Word) : EncodeWord.Statement (.andL g rd rs1 imm) :=
  ⟨wordHead_ALUl (l := true) g rd rs1 (by decide), rfl, Bool.noConfusion⟩

theorem EncodeWord.norL (g : PredRef) (rd rs1 : Reg) (imm : Word) : EncodeWord.Statement (.norL g rd rs1 imm) :=
  ⟨wordHead_ALUl (l := true) g rd rs1 (by decide), rfl, Bool.noConfusion⟩

theorem EncodeWord.shaddL (g : PredRef) (rd rs1 : Reg) (imm : Word) : EncodeWord.Statement (.shaddL g rd rs1 imm) :=
  ⟨wordHead_ALUl (l := true) g rd rs1 (by decide), rfl, Bool.noConfusion⟩

theorem EncodeWord.shadd2L (g : PredRef) (rd rs1 : Reg) (imm : Word) : EncodeWord.Statement (.shadd2L g rd rs1 imm) :=
  ⟨wordHead_ALUl (l := true) g rd rs1 (by decide), rfl, Bool.noConfusion⟩

theorem EncodeWord.mul (g : PredRef) (rs1 rs2 : Reg) : EncodeWord.Statement (.mul g rs1 rs2) :=
  ⟨wordHead_ALUm (l := false) g rs1 rs2 (by decide), rfl, fun _ => rfl⟩

theorem EncodeWord.mulu (g : PredRef) (rs1 rs2 : Reg) : EncodeWord.Statement (.mulu g rs1 rs2) :=
  ⟨wordHead_ALUm (l := false) g rs1 rs2 (by decide), rfl, fun _ => rfl⟩

theorem EncodeWord.cmpeqR (g : PredRef) (pd : PReg) (rs1 rs2 : Reg) : EncodeWord.Statement (.cmpeqR g pd rs1 rs2) :=
  ⟨wordHead_ALUc (l := false) g pd rs1 rs2 (by decide), rfl, fun _ => rfl⟩

theorem EncodeWord.cmpneqR (g : PredRef) (pd : PReg) (rs1 rs2 : Reg) : EncodeWord.Statement (.cmpneqR g pd rs1 rs2) :=
  ⟨wordHead_ALUc (l := false) g pd rs1 rs2 (by decide), rfl, fun _ => rfl⟩

theorem EncodeWord.cmpltR (g : PredRef) (pd : PReg) (rs1 rs2 : Reg) : EncodeWord.Statement (.cmpltR g pd rs1 rs2) :=
  ⟨wordHead_ALUc (l := false) g pd rs1 rs2 (by decide), rfl, fun _ => rfl⟩

theorem EncodeWord.cmpleR (g : PredRef) (pd : PReg) (rs1 rs2 : Reg) : EncodeWord.Statement (.cmpleR g pd rs1 rs2) :=
  ⟨wordHead_ALUc (l := false) g pd rs1 rs2 (by decide), rfl, fun _ => rfl⟩

theorem EncodeWord.cmpultR (g : PredRef) (pd : PReg) (rs1 rs2 : Reg) : EncodeWord.Statement (.cmpultR g pd rs1 rs2) :=
  ⟨wordHead_ALUc (l := false) g pd rs1 rs2 (by decide), rfl, fun _ => rfl⟩

theorem EncodeWord.cmpuleR (g : PredRef) (pd : PReg) (rs1 rs2 : Reg) : EncodeWord.Statement (.cmpuleR g pd rs1 rs2) :=
  ⟨wordHead_ALUc (l := false) g pd rs1 rs2 (by decide), rfl, fun _ => rfl⟩

theorem EncodeWord.btestR (g : PredRef) (pd : PReg) (rs1 rs2 : Reg) : EncodeWord.Statement (.btestR g pd rs1 rs2) :=
  ⟨wordHead_ALUc (l := false) g pd rs1 rs2 (by decide), rfl, fun _ => rfl⟩

theorem EncodeWord.cmpeqI (g : PredRef) (pd : PReg) (rs1 : Reg) (imm : Nat) : EncodeWord.Statement (.cmpeqI g pd rs1 imm) :=
  ⟨wordHead_ALUci (l := false) g pd rs1 imm (by decide), rfl, fun _ => rfl⟩

theorem EncodeWord.cmpneqI (g : PredRef) (pd : PReg) (rs1 : Reg) (imm : Nat) : EncodeWord.Statement (.cmpneqI g pd rs1 imm) :=
  ⟨wordHead_ALUci (l := false) g pd rs1 imm (by decide), rfl, fun _ => rfl⟩

theorem EncodeWord.cmpltI (g : PredRef) (pd : PReg) (rs1 : Reg) (imm : Nat) : EncodeWord.Statement (.cmpltI g pd rs1 imm) :=
  ⟨wordHead_ALUci (l := false) g pd rs1 imm (by decide), rfl, fun _ => rfl⟩

theorem EncodeWord.cmpleI (g : PredRef) (pd : PReg) (rs1 : Reg) (imm : Nat) : EncodeWord.Statement (.cmpleI g pd rs1 imm) :=
  ⟨wordHead_ALUci (l := false) g pd rs1 imm (by decide), rfl, fun _ => rfl⟩

theorem EncodeWord.cmpultI (g : PredRef) (pd : PReg) (rs1 : Reg) (imm : Nat) : EncodeWord.Statement (.cmpultI g pd rs1 imm) :=
  ⟨wordHead_ALUci (l := false) g pd rs1 imm (by decide), rfl, fun _ => rfl⟩

theorem EncodeWord.cmpuleI (g : PredRef) (pd : PReg) (rs1 : Reg) (imm : Nat) : EncodeWord.Statement (.cmpuleI g pd rs1 imm) :=
  ⟨wordHead_ALUci (l := false) g pd rs1 imm (by decide), rfl, fun _ => rfl⟩

theorem EncodeWord.btestI (g : PredRef) (pd : PReg) (rs1 : Reg) (imm : Nat) : EncodeWord.Statement (.btestI g pd rs1 imm) :=
  ⟨wordHead_ALUci (l := false) g pd rs1 imm (by decide), rfl, fun _ => rfl⟩

theorem EncodeWord.por (g : PredRef) (pd : PReg) (ps1 ps2 : PredRef) : EncodeWord.Statement (.por g pd ps1 ps2) :=
  ⟨wordHead_ALUp (l := false) g pd ps1 ps2 (by decide), rfl, fun _ => rfl⟩

theorem EncodeWord.pand (g : PredRef) (pd : PReg) (ps1 ps2 : PredRef) : EncodeWord.Statement (.pand g pd ps1 ps2) :=
  ⟨wordHead_ALUp (l := false) g pd ps1 ps2 (by decide), rfl, fun _ => rfl⟩

theorem EncodeWord.pxor (g : PredRef) (pd : PReg) (ps1 ps2 : PredRef) : EncodeWord.Statement (.pxor g pd ps1 ps2) :=
  ⟨wordHead_ALUp (l := false) g pd ps1 ps2 (by decide), rfl, fun _ => rfl⟩

theorem EncodeWord.bcopy (g : PredRef) (rd rs1 : Reg) (imm : Nat) (ps : PredRef) : EncodeWord.Statement (.bcopy g rd rs1 imm ps) :=
  ⟨wordHead_ALUb (l := false) g rd rs1 imm ps (by decide), rfl, fun _ => rfl⟩

theorem EncodeWord.mts (g : PredRef) (sd : SReg) (rs1 : Reg) : EncodeWord.Statement (.mts g sd rs1) :=
  ⟨wordHead_SPCt (l := false) g sd rs1 (by decide), rfl, fun _ => rfl⟩

theorem EncodeWord.mfs (g : PredRef) (rd : Reg) (ss : SReg) : EncodeWord.Statement (.mfs g rd ss) :=
  ⟨wordHead_SPCf (l := false) g rd ss (by decide), rfl, fun _ => rfl⟩

theorem EncodeWord.lws (g : PredRef) (rd ra : Reg) (imm : Int) : EncodeWord.Statement (.lws g rd ra imm) :=
  ⟨wordHead_LDT (l := false) g rd ra imm (by decide), rfl, fun _ => rfl⟩

theorem EncodeWord.lwl (g : PredRef) (rd ra : Reg) (imm : Int) : EncodeWord.Statement (.lwl g rd ra imm) :=
  ⟨wordHead_LDT (l := false) g rd ra imm (by decide), rfl, fun _ => rfl⟩

theorem EncodeWord.lwc (g : PredRef) (rd ra : Reg) (imm : Int) : EncodeWord.Statement (.lwc g rd ra imm) :=
  ⟨wordHead_LDT (l := false) g rd ra imm (by decide), rfl, fun _ => rfl⟩

theorem EncodeWord.lwm (g : PredRef) (rd ra : Reg) (imm : Int) : EncodeWord.Statement (.lwm g rd ra imm) :=
  ⟨wordHead_LDT (l := false) g rd ra imm (by decide), rfl, fun _ => rfl⟩

theorem EncodeWord.lhs (g : PredRef) (rd ra : Reg) (imm : Int) : EncodeWord.Statement (.lhs g rd ra imm) :=
  ⟨wordHead_LDT (l := false) g rd ra imm (by decide), rfl, fun _ => rfl⟩

theorem EncodeWord.lhl (g : PredRef) (rd ra : Reg) (imm : Int) : EncodeWord.Statement (.lhl g rd ra imm) :=
  ⟨wordHead_LDT (l := false) g rd ra imm (by decide), rfl, fun _ => rfl⟩

theorem EncodeWord.lhc (g : PredRef) (rd ra : Reg) (imm : Int) : EncodeWord.Statement (.lhc g rd ra imm) :=
  ⟨wordHead_LDT (l := false) g rd ra imm (by decide), rfl, fun _ => rfl⟩

theorem EncodeWord.lhm (g : PredRef) (rd ra : Reg) (imm : Int) : EncodeWord.Statement (.lhm g rd ra imm) :=
  ⟨wordHead_LDT (l := false) g rd ra imm (by decide), rfl, fun _ => rfl⟩

theorem EncodeWord.lbs (g : PredRef) (rd ra : Reg) (imm : Int) : EncodeWord.Statement (.lbs g rd ra imm) :=
  ⟨wordHead_LDT (l := false) g rd ra imm (by decide), rfl, fun _ => rfl⟩

theorem EncodeWord.lbl (g : PredRef) (rd ra : Reg) (imm : Int) : EncodeWord.Statement (.lbl g rd ra imm) :=
  ⟨wordHead_LDT (l := false) g rd ra imm (by decide), rfl, fun _ => rfl⟩

theorem EncodeWord.lbc (g : PredRef) (rd ra : Reg) (imm : Int) : EncodeWord.Statement (.lbc g rd ra imm) :=
  ⟨wordHead_LDT (l := false) g rd ra imm (by decide), rfl, fun _ => rfl⟩

theorem EncodeWord.lbm (g : PredRef) (rd ra : Reg) (imm : Int) : EncodeWord.Statement (.lbm g rd ra imm) :=
  ⟨wordHead_LDT (l := false) g rd ra imm (by decide), rfl, fun _ => rfl⟩

theorem EncodeWord.lhus (g : PredRef) (rd ra : Reg) (imm : Int) : EncodeWord.Statement (.lhus g rd ra imm) :=
  ⟨wordHead_LDT (l := false) g rd ra imm (by decide), rfl, fun _ => rfl⟩

theorem EncodeWord.lhul (g : PredRef) (rd ra : Reg) (imm : Int) : EncodeWord.Statement (.lhul g rd ra imm) :=
  ⟨wordHead_LDT (l := false) g rd ra imm (by decide), rfl, fun _ => rfl⟩

theorem EncodeWord.lhuc (g : PredRef) (rd ra : Reg) (imm : Int) : EncodeWord.Statement (.lhuc g rd ra imm) :=
  ⟨wordHead_LDT (l := false) g rd ra imm (by decide), rfl, fun _ => rfl⟩

theorem EncodeWord.lhum (g : PredRef) (rd ra : Reg) (imm : Int) : EncodeWord.Statement (.lhum g rd ra imm) :=
  ⟨wordHead_LDT (l := false) g rd ra imm (by decide), rfl, fun _ => rfl⟩

theorem EncodeWord.lbus (g : PredRef) (rd ra : Reg) (imm : Int) : EncodeWord.Statement (.lbus g rd ra imm) :=
  ⟨wordHead_LDT (l := false) g rd ra imm (by decide), rfl, fun _ => rfl⟩

theorem EncodeWord.lbul (g : PredRef) (rd ra : Reg) (imm : Int) : EncodeWord.Statement (.lbul g rd ra imm) :=
  ⟨wordHead_LDT (l := false) g rd ra imm (by decide), rfl, fun _ => rfl⟩

theorem EncodeWord.lbuc (g : PredRef) (rd ra : Reg) (imm : Int) : EncodeWord.Statement (.lbuc g rd ra imm) :=
  ⟨wordHead_LDT (l := false) g rd ra imm (by decide), rfl, fun _ => rfl⟩

theorem EncodeWord.lbum (g : PredRef) (rd ra : Reg) (imm : Int) : EncodeWord.Statement (.lbum g rd ra imm) :=
  ⟨wordHead_LDT (l := false) g rd ra imm (by decide), rfl, fun _ => rfl⟩

theorem EncodeWord.sws (g : PredRef) (ra rs : Reg) (imm : Int) : EncodeWord.Statement (.sws g ra rs imm) :=
  ⟨wordHead_STT (l := false) g ra rs imm (by decide), rfl, fun _ => rfl⟩

theorem EncodeWord.swl (g : PredRef) (ra rs : Reg) (imm : Int) : EncodeWord.Statement (.swl g ra rs imm) :=
  ⟨wordHead_STT (l := false) g ra rs imm (by decide), rfl, fun _ => rfl⟩

theorem EncodeWord.swc (g : PredRef) (ra rs : Reg) (imm : Int) : EncodeWord.Statement (.swc g ra rs imm) :=
  ⟨wordHead_STT (l := false) g ra rs imm (by decide), rfl, fun _ => rfl⟩

theorem EncodeWord.swm (g : PredRef) (ra rs : Reg) (imm : Int) : EncodeWord.Statement (.swm g ra rs imm) :=
  ⟨wordHead_STT (l := false) g ra rs imm (by decide), rfl, fun _ => rfl⟩

theorem EncodeWord.shs (g : PredRef) (ra rs : Reg) (imm : Int) : EncodeWord.Statement (.shs g ra rs imm) :=
  ⟨wordHead_STT (l := false) g ra rs imm (by decide), rfl, fun _ => rfl⟩

theorem EncodeWord.shl (g : PredRef) (ra rs : Reg) (imm : Int) : EncodeWord.Statement (.shl g ra rs imm) :=
  ⟨wordHead_STT (l := false) g ra rs imm (by decide), rfl, fun _ => rfl⟩

theorem EncodeWord.shc (g : PredRef) (ra rs : Reg) (imm : Int) : EncodeWord.Statement (.shc g ra rs imm) :=
  ⟨wordHead_STT (l := false) g ra rs imm (by decide), rfl, fun _ => rfl⟩

theorem EncodeWord.shm (g : PredRef) (ra rs : Reg) (imm : Int) : EncodeWord.Statement (.shm g ra rs imm) :=
  ⟨wordHead_STT (l := false) g ra rs imm (by decide), rfl, fun _ => rfl⟩

theorem EncodeWord.sbs (g : PredRef) (ra rs : Reg) (imm : Int) : EncodeWord.Statement (.sbs g ra rs imm) :=
  ⟨wordHead_STT (l := false) g ra rs imm (by decide), rfl, fun _ => rfl⟩

theorem EncodeWord.sbl (g : PredRef) (ra rs : Reg) (imm : Int) : EncodeWord.Statement (.sbl g ra rs imm) :=
  ⟨wordHead_STT (l := false) g ra rs imm (by decide), rfl, fun _ => rfl⟩

theorem EncodeWord.sbc (g : PredRef) (ra rs : Reg) (imm : Int) : EncodeWord.Statement (.sbc g ra rs imm) :=
  ⟨wordHead_STT (l := false) g ra rs imm (by decide), rfl, fun _ => rfl⟩

theorem EncodeWord.sbm (g : PredRef) (ra rs : Reg) (imm : Int) : EncodeWord.Statement (.sbm g ra rs imm) :=
  ⟨wordHead_STT (l := false) g ra rs imm (by decide), rfl, fun _ => rfl⟩

theorem EncodeWord.sresI (g : PredRef) (imm : Nat) : EncodeWord.Statement (.sresI g imm) :=
  ⟨wordHead_STCi (l := false) g imm (by decide), rfl, fun _ => rfl⟩

theorem EncodeWord.sensI (g : PredRef) (imm : Nat) : EncodeWord.Statement (.sensI g imm) :=
  ⟨wordHead_STCi (l := false) g imm (by decide), rfl, fun _ => rfl⟩

theorem EncodeWord.sfreeI (g : PredRef) (imm : Nat) : EncodeWord.Statement (.sfreeI g imm) :=
  ⟨wordHead_STCi (l := false) g imm (by decide), rfl, fun _ => rfl⟩

theorem EncodeWord.sspillI (g : PredRef) (imm : Nat) : EncodeWord.Statement (.sspillI g imm) :=
  ⟨wordHead_STCi (l := false) g imm (by decide), rfl, fun _ => rfl⟩

theorem EncodeWord.sensR (g : PredRef) (rs : Reg) : EncodeWord.Statement (.sensR g rs) :=
  ⟨wordHead_STCr (l := false) g rs (by decide), rfl, fun _ => rfl⟩

theorem EncodeWord.sspillR (g : PredRef) (rs : Reg) : EncodeWord.Statement (.sspillR g rs) :=
  ⟨wordHead_STCr (l := false) g rs (by decide), rfl, fun _ => rfl⟩

theorem EncodeWord.call (g : PredRef) (d : Bool) (imm : Nat) : EncodeWord.Statement (.call g d imm) :=
  ⟨wordHead_CFLi (l := false) g d imm (by decide), rfl, fun _ => rfl⟩

theorem EncodeWord.br (g : PredRef) (d : Bool) (imm : Int) : EncodeWord.Statement (.br g d imm) :=
  ⟨wordHead_CFLz (l := false) g d imm (by decide), rfl, fun _ => rfl⟩

theorem EncodeWord.brcf (g : PredRef) (d : Bool) (imm : Nat) : EncodeWord.Statement (.brcf g d imm) :=
  ⟨wordHead_CFLi (l := false) g d imm (by decide), rfl, fun _ => rfl⟩

theorem EncodeWord.trap (g : PredRef) (imm : Nat) : EncodeWord.Statement (.trap g imm) :=
  ⟨wordHead_CFLi (l := false) g false imm (by decide), rfl, fun _ => rfl⟩

theorem EncodeWord.ret (g : PredRef) (d : Bool) : EncodeWord.Statement (.ret g d) :=
  ⟨wordHead_CFLri (l := false) g d (by decide), rfl, fun _ => rfl⟩

theorem EncodeWord.xret (g : PredRef) (d : Bool) : EncodeWord.Statement (.xret g d) :=
  ⟨wordHead_CFLri (l := false) g d (by decide), rfl, fun _ => rfl⟩

theorem EncodeWord.callr (g : PredRef) (d : Bool) (rs : Reg) : EncodeWord.Statement (.callr g d rs) :=
  ⟨wordHead_CFLrs (l := false) g d rs (by decide), rfl, fun _ => rfl⟩

theorem EncodeWord.brr (g : PredRef) (d : Bool) (rs : Reg) : EncodeWord.Statement (.brr g d rs) :=
  ⟨wordHead_CFLrs (l := false) g d rs (by decide), rfl, fun _ => rfl⟩

theorem EncodeWord.brcfr (g : PredRef) (d : Bool) (rs : Reg) : EncodeWord.Statement (.brcfr g d rs) :=
  ⟨wordHead_CFLrs (l := false) g d rs (by decide), rfl, fun _ => rfl⟩

theorem EncodeWord.brcfrPair (g : PredRef) (d : Bool) (rs1 rs2 : Reg) : EncodeWord.Statement (.brcfrPair g d rs1 rs2) :=
  ⟨wordHead_CFLrt (l := false) g d rs1 rs2 (by decide), rfl, fun _ => rfl⟩

end Sys2Proof.Laws
end

