-- ==== Sys2Proof/Machine/Asm.lean ====
section
/-! DEFINITION. Assembler syntax (rule R94) and pseudo-instructions (rule R95). No step of the machine uses this file.

Braces and the exclamation mark stand as characters by their code. An instruction is printed with the field values its
constructor holds: a branch target is the immediate, not a label. -/

namespace Sys2Proof

/-! ### Pseudo-instructions (rule R95) -/

/-- The always-true guard `(p0)`. -/
def PredRef.always : PredRef := ⟨false, 0⟩

/-- A positive predicate operand `p<i>`. -/
def PredRef.pos (i : PReg) : PredRef := ⟨false, i⟩

/-- The pseudo-instructions of rule R95, each with its guard. -/
inductive Pseudo where
  | nop (g : PredRef)
  | mov (g : PredRef) (rd rs : Reg)
  | li (g : PredRef) (rd : Reg) (imm : Word)
  | neg (g : PredRef) (rd rs : Reg)
  | not (g : PredRef) (rd rs : Reg)
  | clr (g : PredRef) (rd : Reg)
  | pmov (g : PredRef) (pd : PReg) (ps : PredRef)
  | pnot (g : PredRef) (pd : PReg) (ps : PredRef)
  | pset (g : PredRef) (pd : PReg)
  | pclr (g : PredRef) (pd : PReg)
deriving DecidableEq, Repr

/-- The second operand of rule R94's `add rd = rs1, imm`: the 12-bit form where the value fits, else the long form. -/
def addImm (g : PredRef) (rd rs1 : Reg) (imm : Word) : Instr :=
  if imm.toNat < 4096 then .addI g rd rs1 imm.toNat else .addL g rd rs1 imm

/-- The expansions of rule R95's table. -/
def Pseudo.expand : Pseudo → Instr
  | .nop g => .subI g 0 0 0
  | .mov g rd rs => .addI g rd rs 0
  | .li g rd imm => addImm g rd 0 imm
  | .neg g rd rs => .subR g rd 0 rs
  | .not g rd rs => .norR g rd rs 0
  | .clr g rd => .addI g rd 0 0
  | .pmov g pd ps => .por g pd ps ps
  | .pnot g pd ps => .pxor g pd ps .always
  | .pset g pd => .por g pd .always .always
  | .pclr g pd => .pxor g pd .always .always

/-! ### Printing (rule R94) -/

/-- `r<i>`. -/
def showReg (i : Reg) : String := "r" ++ toString i.toNat

/-- `p<i>`. -/
def showPReg (i : PReg) : String := "p" ++ toString i.toNat

/-- A special register by its name in rule R16's table, the indices of rule R5's values. -/
def showSReg (i : SReg) : String :=
  match i.toNat with
  | 2 => "sl"
  | 3 => "sh"
  | 5 => "ss"
  | 6 => "st"
  | 7 => "srb"
  | 8 => "sro"
  | 9 => "sxb"
  | 10 => "sxo"
  | n => "s" ++ toString n

/-- A predicate operand, with the exclamation mark where it is negated. -/
def showPred (p : PredRef) : String := (if p.neg then String.singleton (Char.ofNat 33) else "") ++ showPReg p.idx

/-- The guard prefix; the guard `(p0)` is omitted. -/
def showGuard (g : PredRef) : String := if g = .always then "" else "(" ++ showPred g ++ ") "

/-- `mnemonic rd = a, b`. -/
def showDest (g : PredRef) (m d : String) (srcs : List String) : String :=
  showGuard g ++ m ++ " " ++ d ++ " = " ++ ", ".intercalate srcs

/-- `mnemonic a, b`, and the bare mnemonic where there is no operand. -/
def showPlain (g : PredRef) (m : String) (srcs : List String) : String :=
  showGuard g ++ m ++ (if srcs.isEmpty then "" else " " ++ ", ".intercalate srcs)

/-- `[ra + imm]`. -/
def showAddr (ra : Reg) (imm : Int) : String :=
  "[" ++ showReg ra ++ " + " ++ (if imm < 0 then "(" ++ toString imm ++ ")" else toString imm) ++ "]"

/-- A load. -/
def showLoad (g : PredRef) (m : String) (rd ra : Reg) (imm : Int) : String := showDest g m (showReg rd) [showAddr ra imm]

/-- A store. -/
def showStore (g : PredRef) (m : String) (ra rs : Reg) (imm : Int) : String :=
  showDest g m (showAddr ra imm) [showReg rs]

/-- A control transfer: the non-delayed form has the suffix `nd`. -/
def showCfl (g : PredRef) (m : String) (d : Bool) (srcs : List String) : String :=
  showPlain g (if d then m else m ++ "nd") srcs

/-- An instruction in the syntax of rule R94. -/
def Instr.render : Instr → String
  | .addI g rd rs1 imm => showDest g "add" (showReg rd) [showReg rs1, toString imm]
  | .subI g rd rs1 imm => showDest g "sub" (showReg rd) [showReg rs1, toString imm]
  | .xorI g rd rs1 imm => showDest g "xor" (showReg rd) [showReg rs1, toString imm]
  | .slI g rd rs1 imm => showDest g "sl" (showReg rd) [showReg rs1, toString imm]
  | .srI g rd rs1 imm => showDest g "sr" (showReg rd) [showReg rs1, toString imm]
  | .sraI g rd rs1 imm => showDest g "sra" (showReg rd) [showReg rs1, toString imm]
  | .orI g rd rs1 imm => showDest g "or" (showReg rd) [showReg rs1, toString imm]
  | .andI g rd rs1 imm => showDest g "and" (showReg rd) [showReg rs1, toString imm]
  | .addR g rd rs1 rs2 => showDest g "add" (showReg rd) [showReg rs1, showReg rs2]
  | .subR g rd rs1 rs2 => showDest g "sub" (showReg rd) [showReg rs1, showReg rs2]
  | .xorR g rd rs1 rs2 => showDest g "xor" (showReg rd) [showReg rs1, showReg rs2]
  | .slR g rd rs1 rs2 => showDest g "sl" (showReg rd) [showReg rs1, showReg rs2]
  | .srR g rd rs1 rs2 => showDest g "sr" (showReg rd) [showReg rs1, showReg rs2]
  | .sraR g rd rs1 rs2 => showDest g "sra" (showReg rd) [showReg rs1, showReg rs2]
  | .orR g rd rs1 rs2 => showDest g "or" (showReg rd) [showReg rs1, showReg rs2]
  | .andR g rd rs1 rs2 => showDest g "and" (showReg rd) [showReg rs1, showReg rs2]
  | .norR g rd rs1 rs2 => showDest g "nor" (showReg rd) [showReg rs1, showReg rs2]
  | .shaddR g rd rs1 rs2 => showDest g "shadd" (showReg rd) [showReg rs1, showReg rs2]
  | .shadd2R g rd rs1 rs2 => showDest g "shadd2" (showReg rd) [showReg rs1, showReg rs2]
  | .addL g rd rs1 imm => showDest g "add" (showReg rd) [showReg rs1, toString imm.toNat]
  | .subL g rd rs1 imm => showDest g "sub" (showReg rd) [showReg rs1, toString imm.toNat]
  | .xorL g rd rs1 imm => showDest g "xor" (showReg rd) [showReg rs1, toString imm.toNat]
  | .slL g rd rs1 imm => showDest g "sl" (showReg rd) [showReg rs1, toString imm.toNat]
  | .srL g rd rs1 imm => showDest g "sr" (showReg rd) [showReg rs1, toString imm.toNat]
  | .sraL g rd rs1 imm => showDest g "sra" (showReg rd) [showReg rs1, toString imm.toNat]
  | .orL g rd rs1 imm => showDest g "or" (showReg rd) [showReg rs1, toString imm.toNat]
  | .andL g rd rs1 imm => showDest g "and" (showReg rd) [showReg rs1, toString imm.toNat]
  | .norL g rd rs1 imm => showDest g "nor" (showReg rd) [showReg rs1, toString imm.toNat]
  | .shaddL g rd rs1 imm => showDest g "shadd" (showReg rd) [showReg rs1, toString imm.toNat]
  | .shadd2L g rd rs1 imm => showDest g "shadd2" (showReg rd) [showReg rs1, toString imm.toNat]
  | .mul g rs1 rs2 => showPlain g "mul" [showReg rs1, showReg rs2]
  | .mulu g rs1 rs2 => showPlain g "mulu" [showReg rs1, showReg rs2]
  | .cmpeqR g pd rs1 rs2 => showDest g "cmpeq" (showPReg pd) [showReg rs1, showReg rs2]
  | .cmpneqR g pd rs1 rs2 => showDest g "cmpneq" (showPReg pd) [showReg rs1, showReg rs2]
  | .cmpltR g pd rs1 rs2 => showDest g "cmplt" (showPReg pd) [showReg rs1, showReg rs2]
  | .cmpleR g pd rs1 rs2 => showDest g "cmple" (showPReg pd) [showReg rs1, showReg rs2]
  | .cmpultR g pd rs1 rs2 => showDest g "cmpult" (showPReg pd) [showReg rs1, showReg rs2]
  | .cmpuleR g pd rs1 rs2 => showDest g "cmpule" (showPReg pd) [showReg rs1, showReg rs2]
  | .btestR g pd rs1 rs2 => showDest g "btest" (showPReg pd) [showReg rs1, showReg rs2]
  | .cmpeqI g pd rs1 imm => showDest g "cmpeq" (showPReg pd) [showReg rs1, toString imm]
  | .cmpneqI g pd rs1 imm => showDest g "cmpneq" (showPReg pd) [showReg rs1, toString imm]
  | .cmpltI g pd rs1 imm => showDest g "cmplt" (showPReg pd) [showReg rs1, toString imm]
  | .cmpleI g pd rs1 imm => showDest g "cmple" (showPReg pd) [showReg rs1, toString imm]
  | .cmpultI g pd rs1 imm => showDest g "cmpult" (showPReg pd) [showReg rs1, toString imm]
  | .cmpuleI g pd rs1 imm => showDest g "cmpule" (showPReg pd) [showReg rs1, toString imm]
  | .btestI g pd rs1 imm => showDest g "btest" (showPReg pd) [showReg rs1, toString imm]
  | .por g pd ps1 ps2 => showDest g "por" (showPReg pd) [showPred ps1, showPred ps2]
  | .pand g pd ps1 ps2 => showDest g "pand" (showPReg pd) [showPred ps1, showPred ps2]
  | .pxor g pd ps1 ps2 => showDest g "pxor" (showPReg pd) [showPred ps1, showPred ps2]
  | .bcopy g rd rs1 imm ps => showDest g "bcopy" (showReg rd) [showReg rs1, toString imm, showPred ps]
  | .mts g sd rs1 => showDest g "mts" (showSReg sd) [showReg rs1]
  | .mfs g rd ss => showDest g "mfs" (showReg rd) [showSReg ss]
  | .lws g rd ra imm => showLoad g "lws" rd ra imm
  | .lwl g rd ra imm => showLoad g "lwl" rd ra imm
  | .lwc g rd ra imm => showLoad g "lwc" rd ra imm
  | .lwm g rd ra imm => showLoad g "lwm" rd ra imm
  | .lhs g rd ra imm => showLoad g "lhs" rd ra imm
  | .lhl g rd ra imm => showLoad g "lhl" rd ra imm
  | .lhc g rd ra imm => showLoad g "lhc" rd ra imm
  | .lhm g rd ra imm => showLoad g "lhm" rd ra imm
  | .lbs g rd ra imm => showLoad g "lbs" rd ra imm
  | .lbl g rd ra imm => showLoad g "lbl" rd ra imm
  | .lbc g rd ra imm => showLoad g "lbc" rd ra imm
  | .lbm g rd ra imm => showLoad g "lbm" rd ra imm
  | .lhus g rd ra imm => showLoad g "lhus" rd ra imm
  | .lhul g rd ra imm => showLoad g "lhul" rd ra imm
  | .lhuc g rd ra imm => showLoad g "lhuc" rd ra imm
  | .lhum g rd ra imm => showLoad g "lhum" rd ra imm
  | .lbus g rd ra imm => showLoad g "lbus" rd ra imm
  | .lbul g rd ra imm => showLoad g "lbul" rd ra imm
  | .lbuc g rd ra imm => showLoad g "lbuc" rd ra imm
  | .lbum g rd ra imm => showLoad g "lbum" rd ra imm
  | .sws g ra rs imm => showStore g "sws" ra rs imm
  | .swl g ra rs imm => showStore g "swl" ra rs imm
  | .swc g ra rs imm => showStore g "swc" ra rs imm
  | .swm g ra rs imm => showStore g "swm" ra rs imm
  | .shs g ra rs imm => showStore g "shs" ra rs imm
  | .shl g ra rs imm => showStore g "shl" ra rs imm
  | .shc g ra rs imm => showStore g "shc" ra rs imm
  | .shm g ra rs imm => showStore g "shm" ra rs imm
  | .sbs g ra rs imm => showStore g "sbs" ra rs imm
  | .sbl g ra rs imm => showStore g "sbl" ra rs imm
  | .sbc g ra rs imm => showStore g "sbc" ra rs imm
  | .sbm g ra rs imm => showStore g "sbm" ra rs imm
  | .sresI g imm => showPlain g "sres" [toString imm]
  | .sensI g imm => showPlain g "sens" [toString imm]
  | .sfreeI g imm => showPlain g "sfree" [toString imm]
  | .sspillI g imm => showPlain g "sspill" [toString imm]
  | .sensR g rs => showPlain g "sens" [showReg rs]
  | .sspillR g rs => showPlain g "sspill" [showReg rs]
  | .call g d imm => showCfl g "call" d [toString imm]
  | .br g d imm => showCfl g "br" d [toString imm]
  | .brcf g d imm => showCfl g "brcf" d [toString imm]
  | .trap g imm => showPlain g "trap" [toString imm]
  | .ret g d => showCfl g "ret" d []
  | .xret g d => showCfl g "xret" d []
  | .callr g d rs => showCfl g "callr" d [showReg rs]
  | .brr g d rs => showCfl g "brr" d [showReg rs]
  | .brcfr g d rs => showCfl g "brcfr" d [showReg rs]
  | .brcfrPair g d rs1 rs2 => showCfl g "brcfr" d [showReg rs1, showReg rs2]

/-- A bundle in the syntax of rule R94: two instructions stand in braces. -/
def renderBundle (i0 : Instr) (i1 : Option Instr) : String :=
  match i1 with
  | none => i0.render
  | some i => String.singleton (Char.ofNat 123) ++ " " ++ i0.render ++ " ; " ++ i.render ++ " " ++
      String.singleton (Char.ofNat 125)

end Sys2Proof
end

