-- ==== Sys2Proof/Tests/Slice0.lean ====
section
/-! SUPPORT. The model's own tests, each a named theorem closed by `decide` or `rfl`. Expected results come from the spec:
words are written out field by field from the format tables of 30_encoding.md and the codes of the opcode table, values
are those of 95_test_vectors.md where it has one (its section is named), else worked out from the rule that is cited.
The theorems named `witness_…` show, for each statement of Certificates/Slice0/Obligations.lean that has hypotheses, a
state and operands that meet all of them together, clause by clause. -/

namespace Sys2Proof.Tests

open Sys2Proof Sys2Proof.Machine

set_option maxRecDepth 100000

/-! ### Helpers -/

/-- A property of the next state; false where there is none. -/
def nextWith (r : Result) (f : State → Bool) : Bool :=
  match r with
  | .next s => f s
  | _ => false

/-- A value taken from the next state. -/
def after {α : Type} (r : Result) (f : State → α) : Option α :=
  match r with
  | .next s => some (f s)
  | _ => none

theorem exists_next {r : Result} {f : State → Bool} (h : nextWith r f = true) : ∃ t, r = .next t ∧ f t = true := by
  cases r with
  | next s => exact ⟨s, rfl, h⟩
  | fault _ => cases h
  | refused _ => cases h

/-- A fault and the number it carries, by its name in rule R351. -/
def stopped (r : Result) : Option (String × Nat) :=
  match r with
  | .next _ => none
  | .refused _ => some ("refused", 0)
  | .fault (.unaligned a _) => some ("Unaligned", a.toNat)
  | .fault (.illegalPC a _) => some ("IllegalPC", a.toNat)
  | .fault (.codeExceeded a _ _) => some ("CodeExceeded", a.toNat)
  | .fault (.stackExceeded a _) => some ("StackExceeded", a.toNat)
  | .fault (.illegal w _ _) => some ("Illegal", w.toNat)
  | .fault (.unmapped a _) => some ("Unmapped", a.toNat)
  | .fault (.halt a _) => some ("Halt", a.toNat)

/-- Every listed pair of words decodes to the instruction beside it. -/
def decodesAll (l : List (Word × Word × Instr)) : Bool :=
  l.all fun x =>
    match decode x.1 x.2.1 with
    | .ok i => decide (i = x.2.2)
    | .error _ => false

/-- Every listed word is rejected. -/
def rejectsAll (l : List Word) : Bool :=
  l.all fun w =>
    match decode w 0 with
    | .ok _ => false
    | .error _ => true

/-- The always-true guard. -/
def g0 : PredRef := ⟨false, 0⟩

/-- The reset state with some general registers set. -/
def withRegs (l : List (Reg × Word)) : State := l.foldl (fun s p => s.writeGpr p.1 p.2) State.reset

/-- The reset state with `r2`, `r3` set. -/
def ab (a b : Word) : State := withRegs [(2, a), (3, b)]

/-- What an instruction run alone (decode, execute, commit) leaves in a register. -/
def gprOf (i : Instr) (s : State) (r : Reg) : Option Word := after (alone i Slot.bubble s) (·.readGpr r)

/-- The value of `f r1 = r2, r3` for register values `a`, `b`. -/
def rr (c : PredRef → Reg → Reg → Reg → Instr) (a b : Word) : Option Word := gprOf (c g0 1 2 3) (ab a b) 1

/-- The value of `f r1 = r2, imm` in the 12-bit form. -/
def ri (c : PredRef → Reg → Reg → Nat → Instr) (a : Word) (n : Nat) : Option Word := gprOf (c g0 1 2 n) (ab a 0) 1

/-- The value of `f r1 = r2, imm` in the 32-bit form. -/
def rl (c : PredRef → Reg → Reg → Word → Instr) (a b : Word) : Option Word := gprOf (c g0 1 2 b) (ab a 0) 1

/-- What a compare of register values leaves in `p1`. -/
def cr (c : PredRef → PReg → Reg → Reg → Instr) (a b : Word) : Option Bool :=
  after (alone (c g0 1 2 3) Slot.bubble (ab a b)) (·.readPred 1)

/-- What a compare with an immediate leaves in `p1`. -/
def ci (c : PredRef → PReg → Reg → Nat → Instr) (a : Word) (n : Nat) : Option Bool :=
  after (alone (c g0 1 2 n) Slot.bubble (ab a 0)) (·.readPred 1)

/-- A state with one slot in a stage, which is the one being invoked. -/
def inStage (st : Stage) (x : Slot) (s : State) : State :=
  { s with pipe := s.pipe.set st ⟨x, Slot.bubble⟩, cur := ⟨st, .s0⟩ }

/-- A slot whose guard is true. -/
def slotOn : Slot := { Slot.bubble with pred := true }

/-! ### Well-formed instructions (rules R61, R85; 95_test_vectors.md E) -/

theorem test_wf_imm12 : (Instr.addI g0 1 2 4096).wf = false ∧ (Instr.addI g0 1 2 4095).wf = true := by decide
theorem test_wf_imm5_compare : (Instr.btestI g0 1 2 32).wf = false ∧ (Instr.btestI g0 1 2 31).wf = true := by decide
theorem test_wf_imm5_bcopy : (Instr.bcopy g0 1 2 32 g0).wf = false ∧ (Instr.bcopy g0 1 2 31 g0).wf = true := by decide
theorem test_wf_imm7_load : (Instr.lwc g0 1 2 64).wf = false ∧ (Instr.lwc g0 1 2 (-65)).wf = false ∧
    (Instr.lwc g0 1 2 63).wf = true ∧ (Instr.lwc g0 1 2 (-64)).wf = true := by decide
theorem test_wf_imm7_store : (Instr.swc g0 1 2 64).wf = false ∧ (Instr.swc g0 1 2 (-65)).wf = false := by decide
theorem test_wf_imm18 : (Instr.sresI g0 0x40000).wf = false ∧ (Instr.sresI g0 0x3FFFF).wf = true := by decide
theorem test_wf_imm22 : (Instr.call g0 true 0x400000).wf = false ∧ (Instr.brcf g0 true 0x400000).wf = false ∧
    (Instr.trap g0 0x400000).wf = false ∧ (Instr.call g0 true 0x3FFFFF).wf = true := by decide
theorem test_wf_imm22_signed : (Instr.br g0 true 2097152).wf = false ∧ (Instr.br g0 true (-2097153)).wf = false ∧
    (Instr.br g0 true 2097151).wf = true ∧ (Instr.br g0 true (-2097152)).wf = true := by decide

/-- Rules R62, R63: an ill-formed instruction in either slot, a variant slot 1 does not take, a second instruction beside
a long one. -/
theorem test_wf_bundle : bundleWf (.addI g0 1 2 4096) none = false ∧
    bundleWf (.addI g0 1 2 0) (some (.addI g0 3 4 4096)) = false ∧
    bundleWf (.addI g0 1 2 0) (some (.lwc g0 3 4 0)) = false ∧
    bundleWf (.addL g0 1 2 0) (some (.addI g0 3 4 0)) = false ∧
    bundleWf (.lwc g0 3 4 0) (some (.addI g0 1 2 0)) = true := by decide

/-! ### Decoding: words written out field by field -/

/-- Format `ALUi`: the layout of rule R65, the codes of the table. -/
theorem test_decode_ALUi : decodesAll [
    (0b0_1_101_00000_00011_00101_100110100101, 0x0, .addI ⟨true, 5⟩ 3 5 2469),
    (0b0_0_000_00001_11110_11100_111111111111, 0x0, .subI ⟨false, 0⟩ 30 28 4095),
    (0b0_0_011_00010_10001_01001_000000000001, 0x0, .xorI ⟨false, 3⟩ 17 9 1),
    (0b0_1_111_00011_01000_10110_110000000011, 0x0, .slI ⟨true, 7⟩ 8 22 3075),
    (0b0_1_101_00100_11110_11100_100110100101, 0x0, .srI ⟨true, 5⟩ 30 28 2469),
    (0b0_0_000_00101_10001_01001_111111111111, 0x0, .sraI ⟨false, 0⟩ 17 9 4095),
    (0b0_0_011_00110_01000_10110_000000000001, 0x0, .orI ⟨false, 3⟩ 8 22 1),
    (0b0_1_111_00111_00011_00101_110000000011, 0x0, .andI ⟨true, 7⟩ 3 5 3075)] = true := by decide

/-- Format `ALUr`: the layout of rule R67, the codes of the table. -/
theorem test_decode_ALUr : decodesAll [
    (0b0_1_101_01000_10001_01001_01010_000_0000, 0x0, .addR ⟨true, 5⟩ 17 9 10),
    (0b0_0_000_01000_01000_10110_10101_000_0001, 0x0, .subR ⟨false, 0⟩ 8 22 21),
    (0b0_0_011_01000_00011_00101_00110_000_0010, 0x0, .xorR ⟨false, 3⟩ 3 5 6),
    (0b0_1_111_01000_11110_11100_11001_000_0011, 0x0, .slR ⟨true, 7⟩ 30 28 25),
    (0b0_1_101_01000_01000_10110_10101_000_0100, 0x0, .srR ⟨true, 5⟩ 8 22 21),
    (0b0_0_000_01000_00011_00101_00110_000_0101, 0x0, .sraR ⟨false, 0⟩ 3 5 6),
    (0b0_0_011_01000_11110_11100_11001_000_0110, 0x0, .orR ⟨false, 3⟩ 30 28 25),
    (0b0_1_111_01000_10001_01001_01010_000_0111, 0x0, .andR ⟨true, 7⟩ 17 9 10),
    (0b0_1_101_01000_00011_00101_00110_000_1011, 0x0, .norR ⟨true, 5⟩ 3 5 6),
    (0b0_0_000_01000_11110_11100_11001_000_1100, 0x0, .shaddR ⟨false, 0⟩ 30 28 25),
    (0b0_0_011_01000_10001_01001_01010_000_1101, 0x0, .shadd2R ⟨false, 3⟩ 17 9 10)] = true := by decide

/-- Format `ALUl`: the layout of rule R66, the codes of the table. -/
theorem test_decode_ALUl : decodesAll [
    (0b1_1_111_11111_01000_10110_00000_000_0000, 0x1402, .addL ⟨true, 7⟩ 8 22 0x1402),
    (0b1_1_101_11111_11110_11100_00000_000_0001, 0x12345678, .subL ⟨true, 5⟩ 30 28 0x12345678),
    (0b1_0_000_11111_10001_01001_00000_000_0010, 0xFFFFFFFF, .xorL ⟨false, 0⟩ 17 9 0xFFFFFFFF),
    (0b1_0_011_11111_01000_10110_00000_000_0011, 0x80000001, .slL ⟨false, 3⟩ 8 22 0x80000001),
    (0b1_1_111_11111_00011_00101_00000_000_0100, 0x1402, .srL ⟨true, 7⟩ 3 5 0x1402),
    (0b1_1_101_11111_10001_01001_00000_000_0101, 0x12345678, .sraL ⟨true, 5⟩ 17 9 0x12345678),
    (0b1_0_000_11111_01000_10110_00000_000_0110, 0xFFFFFFFF, .orL ⟨false, 0⟩ 8 22 0xFFFFFFFF),
    (0b1_0_011_11111_00011_00101_00000_000_0111, 0x80000001, .andL ⟨false, 3⟩ 3 5 0x80000001),
    (0b1_1_111_11111_11110_11100_00000_000_1011, 0x1402, .norL ⟨true, 7⟩ 30 28 0x1402),
    (0b1_1_101_11111_01000_10110_00000_000_1100, 0x12345678, .shaddL ⟨true, 5⟩ 8 22 0x12345678),
    (0b1_0_000_11111_00011_00101_00000_000_1101, 0xFFFFFFFF, .shadd2L ⟨false, 0⟩ 3 5 0xFFFFFFFF)] = true := by decide

/-- Format `ALUm`: the layout of rule R68, the codes of the table. -/
theorem test_decode_ALUm : decodesAll [
    (0b0_0_011_01000_00000_11100_11001_010_0000, 0x0, .mul ⟨false, 3⟩ 28 25),
    (0b0_1_111_01000_00000_01001_01010_010_0001, 0x0, .mulu ⟨true, 7⟩ 9 10)] = true := by decide

/-- Format `ALUc`: the layout of rule R69, the codes of the table. -/
theorem test_decode_ALUc : decodesAll [
    (0b0_1_101_01000_00_110_00101_00110_011_0000, 0x0, .cmpeqR ⟨true, 5⟩ 6 5 6),
    (0b0_0_000_01000_00_011_11100_11001_011_0001, 0x0, .cmpneqR ⟨false, 0⟩ 3 28 25),
    (0b0_0_011_01000_00_101_01001_01010_011_0010, 0x0, .cmpltR ⟨false, 3⟩ 5 9 10),
    (0b0_1_111_01000_00_001_10110_10101_011_0011, 0x0, .cmpleR ⟨true, 7⟩ 1 22 21),
    (0b0_1_101_01000_00_011_11100_11001_011_0100, 0x0, .cmpultR ⟨true, 5⟩ 3 28 25),
    (0b0_0_000_01000_00_101_01001_01010_011_0101, 0x0, .cmpuleR ⟨false, 0⟩ 5 9 10),
    (0b0_0_011_01000_00_001_10110_10101_011_0110, 0x0, .btestR ⟨false, 3⟩ 1 22 21)] = true := by decide

/-- Format `ALUci`: the layout of rule R70, the codes of the table. -/
theorem test_decode_ALUci : decodesAll [
    (0b0_1_111_01000_00_110_00101_01100_110_0000, 0x0, .cmpeqI ⟨true, 7⟩ 6 5 12),
    (0b0_1_101_01000_00_101_01001_10011_110_0001, 0x0, .cmpneqI ⟨true, 5⟩ 5 9 19),
    (0b0_0_000_01000_00_001_10110_11111_110_0010, 0x0, .cmpltI ⟨false, 0⟩ 1 22 31),
    (0b0_0_011_01000_00_110_00101_00001_110_0011, 0x0, .cmpleI ⟨false, 3⟩ 6 5 1),
    (0b0_1_111_01000_00_011_11100_01100_110_0100, 0x0, .cmpultI ⟨true, 7⟩ 3 28 12),
    (0b0_1_101_01000_00_001_10110_10011_110_0101, 0x0, .cmpuleI ⟨true, 5⟩ 1 22 19),
    (0b0_0_000_01000_00_110_00101_11111_110_0110, 0x0, .btestI ⟨false, 0⟩ 6 5 31)] = true := by decide

/-- Format `ALUp`: the layout of rule R71, the codes of the table. -/
theorem test_decode_ALUp : decodesAll [
    (0b0_0_011_01000_00_011_0_1010_0_0100_100_0110, 0x0, .por ⟨false, 3⟩ 3 ⟨true, 2⟩ ⟨false, 4⟩),
    (0b0_1_111_01000_00_101_0_1010_0_0100_100_0111, 0x0, .pand ⟨true, 7⟩ 5 ⟨true, 2⟩ ⟨false, 4⟩),
    (0b0_1_101_01000_00_110_0_1010_0_0100_100_1010, 0x0, .pxor ⟨true, 5⟩ 6 ⟨true, 2⟩ ⟨false, 4⟩)] = true := by decide

/-- Format `ALUb`: the layout of rule R72, the codes of the table. -/
theorem test_decode_ALUb : decodesAll [
    (0b0_0_000_01000_11110_11100_11111_101_1110, 0x0, .bcopy ⟨false, 0⟩ 30 28 31 ⟨true, 6⟩)] = true := by decide

/-- Format `SPCt`: the layout of rule R73, the codes of the table. -/
theorem test_decode_SPCt : decodesAll [
    (0b0_0_011_01001_00000_01001_00000_010_1001, 0x0, .mts ⟨false, 3⟩ 9 9)] = true := by decide

/-- Format `SPCf`: the layout of rule R74, the codes of the table. -/
theorem test_decode_SPCf : decodesAll [
    (0b0_1_111_01001_01000_0000000000_011_0010, 0x0, .mfs ⟨true, 7⟩ 8 2)] = true := by decide

/-- Format `LDT`: the layout of rule R75, the codes of the table. -/
theorem test_decode_LDT_1 : decodesAll [
    (0b0_1_101_01010_11110_11010_00000_1111101, 0x0, .lws ⟨true, 5⟩ 30 26 (-3)),
    (0b0_0_000_01010_10001_01100_00001_0111111, 0x0, .lwl ⟨false, 0⟩ 17 12 63),
    (0b0_0_011_01010_01000_10011_00010_1000000, 0x0, .lwc ⟨false, 3⟩ 8 19 (-64)),
    (0b0_1_111_01010_00011_00111_00011_0000101, 0x0, .lwm ⟨true, 7⟩ 3 7 5),
    (0b0_1_101_01010_10001_01100_00100_1111101, 0x0, .lhs ⟨true, 5⟩ 17 12 (-3)),
    (0b0_0_000_01010_01000_10011_00101_0111111, 0x0, .lhl ⟨false, 0⟩ 8 19 63),
    (0b0_0_011_01010_00011_00111_00110_1000000, 0x0, .lhc ⟨false, 3⟩ 3 7 (-64)),
    (0b0_1_111_01010_11110_11010_00111_0000101, 0x0, .lhm ⟨true, 7⟩ 30 26 5),
    (0b0_1_101_01010_01000_10011_01000_1111101, 0x0, .lbs ⟨true, 5⟩ 8 19 (-3)),
    (0b0_0_000_01010_00011_00111_01001_0111111, 0x0, .lbl ⟨false, 0⟩ 3 7 63),
    (0b0_0_011_01010_11110_11010_01010_1000000, 0x0, .lbc ⟨false, 3⟩ 30 26 (-64))] = true := by decide

/-- Format `LDT`: the layout of rule R75, the codes of the table. -/
theorem test_decode_LDT_2 : decodesAll [
    (0b0_1_111_01010_10001_01100_01011_0000101, 0x0, .lbm ⟨true, 7⟩ 17 12 5),
    (0b0_1_101_01010_00011_00111_01100_1111101, 0x0, .lhus ⟨true, 5⟩ 3 7 (-3)),
    (0b0_0_000_01010_11110_11010_01101_0111111, 0x0, .lhul ⟨false, 0⟩ 30 26 63),
    (0b0_0_011_01010_10001_01100_01110_1000000, 0x0, .lhuc ⟨false, 3⟩ 17 12 (-64)),
    (0b0_1_111_01010_01000_10011_01111_0000101, 0x0, .lhum ⟨true, 7⟩ 8 19 5),
    (0b0_1_101_01010_11110_11010_10000_1111101, 0x0, .lbus ⟨true, 5⟩ 30 26 (-3)),
    (0b0_0_000_01010_10001_01100_10001_0111111, 0x0, .lbul ⟨false, 0⟩ 17 12 63),
    (0b0_0_011_01010_01000_10011_10010_1000000, 0x0, .lbuc ⟨false, 3⟩ 8 19 (-64)),
    (0b0_1_111_01010_00011_00111_10011_0000101, 0x0, .lbum ⟨true, 7⟩ 3 7 5)] = true := by decide

/-- Format `STT`: the layout of rule R76, the codes of the table. -/
theorem test_decode_STT_1 : decodesAll [
    (0b0_1_101_01011_00000_01100_01110_1111011, 0x0, .sws ⟨true, 5⟩ 12 14 (-5)),
    (0b0_0_000_01011_00001_10011_11101_0111110, 0x0, .swl ⟨false, 0⟩ 19 29 62),
    (0b0_0_011_01011_00010_00111_01011_1000001, 0x0, .swc ⟨false, 3⟩ 7 11 (-63)),
    (0b0_1_111_01011_00011_11010_10100_0001001, 0x0, .swm ⟨true, 7⟩ 26 20 9),
    (0b0_1_101_01011_00100_10011_11101_1111011, 0x0, .shs ⟨true, 5⟩ 19 29 (-5)),
    (0b0_0_000_01011_00101_00111_01011_0111110, 0x0, .shl ⟨false, 0⟩ 7 11 62),
    (0b0_0_011_01011_00110_11010_10100_1000001, 0x0, .shc ⟨false, 3⟩ 26 20 (-63)),
    (0b0_1_111_01011_00111_01100_01110_0001001, 0x0, .shm ⟨true, 7⟩ 12 14 9),
    (0b0_1_101_01011_01000_00111_01011_1111011, 0x0, .sbs ⟨true, 5⟩ 7 11 (-5)),
    (0b0_0_000_01011_01001_11010_10100_0111110, 0x0, .sbl ⟨false, 0⟩ 26 20 62),
    (0b0_0_011_01011_01010_01100_01110_1000001, 0x0, .sbc ⟨false, 3⟩ 12 14 (-63))] = true := by decide

/-- Format `STT`: the layout of rule R76, the codes of the table. -/
theorem test_decode_STT_2 : decodesAll [
    (0b0_1_111_01011_01011_10011_11101_0001001, 0x0, .sbm ⟨true, 7⟩ 19 29 9)] = true := by decide

/-- Format `STCi`: the layout of rule R77, the codes of the table. -/
theorem test_decode_STCi : decodesAll [
    (0b0_1_101_01100_00_00_101010010100011011, 0x0, .sresI ⟨true, 5⟩ 173339),
    (0b0_0_000_01100_01_00_111111111111111111, 0x0, .sensI ⟨false, 0⟩ 262143),
    (0b0_0_011_01100_10_00_000000000000000001, 0x0, .sfreeI ⟨false, 3⟩ 1),
    (0b0_1_111_01100_11_00_010101010110101010, 0x0, .sspillI ⟨true, 7⟩ 87466)] = true := by decide

/-- Format `STCr`: the layout of rule R77, the codes of the table. -/
theorem test_decode_STCr : decodesAll [
    (0b0_1_101_01100_01_01_0_01110_000000000000, 0x0, .sensR ⟨true, 5⟩ 14),
    (0b0_0_000_01100_11_01_0_11101_000000000000, 0x0, .sspillR ⟨false, 0⟩ 29)] = true := by decide

/-- Format `CFLi`: the layout of rule R78, the codes of the table. -/
theorem test_decode_CFLi : decodesAll [
    (0b0_0_011_10_00_0_0000000000000000000011, 0x0, .call ⟨false, 3⟩ false 3),
    (0b0_1_111_10_01_1_0000000000000000000100, 0x0, .br ⟨true, 7⟩ true 4),
    (0b0_1_101_10_10_0_1010100101000110111100, 0x0, .brcf ⟨true, 5⟩ false 2773436),
    (0b0_0_000_10_11_0_1111111111111111111111, 0x0, .trap ⟨false, 0⟩ 4194303)] = true := by decide

/-- Format `CFLri`: the layout of rule R79, the codes of the table. -/
theorem test_decode_CFLri : decodesAll [
    (0b0_0_011_1100_0_000000000000000_000_00_00, 0x0, .ret ⟨false, 3⟩ false),
    (0b0_1_111_1100_1_000000000000000_000_00_01, 0x0, .xret ⟨true, 7⟩ true)] = true := by decide

/-- Format `CFLrs`: the layout of rule R79, the codes of the table. -/
theorem test_decode_CFLrs : decodesAll [
    (0b0_1_101_1100_0_00000_01011_00000_000_01_00, 0x0, .callr ⟨true, 5⟩ false 11),
    (0b0_0_000_1100_1_00000_10100_00000_000_01_01, 0x0, .brr ⟨false, 0⟩ true 20),
    (0b0_0_011_1100_0_00000_01110_00000_000_01_10, 0x0, .brcfr ⟨false, 3⟩ false 14)] = true := by decide

/-- Format `CFLrt`: the layout of rule R79, the codes of the table. -/
theorem test_decode_CFLrt : decodesAll [
    (0b0_1_111_1100_1_00000_10110_10101_000_10_10, 0x0, .brcfrPair ⟨true, 7⟩ true 22 21)] = true := by decide

/-- 95_test_vectors.md E: boundary values. -/
theorem test_decode_boundaries : decodesAll [
    (0x003FFFFF, 0, .addI g0 31 31 4095), (0x40400000, 0, .subI ⟨true, 0⟩ 0 0 0),
    (0x87C22000, 0x12345678, .addL g0 1 2 0x12345678), (0x87C2200D, 0xFFFFFFFF, .shadd2L g0 1 2 0xFFFFFFFF),
    (0x7A3FFF8D, 0, .shadd2R ⟨true, 7⟩ 31 31 31), (0x020EF7CA, 0, .pxor g0 7 ⟨true, 7⟩ ⟨true, 7⟩),
    (0x023FFFDF, 0, .bcopy g0 31 31 31 ⟨true, 7⟩), (0x02822040, 0, .lws g0 1 2 (-64)),
    (0x02C021C0, 0, .sws g0 2 3 (-64)), (0x04DFFFFF, 0, .br g0 true 2097151),
    (0x04E00000, 0, .br g0 true (-2097152)), (0x7E000001, 0, .xret ⟨true, 7⟩ false)] = true := by decide

/-- Bits a variant does not use are ignored (rule R64), the `d` bit of a trap among them (rule R283). -/
theorem test_decode_unused_bits : decodesAll [(0x05C00003, 0, .trap g0 3), (0x0640530A ||| 0x003E0070, 0,
    .brcfrPair g0 true 5 6), (0x06400001 ||| 0x003FFFF0, 0, .xret g0 true)] = true := by decide

/-- 95_test_vectors.md I and rules R84, R90: one word for each reserved code. -/
theorem test_decode_reserved : rejectsAll [0x03400000, 0x03800000, 0x03C00000, 0x06800000, 0x07800000, 0x02000010,
    0x02000070, 0x02000008, 0x0200000E, 0x02000022, 0x02000037, 0x02000067, 0x02000040, 0x02000048, 0x02400000,
    0x02400040, 0x02800A00, 0x02D80000, 0x03080000, 0x03043000, 0x03243000, 0x06000002, 0x0600000C, 0x87C00010,
    0x87C00008, 0x07C00000] = true := by decide

/-- Bundles (rules R62, R63): two instructions, a long immediate, and what slot 1 does not take. -/
theorem test_decode_bundle :
    (match decodeBundle true 0x80040006 0x00060007 with
      | .ok f => decide (f = ⟨.addI g0 2 0 6, some (.addI g0 3 0 7), 8⟩) | .error _ => false) = true ∧
    (match decodeBundle true 0x87C22000 0x80000000 with
      | .ok f => decide (f = ⟨.addL g0 1 2 0x80000000, none, 8⟩) | .error _ => false) = true ∧
    (match decodeBundle true 0x80040006 0x80060007 with
      | .ok _ => false | .error r => decide (r = .slot1Marked 0x80060007)) = true ∧
    (match decodeBundle true 0x80040006 0x02822101 with
      | .ok _ => false | .error r => decide (r = .slot1Variant 0x02822101)) = true ∧
    (match decodeBundle false 0x80040006 0x00060007 with
      | .ok _ => false | .error r => decide (r = .singleIssue 0x80040006)) = true := by decide

/-- 95_test_vectors.md E: what `encode` must refuse, and a word it must write. -/
theorem test_encode : encode (.addI g0 1 2 4096) = none ∧ encode (.lwc g0 1 2 64) = none ∧
    encode (.br g0 true 2097152) = none ∧ encode (.sresI g0 0x40000) = none ∧
    encode (.addL g0 5 0 0x1402) = some [0x87CA0000, 0x00001402] ∧
    encodeBundle (.addI g0 2 0 6) (some (.addI g0 3 0 7)) = some [0x80040006, 0x00060007] := by decide

/-- The host's numbering: the second word of a long instruction is bits 63 down to 32. -/
theorem test_decodeTableWord : decodeTableWord 32 0x02022180 = some (.addR g0 1 2 3) ∧
    decodeTableWord 64 0x0000140287CA0000 = some (.addL g0 5 0 0x1402) ∧ decodeTableWord 32 0x03400000 = none := by
  decide

/-- Rule R95: `nop` is the word `0x00400000`. -/
theorem test_pseudo : encode (Pseudo.nop g0).expand = some [0x00400000] ∧
    (Pseudo.li g0 1 0x1402).expand = .addL g0 1 0 0x1402 ∧ (Pseudo.li g0 1 7).expand = .addI g0 1 0 7 := by decide

/-! ### Arithmetic (95_test_vectors.md A) -/

theorem test_add : rr .addR 0xFFFFFFFF 0x1 = some 0x0 ∧
    rr .addR 0x7FFFFFFF 0x1 = some 0x80000000 ∧
    rr .addR 0x80000000 0x80000000 = some 0x0 ∧
    rl .addL 0x80000000 0x80000000 = some 0x0 ∧
    ri .addI 0x7FFFFFFF 1 = some 0x80000000 := by decide

theorem test_sub : rr .subR 0x0 0x1 = some 0xFFFFFFFF ∧
    rr .subR 0x80000000 0x1 = some 0x7FFFFFFF ∧
    rr .subR 0x5 0x5 = some 0x0 ∧
    rl .subL 0x5 0x5 = some 0x0 ∧
    ri .subI 0x5 5 = some 0x0 := by decide

theorem test_xor : rr .xorR 0xFF00FF00 0xFF00FF0 = some 0xF0F0F0F0 ∧
    rl .xorL 0xFF00FF00 0xFF00FF0 = some 0xF0F0F0F0 ∧
    ri .xorI 0xFF00FF0F 4095 = some 0xFF00F0F0 := by decide

theorem test_sl : rr .slR 0x1 0x1F = some 0x80000000 ∧
    rr .slR 0x1 0x20 = some 0x1 ∧
    rr .slR 0x80000001 0x21 = some 0x2 ∧
    rr .slR 0xFFFFFFFF 0x4 = some 0xFFFFFFF0 ∧
    rl .slL 0xFFFFFFFF 0x4 = some 0xFFFFFFF0 ∧
    ri .slI 0xFFFFFFFF 4 = some 0xFFFFFFF0 := by decide

theorem test_sr : rr .srR 0x80000000 0x1F = some 0x1 ∧
    rr .srR 0x80000000 0x20 = some 0x80000000 ∧
    rr .srR 0xF0000000 0x4 = some 0xF000000 ∧
    rl .srL 0xF0000000 0x4 = some 0xF000000 ∧
    ri .srI 0xF0000000 4 = some 0xF000000 := by decide

theorem test_sra : rr .sraR 0x80000000 0x1F = some 0xFFFFFFFF ∧
    rr .sraR 0x80000000 0x4 = some 0xF8000000 ∧
    rr .sraR 0x7FFFFFFF 0x1F = some 0x0 ∧
    rr .sraR 0xF0000000 0x24 = some 0xFF000000 ∧
    rl .sraL 0xF0000000 0x24 = some 0xFF000000 ∧
    ri .sraI 0xF0000000 36 = some 0xFF000000 := by decide

theorem test_or : rr .orR 0xF0F0F0F0 0xF0F0F0F = some 0xFFFFFFFF ∧
    rl .orL 0xF0F0F0F0 0xF0F0F0F = some 0xFFFFFFFF ∧
    ri .orI 0xF0F0F0F0 4095 = some 0xF0F0FFFF := by decide

theorem test_and : rr .andR 0xFFFF0000 0xFFFF00 = some 0xFF0000 ∧
    rl .andL 0xFFFF0000 0xFFFF00 = some 0xFF0000 ∧
    ri .andI 0xFFFF0F3C 4095 = some 0xF3C := by decide

theorem test_nor : rr .norR 0x0 0x0 = some 0xFFFFFFFF ∧
    rr .norR 0xF0F0F0F0 0xF0F0F00 = some 0xF ∧
    rl .norL 0xF0F0F0F0 0xF0F0F00 = some 0xF := by decide

theorem test_shadd : rr .shaddR 0x40000000 0x1 = some 0x80000001 ∧
    rr .shaddR 0x80000001 0x3 = some 0x5 ∧
    rl .shaddL 0x80000001 0x3 = some 0x5 := by decide

theorem test_shadd2 : rr .shadd2R 0x40000001 0x2 = some 0x6 ∧
    rr .shadd2R 0x3 0x5 = some 0x11 ∧
    rl .shadd2L 0x3 0x5 = some 0x11 := by decide

/-- Rule R11 and rule R106: a write of `r0` and a false guard change nothing. -/
theorem test_no_write : gprOf (.addI g0 0 2 5) (ab 7 0) 0 = some 0 ∧
    gprOf (.addI ⟨true, 0⟩ 1 2 5) (withRegs [(1, 9), (2, 7)]) 1 = some 9 := by decide

/-! ### Multiply (95_test_vectors.md B) -/

theorem test_mul : after (alone (.mul g0 2 3) Slot.bubble (ab 0xFFFFFFFF 0xFFFFFFFF)) (fun t => (t.readSpr 2, t.readSpr 3)) =
      some (0x1, 0x0) ∧
    after (alone (.mul g0 2 3) Slot.bubble (ab 0x80000000 0x80000000)) (fun t => (t.readSpr 2, t.readSpr 3)) =
      some (0x0, 0x40000000) ∧
    after (alone (.mul g0 2 3) Slot.bubble (ab 0x80000000 0xFFFFFFFF)) (fun t => (t.readSpr 2, t.readSpr 3)) =
      some (0x80000000, 0x0) ∧
    after (alone (.mul g0 2 3) Slot.bubble (ab 0x7FFFFFFF 0x7FFFFFFF)) (fun t => (t.readSpr 2, t.readSpr 3)) =
      some (0x1, 0x3FFFFFFF) ∧
    after (alone (.mul g0 2 3) Slot.bubble (ab 0xFFFFFFFE 0x3)) (fun t => (t.readSpr 2, t.readSpr 3)) =
      some (0xFFFFFFFA, 0xFFFFFFFF) ∧
    after (alone (.mul g0 2 3) Slot.bubble (ab 0x0 0x12345678)) (fun t => (t.readSpr 2, t.readSpr 3)) =
      some (0x0, 0x0) ∧
    after (alone (.mul g0 2 3) Slot.bubble (ab 0x6 0x7)) (fun t => (t.readSpr 2, t.readSpr 3)) =
      some (0x2A, 0x0) := by decide

theorem test_mulu : after (alone (.mulu g0 2 3) Slot.bubble (ab 0xFFFFFFFF 0xFFFFFFFF)) (fun t => (t.readSpr 2, t.readSpr 3)) =
      some (0x1, 0xFFFFFFFE) ∧
    after (alone (.mulu g0 2 3) Slot.bubble (ab 0x80000000 0x80000000)) (fun t => (t.readSpr 2, t.readSpr 3)) =
      some (0x0, 0x40000000) ∧
    after (alone (.mulu g0 2 3) Slot.bubble (ab 0xFFFFFFFE 0x3)) (fun t => (t.readSpr 2, t.readSpr 3)) =
      some (0xFFFFFFFA, 0x2) := by decide

/-! ### Compare (95_test_vectors.md C) -/

theorem test_cmpeq : cr .cmpeqR 0x5 0x5 = some true ∧
    cr .cmpeqR 0x5 0x6 = some false ∧
    ci .cmpeqI 0x5 5 = some true ∧
    ci .cmpeqI 0x5 6 = some false ∧
    ci .cmpeqI 0x1F 31 = some true := by decide

theorem test_cmpneq : cr .cmpneqR 0x5 0x6 = some true ∧
    ci .cmpneqI 0x5 6 = some true ∧
    ci .cmpneqI 0x5 5 = some false := by decide

theorem test_cmplt : cr .cmpltR 0xFFFFFFFF 0x0 = some true ∧
    cr .cmpltR 0x0 0xFFFFFFFF = some false ∧
    cr .cmpltR 0x80000000 0x7FFFFFFF = some true ∧
    ci .cmpltI 0xFFFFFFFF 0 = some true ∧
    ci .cmpltI 0xFFFFFFFF 31 = some true := by decide

theorem test_cmple : cr .cmpleR 0x5 0x5 = some true ∧
    cr .cmpleR 0x7FFFFFFF 0x80000000 = some false ∧
    ci .cmpleI 0x5 5 = some true ∧
    ci .cmpleI 0x1F 30 = some false := by decide

theorem test_cmpult : cr .cmpultR 0xFFFFFFFF 0x0 = some false ∧
    cr .cmpultR 0x0 0xFFFFFFFF = some true ∧
    ci .cmpultI 0xFFFFFFFF 0 = some false ∧
    ci .cmpultI 0xFFFFFFFF 31 = some false := by decide

theorem test_cmpule : cr .cmpuleR 0x0 0x0 = some true ∧
    cr .cmpuleR 0x80000000 0x7FFFFFFF = some false ∧
    ci .cmpuleI 0x0 0 = some true ∧
    ci .cmpuleI 0x1F 31 = some true := by decide

theorem test_btest : cr .btestR 0x80000000 0x1F = some true ∧
    cr .btestR 0x80000000 0x3F = some true ∧
    cr .btestR 0x10 0x4 = some true ∧
    cr .btestR 0x10 0x3 = some false ∧
    ci .btestI 0x80000000 31 = some true ∧
    ci .btestI 0x10 4 = some true := by decide

/-! ### Predicate logic and bit insert (95_test_vectors.md D) -/

/-- `p1 = 1`, `p2 = 0`, `p3 = 1`. -/
def p123 : State := (State.reset.writePred 1 true).writePred 3 true

/-- What a predicate-logic instruction leaves in `p4`. -/
def p4Of (i : Instr) : Option Bool := after (alone i Slot.bubble p123) (·.readPred 4)

theorem test_por : p4Of (.por g0 4 ⟨false, 1⟩ ⟨false, 2⟩) = some true ∧ p4Of (.por g0 4 g0 g0) = some true ∧
    after (alone (.por g0 0 ⟨false, 2⟩ ⟨false, 2⟩) Slot.bubble p123) (·.readPred 0) = some true := by decide
theorem test_pand : p4Of (.pand g0 4 ⟨false, 1⟩ ⟨false, 2⟩) = some false ∧
    p4Of (.pand g0 4 ⟨false, 1⟩ ⟨true, 2⟩) = some true := by decide
theorem test_pxor : p4Of (.pxor g0 4 ⟨false, 1⟩ ⟨false, 3⟩) = some false ∧
    p4Of (.pxor g0 4 ⟨false, 1⟩ ⟨true, 3⟩) = some true ∧ p4Of (.pxor g0 4 g0 g0) = some false := by decide

theorem test_bcopy : gprOf (.bcopy g0 1 2 5 g0) (ab 0 0) 1 = some 0x20 ∧
    gprOf (.bcopy g0 1 2 5 ⟨true, 0⟩) (ab 0xFFFFFFFF 0) 1 = some 0xFFFFFFDF ∧
    gprOf (.bcopy g0 1 2 31 ⟨true, 0⟩) (ab 0xFFFFFFFF 0) 1 = some 0x7FFFFFFF ∧
    gprOf (.bcopy g0 1 2 0 g0) (ab 0x12345678 0) 1 = some 0x12345679 := by decide

/-! ### Special-register moves (95_test_vectors.md F) -/

theorem test_mts : after (alone (.mts g0 2 2) Slot.bubble (ab 0x1234 0)) (·.readSpr 2) = some 0x1234 ∧
    after (alone (.mts g0 0 2) Slot.bubble (ab 0xFF 0)) (·.preds.toList) = some (List.replicate 8 true) ∧
    after (alone (.mts g0 0 2) Slot.bubble (ab 0xFFFFFF00 0)) (·.preds.toList) =
      some (true :: List.replicate 7 false) ∧
    after (alone (.mts ⟨true, 0⟩ 2 2) Slot.bubble (ab 0x1234 0)) (·.readSpr 2) = some 0 := by decide
theorem test_mfs : gprOf (.mfs g0 1 2) (State.reset.writeSpr 2 0x1234) 1 = some 0x1234 ∧
    gprOf (.mfs g0 1 0) ((State.reset.writePred 2 true).writePred 7 true) 1 = some 0x85 ∧
    gprOf (.mfs g0 1 0) State.reset 1 = some 1 := by decide

/-! ### Loads and stores (95_test_vectors.md L) -/

/-- `M[0x100..0x103] = 80 81 7F 01`, `r2 = 0x100`; every area is a view of main memory. -/
def mem4 : State := (withRegs [(2, 0x100)]).poke 0x100 [0x80, 0x81, 0x7F, 0x01]

/-- What `load r1 = [r2 + imm]` gives. -/
def ld (c : PredRef → Reg → Reg → Int → Instr) (imm : Int) : Option Word := gprOf (c g0 1 2 imm) mem4 1

theorem test_load_words : ld .lws 0 = some 0x80817F01 ∧ ld .lwl 0 = some 0x80817F01 ∧ ld .lwc 0 = some 0x80817F01 ∧
    ld .lwm 0 = some 0x80817F01 ∧ ld .lwc (-1) = some 0 := by decide
theorem test_load_halves_signed : ld .lhs 0 = some 0xFFFF8081 ∧ ld .lhl 0 = some 0xFFFF8081 ∧
    ld .lhc 1 = some 0x00007F01 ∧ ld .lhm 0 = some 0xFFFF8081 := by decide
theorem test_load_bytes_signed : ld .lbs 0 = some 0xFFFFFF80 ∧ ld .lbl 2 = some 0x7F ∧ ld .lbc 0 = some 0xFFFFFF80 ∧
    ld .lbm 1 = some 0xFFFFFF81 := by decide
theorem test_load_halves_unsigned : ld .lhus 0 = some 0x8081 ∧ ld .lhul 0 = some 0x8081 ∧ ld .lhuc 0 = some 0x8081 ∧
    ld .lhum 1 = some 0x7F01 := by decide
theorem test_load_bytes_unsigned : ld .lbus 0 = some 0x80 ∧ ld .lbul 1 = some 0x81 ∧ ld .lbuc 1 = some 0x81 ∧
    ld .lbum 3 = some 1 := by decide

/-- Every area with bytes of its own; byte `0x100` tells them apart. -/
def fourAreas : State :=
  { withRegs [(2, 0x100), (4, 9)] with
    params := { Config.Params.default with
      stackCfg := ⟨true, Config.wholeSpace⟩
      localCfg := ⟨true, Config.wholeSpace⟩
      dataCfg := ⟨true, Config.wholeSpace⟩ }
    mem := ⟨⟨[(0x100, 1)]⟩, ⟨[(0x100, 2)]⟩, ⟨[(0x100, 3)]⟩, ⟨[(0x100, 4)]⟩⟩ }

/-- The four bytes at `0x100` after an instruction: main memory, stack cache, local memory, data cache. -/
def bytesAfter (i : Instr) : Option (List Byte) :=
  after (alone i Slot.bubble fourAreas) fun t =>
    [t.readByte .mainMem 0x100, t.readByte .stackCache 0x100, t.readByte .localMem 0x100, t.readByte .dataCache 0x100]

/-- Rule R200: the last letter names the area. -/
theorem test_load_areas : gprOf (.lbus g0 1 2 0) fourAreas 1 = some 2 ∧ gprOf (.lbul g0 1 2 0) fourAreas 1 = some 3 ∧
    gprOf (.lbuc g0 1 2 0) fourAreas 1 = some 4 ∧ gprOf (.lbum g0 1 2 0) fourAreas 1 = some 1 := by decide
theorem test_store_areas : bytesAfter (.sbs g0 2 4 0) = some [1, 9, 3, 4] ∧
    bytesAfter (.sbl g0 2 4 0) = some [1, 2, 9, 4] ∧ bytesAfter (.sbc g0 2 4 0) = some [1, 2, 3, 9] ∧
    bytesAfter (.sbm g0 2 4 0) = some [9, 2, 3, 4] := by decide

/-- `M[0x200..0x207]` after a store, `r2 = 0x200`, `r4 = 0xA1B2C3D4`. -/
def st8 (c : PredRef → Reg → Reg → Int → Instr) (imm : Int) : Option (List Host.Cell) :=
  after (alone (c g0 2 4 imm) Slot.bubble (withRegs [(2, 0x200), (4, 0xA1B2C3D4)])) (·.mem.main.cells)

theorem test_store_words : st8 .swc 1 = some [(0x204, 0xA1), (0x205, 0xB2), (0x206, 0xC3), (0x207, 0xD4)] ∧
    st8 .sws 1 = st8 .swc 1 ∧ st8 .swl 1 = st8 .swc 1 ∧ st8 .swm 1 = st8 .swc 1 := by decide
theorem test_store_halves : st8 .shc 1 = some [(0x202, 0xC3), (0x203, 0xD4)] ∧ st8 .shs 1 = st8 .shc 1 ∧
    st8 .shl 1 = st8 .shc 1 ∧ st8 .shm 1 = st8 .shc 1 := by decide
theorem test_store_bytes : st8 .sbc 1 = some [(0x201, 0xD4)] ∧ st8 .sbs 1 = st8 .sbc 1 ∧ st8 .sbl 1 = st8 .sbc 1 ∧
    st8 .sbm (-1) = some [(0x1FF, 0xD4)] := by decide

/-- `ENDIAN` is a parameter (rule R5): the same bytes read, and the same word stored, with the lowest address least. -/
def little (s : State) : State := { s with params := { s.params with endian := .little } }

theorem test_little_endian : gprOf (.lwc g0 1 2 0) (little mem4) 1 = some 0x017F8180 ∧
    gprOf (.lhus g0 1 2 0) (little mem4) 1 = some 0x8180 ∧
    after (alone (.swc g0 2 4 0) Slot.bubble (little (withRegs [(2, 0x200), (4, 0xA1B2C3D4)]))) (·.mem.main.cells) =
      some [(0x200, 0xD4), (0x201, 0xC3), (0x202, 0xB2), (0x203, 0xA1)] := by decide

/-- A resident function of 8 bytes at `0x1000`, every area a view of main memory, `r2 = 0x1000`. -/
def sCode (p : Config.Params) : State :=
  { withRegs [(2, 0x1000), (4, 9)] with
    params := p, mc := { State.reset.mc with entries := [⟨0x1000, 8, 1, 0⟩] } }

/-- A store into a resident function is refused (rule R54, U8), one behind it or into an area of its own is not. -/
theorem test_store_to_code :
    stopped (alone (.sbm g0 2 4 7) Slot.bubble (sCode Config.Params.default)) = some ("refused", 0) ∧
    stopped (alone (.swc g0 2 4 0) Slot.bubble (sCode Config.Params.default)) = some ("refused", 0) ∧
    stopped (alone (.sbm g0 2 4 8) Slot.bubble (sCode Config.Params.default)) = none ∧
    stopped (alone (.swl g0 2 4 0) Slot.bubble (sCode fourAreas.params)) = none ∧
    stopped (alone (.swc g0 2 4 0) Slot.bubble (sCode { Config.Params.default with mcPolicy := .ideal })) = none := by
  decide

/-- Misaligned accesses, and the guard before them; an address outside backing memory (rule R357). -/
theorem test_access_faults : stopped (alone (.lwc g0 1 2 0) Slot.bubble (ab 0x102 0)) = some ("Unaligned", 0x102) ∧
    stopped (alone (.lhc g0 1 2 0) Slot.bubble (ab 0x101 0)) = some ("Unaligned", 0x101) ∧
    stopped (alone (.shc g0 2 3 0) Slot.bubble (ab 0x201 0)) = some ("Unaligned", 0x201) ∧
    stopped (alone (.lwc ⟨true, 0⟩ 1 2 0) Slot.bubble (ab 0x102 0)) = none ∧
    stopped (alone (.lwm g0 1 2 0) Slot.bubble { ab 0x200 0 with params := { Config.Params.default with
      mainBacked := [⟨0, 0x200⟩] } }) = some ("Unmapped", 0x200) := by decide

/-- The effective address wraps (rule R201): `r2 = 0xFFFFFFFC`, offset 4, reads `M[0..3]`. -/
theorem test_address_wraps : gprOf (.lwc g0 1 2 1) ((ab 0xFFFFFFFC 0).poke 0 [1, 2, 3, 4]) 1 = some 0x01020304 := by decide

/-! ### Stack control (95_test_vectors.md K) -/

/-- `SS`, `ST` and `r3 = 16`. -/
def stk (ss st : Word) : State := ((withRegs [(3, 16)]).writeSpr 5 ss).writeSpr 6 st

/-- `ST` and `SS` after a stack-control instruction. -/
def stkOf (i : Instr) (ss st : Word) : Option (Word × Word) :=
  after (alone i Slot.bubble (stk ss st)) fun t => (t.readSpr 6, t.readSpr 5)

theorem test_sres : stkOf (.sresI g0 4) 0x1000 0x1000 = some (0xFF0, 0x1000) ∧
    stkOf (.sresI g0 0) 0x1000 0xFF0 = some (0xFF0, 0x1000) ∧
    stkOf (.sresI ⟨true, 0⟩ 4) 0x1000 0x1000 = some (0x1000, 0x1000) := by decide
theorem test_sens : stkOf (.sensI g0 4) 0x1000 0xFF0 = some (0xFF0, 0x1000) ∧
    stkOf (.sensR g0 3) 0xFF8 0xFF0 = some (0xFF0, 0x1000) := by decide
theorem test_sfree : stkOf (.sfreeI g0 4) 0x1000 0xFF0 = some (0x1000, 0x1000) := by decide
theorem test_sspill : stkOf (.sspillI g0 2) 0x1000 0xFF0 = some (0xFF0, 0xFF8) ∧
    stkOf (.sspillR g0 3) 0x1000 0xFE0 = some (0xFE0, 0xFF0) := by decide

/-- A request larger than the stack cache (rule R251), and a busy collaborator (rule R250). -/
theorem test_stack_waits_and_stops :
    stopped (alone (.sresI g0 513) Slot.bubble (stk 0x1000 0x1000)) = some ("StackExceeded", 2052) ∧
    after (alone (.sresI g0 4) Slot.bubble { stk 0x1000 0x1000 with stackReplies := [.busy] })
      (fun t => (t.readSpr 6, t.stallReq)) = some (0x1000, some .MW) ∧
    stopped (alone (.sresI g0 4) Slot.bubble { stk 0x1000 0x1000 with stackReplies := [.unaligned 0xFFE] }) =
      some ("Unaligned", 0xFFE) ∧
    stopped (alone (.sresI g0 4) Slot.bubble { stk 0x1000 0x1000 with stackReplies := [.unmapped 0xFF0] }) =
      some ("Unmapped", 0xFF0) := by decide

/-! ### Control flow (examples of rules R280 to R291) -/

/-- A control transfer at `0x1008` in the function at `0x1000`, its bundle 4 bytes long. -/
def at1008 : Slot := { Slot.bubble with addr := 0x1008, next := 0x100C, base := 0x1000 }

/-- `BASE`, `nPC`, and the four registers a transfer may save into. -/
def control (t : State) : List Word := [t.base, t.npc, t.readSpr 7, t.readSpr 8, t.readSpr 9, t.readSpr 10]

/-- After the three delay slots of a delayed transfer at `0x1008` have been fetched, with `r5`, `r6`. -/
def flow (r5 r6 : Word) : State := { withRegs [(5, r5), (6, r6)] with npc := 0x1018 }

theorem test_call : after (alone (.call g0 true 0x800) at1008 (flow 0 0)) control =
      some [0x2000, 0x2000, 0x1000, 0x18, 0, 0] ∧
    after (alone (.call g0 false 0x800) at1008 (flow 0 0)) control = some [0x2000, 0x2000, 0x1000, 0xC, 0, 0] := by
  decide
theorem test_callr : after (alone (.callr g0 true 5) at1008 (flow 0x2000 0)) control =
      some [0x2000, 0x2000, 0x1000, 0x18, 0, 0] ∧
    stopped (alone (.callr g0 true 5) at1008 (flow 0x1402 0)) = some ("Unaligned", 0x1402) := by decide
theorem test_br : after (alone (.br g0 true (-2)) { at1008 with addr := 0x1010 } (flow 0 0)) control =
      some [0x1000, 0x1008, 0, 0, 0, 0] ∧
    stopped (alone (.br g0 false (-1025)) { at1008 with addr := 0x1004 } (withRegs [(1, 7)])) = some ("Halt", 7) := by
  decide
theorem test_brr : after (alone (.brr g0 true 5) at1008 (flow 0x1020 0)) control =
      some [0x1000, 0x1020, 0, 0, 0, 0] ∧
    stopped (alone (.brr g0 true 5) at1008 (flow 0x1022 0)) = some ("Unaligned", 0x1022) := by decide
theorem test_brcf : after (alone (.brcf g0 true 0x800) at1008 (flow 0 0)) control =
      some [0x2000, 0x2000, 0, 0, 0, 0] ∧
    stopped (alone (.brcf g0 true 0) at1008 (withRegs [(1, 42)])) = some ("Halt", 42) := by decide
theorem test_brcfr : after (alone (.brcfr g0 true 5) at1008 (flow 0x2000 0)) control =
      some [0x2000, 0x2000, 0, 0, 0, 0] := by decide
theorem test_brcfrPair : after (alone (.brcfrPair g0 true 5 6) at1008 (flow 0x1000 0x18)) control =
      some [0x1000, 0x1018, 0, 0, 0, 0] := by decide

/-- The exception-handler collaborator with code 3 enabled and code 9 not. -/
def withHandlers (s : State) : State :=
  { s with exc := { s.exc with table := [⟨3, true, 0x4000⟩, ⟨9, false, 0x5000⟩] } }

/-- Rule R283's example; a code that is not enabled does nothing. -/
theorem test_trap : after (alone (.trap g0 3) at1008 (withHandlers (flow 0 0)))
      (fun t => (control t, t.exc.intrEnabled)) = some ([0x4000, 0x4000, 0, 0, 0x1000, 0xC], false) ∧
    after (alone (.trap g0 9) at1008 (withHandlers (flow 0 0)))
      (fun t => (control t, t.exc.intrEnabled)) = some ([0x1000, 0x1018, 0, 0, 0, 0], true) := by decide

/-- The return pair `SRB`, `SRO` or the exception pair `SXB`, `SXO`. -/
def withPair (b o : SReg) (x y : Word) : State := ((flow 0 0).writeSpr b x).writeSpr o y

theorem test_ret : after (alone (.ret g0 true) at1008 (withPair 7 8 0x1000 0x18)) (fun t => (t.base, t.npc)) =
      some (0x1000, 0x1018) ∧
    stopped (alone (.ret g0 false) at1008 (withPair 7 8 0 0)) = some ("Halt", 0) ∧
    stopped (alone (.ret g0 false) at1008 (withPair 7 8 0 8)) = some ("IllegalPC", 8) := by decide
theorem test_xret : after (alone (.xret g0 true) at1008 ((withPair 9 10 0x1000 0x18).setIntrEnabled false))
      (fun t => (t.base, t.npc, t.exc.intrEnabled)) = some (0x1000, 0x1018, true) ∧
    stopped (alone (.xret g0 false) at1008 (withPair 9 10 0 4)) = some ("IllegalPC", 4) := by decide

/-- Rule R296: the internal `INTR` in `MW`. -/
theorem test_intr : after (intrStages 0x4000 (inStage .MW { slotOn with
      instr := .intr 0x4000, addr := 0x1010, next := 0x1010, base := 0x1000, exBase := 0x4000, exTarget := 0x4000 }
      State.reset)) control = some [0x4000, 0x4000, 0, 0, 0x1000, 0x10] := by decide

/-- Rule R299: the internal `HALT` in `MW`. -/
theorem test_halt : stopped (haltStages (inStage .MW slotOn (withRegs [(1, 5)]))) = some ("Halt", 5) := by decide

/-! ### Method cache (95_test_vectors.md M1) -/

/-- Four blocks of 8 bytes, three entries; `F`, `G`, `H`, `K` at `0x100` to `0x400`; `ENTRY = 0x100`. -/
def m1 (pol : Config.Policy) : State :=
  ((({ State.reset with params := { Config.Params.default with
      entry := 0x100, mcNumBlocks := 4, mcMaxEntries := 3, mcPolicy := pol } }.poke 0xFF [16]).poke 0x1FF [8]).poke
    0x2FF [12]).poke 0x3FF [40]

/-- The calls one after another: after each its answer, the entries, and hits, misses, evictions, bytes. -/
def mcRun (s : State) : List Word → List (Bool × List Word × List Nat)
  | [] => []
  | a :: as =>
    match ensureResident a s with
    | .resident t =>
      (true, entryAddrs t.mc, [t.mc.hits, t.mc.misses, t.mc.evictions, t.mc.bytesTransferred]) :: mcRun t as
    | .raised (.codeExceeded _ _ t) =>
      [(false, entryAddrs t.mc, [t.mc.hits, t.mc.misses, t.mc.evictions, t.mc.bytesTransferred])]
    | _ => []

/-- The sequence of M1 from the state after boot. -/
def mcSequence (pol : Config.Policy) : Option (List (Bool × List Word × List Nat)) :=
  after (boot (m1 pol)) fun s => mcRun s [0x200, 0x100, 0x300, 0x200, 0x400]

theorem test_method_cache_lru : mcSequence .lru = some [(true, [0x100, 0x200], [0, 1, 0, 8]),
    (true, [0x200, 0x100], [1, 1, 0, 8]), (true, [0x100, 0x300], [1, 2, 1, 24]),
    (true, [0x300, 0x200], [1, 3, 2, 32]), (false, [0x300, 0x200], [1, 4, 2, 32])] := by decide
theorem test_method_cache_fifo : mcSequence .fifo = some [(true, [0x100, 0x200], [0, 1, 0, 8]),
    (true, [0x100, 0x200], [1, 1, 0, 8]), (true, [0x100, 0x300], [1, 2, 1, 24]),
    (true, [0x300, 0x200], [1, 3, 2, 32]), (false, [0x300, 0x200], [1, 4, 2, 32])] := by decide

/-- Rule R382: a boot that cannot start. -/
theorem test_boot_stops :
    stopped (boot { State.reset with params := { Config.Params.default with entry := 0 } }) = some ("Halt", 0) ∧
    stopped (boot { State.reset with params := { Config.Params.default with entry := 0x1002 } }) =
      some ("Unaligned", 0x1002) ∧
    stopped (boot (State.reset.poke 0xFFD [1])) = some ("CodeExceeded", 0x1000) := by decide

/-- Rules R331, R333: the host's query and flush. -/
theorem test_host_operations : isResident State.reset 0x1000 = true ∧ isResident State.reset 0x2000 = false ∧
    entryAddrs (mcFlush { State.reset with mc := { State.reset.mc with
      entries := [⟨0x100, 8, 1, 0⟩, ⟨0x1000, 0, 0, 0⟩] } }).mc = [0x1000] := by decide

/-! ### One cycle -/

/-- A state with both slots of a stage filled. -/
def withBundle (st : Stage) (x y : Slot) (s : State) : State := { s with pipe := s.pipe.set st ⟨x, y⟩ }

/-- A fetched instruction is in `IF` after the step, with its address (rule R101). -/
theorem test_step_fetches : after (step (State.reset.poke 0x1000 [0x02, 0x02, 0x21, 0x80]))
      (fun t => (t.pipe.fetch.s0.instr, t.pc, t.npc, t.cycle)) = some (.instr (.addR g0 1 2 3), 0x1000, 0x1004, 1) ∧
    stopped (step (State.reset.withFetchWord 32 0x03400000)) = some ("Illegal", 0x03400000) := by decide

/-- A placed instruction runs its `decode_stage` in the very next step and then stands in `EX` with its operands. -/
theorem test_placed_word_runs : after (step ((ab 5 7).withFetchWord 32 0x02022180))
      (fun t => (t.pipe.ex.s0.instr, t.pipe.ex.s0.addr, t.pipe.ex.s0.drRs1, t.pipe.ex.s0.drRs2, t.cycle)) =
    some (.instr (.addR g0 1 2 3), 0x1000, 5, 7, 1) := by decide

/-- Scenario A (95_test_vectors.md S7): the three cycles of `add r1 = r2, r3` from `DR`; the commit. -/
theorem test_scenario_a : after (step (withBundle .MW
      { slotOn with instr := .instr (.addR g0 1 2 3), exResult := 12 } Slot.bubble (withRegs [(2, 5), (3, 7)])))
    (fun t => (t.readGpr 1, t.stallReq)) = some (12, none) := by decide

/-- Same-bundle reads (95_test_vectors.md Z2): both slots read the state before the bundle. -/
theorem test_swap_bundle : after (step (withBundle .EX { slotOn with instr := .instr (.addI g0 1 2 0), drRs1 := 4 }
      { slotOn with instr := .instr (.addI g0 2 1 0), drRs1 := 3 } (withRegs [(1, 3), (2, 4)])))
    (fun t => (t.pipe.mw.s0.exResult, t.pipe.mw.s1.exResult)) = some (4, 3) := by decide

/-- Two writers of one register in a bundle are refused (rule R113). -/
theorem test_two_writers : stopped (step (withBundle .EX { slotOn with instr := .instr (.addI g0 1 2 0) }
      { slotOn with instr := .instr (.addI g0 1 3 0) } State.reset)) = some ("refused", 0) := by decide

/-- `mts s0` and a compare of `p1` in one bundle are two writers of `p1`, one of `p0` is none (rules R191, R397). -/
theorem test_two_predicate_writers :
    stopped (step (withBundle .EX { slotOn with instr := .instr (.mts g0 0 2) }
      { slotOn with instr := .instr (.cmpeqR g0 1 2 3) } State.reset)) = some ("refused", 0) ∧
    stopped (step (withBundle .EX { slotOn with instr := .instr (.mts g0 0 2) }
      { slotOn with instr := .instr (.cmpeqR g0 0 2 3) } State.reset)) = none := by decide

/-- A delayed branch with cache fill in `MW` that takes effect in this cycle, and an instruction in its last delay slot. -/
def sDelay (i : Instr) : State :=
  withBundle .MW { slotOn with instr := .instr (.brcf g0 true 0x400), exBase := 0x1000, exTarget := 0x1000 } Slot.bubble
    (withBundle .IF { Slot.bubble with instr := .instr i } Slot.bubble State.reset)

/-- Rule R301: in a delay slot a transfer is refused when its guard can be true, also where it is false now or the trap is
not enabled; one guarded by the negation of `p0`, and any other instruction, are not. -/
theorem test_transfer_in_delay_slot : stopped (step (sDelay (.trap g0 9))) = some ("refused", 0) ∧
    stopped (step (sDelay (.br ⟨false, 1⟩ true 4))) = some ("refused", 0) ∧
    stopped (step (sDelay (.br ⟨true, 0⟩ true 4))) = none ∧ stopped (step (sDelay (.addI g0 1 2 0))) = none := by
  decide

/-- An interrupt is injected when acceptance is on and `intr_block` is 0 (rule R365). -/
theorem test_interrupt : after (fetchStep { State.reset with
      exc := { State.reset.exc with arrivals := [.raise ⟨5, 0x4000⟩] } })
      (fun t => (t.pipe.fetch.s0.instr, t.exc.intrEnabled, t.intrBlock, t.npc)) =
    some (.intr 0x4000, false, 3, 0x1000) := by decide

/-- Fetching outside the active function and its slack (rule R330, vector V-C12). -/
theorem test_fetch_bounds : stopped (fetchStep { State.reset with npc := 0x1018 }) = some ("IllegalPC", 0x1018) ∧
    stopped (fetchStep { State.reset with npc := 0x1014 }) = none ∧
    stopped (fetchStep { State.reset with npc := 0x1002 }) = some ("Unaligned", 0x1002) := by decide

/-- `LOAD_USE_GAP = 1` refuses a use in the next bundle (rule R242). -/
theorem test_load_use_gap : stopped (exec (.addI g0 1 2 0) (inStage .EX slotOn
      { State.reset with params := { Config.Params.default with loadUseGap := 1 }, loadHist := [(2, 0)] })) =
    some ("refused", 0) := by decide

/-! ### Witnesses: hypotheses that can be met -/

/-- A slot being invoked in each stage. -/
def sDR : State := inStage .DR Slot.bubble (ab 5 7)
def sEX : State := inStage .EX slotOn (ab 5 7)
def sMW : State := inStage .MW slotOn (ab 5 7)

theorem executes_sEX (srcs : List Reg) : Executes sEX srcs := ⟨rfl, rfl, fun _ _ => rfl⟩
theorem commits_sMW : Commits sMW := ⟨rfl, rfl, rfl⟩

theorem backed_whole (b : Word) : isBacked Config.wholeSpace b = true := by
  have h : b.toNat < 4294967296 := b.isLt
  simp [isBacked, Config.wholeSpace, h]

theorem witness_DecodeInvertsEncode : (Instr.addI g0 1 2 4095).wf = true ∧ (Instr.addL g0 1 2 5).wf = true := by decide
theorem witness_BundleDecodeInvertsEncode : bundleWf (.lwc g0 1 2 (-64)) none = true ∧
    bundleWf (.addL g0 1 2 5) none = true ∧ bundleWf (.lwc g0 1 2 63) (some (.addI g0 3 4 4095)) = true := by decide
theorem witness_EncodeInvertsDecode :
    decode 0x04E00000 0 = .ok (.br g0 true (-2097152)) ∧
    (0x04E00000 : Word) &&& unusedBits (.br g0 true (-2097152)) = 0 ∧ bitAt 0x04E00000 31 = false ∧
    decode 0x87C22000 7 = .ok (.addL g0 1 2 7) ∧ (0x87C22000 : Word) &&& unusedBits (.addL g0 1 2 7) = 0 ∧
    bitAt 0x87C22000 31 = true := ⟨rfl, rfl, rfl, rfl, rfl, rfl⟩
theorem witness_DecodedBundlesWellFormed :
    decodeBundle true 0x80040006 0x00060007 = .ok ⟨.addI g0 2 0 6, some (.addI g0 3 0 7), 8⟩ ∧
    decodeBundle false 0x00040006 0x00060007 = .ok ⟨.addI g0 2 0 6, none, 4⟩ ∧
    decodeBundle false 0x87C22000 7 = .ok ⟨.addL g0 1 2 7, none, 8⟩ := ⟨rfl, rfl, rfl⟩
theorem witness_EncodeRejectsIllFormed : (Instr.btestI g0 1 2 32).wf = false := by decide

/-- One word for each clause. -/
theorem witness_ReservedCodesRejected :
    (fldN 0x07C00000 22 5 = 31 ∧ bitAt 0x07C00000 31 = false) ∧
    (bitAt 0x80040006 31 = true ∧ (Instr.addI g0 2 0 6).isLong = false ∧ bitAt 0x80060007 31 = true ∧
      9 ≤ fldN 0x02400020 22 5 ∧ (fldN 0x02000020 22 5 = 8 ∧ fldN 0x02000020 4 3 = 2)) ∧
    fldN 0x03400000 22 5 = 13 ∧ fldN 0x06800000 22 5 = 26 ∧
    (fldN 0x02000070 22 5 = 8 ∧ fldN 0x02000070 4 3 = 7) ∧
    (fldN 0x02000008 22 5 = 8 ∧ fldN 0x02000008 4 3 = 0 ∧ fldN 0x02000008 0 4 = 8) ∧
    (fldN 0x02000022 22 5 = 8 ∧ fldN 0x02000022 4 3 = 2 ∧ fldN 0x02000022 0 4 = 2) ∧
    (fldN 0x02000067 22 5 = 8 ∧ fldN 0x02000067 4 3 = 6 ∧ fldN 0x02000067 0 4 = 7) ∧
    (fldN 0x02000048 22 5 = 8 ∧ fldN 0x02000048 4 3 = 4 ∧ fldN 0x02000048 0 4 = 8) ∧
    (fldN 0x02400040 22 5 = 9 ∧ fldN 0x02400040 4 3 = 4) ∧
    (fldN 0x02800A00 22 5 = 10 ∧ fldN 0x02800A00 7 5 = 20) ∧
    (fldN 0x02D80000 22 5 = 11 ∧ fldN 0x02D80000 17 5 = 12) ∧
    (fldN 0x03080000 22 5 = 12 ∧ fldN 0x03080000 18 2 = 2) ∧
    (fldN 0x03043000 22 5 = 12 ∧ fldN 0x03043000 18 2 = 1 ∧ fldN 0x03043000 20 2 = 0) ∧
    (fldN 0x0600000C 23 4 = 12 ∧ fldN 0x0600000C 0 4 = 12) ∧
    (fldN 0x87C00010 22 5 = 31 ∧ fldN 0x87C00010 4 3 = 1) ∧
    (fldN 0x87C0000F 22 5 = 31 ∧ fldN 0x87C0000F 0 4 = 15) := by decide

theorem witness_ReservedCodesRejected_bundles :
    decode 0x80040006 0x80060007 = .ok (.addI g0 2 0 6) ∧ decode 0x80040006 0x02400020 = .ok (.addI g0 2 0 6) ∧
    decode 0x80040006 0x02000008 = .ok (.addI g0 2 0 6) ∧ decode 0x02000008 0 = .error (.reserved 0x02000008) :=
  ⟨rfl, rfl, rfl, rfl⟩

theorem witness_DecodeStageReads : sDR.cur.stage = .DR := rfl
theorem witness_FalseGuardDoesNothing :
    ((inStage .EX Slot.bubble State.reset).cur.stage = .EX ∧ (inStage .EX Slot.bubble State.reset).slot.pred = false) ∧
    ((inStage .MW Slot.bubble State.reset).cur.stage = .MW ∧ (inStage .MW Slot.bubble State.reset).slot.pred = false) :=
  ⟨⟨rfl, rfl⟩, rfl, rfl⟩
theorem witness_AppliedSlotDoesNothing : (inStage .MW { slotOn with discard := true } State.reset).cur.stage = .MW ∧
    (inStage .MW { slotOn with discard := true } State.reset).slot.discard = true := ⟨rfl, rfl⟩
theorem witness_AluExecute : shapeOf (.sraI g0 0 2 4095) = .alu .sra 0 2 (.imm 4095) ∧ Executes sEX [2] ∧
    shapeOf (.shadd2R g0 1 2 3) = .alu .shadd2 1 2 (.reg 3) ∧ Executes sEX [2, 3] :=
  ⟨rfl, executes_sEX _, rfl, executes_sEX _⟩
theorem witness_ResultCommit : shapeOf (.addR g0 0 2 3) = .alu .add 0 2 (.reg 3) ∧
    shapeOf (.bcopy g0 1 2 31 g0) = .bcopy 1 2 31 g0 ∧ shapeOf (.mfs g0 1 2) = .mfs 1 2 ∧ Commits sMW ∧
    (inStage .MW Slot.bubble State.reset).cur.stage = .MW ∧ (inStage .MW Slot.bubble State.reset).slot.pred = false :=
  ⟨rfl, rfl, rfl, commits_sMW, rfl, rfl⟩
theorem witness_AluAlone : shapeOf (.addR g0 1 2 3) = .alu .add 1 2 (.reg 3) ∧
    (ab 5 7).readPred (guardOfInstr (.addR g0 1 2 3)).idx ≠ (guardOfInstr (.addR g0 1 2 3)).neg ∧
    Slot.bubble.discard = false ∧ (ab 5 7).params.loadUseGap = 0 := ⟨rfl, by decide, rfl, rfl⟩
theorem witness_MultiplyExecute : shapeOf (.mul g0 2 3) = .mul true 2 3 ∧ shapeOf (.mulu g0 2 3) = .mul false 2 3 ∧
    Executes sEX [2, 3] := ⟨rfl, rfl, executes_sEX _⟩
theorem witness_MultiplyCommit : shapeOf (.mulu g0 2 3) = .mul false 2 3 ∧ Commits sMW ∧
    sMW.params.sl ≠ sMW.params.sh := ⟨rfl, commits_sMW, by decide⟩
theorem witness_CompareExecute : shapeOf (.btestI g0 1 2 31) = .cmp .bit 1 2 (.imm 31) ∧ Executes sEX [2] ∧
    shapeOf (.cmpltR g0 0 2 3) = .cmp .lt 0 2 (.reg 3) ∧ Executes sEX [2, 3] :=
  ⟨rfl, executes_sEX _, rfl, executes_sEX _⟩
theorem witness_PredicateLogicExecute : shapeOf (.pxor g0 7 g0 g0) = .plog .xor 7 g0 g0 ∧
    shapeOf (.por g0 0 g0 g0) = .plog .or 0 g0 g0 ∧ Executes sEX [] ∧
    shapeOf (.cmpeqR g0 0 2 3) = .cmp .eq 0 2 (.reg 3) ∧ Executes sEX [2, 3] :=
  ⟨rfl, rfl, executes_sEX _, rfl, executes_sEX _⟩
theorem witness_NothingLeftToCommit : shapeOf (.cmpeqR g0 1 2 3) = .cmp .eq 1 2 (.reg 3) ∧
    shapeOf (.pand g0 1 g0 g0) = .plog .and 1 g0 g0 ∧ sMW.cur.stage = .MW := ⟨rfl, rfl, rfl⟩
theorem witness_BitInsertExecute : shapeOf (.bcopy g0 1 2 31 g0) = .bcopy 1 2 31 g0 ∧ 31 < 32 ∧ sDR.cur.stage = .DR ∧
    Executes sEX [2] ∧ Commits sMW := ⟨rfl, by decide, rfl, executes_sEX _, commits_sMW⟩

/-- The second alias of the predicate file set to `s15` (rule R195). -/
def sAlias : State := { sMW with params := { Config.Params.default with predAlias2 := some 15 } }

theorem witness_MoveToSpecial : shapeOf (.mts g0 0 2) = .mts 0 2 ∧ shapeOf (.mts g0 15 2) = .mts 15 2 ∧
    sDR.cur.stage = .DR ∧ Executes sEX [2] ∧ Commits sMW ∧
    (Commits sAlias ∧ sAlias.params.predAlias2 = some 15) ∧ ((15 : SReg) ≠ 0 ∧ sMW.params.predAlias2 ≠ some 15) :=
  ⟨rfl, rfl, rfl, executes_sEX _, commits_sMW, ⟨⟨rfl, rfl, rfl⟩, rfl⟩, by decide, by decide⟩
theorem witness_MoveFromSpecial : shapeOf (.mfs g0 0 15) = .mfs 0 15 ∧ sDR.cur.stage = .DR ∧ Executes sEX [] ∧
    Commits sMW := ⟨rfl, rfl, executes_sEX _, commits_sMW⟩
theorem witness_AddressExecute : shapeOf (.lwc g0 1 2 (-64)) = .load .dataCache .word false 1 2 (-64) ∧
    Executes sEX [2] ∧ shapeOf (.shs g0 2 3 63) = .store .stackCache .half 2 3 63 ∧ Executes sEX [2, 3] :=
  ⟨rfl, executes_sEX _, rfl, executes_sEX _⟩

/-- An access to the last word of the address space in `MW`. -/
def sTop : State := inStage .MW { slotOn with exAddress := 0xFFFFFFFC, exResult := 0x01020304 } State.reset

theorem commits_sTop : Commits sTop := ⟨rfl, rfl, rfl⟩

theorem witness_LoadCompletes : shapeOf (.lwc g0 0 2 0) = .load .dataCache .word false 0 2 0 ∧ Commits sTop ∧
    sTop.slot.exAddress.toNat % Width.word.bytes = 0 ∧
    (∀ b, InAccess sTop.slot.exAddress .word b → isBacked (backedRegions sTop.params .dataCache) b = true) ∧
    sTop.nextReply = .done := ⟨rfl, commits_sTop, rfl, fun b _ => backed_whole b, rfl⟩
/-- A byte store in `MW`, at an address in or behind the resident function. -/
def sCodeMW (a : Word) : State := inStage .MW { slotOn with exAddress := a } (sCode Config.Params.default)

theorem not_touches (s : State) (a : Word) (w : Width) (h : ∀ e, e ∈ s.mc.entries → ∀ b, InAccess a w b →
    ¬ (e.addr.toNat ≤ b.toNat ∧ b.toNat < e.addr.toNat + e.sizeBytes)) : ¬ TouchesFunction s a w :=
  fun ⟨_, e, b, he, hb, h1, h2⟩ => h e he b hb ⟨h1, h2⟩

/-- Both sides of the end of a resident function, the last word of the address space, an area with bytes of its own. -/
theorem witness_StoreCompletes :
    (shapeOf (.sbm g0 2 3 0) = .store .mainMem .byte 2 3 0 ∧ Commits (sCodeMW 0x1007) ∧
      (∀ b, InAccess 0x1007 .byte b → isBacked (backedRegions (sCodeMW 0x1007).params .mainMem) b = true) ∧
      (sCodeMW 0x1007).nextReply = .done ∧ homeArea (sCodeMW 0x1007).params .mainMem = .mainMem ∧
      TouchesFunction (sCodeMW 0x1007) 0x1007 .byte) ∧
    (Commits (sCodeMW 0x1008) ∧ coreInv (sCodeMW 0x1008) = true ∧ ¬ TouchesFunction (sCodeMW 0x1008) 0x1008 .byte) ∧
    (shapeOf (.swl g0 2 3 0) = .store .localMem .word 2 3 0 ∧ Commits sTop ∧
      sTop.slot.exAddress.toNat % Width.word.bytes = 0 ∧
      (∀ b, InAccess sTop.slot.exAddress .word b → isBacked (backedRegions sTop.params .localMem) b = true) ∧
      sTop.nextReply = .done ∧ coreInv sTop = true ∧ ¬ TouchesFunction sTop sTop.slot.exAddress .word) ∧
    (∃ b, ¬ InAccess sTop.slot.exAddress .word b) ∧
    homeArea fourAreas.params .stackCache ≠ homeArea fourAreas.params .localMem ∧
    homeArea fourAreas.params .localMem ≠ .mainMem := by
  refine ⟨⟨rfl, ⟨rfl, rfl, rfl⟩, fun b _ => backed_whole b, rfl, rfl,
      by decide, _, 0x1007, .head _, ⟨0, by decide, rfl⟩, by decide, by decide⟩,
    ⟨⟨rfl, rfl, rfl⟩, by decide, not_touches _ _ _ ?_⟩,
    ⟨rfl, commits_sTop, rfl, fun b _ => backed_whole b, rfl, by decide, not_touches _ _ _ ?_⟩, ⟨0, ?_⟩,
    by decide, by decide⟩
  · rintro e he b ⟨k, hk, rfl⟩
    match e, he, k, hk with
    | _, .head _, 0, _ => decide
  · rintro e he b ⟨k, hk, rfl⟩
    match e, he with
    | _, .head _ => exact fun h => Nat.not_lt.mpr h.1 h.2
  · intro ⟨k, hk, h⟩
    match k, hk with
    | 0, _ | 1, _ | 2, _ | 3, _ => revert h; decide
theorem witness_AccessWaits : shapeOf (.lwc g0 0 2 0) = .load .dataCache .word false 0 2 0 ∧
    shapeOf (.swc g0 2 3 0) = .store .dataCache .word 2 3 0 ∧ Commits { sTop with replies := [.busy] } ∧
    (∀ b, InAccess sTop.slot.exAddress .word b → isBacked (backedRegions sTop.params .dataCache) b = true) ∧
    State.nextReply { sTop with replies := [.busy] } = .busy :=
  ⟨rfl, rfl, ⟨rfl, rfl, rfl⟩, fun b _ => backed_whole b, rfl⟩

/-- A misaligned address, and main memory with nothing at the last word. -/
def sOdd : State := inStage .MW { slotOn with exAddress := 0xFFFFFFFF } State.reset
def sHole : State := { sTop with params := { Config.Params.default with mainBacked := [⟨0, 0xFFFFFFFC⟩] } }

theorem witness_BadAccessFaults : shapeOf (.lws g0 1 2 0) = .load .stackCache .word false 1 2 0 ∧
    (Commits sOdd ∧ sOdd.slot.exAddress.toNat % Width.word.bytes ≠ 0) ∧
    (Commits sHole ∧ sHole.slot.exAddress.toNat % Width.word.bytes = 0 ∧
      ∃ b, InAccess sHole.slot.exAddress .word b ∧ isBacked (backedRegions sHole.params .stackCache) b = false) ∧
    (Commits { sTop with replies := [.exceeded 4] } ∧
      (∀ b, InAccess sTop.slot.exAddress .word b → isBacked (backedRegions sTop.params .stackCache) b = true) ∧
      State.nextReply { sTop with replies := [.exceeded 4] } = .exceeded 4) :=
  ⟨rfl, ⟨⟨rfl, rfl, rfl⟩, by decide⟩,
    ⟨⟨rfl, rfl, rfl⟩, rfl, 0xFFFFFFFC, ⟨0, by decide, rfl⟩, by decide⟩,
    ⟨rfl, rfl, rfl⟩, fun b _ => backed_whole b, rfl⟩
theorem witness_StoreThenLoad : (Memory.mk [(0xFFFFFFFF, 7)]).wf = true := by decide
theorem witness_StackExecute : shapeOf (.sresI g0 262143) = .stackI .reserve 262143 ∧ 262143 < 262144 ∧
    Executes sEX [] ∧ shapeOf (.sensR g0 3) = .stackR .ensure 3 ∧ Executes sEX [3] :=
  ⟨rfl, by decide, executes_sEX _, rfl, executes_sEX _⟩
theorem witness_StackAnswered : shapeOf (.sspillR g0 3) = .stackR .spill 3 ∧
    (Commits { sMW with stackReplies := [.answer 1 2] } ∧
      State.stackReplies { sMW with stackReplies := [.answer 1 2] } = .answer 1 2 :: []) ∧
    (Commits { sMW with stackReplies := [.busy] } ∧
      State.stackReplies { sMW with stackReplies := [.busy] } = .busy :: []) ∧
    (Commits { sMW with stackReplies := [.exceeded 9] } ∧
      State.stackReplies { sMW with stackReplies := [.exceeded 9] } = .exceeded 9 :: []) ∧
    (Commits { sMW with stackReplies := [.unaligned 9] } ∧
      State.stackReplies { sMW with stackReplies := [.unaligned 9] } = .unaligned 9 :: []) ∧
    (Commits { sMW with stackReplies := [.unmapped 8] } ∧
      State.stackReplies { sMW with stackReplies := [.unmapped 8] } = .unmapped 8 :: []) ∧
    sMW.params.ss ≠ sMW.params.st :=
  ⟨rfl, ⟨⟨rfl, rfl, rfl⟩, rfl⟩, ⟨⟨rfl, rfl, rfl⟩, rfl⟩, ⟨⟨rfl, rfl, rfl⟩, rfl⟩, ⟨⟨rfl, rfl, rfl⟩, rfl⟩,
    ⟨⟨rfl, rfl, rfl⟩, rfl⟩, by decide⟩

/-- Stack control of `n` bytes in `MW` with `SS`, `ST`. -/
def sStk (ss st n : Word) : State := inStage .MW { slotOn with exResult := n } (stk ss st)

/-- The hypotheses of the statement about the stack cache's default behaviour. -/
def StackHyp (s : State) : Prop :=
  Commits s ∧ s.stackReplies = [] ∧ s.params.stackCfg.own = false ∧ s.params.mainBacked = Config.wholeSpace ∧
    s.params.stackCacheBytes < 4294967296 ∧ s.params.stackCacheBytes % 4 = 0 ∧
    s.params.ss ≠ s.params.st ∧ (s.readSpr s.params.ss).toNat % 4 = 0 ∧ (s.readSpr s.params.st).toNat % 4 = 0 ∧ s.slot.exResult.toNat % 4 = 0 ∧
    s.slot.exResult.toNat ≤ s.params.stackCacheBytes

/-- Each operation with a size of 0 and with the largest size, and both cases of each clause. -/
theorem witness_StackDefault :
    shapeOf (.sresI g0 4) = .stackI .reserve 4 ∧ shapeOf (.sensR g0 3) = .stackR .ensure 3 ∧
    shapeOf (.sfreeI g0 4) = .stackI .free 4 ∧ shapeOf (.sspillI g0 4) = .stackI .spill 4 ∧
    StackHyp (sStk 0x1000 0xFF0 0) ∧ StackHyp (sStk 0x1000 0x1000 2048) ∧
    ((0x1000 : Word) - (0x1000 - 2048)).toNat ≤ 2048 ∧
    StackHyp (sStk 0x1000 0xFF0 2048) ∧ 2048 < ((0x1000 : Word) - (0xFF0 - 2048)).toNat ∧
    (2048 : Word).toNat ≤ ((0x1000 : Word) - 0x800).toNat ∧ StackHyp (sStk 0x1000 0x800 2048) ∧
    ((0x1000 : Word) - 0xFF0).toNat < (2048 : Word).toNat ∧ (0x1000 : Word).toNat < ((0xFF0 : Word) + 2048).toNat := by
  refine ⟨rfl, rfl, rfl, rfl, ?_, ?_, by decide, ?_, by decide, by decide, ?_, by decide, by decide⟩ <;>
    exact ⟨⟨rfl, rfl, rfl⟩, rfl, rfl, rfl, by decide, by decide, by decide, by decide, by decide, by decide, by decide⟩

/-- A local branch in `EX`, at address `0x1008`, with `r5`. -/
def sBr (x : Slot) (r5 : Word) : State := inStage .EX { x with pred := true, addr := 0x1008, drRs1 := r5 } State.reset

theorem executes_sBr (x : Slot) (r5 : Word) (srcs : List Reg) : Executes (sBr x r5) srcs := ⟨rfl, rfl, fun _ _ => rfl⟩

theorem witness_LocalBranchDispatch : shapeOf (.brr g0 true 5) = .branch true (.abs 5) ∧
    shapeOf (.br g0 false (-2)) = .branch false (.rel (-2)) ∧
    (Executes (sBr { Slot.bubble with discard := true } 0) [5] ∧
      (sBr { Slot.bubble with discard := true } 0).slot.discard = true) ∧
    State.stallReq { sBr Slot.bubble 0 with stallReq := some .MW } = some .MW ∧
    (Executes (sBr Slot.bubble 0) [5] ∧ (sBr Slot.bubble 0).slot.discard = false ∧
      (sBr Slot.bubble 0).stallReq ≠ some .MW ∧
      (BranchTo.abs 5).target (sBr Slot.bubble 0) = 0) ∧
    ((BranchTo.abs 5).target (sBr Slot.bubble 0x1002)).toNat % 4 ≠ 0 ∧
    ((BranchTo.rel (-2)).target (sBr Slot.bubble 0) ≠ 0 ∧
      ((BranchTo.rel (-2)).target (sBr Slot.bubble 0)).toNat % 4 = 0) ∧ sMW.cur.stage = .MW :=
  ⟨rfl, rfl, ⟨executes_sBr _ _ _, rfl⟩, rfl, ⟨executes_sBr _ _ _, rfl, by decide, by decide⟩, by decide,
    ⟨by decide, by decide⟩, rfl⟩
theorem witness_TransferExecute : shapeOf (.brcfrPair g0 true 5 6) = .transfer (.fill true) (.pair 5 6) ∧
    Executes sEX [5, 6] ∧ TransferKind.fill true ≠ .trap ∧
    shapeOf (.trap g0 0x3FFFFF) = .transfer .trap (.code 0x3FFFFF) ∧ Executes (withHandlers sEX) [] ∧
    (∀ e, e ∈ (withHandlers sEX).exc.table → e.code ≠ 0x3FFFFF % 2 ^ (withHandlers sEX).exc.codeBits) ∧
    ((withHandlers sEX).exc.table = [] ++ ⟨3, true, 0x4000⟩ :: [⟨9, false, 0x5000⟩] ∧
      3 = 3 % 2 ^ (withHandlers sEX).exc.codeBits) ∧
    ((withHandlers sEX).exc.table = [⟨3, true, 0x4000⟩] ++ ⟨9, false, 0x5000⟩ :: [] ∧
      9 = 9 % 2 ^ (withHandlers sEX).exc.codeBits ∧
      ∀ e, e ∈ [(⟨3, true, 0x4000⟩ : ExcEntry)] → e.code ≠ 9 % 2 ^ (withHandlers sEX).exc.codeBits) :=
  ⟨rfl, executes_sEX _, nofun, rfl, ⟨rfl, rfl, fun _ _ => rfl⟩, by decide, ⟨rfl, by decide⟩, rfl, by decide,
    by decide⟩

/-- A transfer in `MW` to base `b`, target `t`. -/
def sTr (x : Slot) (b t : Word) : State :=
  inStage .MW { x with pred := true, exBase := b, exTarget := t, trapFires := true, base := 0x1000 } State.reset

theorem witness_TransferCompletes :
    shapeOf (.call g0 true 0x400) = .transfer (.call true) (.imm 0x400) ∧
    shapeOf (.trap g0 3) = .transfer .trap (.code 3) ∧ shapeOf (.xret g0 false) = .transfer (.xret false) .saved ∧
    shapeOf (.brcfr g0 true 5) = .transfer (.fill true) (.reg 5) ∧
    (Commits (sTr Slot.bubble 0x1000 0x1018) ∧ TransferKind.trap.fires (sTr Slot.bubble 0x1000 0x1018) ∧
      GoodTarget (sTr Slot.bubble 0x1000 0x1018) ∧
      CacheHit (sTr Slot.bubble 0x1000 0x1018) (sTr Slot.bubble 0x1000 0x1018).slot.exBase ∧
      (sTr Slot.bubble 0x1000 0x1018).slot.initialized = false) ∧
    (Commits (sTr { Slot.bubble with initialized := true } 0x1000 0x1018) ∧
      GoodTarget (sTr { Slot.bubble with initialized := true } 0x1000 0x1018) ∧
      CacheHit (sTr { Slot.bubble with initialized := true } 0x1000 0x1018) 0x1000 ∧
      (sTr { Slot.bubble with initialized := true } 0x1000 0x1018).slot.initialized = true) :=
  ⟨rfl, rfl, rfl, rfl,
    ⟨⟨rfl, rfl, rfl⟩, fun _ => rfl, ⟨by decide, by decide, by decide⟩, .inr ⟨rfl, _, .head _, rfl⟩, rfl⟩,
    ⟨rfl, rfl, rfl⟩, ⟨by decide, by decide, by decide⟩, .inr ⟨rfl, _, .head _, rfl⟩, rfl⟩

/-- A transfer that has waited: its function, 8 bytes at `0x2000`, is being sized or transferred. -/
def sFilling (st : McState) (r : List Reply) : State :=
  { sTr { Slot.bubble with initialized := true } 0x2000 0x2000 with
    replies := r
    mc := { State.reset.mc with
      state := st, pending := ⟨0x2000, 8, 1⟩, entries := [⟨0x1000, 0, 0, 0⟩, ⟨0x2000, 8, 1, 0⟩] } }

/-- The completion of a fill, and a call that becomes resident at once. -/
theorem witness_TransferCompletes_resumed :
    (Commits (sFilling .transfer [.done]) ∧ TransferKind.trap.fires (sFilling .transfer [.done]) ∧
      GoodTarget (sFilling .transfer [.done]) ∧
      ∃ m rs, ensureResident (sFilling .transfer [.done]).slot.exBase (sFilling .transfer [.done]) =
        .resident { sFilling .transfer [.done] with mc := m, replies := rs }) ∧
    ∃ m rs, ensureResident (sTr Slot.bubble 0x2000 0x2000).slot.exBase (sTr Slot.bubble 0x2000 0x2000) =
      .resident { sTr Slot.bubble 0x2000 0x2000 with mc := m, replies := rs } :=
  ⟨⟨⟨rfl, rfl, rfl⟩, fun _ => rfl, ⟨by decide, by decide, by decide⟩, _, _, rfl⟩, _, _, rfl⟩

/-- The same to a function that is not resident, memory answering "not done". -/
def sMiss : State := { sTr Slot.bubble 0x2000 0x2000 with replies := [.busy] }

/-- The first invocation, of a call and of a trap, and a later one in either phase of the fill. -/
theorem witness_TransferWaitsForFunction : shapeOf (.callr g0 false 5) = .transfer (.call false) (.reg 5) ∧
    shapeOf (.trap g0 3) = .transfer .trap (.code 3) ∧
    (Commits sMiss ∧ (TransferKind.call false).fires sMiss ∧ TransferKind.trap.fires sMiss ∧ GoodTarget sMiss ∧
      sMiss.slot.initialized = false ∧ sMiss.params.mcPolicy ≠ .ideal ∧ sMiss.mc.state = .idle ∧
      (∀ e, e ∈ sMiss.mc.entries → e.addr ≠ sMiss.slot.exBase) ∧ sMiss.nextReply = .busy) ∧
    (Commits (sFilling .transfer [.busy]) ∧ GoodTarget (sFilling .transfer [.busy]) ∧
      ∃ m rs, ensureResident (sFilling .transfer [.busy]).slot.exBase (sFilling .transfer [.busy]) =
        .wait { sFilling .transfer [.busy] with mc := m, replies := rs }) ∧
    ∃ m rs, ensureResident (sFilling .sizeFetch [.busy]).slot.exBase (sFilling .sizeFetch [.busy]) =
      .wait { sFilling .sizeFetch [.busy] with mc := m, replies := rs } :=
  ⟨rfl, rfl, ⟨⟨rfl, rfl, rfl⟩, nofun, fun _ => rfl, ⟨by decide, by decide, by decide⟩, rfl, by decide, rfl,
      by decide, rfl⟩,
    ⟨⟨rfl, rfl, rfl⟩, ⟨by decide, by decide, by decide⟩, _, _, rfl⟩, _, _, rfl⟩
theorem witness_TransferStops : shapeOf (.trap g0 3) = .transfer .trap (.code 3) ∧
    (Commits sMW ∧ sMW.slot.trapFires = false) ∧
    shapeOf (.ret g0 true) = .transfer (.ret true) .saved ∧
    (Commits (sTr Slot.bubble 0 0) ∧ (TransferKind.ret true).fires (sTr Slot.bubble 0 0) ∧
      (sTr Slot.bubble 0 0).slot.exBase = 0 ∧ (sTr Slot.bubble 0 0).slot.drSsOff = 0) ∧
    ((TransferKind.ret true).isReturn = true ∧ (sTr { Slot.bubble with drSsOff := 8 } 0 8).slot.exBase = 0 ∧
      (sTr { Slot.bubble with drSsOff := 8 } 0 8).slot.drSsOff ≠ 0) ∧
    ((sTr Slot.bubble 0x1000 0x1002).slot.exBase ≠ 0 ∧ (sTr Slot.bubble 0x1000 0x1002).slot.exTarget.toNat % 4 ≠ 0) ∧
    ((sTr Slot.bubble 0x1002 0x1004).slot.exTarget.toNat % 4 = 0 ∧
      (sTr Slot.bubble 0x1002 0x1004).slot.exBase.toNat % 4 ≠ 0) :=
  ⟨rfl, ⟨commits_sMW, rfl⟩, rfl, ⟨⟨rfl, rfl, rfl⟩, nofun, rfl, rfl⟩, ⟨rfl, rfl, by decide⟩, ⟨by decide, by decide⟩,
    by decide, by decide⟩

/-- `sFilling` in `SizeFetch`, the size word of the function too large for the cache, and one that runs past `2^32`. -/
def sTooLarge : State := (sFilling .sizeFetch []).poke 0x1FFC [0, 0, 0x10, 1]
def sPastEnd : State :=
  { (sFilling .sizeFetch []).poke 0xFFFFFFEC [0, 0, 0, 0x11] with
    pipe := (sTr { Slot.bubble with initialized := true } 0xFFFFFFF0 0xFFFFFFF0).pipe
    mc := { (sFilling .sizeFetch []).mc with pending := ⟨0xFFFFFFF0, 0, 0⟩ } }

/-- A transfer already begun, of which the residency call raises or refuses. -/
theorem witness_TransferStops_residency :
    (Commits sTooLarge ∧ TransferKind.trap.fires sTooLarge ∧ GoodTarget sTooLarge ∧
      ∃ f, ensureResident sTooLarge.slot.exBase sTooLarge = .raised f) ∧
    Commits sPastEnd ∧ TransferKind.trap.fires sPastEnd ∧ GoodTarget sPastEnd ∧
      ∃ r, ensureResident sPastEnd.slot.exBase sPastEnd = .refused r :=
  ⟨⟨⟨rfl, rfl, rfl⟩, fun _ => rfl, ⟨by decide, by decide, by decide⟩, _, rfl⟩, ⟨rfl, rfl, rfl⟩, fun _ => rfl,
    ⟨by decide, by decide, by decide⟩, _, rfl⟩

/-- An interrupt raised before the coming fetch step. -/
def sIrq : State := { State.reset with exc := { State.reset.exc with arrivals := [.raise ⟨5, 0x4000⟩] } }

theorem witness_InterruptInjected : (drawIrq sIrq).exc.pending = some ⟨5, 0x4000⟩ ∧ sIrq.exc.intrEnabled = true ∧
    sIrq.intrBlock = 0 ∧ (drawIrq State.reset).exc.pending = none ∧
    ∃ t, fetchStep State.reset = .next t ∧ decide (t.pc = 0x1000) = true :=
  ⟨rfl, rfl, rfl, rfl, exists_next (f := fun t => decide (t.pc = 0x1000)) (by decide)⟩
theorem witness_InterruptEntry : sDR.cur.stage = .DR ∧ Executes sEX [] ∧
    (Commits (sTr Slot.bubble 0x1000 0x1000) ∧ GoodTarget (sTr Slot.bubble 0x1000 0x1000) ∧
      CacheHit (sTr Slot.bubble 0x1000 0x1000) (sTr Slot.bubble 0x1000 0x1000).slot.exBase) ∧
    (Commits (sFilling .transfer [.done]) ∧ GoodTarget (sFilling .transfer [.done]) ∧
      ∃ m rs, ensureResident (sFilling .transfer [.done]).slot.exBase (sFilling .transfer [.done]) =
        .resident { sFilling .transfer [.done] with mc := m, replies := rs }) ∧
    (Commits sMiss ∧ GoodTarget sMiss ∧
      ∃ m rs, ensureResident sMiss.slot.exBase sMiss = .wait { sMiss with mc := m, replies := rs }) ∧
    (Commits (sTr Slot.bubble 0 0) ∧ (sTr Slot.bubble 0 0).slot.exBase = 0) ∧
    (sTr Slot.bubble 0x1002 0x1002).slot.exBase ≠ 0 ∧ (sTr Slot.bubble 0x1002 0x1002).slot.exTarget.toNat % 4 ≠ 0 :=
  ⟨rfl, executes_sEX _, ⟨⟨rfl, rfl, rfl⟩, ⟨by decide, by decide, by decide⟩, .inr ⟨rfl, _, .head _, rfl⟩⟩,
    ⟨⟨rfl, rfl, rfl⟩, ⟨by decide, by decide, by decide⟩, _, _, rfl⟩,
    ⟨⟨rfl, rfl, rfl⟩, ⟨by decide, by decide, by decide⟩, _, _, rfl⟩, ⟨⟨rfl, rfl, rfl⟩, rfl⟩, by decide, by decide⟩

/-- The handler of the first run, its first invocation waiting, saves the exception pair and a frame (rule R296). -/
theorem test_intr_waiting_saves_once :
    ∃ t, intrStages 0x2000 sMiss = .next t ∧
      decide (t.readSpr 9 = 0x1000 ∧ t.frames.length = 1 ∧ t.base = sMiss.base ∧ t.slot.discard = false) = true :=
  exists_next (f := fun t =>
    decide (t.readSpr 9 = 0x1000 ∧ t.frames.length = 1 ∧ t.base = sMiss.base ∧ t.slot.discard = false)) (by decide)
theorem witness_OnlyTrapAndXretSwitchInterrupts :
    (∃ t, exec (.trap g0 3) (sTr Slot.bubble 0x1000 0x1000) = .next t ∧ (!t.exc.intrEnabled) = true) ∧
    (sTr Slot.bubble 0x1000 0x1000).exc.intrEnabled = true ∧
    (∃ t, exec (.xret g0 true) ((sTr Slot.bubble 0x1000 0x1000).setIntrEnabled false) = .next t ∧
      t.exc.intrEnabled = true) ∧
    ∃ t, intrStages 0x1000 (sTr Slot.bubble 0x1000 0x1000) = .next t ∧ t.exc.intrEnabled = true :=
  ⟨exists_next (f := fun t => !t.exc.intrEnabled) (by decide), rfl,
    exists_next (f := fun t => t.exc.intrEnabled) (by decide),
    exists_next (f := fun t => t.exc.intrEnabled) (by decide)⟩

/-- `MW` with entries for `r2` at every level. -/
def sByp (e1 e0 : BypEntry) : State :=
  withBundle .MW { Slot.bubble with byp := some e0 } { Slot.bubble with byp := some e1 } State.reset

theorem witness_BypassPrecedence : (2 : Reg) ≠ 0 ∧
    (sByp ⟨.MEM, 2, 9⟩ ⟨.MEM, 2, 8⟩).pipe.mw.s1.byp = some ⟨.MEM, 2, 9⟩ ∧
    ((∀ v, (sByp ⟨.EXE, 2, 9⟩ ⟨.MEM, 2, 8⟩).pipe.mw.s1.byp ≠ some ⟨.MEM, 2, v⟩) ∧
      (sByp ⟨.EXE, 2, 9⟩ ⟨.MEM, 2, 8⟩).pipe.mw.s0.byp = some ⟨.MEM, 2, 8⟩) ∧
    ((∀ v, (sByp ⟨.EXE, 2, 9⟩ ⟨.EXE, 2, 8⟩).pipe.mw.s0.byp ≠ some ⟨.MEM, 2, v⟩) ∧
      (sByp ⟨.EXE, 2, 9⟩ ⟨.EXE, 2, 8⟩).pipe.mw.s1.byp = some ⟨.EXE, 2, 9⟩) ∧
    ((∀ v, (sByp ⟨.EXE, 3, 9⟩ ⟨.EXE, 2, 8⟩).pipe.mw.s1.byp ≠ some ⟨.EXE, 2, v⟩) ∧
      (sByp ⟨.EXE, 3, 9⟩ ⟨.EXE, 2, 8⟩).pipe.mw.s0.byp = some ⟨.EXE, 2, 8⟩) ∧
    ∀ v, (sByp ⟨.EXE, 3, 9⟩ ⟨.EXE, 3, 8⟩).pipe.mw.s0.byp ≠ some ⟨.EXE, 2, v⟩ := by
  refine ⟨by decide, rfl, ⟨?_, rfl⟩, ⟨?_, rfl⟩, ⟨?_, rfl⟩, ?_⟩ <;> intro v h <;> cases h
theorem witness_CommittedResultIsForwarded : destGpr (.addI g0 31 2 0) = some 31 ∧ (31 : Reg) ≠ 0 ∧ Commits sMW ∧
    (∃ t, exec (.addI g0 31 2 0) sMW = .next t ∧ t.slot.discard = true) ∧
    ∀ k e, k ≠ sMW.cur.k → (sMW.slotAt .MW k).byp = some e → e.index ≠ 31 :=
  ⟨rfl, by decide, commits_sMW, exists_next (f := fun t => t.slot.discard) (by decide), fun k _ _ h => by
    cases k <;> cases h⟩
theorem witness_OnlyCommitWritesRegisters :
    ∃ t, exec (.addI g0 2 2 0) sMW = .next t ∧ decide (t.readGpr 2 ≠ sMW.readGpr 2) = true :=
  exists_next (f := fun t => decide (t.readGpr 2 ≠ sMW.readGpr 2)) (by decide)
theorem witness_WhoWritesPredicatesAndSpecials :
    (∃ t, exec (.cmpeqI g0 7 2 0) sEX = .next t ∧ decide (t.readPred 7 ≠ sEX.readPred 7) = true) ∧
    ∃ t, exec (.mts g0 15 2) (inStage .MW { slotOn with exResult := 9 } State.reset) = .next t ∧
      decide (t.readSpr 15 ≠ State.reset.readSpr 15) = true :=
  ⟨exists_next (f := fun t => decide (t.readPred 7 ≠ sEX.readPred 7)) (by decide),
    exists_next (f := fun t => decide (t.readSpr 15 ≠ State.reset.readSpr 15)) (by decide)⟩
theorem witness_WhoWritesMemoryAndControl :
    (∃ t, exec (.swc g0 2 3 0) sTop = .next t ∧
      decide (t.readByte .mainMem 0xFFFFFFFF ≠ sTop.readByte .mainMem 0xFFFFFFFF) = true) ∧
    (∃ t, exec (.br g0 true 2) (sBr Slot.bubble 0) = .next t ∧ decide (t.npc ≠ (sBr Slot.bubble 0).npc) = true) ∧
    ∃ t, exec (.brcf g0 true 0x800) (sTr Slot.bubble 0x2000 0x2000) = .next t ∧
      decide (t.base ≠ (sTr Slot.bubble 0x2000 0x2000).base) = true :=
  ⟨exists_next (f := fun t => decide (t.readByte .mainMem 0xFFFFFFFF ≠ sTop.readByte .mainMem 0xFFFFFFFF)) (by decide),
    exists_next (f := fun t => decide (t.npc ≠ (sBr Slot.bubble 0).npc)) (by decide),
    exists_next (f := fun t => decide (t.base ≠ (sTr Slot.bubble 0x2000 0x2000).base)) (by decide)⟩
theorem witness_StepInvokesSlots :
    ((withBundle .MW { slotOn with instr := .instr (.addI g0 1 2 0) } Slot.bubble State.reset).slotAt .MW .s0).instr =
      .instr (.addI g0 1 2 0) ∧ (State.reset.slotAt .EX .s1).instr = .bubble ∧
    ((withBundle .MW { slotOn with instr := .intr 0x4000 } { slotOn with instr := .halt } State.reset).slotAt
      .MW .s0).instr = .intr 0x4000 ∧
    ((withBundle .MW { slotOn with instr := .intr 0x4000 } { slotOn with instr := .halt } State.reset).slotAt
      .MW .s1).instr = .halt ∧ State.reset.cur.stage = .IF := ⟨rfl, rfl, rfl, rfl, rfl⟩

/-- Two slots in `EX` with true guards. -/
def sPair (i j : Instr) : State :=
  withBundle .EX { slotOn with instr := .instr i } { slotOn with instr := .instr j } State.reset

/-- The last delay slot of a transfer, holding `i`. -/
def sMarked (i : Instr) : State := withBundle .IF { Slot.bubble with instr := .instr i, inDelay := true } Slot.bubble State.reset

/-- `r2` loaded in the bundle before, one bundle wanted between. -/
def sGap : State :=
  { sEX with params := { Config.Params.default with loadUseGap := 1 }, loadHist := [(2, 0)] }

theorem witness_RefusedBundles :
    TwoWriters (sPair (.addI g0 31 2 0) (.addI g0 31 3 0)) ∧ TwoWriters (sPair (.mts g0 0 2) (.cmpeqR g0 7 2 3)) ∧
    ¬ TwoWriters State.reset ∧ TransferInDelay (sMarked (.trap ⟨false, 1⟩ 9)) ∧
    TransferInDelay (sMarked (.br g0 true 4)) ∧ ¬ TransferInDelay State.reset ∧
    sGap.cur.stage = .EX ∧ sGap.slot.pred = true ∧ 2 ∈ (shapeOf (.addI g0 1 2 0)).sources ∧
    sGap.tooSoon 2 = true ∧ ((2, 0) ∈ sGap.loadHist ∧ 0 < sGap.params.loadUseGap) ∧ sGap.tooSoon 3 = false :=
  ⟨⟨_, _, rfl, rfl, rfl, rfl, .inl ⟨31, by decide, rfl, rfl⟩⟩,
    ⟨_, _, rfl, rfl, rfl, rfl, .inr ⟨7, ⟨by decide, .inr ⟨0, 2, rfl, .inl rfl⟩⟩, by decide, .inl rfl⟩⟩,
    fun ⟨_, _, h, _⟩ => (by cases h),
    ⟨.IF, .s0, nofun, rfl, .inl ⟨_, rfl, by decide, .inr ⟨_, _, rfl⟩⟩⟩,
    ⟨.IF, .s0, nofun, rfl, .inl ⟨_, rfl, by decide, .inl ⟨_, _, rfl⟩⟩⟩,
    fun ⟨st, k, _, h, _⟩ => (by cases st <;> cases k <;> cases h),
    rfl, rfl, .head _, by decide, ⟨.head _, by decide⟩, by decide⟩

/-- The bundle `add r2 = r0, 6 || add r3 = r0, 7`, and a reserved word, at the reset address. -/
def sTwo : State := State.reset.poke 0x1000 [0x80, 4, 0, 6, 0, 6, 0, 7]
def sBad : State := State.reset.poke 0x1000 [3, 0x40, 0, 0]

/-- The reset state fetches from the address of its function to the end of the slack. -/
theorem inBounds_reset {s : State} {pc : Word} (he : s.mc = State.reset.mc) (hp : s.params = Config.Params.default)
    (h1 : 0x1000 ≤ pc.toNat) (h2 : pc.toNat < 0x1018) : InFetchBounds s pc :=
  ⟨fun h => (by rw [h] at h1; cases h1),
    .inr ⟨⟨0x1000, 0, 0, 0⟩, ⟨[], [], by rw [he]; rfl, by rw [he]; rfl, nofun⟩, h1, by rw [hp]; exact h2⟩⟩

theorem witness_FetchIssuesDecodedBundle : irqToInject (drawIrq sTwo) = none ∧ (0x1000 : Word) = sTwo.npc ∧
    (0x1000 : Word).toNat % 4 = 0 ∧ InFetchBounds sTwo 0x1000 ∧ InFetchBounds sTwo 0x1014 ∧
    InFetchBounds { sTwo with params := { Config.Params.default with mcPolicy := .ideal } } 0xFFFFFFFC ∧
    FitsBelowTop 0x1000 0x80040006 ∧ FitsBelowTop 0xFFFFFFF8 0x80040006 ∧ FitsBelowTop 0xFFFFFFFC 0x00060007 ∧
    peekWord sTwo 0x1000 = .ok 0x80040006 ∧ peekWord sTwo (0x1000 + 4) = .ok 0x00060007 ∧
    decodeBundle sTwo.params.dualIssue 0x80040006 0x00060007 = .ok ⟨.addI g0 2 0 6, some (.addI g0 3 0 7), 8⟩ ∧
    (irqToInject (drawIrq sBad) = none ∧ InFetchBounds sBad 0x1000 ∧ peekWord sBad 0x1000 = .ok 0x03400000 ∧
      peekWord sBad (0x1000 + 4) = .ok 0 ∧
      decodeBundle sBad.params.dualIssue 0x03400000 0 = .error (.reserved 0x03400000)) :=
  ⟨rfl, rfl, rfl, inBounds_reset rfl rfl (by decide) (by decide), inBounds_reset rfl rfl (by decide) (by decide),
    ⟨by decide, .inl rfl⟩, by unfold FitsBelowTop; decide, by unfold FitsBelowTop; decide,
    by unfold FitsBelowTop; decide, rfl, rfl, rfl, rfl, inBounds_reset rfl rfl (by decide) (by decide), rfl, rfl, rfl⟩
theorem witness_FetchOutOfBounds : irqToInject (drawIrq State.reset) = none ∧ State.reset.params.mcPolicy ≠ .ideal ∧
    (State.npc { State.reset with npc := 0x1002 }).toNat % 4 ≠ 0 ∧
    ActiveEntry State.reset ⟨0x1000, 0, 0, 0⟩ ∧
    (State.npc { State.reset with npc := 0xFFC }).toNat < (0x1000 : Word).toNat ∧
    (0x1000 : Word).toNat + 0 * State.reset.params.mcBlockBytes + State.reset.params.mcFetchSlack ≤
      (State.npc { State.reset with npc := 0x1018 }).toNat :=
  ⟨rfl, by decide, by decide, ⟨[], [], rfl, rfl, nofun⟩, by decide, by decide⟩

/-- The two words of `sTwo` at the top of the address space, no bounds, and main memory backed up to `top`. -/
def sEdge (npc : Word) (top : Nat) : State :=
  { (State.reset.poke 0xFFFFFFFC [0x80, 4, 0, 6]).poke 0xFFFFFFF4 [0x80, 4, 0, 6, 0, 6, 0, 7] with
    npc := npc, params := { Config.Params.default with mcPolicy := .ideal, mainBacked := [⟨0, top⟩] } }

theorem witness_FetchOutOfBounds_top :
    irqToInject (drawIrq (sEdge 0 0)) = none ∧ (sEdge 0 0).npc = 0 ∧
    (InFetchBounds (sEdge 0xFFFFFFFC 4294967296) 0xFFFFFFFC ∧
      peekWord (sEdge 0xFFFFFFFC 4294967296) 0xFFFFFFFC = .ok 0x80040006 ∧ ¬ FitsBelowTop 0xFFFFFFFC 0x80040006) ∧
    WordUnbacked (sEdge 0xFFFFFFF4 0xFFFFFFF4) 0xFFFFFFF4 ∧
    (peekWord (sEdge 0xFFFFFFF4 0xFFFFFFF8) 0xFFFFFFF4 = .ok 0x80040006 ∧ FitsBelowTop 0xFFFFFFF4 0x80040006 ∧
      WordUnbacked (sEdge 0xFFFFFFF4 0xFFFFFFF8) (0xFFFFFFF4 + 4)) :=
  ⟨rfl, rfl, ⟨⟨by decide, .inl rfl⟩, rfl, by unfold FitsBelowTop; decide⟩, ⟨_, ⟨0, by decide, rfl⟩, by decide⟩, rfl,
    by unfold FitsBelowTop; decide, ⟨_, ⟨0, by decide, rfl⟩, by decide⟩⟩

/-- A bundle of 8 bytes at `0xFFFFFFFC` is `IllegalPC` there, and address 0 is under every policy (rule R20, D31). -/
theorem test_fetch_wrap :
    (∃ t, fetchStep (sEdge 0xFFFFFFFC 4294967296) = .fault (.illegalPC 0xFFFFFFFC t)) ∧
    ∃ t, fetchStep (sEdge 0 4294967296) = .fault (.illegalPC 0 t) := ⟨⟨_, rfl⟩, _, rfl⟩
theorem witness_PlacedWordIsFetched : encode (.addI g0 1 2 4095) = some (0x00022FFF :: []) ∧
    encode (.addL g0 1 2 7) = some (0x87C22000 :: [7]) := ⟨rfl, rfl⟩

/-- A load in `MW` that memory does not answer yet, an instruction in `EX`. -/
def sWait : State :=
  { withBundle .EX { slotOn with instr := .instr (.addI g0 4 1 0) } Slot.bubble
      (withBundle .MW { slotOn with instr := .instr (.lwc g0 1 2 0), exAddress := 0x100 } Slot.bubble State.reset) with
    replies := [.busy] }

theorem witness_StallHoldsPipeline : ∃ u, stageOps sWait = .next u ∧ decide (u.stallReq = some .MW) = true :=
  exists_next (f := fun u => decide (u.stallReq = some .MW)) (by decide)
theorem witness_AdvanceMovesBundles :
    (∃ u, stageOps { sWait with replies := [] } = .next u ∧ decide (u.stallReq = none) = true) ∧
    ∃ t, step { sWait with replies := [] } = .next t ∧ decide (t.cycle = 1) = true :=
  ⟨exists_next (f := fun u => decide (u.stallReq = none)) (by decide),
    exists_next (f := fun t => decide (t.cycle = 1)) (by decide)⟩
theorem witness_StepCountsCycles : ∃ t, step sWait = .next t ∧ decide (t.cycle = 1) = true :=
  exists_next (f := fun t => decide (t.cycle = 1)) (by decide)
theorem witness_CoreInvariantKept : coreInv sWait = true ∧ ∃ t, step sWait = .next t ∧ decide (t.cycle = 1) = true :=
  ⟨by decide, witness_StepCountsCycles⟩

theorem mcInv_of_reset {s : State} (hb : s.base = State.reset.base) (hm : s.mc = State.reset.mc)
    (hp : s.params = Config.Params.default) : mcInv s := by
  unfold mcInv
  rw [hb, hm, hp]
  exact ⟨rfl, fun _ => ⟨by decide, by decide, by decide, by decide, .inr (.head _), nofun, nofun⟩⟩

theorem witness_MethodCacheInvariantKept : sWait.params.ok = true ∧ mcInv sWait ∧
    ∃ t, step sWait = .next t ∧ decide (t.cycle = 1) = true :=
  ⟨by decide, mcInv_of_reset rfl rfl rfl, witness_StepCountsCycles⟩

/-- The parameters of rule R336. -/
def p4 (pol : Config.Policy) : Config.Params :=
  { Config.Params.default with mcNumBlocks := 4, mcMaxEntries := 3, mcPolicy := pol }

theorem witness_EvictionIsMinimal : (p4 .lru).ok = true ∧ (p4 .lru).mcPolicy ≠ .fifo ∧ 4 ≤ (p4 .lru).mcNumBlocks := by
  decide
theorem witness_FifoPinsActiveEntry : (p4 .fifo).ok = true ∧ (p4 .fifo).mcPolicy = .fifo ∧ 2 ≤ (p4 .fifo).mcNumBlocks ∧
    ([⟨0x100, 16, 2, 0⟩, ⟨0x200, 8, 1, 0⟩].map (fun e : McEntry => e.addr)).Nodup ∧
    2 + 2 ≤ (p4 .fifo).mcNumBlocks ∧ 2 ≤ (p4 .fifo).mcMaxEntries := by decide

/-- `F` and `G` resident. -/
def sRes : State :=
  { State.reset with mc := { State.reset.mc with entries := [⟨0x100, 16, 2, 0⟩, ⟨0x200, 8, 1, 0⟩], active := 0x200 } }

theorem witness_ResidencyHit : sRes.params.mcPolicy ≠ .ideal ∧ sRes.mc.state = .idle ∧
    sRes.mc.entries = [] ++ ⟨0x100, 16, 2, 0⟩ :: [⟨0x200, 8, 1, 0⟩] ∧ (entryAddrs sRes.mc).Nodup ∧
    sRes.params.mcPolicy = .lru ∧ State.mc { sRes with params := p4 .fifo } = sRes.mc :=
  ⟨by decide, rfl, rfl, by decide, rfl, rfl⟩

/-- Size words: a function of 4096 bytes at `0x2000`, one of 4097 bytes at `0x4000`. -/
def sFill : State := (State.reset.poke 0x1FFE [0x10]).poke 0x3FFE [0x10, 1]

/-- The function at `a` being sized, or transferred as `n` blocks. -/
def sPhase (st : McState) (a : Word) (n : Nat) (r : List Reply) : State :=
  { sFill with mc := { sFill.mc with state := st, pending := ⟨a, 8 * n, n⟩ }, replies := r }

/-- The start of a fill, and each answer in each of its two phases: the largest function that fits, the next larger one, and
one that runs one word past `2^32`. -/
theorem witness_ResidencyMissFills :
    (sFill.params.mcPolicy ≠ .ideal ∧ sFill.mc.state = .idle ∧ ∀ e, e ∈ sFill.mc.entries → e.addr ≠ 0x2000) ∧
    ((sPhase .sizeFetch 0x2000 0 [.busy]).nextReply = .busy ∧ (sPhase .sizeFetch 0x2000 0 []).nextReply ≠ .busy ∧
      (sPhase .sizeFetch 0x2000 0 []).mc.pending.address = 0x2000) ∧
    (peekWord (sPhase .sizeFetch 0x4000 0 []) (0x4000 - 4) = .ok 4097 ∧
      sFill.params.mcNumBlocks < blocksOf sFill.params 4097) ∧
    (peekWord ((sPhase .sizeFetch 0xFFFFF004 0 []).poke 0xFFFFF002 [0x10]) (0xFFFFF004 - 4) = .ok 4096 ∧
      4294967296 < (0xFFFFF004 : Word).toNat + 4096) ∧
    (peekWord (sPhase .sizeFetch 0x2000 0 []) (0x2000 - 4) = .ok 4096 ∧
      blocksOf sFill.params 4096 ≤ sFill.params.mcNumBlocks ∧ (0x2000 : Word).toNat + 4096 ≤ 4294967296) ∧
    ((sPhase .transfer 0x2000 512 [.busy]).nextReply = .busy ∧ (sPhase .transfer 0x2000 512 []).nextReply ≠ .busy ∧
      ∀ k, k < 512 * sFill.params.mcBlockBytes →
        isBacked sFill.params.mainBacked ((0x2000 : Word) + BitVec.ofNat 32 k) = true) :=
  ⟨⟨by decide, rfl, by decide⟩, ⟨rfl, by decide, rfl⟩, ⟨rfl, by decide⟩, ⟨rfl, by decide⟩,
    ⟨rfl, by decide, by decide⟩, rfl, by decide, fun _ _ => backed_whole _⟩

/-- Main memory that ends at `0x2008`: a second block of the function at `0x2000` is not backed, nor is a size word
behind it. -/
def sShort (st : McState) (a : Word) (blocks : Nat) : State :=
  { sPhase st a blocks [] with
    params := { (sPhase st a blocks []).params with mainBacked := [⟨0, 0x2008⟩] } }

theorem witness_ResidencyMissFills_unmapped :
    (∃ f, peekWord { sShort .sizeFetch 0x3000 0 with replies := [] } (0x3000 - 4) = .error f) ∧
    (sShort .transfer 0x2000 2).nextReply ≠ .busy ∧ 8 < 2 * (sShort .transfer 0x2000 2).params.mcBlockBytes ∧
    (∀ j, j < 8 → isBacked (sShort .transfer 0x2000 2).params.mainBacked ((0x2000 : Word) + BitVec.ofNat 32 j) = true) ∧
    isBacked (sShort .transfer 0x2000 2).params.mainBacked ((0x2000 : Word) + BitVec.ofNat 32 8) = false :=
  ⟨⟨_, rfl⟩, by decide, by decide, by decide, by decide⟩

/-- A reset state with a program whose size word is `n`. -/
def sSized (e : Word) (n : List Byte) (p : Config.Policy) : State :=
  { State.reset.poke (e - 4) n with params := { Config.Params.default with entry := e, mcPolicy := p } }

theorem witness_InvariantsHoldAtReset :
    ((sSized 0 [] .lru).params.entry = 0 ∧ (sSized 0x1002 [] .lru).params.entry.toNat % 4 ≠ 0 ∧
      (sSized 0x1000 [] .ideal).params.mcPolicy = .ideal) ∧
    ((∃ f, peekWord { sSized 4 [] .lru with params := { (sSized 4 [] .lru).params with mainBacked := [] } } (4 - 4) =
        .error f) ∧
      peekWord (sSized 0x1000 [0, 0, 0x10, 1] .lru) (0x1000 - 4) = .ok 4097 ∧
      Config.Params.default.mcNumBlocks < blocksOf Config.Params.default 4097 ∧
      peekWord (sSized 0x1000 [0, 0, 0x10, 0] .fifo) (0x1000 - 4) = .ok 4096 ∧
      blocksOf Config.Params.default 4096 ≤ Config.Params.default.mcNumBlocks ∧
      4294967296 < (0xFFFFF004 : Word).toNat + 4096) ∧
    coreInv (sSized 0x1000 [0, 0, 0x10, 0] .lru) = true ∧ (sSized 0x1000 [0, 0, 0x10, 0] .lru).params.ok = true ∧
    ∃ t, boot (sSized 0x1000 [0, 0, 0x10, 0] .lru) = .next t ∧ decide (usedBlocks t.mc.entries = 512) = true :=
  ⟨⟨rfl, by decide, rfl⟩, ⟨⟨_, rfl⟩, rfl, by decide, rfl, by decide, by decide⟩, by decide, by decide,
    exists_next (f := fun t => decide (usedBlocks t.mc.entries = 512)) (by decide)⟩

/-- `add` with the largest 12-bit immediate and `btest` with the largest 5-bit one store it as it is (rule R85). -/
theorem test_immediates_unsigned :
    (∃ t, exec (.addI g0 1 2 4095) sDR = .next t ∧ decide (t.slot.drRs2 = 4095) = true) ∧
    ∃ t, exec (.btestI g0 1 2 31) sDR = .next t ∧ decide (t.slot.drRs2 = 31) = true :=
  ⟨exists_next (f := fun t => decide (t.slot.drRs2 = 4095)) (by decide),
    exists_next (f := fun t => decide (t.slot.drRs2 = 31)) (by decide)⟩

end Sys2Proof.Tests
end

/-! What only the end of a cycle counts and what no step changes: the cycle count, the parameters of rule R5, and
the handler table of the exception-handler collaborator with the number of code bits it looks at. Every invocation of a
stage operation leaves them alone, so the stage operations of a cycle do. -/

namespace Sys2Proof.Machine

/-- `t` has the cycle count, the parameters and the handler table of `s`. -/
structure KeepsSettings (s t : State) : Prop where
  cycle : t.cycle = s.cycle
  params : t.params = s.params
  table : t.exc.table = s.exc.table
  codeBits : t.exc.codeBits = s.exc.codeBits

theorem KeepsSettings.refl (s : State) : KeepsSettings s s := ⟨rfl, rfl, rfl, rfl⟩

theorem KeepsSettings.trans {s t u : State} (h : KeepsSettings s t) (k : KeepsSettings t u) : KeepsSettings s u :=
  ⟨k.cycle.trans h.cycle, k.params.trans h.params, k.table.trans h.table, k.codeBits.trans h.codeBits⟩

/-- An update that touches neither the count, the parameters nor the exception unit. -/
theorem KeepsSettings.of_fields {s t : State} (hc : t.cycle = s.cycle) (hp : t.params = s.params) (he : t.exc = s.exc) :
    KeepsSettings s t :=
  ⟨hc, hp, congrArg ExcUnit.table he, congrArg ExcUnit.codeBits he⟩

/-- Every frame contains the settings, whatever it lets change. -/
theorem KeepsRest.keepsSettings {w : Touch} {s t : State} (h : KeepsRest w s t) : KeepsSettings s t := by
  obtain ⟨-, -, -, -, -, -, -, -, -, -, -, -, hcycle, -, -, hparams, htable, hbits, -, -⟩ := h
  exact ⟨hcycle, hparams, htable, hbits⟩

/-! ### Stage operations -/

/-- What a transfer dispatched in `MW` may change: the pair it saves to, and every part of the state but memory. -/
def Transfer.touch (t : Transfer) : Touch :=
  { sprs := t.saves.toList.flatMap fun p => [p.1, p.2]
    control := true, frames := true, methodCache := true, intrEnabled := true, answers := true, stall := true,
    otherSlots := true }

theorem dispatchMW_keepsSettings {t : Transfer} {s u : State} (hs : s.cur.stage = .MW) (h : dispatchMW t s = .next u) :
    KeepsSettings s u := by
  have saved (rb ro : SReg) (e : t.saves = some (rb, ro)) : rb ∈ t.touch.sprs ∧ ro ∈ t.touch.sprs := by
    simp [Transfer.touch, e]
  exact (KeepsRest.dispatchMW t.touch hs h rfl rfl rfl rfl rfl rfl rfl saved).keepsSettings

theorem shapeExecute_keepsSettings {sh : Shape} {s t : State} (h : shapeExecute sh s = .next t) : KeepsSettings s t := by
  rcases shapeExecute_next h with rfl | ⟨-, ⟨x, rfl, -⟩ | ⟨pd, b, -, rfl⟩ | ⟨d, e, a, -, -, -, rfl⟩⟩
  · exact .refl _
  · exact .of_fields rfl rfl rfl
  · exact .of_fields rfl rfl rfl
  · exact (KeepsRest.completeBranch d a s { control := true, otherSlots := true } rfl rfl).keepsSettings

theorem shapeCommit_keepsSettings {sh : Shape} {s t : State} (hs : s.cur.stage = .MW) (h : shapeCommit sh s = .next t) :
    KeepsSettings s t := by
  rcases shapeCommit_next h with rfl | ⟨-, -, result | product | special | load | store | stack | transfer⟩
  · exact .refl _
  · obtain ⟨rd, v, b, -, rfl | rfl⟩ := result <;> exact .of_fields rfl rfl rfl
  · obtain ⟨_, _, _, p, q, -, rfl⟩ := product
    exact .of_fields rfl rfl rfl
  · obtain ⟨sd, _, v, -, rfl⟩ := special
    exact .of_fields rfl rfl rfl
  · obtain ⟨_, _, _, _, _, _, -, rfl⟩ := load
    exact .of_fields rfl rfl rfl
  · obtain ⟨_, _, _, _, _, -, rfl | rfl⟩ := store <;> exact .of_fields rfl rfl rfl
  · obtain ⟨_, -, rfl | ⟨u, p, q, moved, rfl⟩⟩ := stack
    · exact .of_fields rfl rfl rfl
    · have hu : KeepsSettings s u := by
        obtain rfl | rfl | ⟨lo, k, rfl | rfl⟩ := moved <;> exact .of_fields rfl rfl rfl
      exact hu.trans (.of_fields rfl rfl rfl)
  · obtain ⟨k, _, -, -, hd⟩ := transfer
    exact dispatchMW_keepsSettings hs hd

theorem exec_keepsSettings {i : Instr} {s t : State} (h : exec i s = .next t) : KeepsSettings s t := by
  cases hs : s.cur.stage with
  | IF => rw [exec_fetch hs] at h; cases h; exact .refl _
  | DR => rw [exec_decode hs] at h; cases h; exact .of_fields rfl rfl rfl
  | EX => rw [exec_execute hs] at h; exact shapeExecute_keepsSettings h
  | MW => rw [exec_commit hs] at h; exact shapeCommit_keepsSettings hs h

theorem intrStages_keepsSettings {a : Word} {s t : State} (h : intrStages a s = .next t) : KeepsSettings s t := by
  unfold intrStages stageOp at h
  cases hs : s.cur.stage <;> rw [hs] at h <;> dsimp only at h
  case IF => cases h; exact .refl _
  case DR => cases h; exact .of_fields rfl rfl rfl
  case EX =>
    obtain ⟨-, rfl⟩ | ⟨-, -, e⟩ := executeSlot_next h
    · exact .refl _
    · cases e; exact .of_fields rfl rfl rfl
  case MW =>
    obtain ⟨-, rfl⟩ | ⟨-, -, e⟩ := commitSlot_next h
    · exact .refl _
    · exact dispatchMW_keepsSettings hs e

theorem haltStages_keepsSettings {s t : State} (h : haltStages s = .next t) : KeepsSettings s t := by
  unfold haltStages stageOp at h
  cases hs : s.cur.stage <;> rw [hs] at h <;> dsimp only at h
  case IF => cases h; exact .refl _
  case DR => cases h; exact .of_fields rfl rfl rfl
  case EX => cases h; exact .refl _
  case MW =>
    obtain ⟨-, rfl⟩ | ⟨-, -, e⟩ := commitSlot_next h
    · exact .refl _
    · cases e

theorem invoke_keepsSettings {st : Stage} {k : SlotIx} {s t : State} (h : invoke st k s = .next t) :
    KeepsSettings s t := by
  have cursor : KeepsSettings s (s.atSlot st k) := .of_fields rfl rfl rfl
  obtain ⟨-, rfl⟩ | ⟨i, -, h⟩ | ⟨a, -, h⟩ | ⟨-, h⟩ := invoke_cases h
  · exact .refl _
  · exact cursor.trans (exec_keepsSettings h)
  · exact cursor.trans (intrStages_keepsSettings h)
  · exact cursor.trans (haltStages_keepsSettings h)

theorem stageOps_keepsSettings {s t : State} (h : stageOps s = .next t) : KeepsSettings s t :=
  stageOps_induct (P := KeepsSettings s) (.of_fields rfl rfl rfl) (fun _ _ _ _ hu h => hu.trans (invoke_keepsSettings h)) h

/-! ### The end of a cycle -/

theorem fetchStep_keepsSettings {s t : State} (h : fetchStep s = .next t) : KeepsSettings s t := by
  obtain ⟨e, b, ir, m, pc, npc, rfl, htable, hbits⟩ := fetchStep_keeps h
  exact ⟨rfl, rfl, htable, hbits⟩

theorem advance_keepsSettings (s : State) : KeepsSettings s (advance s) := by
  unfold advance
  split <;> exact .of_fields rfl rfl rfl

theorem holdStages_keepsSettings (st : Stage) (s : State) : KeepsSettings s (holdStages st s) := by
  cases st <;> exact .of_fields rfl rfl rfl

@[simp] theorem finishCycle_cycle (s : State) : (finishCycle s).cycle = s.cycle + 1 := rfl

@[simp] theorem finishCycle_params (s : State) : (finishCycle s).params = s.params := by
  unfold finishCycle mcTick
  split <;> rfl

@[simp] theorem finishCycle_exc (s : State) : (finishCycle s).exc = s.exc := by
  unfold finishCycle mcTick
  split <;> rfl

/-- A step is one `finishCycle` behind a state that has the settings of `s`, stalled or not. -/
theorem step_eq_finishCycle {s t : State} (h : step s = .next t) : ∃ u, KeepsSettings s u ∧ t = finishCycle u := by
  obtain ⟨u, hu, ⟨st, -, rfl⟩ | ⟨-, v, hv, rfl⟩⟩ := step_cases h
  · exact ⟨_, (stageOps_keepsSettings hu).trans (holdStages_keepsSettings st u), rfl⟩
  · exact ⟨v, ((stageOps_keepsSettings hu).trans (advance_keepsSettings u)).trans (fetchStep_keepsSettings hv), rfl⟩

/-- Settles O52: what precedes the end of the cycle keeps the settings, and the end counts one. -/
theorem stepCountsCycles : Obligations.StepCountsCycles := by
  intro s t h
  obtain ⟨u, hu, rfl⟩ := step_eq_finishCycle h
  refine ⟨?_, ?_, ?_, ?_⟩
  · rw [finishCycle_cycle, hu.cycle]
  · rw [finishCycle_params, hu.params]
  · rw [finishCycle_exc, hu.table]
  · rw [finishCycle_exc, hu.codeBits]

end Sys2Proof.Machine

/-! What each stage operation may change, as a frame per stage and shape (rules R104, R106, R108), and from the frames who
writes the registers, memory and the program-counter group. -/

namespace Sys2Proof.Machine

open Sys2Proof.Config

/-! ### Reading a frame: what has changed lies within it -/

section
variable {w : Touch} {s t : State} (h : KeepsRest w s t)
include h

theorem KeepsRest.mem_gprs {r : Reg} (hr : t.readGpr r ≠ s.readGpr r) : r ∈ w.gprs := by
  obtain ⟨hgpr, -⟩ := h
  exact not_imp_comm.mp (hgpr r) hr

theorem KeepsRest.mem_preds {p : PReg} (hp : t.readPred p ≠ s.readPred p) : p ∈ w.preds := by
  obtain ⟨-, hpred, -⟩ := h
  exact not_imp_comm.mp (hpred p) hp

theorem KeepsRest.mem_sprs {k : SReg} (hk : t.readSpr k ≠ s.readSpr k) : k ∈ w.sprs := by
  obtain ⟨-, -, hspr, -⟩ := h
  exact not_imp_comm.mp (hspr k) hk

theorem KeepsRest.control_of_npc (hn : t.npc ≠ s.npc) : w.control = true := by
  obtain ⟨-, -, -, hcontrol, -⟩ := h
  exact Bool.of_not_eq_false fun hw => hn (hcontrol hw).2

theorem KeepsRest.control_of_base (hb : t.base ≠ s.base) : w.control = true := by
  obtain ⟨-, -, -, hcontrol, -⟩ := h
  exact Bool.of_not_eq_false fun hw => hb (hcontrol hw).1

theorem KeepsRest.memory_of_readByte {area : Area} {a : Word} (hb : t.readByte area a ≠ s.readByte area a) :
    w.memory = true := by
  obtain ⟨-, -, -, -, hmem, -⟩ := h
  exact Bool.of_not_eq_false fun hw => hb (hmem hw area a)

theorem KeepsRest.mc_eq (hw : w.methodCache = false) : t.mc = s.mc := by
  obtain ⟨-, -, -, -, -, -, hmc, -⟩ := h
  exact hmc hw

theorem KeepsRest.pc_cycle_intrBlock_params :
    t.pc = s.pc ∧ t.cycle = s.cycle ∧ t.intrBlock = s.intrBlock ∧ t.params = s.params := by
  obtain ⟨-, -, -, -, -, -, -, -, -, -, -, hpc, hcycle, hblock, -, hparams, -⟩ := h
  exact ⟨hpc, hcycle, hblock, hparams⟩

end

/-! ### Frames of two more operations -/

theorem KeepsRest.writeSpecial (s : State) (w : Touch) (i : SReg) (v : Word)
    (hp : isPredAlias s.params i = true → ∀ p : PReg, p ≠ 0 → p ∈ w.preds)
    (hs : isPredAlias s.params i = false → i ∈ w.sprs) : KeepsRest w s (s.writeSpecial i v) := by
  cases ha : isPredAlias s.params i
  · have e : s.writeSpecial i v = s.writeSpr i v := by unfold State.writeSpecial; simp only [ha]; rfl
    rw [e]
    exact .writeSpr s w i v (hs ha)
  · have e : s.writeSpecial i v = s.bulkPreds v := by unfold State.writeSpecial; simp only [ha]; rfl
    rw [e]
    refine ⟨?_, fun p hn => ?_, ?_, ?_, ?_, ?_, ?_, ?_, ?_, ?_, ?_, ?_, ?_, ?_, ?_, ?_, ?_, ?_, ?_, ?_⟩
    on_goal 2 =>
      have h0 : p = 0 := by_contra fun hp0 => hn (hp ha p hp0)
      rw [h0]; rfl
    all_goals intros; first | rfl | exact ⟨rfl, rfl⟩

theorem KeepsRest.withMem (s : State) (w : Touch) (m : Mems) (h : w.memory = true) :
    KeepsRest w s { s with mem := m } := by
  refine ⟨?_, ?_, ?_, ?_, ?_, ?_, ?_, ?_, ?_, ?_, ?_, ?_, ?_, ?_, ?_, ?_, ?_, ?_, ?_, ?_⟩ <;> intros <;>
    first | rfl | exact ⟨rfl, rfl⟩ | simp_all

/-! ### The frame of a shape, stage by stage -/

/-- What `execute_stage` of a shape may change beside its own slot: a compare and predicate logic their predicate
(rules R165, R175), a local branch `nPC` and the younger slots (rule R267). -/
def Shape.executeTouch : Shape → Touch
  | .branch _ _ => { control := true, otherSlots := true }
  | sh => { preds := sh.predDest.toList }

/-- What `commit_stage` of a shape may change beside its own slot (rules R108, R160, R190, R202, R203, R250, R268). -/
def Shape.commitTouch (p : Params) : Shape → Touch
  | .mul _ _ _ => { sprs := [p.sl, p.sh] }
  | .mts sd _ => { preds := if isPredAlias p sd then [1, 2, 3, 4, 5, 6, 7] else [], sprs := [sd] }
  | .store _ _ _ _ _ => { memory := true, answers := true, stall := true }
  | .stackI _ _ => { sprs := [p.ss, p.st], memory := true, answers := true, stall := true }
  | .stackR _ _ => { sprs := [p.ss, p.st], memory := true, answers := true, stall := true }
  | .transfer k _ => (k.record p).touch
  | sh => { gprs := sh.gprDest.toList, answers := true, stall := true }

theorem Shape.commitTouch_gprs (p : Params) (sh : Shape) : (sh.commitTouch p).gprs = sh.gprDest.toList := by
  cases sh <;> rfl

theorem Shape.executeTouch_preds (sh : Shape) : sh.executeTouch.preds = sh.predDest.toList := by
  cases sh <;> rfl

theorem Shape.executeTouch_fields (sh : Shape) :
    sh.executeTouch.gprs = [] ∧ sh.executeTouch.sprs = [] ∧ sh.executeTouch.memory = false ∧
      sh.executeTouch.methodCache = false := by
  cases sh <;> exact ⟨rfl, rfl, rfl, rfl⟩

/-- What `execute_stage` of a shape leaves alone; no shape changes `BASE` there (rule R267). -/
theorem shapeExecute_frame {sh : Shape} {s t : State} (h : shapeExecute sh s = .next t) :
    KeepsRest sh.executeTouch s t ∧ t.base = s.base := by
  rcases shapeExecute_next h with rfl | ⟨-, ⟨x, rfl, -⟩ | ⟨pd, b, hd, rfl⟩ | ⟨d, e, a, rfl, -, -, rfl⟩⟩
  · exact ⟨.refl _ _, rfl⟩
  · exact ⟨.setSlot _ _ _, rfl⟩
  · exact ⟨.writePred _ _ _ _ (by simp [Shape.executeTouch_preds, hd]), rfl⟩
  · exact ⟨.completeBranch _ _ _ _ rfl rfl, by cases d <;> rfl⟩

theorem dispatchMW_frame {t : Transfer} {s u : State} (hs : s.cur.stage = .MW) (h : dispatchMW t s = .next u) :
    KeepsRest t.touch s u := by
  have saved (rb ro : SReg) (e : t.saves = some (rb, ro)) : rb ∈ t.touch.sprs ∧ ro ∈ t.touch.sprs := by
    simp [Transfer.touch, e]
  exact .dispatchMW t.touch hs h rfl rfl rfl rfl rfl rfl rfl saved

/-- The frame of a call of the stack cache that is done: the pointers are written, and bytes may have moved
(rule R250). -/
theorem stackCommit_frame {s t : State} {w : Touch} {p q : SReg} (hp : p ∈ w.sprs) (hq : q ∈ w.sprs)
    (hm : w.memory = true) (ha : w.answers = true) (hl : w.stall = true)
    (h : t = s.dropStackReply.stall .MW ∨
      ∃ u x y, (u = s ∨ u = s.dropStackReply ∨
        ∃ lo k, u = { s with mem := { s.mem with main := s.mem.main.copyFrom s.mem.stack lo k } } ∨
          u = { s with mem := { s.mem with stack := s.mem.stack.copyFrom s.mem.main lo k } }) ∧
        t = ((u.writeSpr p x).writeSpr q y).done) : KeepsRest w s t := by
  obtain rfl | ⟨u, x, y, moved, rfl⟩ := h
  · exact (KeepsRest.dropStackReply s w ha).trans (.stall _ _ w hl)
  · have hu : KeepsRest w s u := by
      obtain rfl | rfl | ⟨lo, k, rfl | rfl⟩ := moved
      · exact .refl _ _
      · exact .dropStackReply _ _ ha
      · exact .withMem _ _ _ hm
      · exact .withMem _ _ _ hm
    exact ((hu.trans (.writeSpr _ w _ _ hp)).trans (.writeSpr _ w _ _ hq)).trans (.setSlot _ w _)

/-- What `commit_stage` of a shape leaves alone. It changes anything only under a true guard and before its effect has been
applied; a transfer runs the dispatch sequence of its kind. -/
theorem shapeCommit_frame {sh : Shape} {s t : State} (hs : s.cur.stage = .MW) (h : shapeCommit sh s = .next t) :
    t = s ∨ (Commits s ∧ KeepsRest (sh.commitTouch s.params) s t ∧
      ∀ k e, sh = .transfer k e → k.fires s ∧ dispatchMW (k.record s.params) s = .next t) := by
  rcases shapeCommit_next h with rfl | ⟨hp, hd, effect⟩
  · exact .inl rfl
  refine .inr ⟨⟨hs, hp, hd⟩, ?_⟩
  obtain result | product | special | load | store | stack | transfer := effect
  · obtain ⟨rd, v, b, hrd, ht⟩ := result
    have hw : rd ∈ (sh.commitTouch s.params).gprs ∧ (sh.commitTouch s.params).answers = true :=
      ⟨by simp [Shape.commitTouch_gprs, hrd], by cases sh <;> first | rfl | cases hrd⟩
    refine ⟨?_, ?_⟩
    · obtain rfl | rfl := ht
      · exact .commitGpr _ _ _ _ _ hw.1
      · exact (KeepsRest.dropReply _ _ hw.2).trans (.commitGpr _ _ _ _ _ hw.1)
    · rintro k e rfl; cases hrd
  · obtain ⟨_, _, _, p, q, rfl, rfl⟩ := product
    refine ⟨((KeepsRest.writeSpr _ _ _ _ ?_).trans (.writeSpr _ _ _ _ ?_)).trans (.setSlot _ _ _), nofun⟩ <;>
      simp [Shape.commitTouch]
  · obtain ⟨sd, _, v, rfl, rfl⟩ := special
    refine ⟨(KeepsRest.writeSpecial _ _ _ _ (fun ha => ?_) fun _ => ?_).trans (.setSlot _ _ _), nofun⟩
    · simp only [Shape.commitTouch, ha, if_true]; decide
    · simp [Shape.commitTouch]
  · obtain ⟨_, _, _, _, _, _, rfl, rfl⟩ := load
    exact ⟨(KeepsRest.dropReply _ _ rfl).trans (.stall _ _ _ rfl), nofun⟩
  · obtain ⟨_, _, _, _, _, rfl, rfl | rfl⟩ := store
    · exact ⟨(KeepsRest.dropReply _ _ rfl).trans (.stall _ _ _ rfl), nofun⟩
    · exact ⟨((KeepsRest.dropReply _ _ rfl).trans (.setAreaMem _ _ _ _ rfl)).trans (.setSlot _ _ _), nofun⟩
  · obtain ⟨_, ⟨_, rfl⟩ | ⟨_, rfl⟩, ht⟩ := stack <;>
      exact ⟨stackCommit_frame (by simp [Shape.commitTouch]) (by simp [Shape.commitTouch]) rfl rfl rfl ht, nofun⟩
  · obtain ⟨k, e, rfl, hf, hdis⟩ := transfer
    refine ⟨dispatchMW_frame hs hdis, ?_⟩
    rintro _ _ ⟨⟩
    exact ⟨hf, hdis⟩

/-- Everything one invocation can do, as frames: nothing but its own slot, or what its stage and shape name. -/
theorem exec_frame {i : Instr} {s t : State} (h : exec i s = .next t) :
    KeepsRest {} s t ∨
      (s.cur.stage = .EX ∧ KeepsRest (shapeOf i).executeTouch s t ∧ t.base = s.base) ∨
      (Commits s ∧ KeepsRest ((shapeOf i).commitTouch s.params) s t ∧
        ∀ k e, shapeOf i = .transfer k e → k.fires s ∧ dispatchMW (k.record s.params) s = .next t) := by
  cases hs : s.cur.stage with
  | IF => rw [exec_fetch hs] at h; cases h; exact .inl (.refl _ _)
  | DR => rw [exec_decode hs] at h; cases h; exact .inl (.setSlot _ _ _)
  | EX => rw [exec_execute hs] at h; exact .inr (.inl ⟨rfl, shapeExecute_frame h⟩)
  | MW =>
    rw [exec_commit hs] at h
    rcases shapeCommit_frame hs h with rfl | hc
    · exact .inl (.refl _ _)
    · exact .inr (.inr hc)

/-! ### Who writes what -/

/-- Settles O42: only the frame of a commit stage lists a general register, its destination. -/
theorem onlyCommitWritesRegisters : Obligations.OnlyCommitWritesRegisters := by
  intro i s t r h hr
  obtain hk | ⟨-, hk, -⟩ | ⟨⟨hs, hp, hd⟩, hk, -⟩ := exec_frame h
  · cases hk.mem_gprs hr
  · have := hk.mem_gprs hr
    rw [(shapeOf i).executeTouch_fields.1] at this
    cases this
  · have := hk.mem_gprs hr
    rw [Shape.commitTouch_gprs, Option.mem_toList] at this
    exact ⟨hs, hp, hd, (destGpr_eq i).trans this⟩

/-- The predicates of a commit frame are those of `mts` to the predicate file. -/
theorem Shape.mem_commitTouch_preds {q : Params} {sh : Shape} {p : PReg} (h : p ∈ (sh.commitTouch q).preds) :
    ∃ sd rs1, sh = .mts sd rs1 ∧ isPredAlias q sd = true := by
  cases sh <;> simp [commitTouch, Transfer.touch] at h
  case mts sd rs1 => exact ⟨sd, rs1, rfl, h.1⟩

/-- The pair of a kind that saves a return address: a call's, or an exception's (rule R265). -/
theorem TransferKind.mem_record_sprs {p : Params} {kind : TransferKind} {k : SReg}
    (h : k ∈ (kind.record p).touch.sprs) :
    ((k = p.srb ∨ k = p.sro) ∧ ∃ d, kind = .call d) ∨ ((k = p.sxb ∨ k = p.sxo) ∧ (kind = .trap ∨ kind = .intr)) := by
  cases kind with
  | call d => exact .inl ⟨by simpa [Transfer.touch, record, callTransfer] using h, d, rfl⟩
  | trap => exact .inr ⟨by simpa [Transfer.touch, record] using h, .inl rfl⟩
  | intr => exact .inr ⟨by simpa [Transfer.touch, record] using h, .inr rfl⟩
  | fill d => exact absurd h List.not_mem_nil
  | ret d => exact absurd h List.not_mem_nil
  | xret d => exact absurd h List.not_mem_nil

/-- The special registers of a commit frame, by class. -/
theorem Shape.mem_commitTouch_sprs {p : Params} {sh : Shape} {k : SReg} (h : k ∈ (sh.commitTouch p).sprs) :
    (∃ rs1, sh = .mts k rs1) ∨ ((k = p.sl ∨ k = p.sh) ∧ ∃ g a b, sh = .mul g a b) ∨
      ((k = p.ss ∨ k = p.st) ∧ ((∃ op n, sh = .stackI op n) ∨ ∃ op r, sh = .stackR op r)) ∨
      ∃ kind dest, sh = .transfer kind dest ∧ k ∈ (kind.record p).touch.sprs := by
  cases sh
  case mts sd rs1 =>
    obtain rfl : k = sd := by simpa [commitTouch] using h
    exact .inl ⟨rs1, rfl⟩
  case mul g a b => exact .inr (.inl ⟨by simpa [commitTouch] using h, g, a, b, rfl⟩)
  case stackI op n => exact .inr (.inr (.inl ⟨by simpa [commitTouch] using h, .inl ⟨op, n, rfl⟩⟩))
  case stackR op r => exact .inr (.inr (.inl ⟨by simpa [commitTouch] using h, .inr ⟨op, r, rfl⟩⟩))
  case transfer kind dest => exact .inr (.inr (.inr ⟨kind, dest, rfl, h⟩))
  all_goals exact absurd h List.not_mem_nil

/-- Settles O43: the predicates and special registers that the frames list. -/
theorem whoWritesPredicatesAndSpecials : Obligations.WhoWritesPredicatesAndSpecials := by
  intro i s t h
  obtain hk | ⟨hs, hk, -⟩ | ⟨⟨hs, hp, hd⟩, hk, htransfer⟩ := exec_frame h
  · exact ⟨fun p hn => (List.not_mem_nil (hk.mem_preds hn)).elim, fun k hn => (List.not_mem_nil (hk.mem_sprs hn)).elim⟩
  · refine ⟨fun p hn => .inl ⟨hs, ?_⟩, fun k hn => ?_⟩
    · have := hk.mem_preds hn
      rw [Shape.executeTouch_preds, Option.mem_toList] at this
      exact (destPred_eq i).trans this
    · have := hk.mem_sprs hn
      rw [(shapeOf i).executeTouch_fields.2.1] at this
      cases this
  · refine ⟨fun p hn => .inr ⟨hs, Shape.mem_commitTouch_preds (hk.mem_preds hn)⟩, fun k hn => ⟨hs, hp, hd, ?_⟩⟩
    obtain special | product | stack | ⟨kind, dest, hi, hsaved⟩ := Shape.mem_commitTouch_sprs (hk.mem_sprs hn)
    · exact .inl special
    · exact .inr (.inl product)
    · exact .inr (.inr (.inl stack))
    · obtain ⟨hpair, d, rfl⟩ | ⟨hpair, rfl | rfl⟩ := TransferKind.mem_record_sprs hsaved
      · exact .inr (.inr (.inr (.inl ⟨hpair, d, dest, hi⟩)))
      · exact .inr (.inr (.inr (.inr ⟨hpair, (htransfer _ _ hi).1 rfl, dest, hi⟩)))
      · exact absurd hi (shapeOf_ne_intr i dest)

/-- The shapes whose commit frame has memory in it. -/
theorem Shape.memory_commitTouch {p : Params} {sh : Shape} (h : (sh.commitTouch p).memory = true) :
    (∃ ar w ra rs imm, sh = .store ar w ra rs imm) ∨ (∃ op n, sh = .stackI op n) ∨ ∃ op r, sh = .stackR op r := by
  cases sh
  case store ar w ra rs imm => exact .inl ⟨ar, w, ra, rs, imm, rfl⟩
  case stackI op n => exact .inr (.inl ⟨op, n, rfl⟩)
  case stackR op r => exact .inr (.inr ⟨op, r, rfl⟩)
  all_goals cases h

theorem Shape.control_executeTouch {sh : Shape} (h : sh.executeTouch.control = true) : ∃ d dest, sh = .branch d dest := by
  cases sh
  case branch d dest => exact ⟨d, dest, rfl⟩
  all_goals cases h

theorem Shape.control_commitTouch {p : Params} {sh : Shape} (h : (sh.commitTouch p).control = true) :
    ∃ kind dest, sh = .transfer kind dest := by
  cases sh
  case transfer kind dest => exact ⟨kind, dest, rfl⟩
  all_goals cases h

/-- Settles O44: memory and the program-counter group in the frames; the rest of the group is in none. -/
theorem whoWritesMemoryAndControl : Obligations.WhoWritesMemoryAndControl := by
  intro i s t h
  obtain hk | ⟨hs, hk, hbase⟩ | ⟨⟨hs, hp, hd⟩, hk, -⟩ := exec_frame h
  · exact ⟨fun _ _ hn => (nomatch hk.memory_of_readByte hn), fun hn => (nomatch hk.control_of_npc hn),
      fun hn => (nomatch hk.control_of_base hn), hk.pc_cycle_intrBlock_params⟩
  · refine ⟨fun _ _ hn => ?_, fun hn => .inl ⟨hs, Shape.control_executeTouch (hk.control_of_npc hn)⟩,
      fun hn => absurd hbase hn, hk.pc_cycle_intrBlock_params⟩
    have := hk.memory_of_readByte hn
    rw [(shapeOf i).executeTouch_fields.2.2.1] at this
    cases this
  · exact ⟨fun _ _ hn => ⟨hs, hp, hd, Shape.memory_commitTouch (hk.memory_of_readByte hn)⟩,
      fun hn => .inr ⟨hs, Shape.control_commitTouch (hk.control_of_npc hn)⟩,
      fun hn => ⟨hs, Shape.control_commitTouch (hk.control_of_base hn)⟩, hk.pc_cycle_intrBlock_params⟩

end Sys2Proof.Machine

/-! The fetch step without an interrupt (rules R101, R330): the state it fetches in differs from the one before it in `PC`
and in the exception unit, so the tests of the fetch say of the one what they say of the other. -/

namespace Sys2Proof

/-! ### The word that a rejection names (rule R351) -/

theorem orReserved_error {w : Word} {o : Option Instr} {r : Reject} (h : orReserved w o = .error r) : r.word = w := by
  cases o <;> cases h
  rfl

theorem decodeAluGroup_error {w : Word} {r : Reject} (h : decodeAluGroup w = .error r) : r.word = w := by
  unfold decodeAluGroup at h
  dsimp only at h
  split at h <;> first | exact orReserved_error h | cases h
  rfl

theorem decodeSpecialGroup_error {w : Word} {r : Reject} (h : decodeSpecialGroup w = .error r) : r.word = w := by
  unfold decodeSpecialGroup at h
  dsimp only at h
  split at h <;> cases h
  rfl

theorem decodeStackGroup_error {w : Word} {r : Reject} (h : decodeStackGroup w = .error r) : r.word = w := by
  unfold decodeStackGroup at h
  dsimp only at h
  split at h <;> first | exact orReserved_error h | cases h
  rfl

theorem decodeCflReg_error {w : Word} {r : Reject} (h : decodeCflReg w = .error r) : r.word = w := by
  unfold decodeCflReg at h
  dsimp only at h
  split at h <;> cases h
  rfl

theorem decodeLong_error {w ext : Word} {r : Reject} (h : decodeLong w ext = .error r) : r.word = w := by
  unfold decodeLong at h
  split at h
  · split at h
    · split at h <;> cases h
      rfl
    · cases h; rfl
  · cases h; rfl

/-- A rejection of one word names that word. -/
theorem decode_error {w ext : Word} {r : Reject} (h : decode w ext = .error r) : r.word = w := by
  unfold decode at h
  dsimp only at h
  split at h
  · exact orReserved_error h
  · exact decodeAluGroup_error h
  · exact decodeSpecialGroup_error h
  · exact orReserved_error h
  · exact orReserved_error h
  · exact decodeStackGroup_error h
  · cases h
  · exact decodeCflReg_error h
  · exact decodeCflReg_error h
  · exact decodeLong_error h
  · cases h; rfl

/-- A rejection of a bundle names one of its two words. -/
theorem decodeBundle_error {dual : Bool} {w0 w1 : Word} {r : Reject} (h : decodeBundle dual w0 w1 = .error r) :
    r.word = w0 ∨ r.word = w1 := by
  unfold decodeBundle at h
  split at h
  · rename_i r0 h0
    cases h; exact .inl (decode_error h0)
  repeat' split at h
  all_goals cases h
  · exact .inl rfl
  · exact .inr rfl
  · rename_i h1; exact .inr (decode_error h1)
  · exact .inr rfl

/-- A bundle has one word or two, and in slot 1 what slot 1 accepts (rules R62, R63). -/
theorem decodeBundle_ok {dual : Bool} {w0 w1 : Word} {f : Fetched} (h : decodeBundle dual w0 w1 = .ok f) :
    (f.len = 4 ∨ f.len = 8) ∧ ∀ j, f.i1 = some j → j.slot1Ok = true := by
  unfold decodeBundle at h
  repeat' split at h
  all_goals cases h
  · exact ⟨.inl rfl, nofun⟩
  · exact ⟨.inr rfl, nofun⟩
  · rename_i hj
    exact ⟨.inr rfl, fun j e => by cases e; exact hj⟩

namespace Machine

/-! ### The state in which the fetch is made -/

theorem takeNpc_drawIrq (s : State) : ∃ e, takeNpc (drawIrq s) = { s with exc := e, pc := s.npc } := by
  obtain ⟨e, he, -⟩ := drawIrq_fields s
  exact ⟨e, by rw [he]; rfl⟩

@[simp] theorem takeNpc_drawIrq_pc (s : State) : (takeNpc (drawIrq s)).pc = s.npc := by
  obtain ⟨e, he⟩ := takeNpc_drawIrq s
  rw [he]

@[simp] theorem takeNpc_drawIrq_params (s : State) : (takeNpc (drawIrq s)).params = s.params := by
  obtain ⟨e, he⟩ := takeNpc_drawIrq s
  rw [he]

@[simp] theorem takeNpc_drawIrq_mc (s : State) : (takeNpc (drawIrq s)).mc = s.mc := by
  obtain ⟨e, he⟩ := takeNpc_drawIrq s
  rw [he]

@[simp] theorem takeNpc_drawIrq_mem (s : State) : (takeNpc (drawIrq s)).mem = s.mem := by
  obtain ⟨e, he⟩ := takeNpc_drawIrq s
  rw [he]

/-- The bounds of the fetch are in the parameters and the method cache. -/
theorem fetchInBounds_congr {s t : State} (hp : t.params = s.params) (hm : t.mc = s.mc) (a : Word) :
    fetchInBounds t a = fetchInBounds s a := by
  unfold fetchInBounds
  rw [hp, hm]

theorem aligned4_iff {a : Word} : aligned4 a = true ↔ a.toNat % 4 = 0 := decide_eq_true_iff

/-! ### What the fetch step answers -/

/-- Everything the fetch step can do when it goes on: inject an interrupt, or issue the bundle at an aligned `nPC`. -/
theorem fetchStep_next {s t : State} (h : fetchStep s = .next t) :
    (∃ q, t = injectIrq (drawIrq s) q) ∨
      ∃ w0 w1 f, aligned4 s.npc = true ∧ decodeBundle s.params.dualIssue w0 w1 = .ok f ∧
        t = issueBundle (markRead s.npc (takeNpc (drawIrq s))) f := by
  cases hq : irqToInject (drawIrq s) with
  | some q => rw [fetchStep_some hq] at h; cases h; exact .inl ⟨q, rfl⟩
  | none =>
    rw [fetchStep_none hq] at h
    obtain ⟨w0, w1, f, hf, hd, rfl⟩ := fetchBundle_next h
    rw [takeNpc_drawIrq_pc] at hf ⊢
    rw [takeNpc_drawIrq_params] at hd
    exact .inr ⟨w0, w1, f, (mcFetch_ok hf).1, hd, rfl⟩

section
variable {s : State} (hq : irqToInject (drawIrq s) = none)
include hq

/-- A fetch whose words decode is issued (rule R101). -/
theorem fetchStep_of_decoded {w0 w1 : Word} {u : State} {f : Fetched}
    (hf : mcFetch (takeNpc (drawIrq s)) s.npc = .ok (w0, w1, u))
    (hd : decodeBundle u.params.dualIssue w0 w1 = .ok f) : fetchStep s = .next (issueBundle u f) := by
  rw [fetchStep_none hq]
  unfold fetchBundle
  simp only [takeNpc_drawIrq_pc, hf, hd]

/-- A fetch whose words do not decode raises `Illegal` (rule R356). -/
theorem fetchStep_of_rejected {w0 w1 : Word} {u : State} {r : Reject}
    (hf : mcFetch (takeNpc (drawIrq s)) s.npc = .ok (w0, w1, u))
    (hd : decodeBundle u.params.dualIssue w0 w1 = .error r) : fetchStep s = .fault (.illegal r.word u.pc u) := by
  rw [fetchStep_none hq]
  unfold fetchBundle
  simp only [takeNpc_drawIrq_pc, hf, hd]

/-- A fetch that raises a fault with the state it was made in ends the step with it. -/
theorem fetchStops_of_mcFetch {f : State → Fault}
    (hf : mcFetch (takeNpc (drawIrq s)) s.npc = .error (f (takeNpc (drawIrq s)))) : FetchStops s f := by
  refine ⟨takeNpc (drawIrq s), ?_, ?_⟩
  · rw [fetchStep_none hq]
    unfold fetchBundle
    simp only [takeNpc_drawIrq_pc, hf]
  · obtain ⟨e, he⟩ := takeNpc_drawIrq s
    rw [he]
    exact ⟨rfl, rfl, rfl, rfl, rfl⟩

end

/-- Settles O47: under the hypotheses the fetch succeeds, and what its words decode to is issued. -/
theorem fetchIssuesDecodedBundle : Obligations.FetchIssuesDecodedBundle := by
  rintro s _ w0 w1 hq rfl halign hbounds hfits h0 h1
  have hf := mcFetch_of (s := takeNpc (drawIrq s)) (aligned4_iff.mpr halign)
    ((fetchInBounds_congr (by simp) (by simp) _).trans (fetchInBounds_iff.mpr hbounds))
    (peekWord_congr (by simp) (by simp) h0) (fetchWraps_eq_false.mpr hfits) (peekWord_congr (by simp) (by simp) h1)
  obtain ⟨e, he⟩ := takeNpc_drawIrq s
  have hu : (markRead s.npc (takeNpc (drawIrq s))).params = s.params := takeNpc_drawIrq_params s
  refine ⟨fun f hd => ⟨_, fetchStep_of_decoded hq hf (hu ▸ hd), ?_⟩, fun r hd => ?_⟩
  · rw [he]
    refine ⟨rfl, rfl, rfl, rfl, fun hi1 => ?_, fun j hi1 => ?_, fun d hids => ?_, fun hids => ?_,
      rfl, rfl, rfl, rfl, rfl, rfl, rfl⟩
    · simp only [issueBundle, hi1]; rfl
    · simp only [issueBundle, hi1]; rfl
    · have : transferIds (markRead s.npc { s with exc := e, pc := s.npc }).params f.i0 = some d := hids
      simp only [issueBundle, this]
    · have : transferIds (markRead s.npc { s with exc := e, pc := s.npc }).params f.i0 = none := hids
      simp only [issueBundle, this]; rfl
  · have hstep := fetchStep_of_rejected hq hf (hu ▸ hd)
    have hpc : (markRead s.npc (takeNpc (drawIrq s))).pc = s.npc := takeNpc_drawIrq_pc s
    exact ⟨_, by rw [hstep, hpc], hpc, decodeBundle_error hd⟩

/-! ### Where the fetch stops -/

theorem mcFetch_unaligned {s : State} {pc : Word} (h : pc.toNat % 4 ≠ 0) : mcFetch s pc = .error (.unaligned pc s) := by
  unfold mcFetch
  rw [if_neg (mt aligned4_iff.mp h)]

theorem mcFetch_outOfBounds {s : State} {pc : Word} (h : pc.toNat % 4 = 0) (hb : fetchInBounds s pc = false) :
    mcFetch s pc = .error (.illegalPC pc s) := by
  unfold mcFetch
  rw [if_pos (aligned4_iff.mpr h), hb]
  rfl

section
variable {s : State} {pc : Word} (h : pc.toNat % 4 = 0) (hb : fetchInBounds s pc = true)
include h hb

theorem mcFetch_firstWord {f : Fault} (h0 : peekWord s pc = .error f) : mcFetch s pc = .error f := by
  unfold mcFetch
  rw [if_pos (aligned4_iff.mpr h), if_pos hb, h0]

theorem mcFetch_wraps {w0 : Word} (h0 : peekWord s pc = .ok w0) (hw : fetchWraps pc w0 = true) :
    mcFetch s pc = .error (.illegalPC pc s) := by
  unfold mcFetch
  rw [if_pos (aligned4_iff.mpr h), if_pos hb, h0]
  exact if_pos hw

theorem mcFetch_secondWord {w0 : Word} {f : Fault} (h0 : peekWord s pc = .ok w0) (hw : fetchWraps pc w0 = false)
    (h1 : peekWord s (pc + 4) = .error f) : mcFetch s pc = .error f := by
  unfold mcFetch
  rw [if_pos (aligned4_iff.mpr h), if_pos hb, h0]
  simp only [hw, h1, Bool.false_eq_true, if_false]

end

/-- Outside the active function and its slack the bounds test fails (rule R330). -/
theorem fetchInBounds_of_outside {s : State} {e : McEntry} {pc : Word} (hp : s.params.mcPolicy ≠ .ideal)
    (he : ActiveEntry s e)
    (h : pc.toNat < e.addr.toNat ∨
      e.addr.toNat + e.blocks * s.params.mcBlockBytes + s.params.mcFetchSlack ≤ pc.toNat) :
    fetchInBounds s pc = false := by
  unfold fetchInBounds
  rw [if_neg hp, findEntry_active.mpr he]
  simp only [Bool.and_eq_false_iff, decide_eq_false_iff_not]
  omega

/-- Settles O48: the tests of the fetch in their order, each with the state in which the fetch is made. -/
theorem fetchOutOfBounds : Obligations.FetchOutOfBounds := by
  intro s hq
  have bounds (b : Bool) (h : fetchInBounds s s.npc = b) : fetchInBounds (takeNpc (drawIrq s)) s.npc = b :=
    (fetchInBounds_congr (by simp) (by simp) _).trans h
  have unbacked (a : Word) (h : a.toNat % 4 = 0) (hu : WordUnbacked s a) :
      peekWord (takeNpc (drawIrq s)) a = .error (.unmapped a (takeNpc (drawIrq s))) :=
    peekWord_unmapped h (by unfold WordUnbacked at hu ⊢; simpa using hu)
  refine ⟨fun h => fetchStops_of_mcFetch hq (mcFetch_unaligned h), fun h => ?_, fun e hp h he hout => ?_, fun h hin => ?_⟩
  · refine fetchStops_of_mcFetch hq (mcFetch_outOfBounds (by rw [h]; rfl) (bounds _ ?_))
    rw [h]; rfl
  · exact fetchStops_of_mcFetch hq (mcFetch_outOfBounds h (bounds _ (fetchInBounds_of_outside hp he hout)))
  · have hb := bounds _ (fetchInBounds_iff.mpr hin)
    refine ⟨fun hu => fetchStops_of_mcFetch hq (mcFetch_firstWord h hb (unbacked _ h hu)), fun w0 h0 => ?_⟩
    have hw0 : peekWord (takeNpc (drawIrq s)) s.npc = .ok w0 := peekWord_congr (by simp) (by simp) h0
    refine ⟨fun hw => fetchStops_of_mcFetch hq (mcFetch_wraps h hb hw0 ?_), fun hw hu => ?_⟩
    · simpa [← fetchWraps_eq_false] using hw
    · have h4 : (s.npc + 4).toNat % 4 = 0 := by bv_omega
      exact fetchStops_of_mcFetch hq
        (mcFetch_secondWord h hb hw0 (fetchWraps_eq_false.mpr hw) (unbacked _ h4 hu))

end Machine

end Sys2Proof

/-! The invariant of the method cache (rules R28, R312, R314, R332): it speaks of the parameters, the method cache and
`BASE` alone, so of all that a step does only the residency call, the completion of a transfer and the marking of read words
can touch it. -/

namespace Sys2Proof.Machine

open Sys2Proof.Config

/-! ### The resident functions -/

/-- Resident functions are distinct, each has the blocks its size asks for, and together they stay within capacity and
maximum count (rules R312, R313, R314). -/
structure EntriesOk (p : Params) (es : List McEntry) : Prop where
  distinct : (es.map (·.addr)).Nodup
  sized : ∀ e, e ∈ es → e.blocks = blocksOf p e.sizeBytes
  capacity : usedBlocks es ≤ p.mcNumBlocks
  count : es.length ≤ p.mcMaxEntries

theorem EntriesOk.perm {p : Params} {es fs : List McEntry} (h : EntriesOk p es) (hf : fs.Perm es) : EntriesOk p fs where
  distinct := (hf.map _).nodup_iff.mpr h.distinct
  sized e he := h.sized e (hf.mem_iff.mp he)
  capacity := (usedBlocks_perm hf).trans_le h.capacity
  count := hf.length_eq.trans_le h.count

/-- Eviction makes the room that the appended function needs (rules R320, R321). -/
theorem EntriesOk.append {p : Params} {es : List McEntry} (h : EntriesOk p es) (hp : p.ok = true) (active : Word)
    {a : Word} {size : Nat} (hn : blocksOf p size ≤ p.mcNumBlocks) (ha : a ∉ es.map (·.addr)) :
    EntriesOk p ((evictFor p active (blocksOf p size) es).1 ++ [⟨a, size, blocksOf p size, 0⟩]) := by
  have kept := (evictFor_sublist p active (blocksOf p size) es).1
  obtain ⟨room, place⟩ := evictFor_room active es hp hn
  constructor
  case distinct =>
    rw [List.map_append, List.nodup_append]
    refine ⟨h.distinct.sublist (kept.map _), List.nodup_singleton _, ?_⟩
    rintro x hx _ hy rfl
    obtain rfl : x = a := List.mem_singleton.mp hy
    exact ha ((kept.map _).subset hx)
  case sized =>
    intro e he
    obtain he | he := List.mem_append.mp he
    · exact h.sized e (kept.subset he)
    · rw [List.mem_singleton.mp he]
  case capacity => rw [usedBlocks_append]; exact room
  case count => rw [List.length_append]; exact place

theorem addrs_map {f : McEntry → McEntry} (hf : ∀ e, (f e).addr = e.addr) (es : List McEntry) :
    (es.map f).map (·.addr) = es.map (·.addr) := by
  rw [List.map_map]
  exact List.map_congr_left fun e _ => hf e

/-- What is only diagnostic in an entry may change (rule R313). -/
theorem EntriesOk.map {p : Params} {es : List McEntry} (h : EntriesOk p es) (f : McEntry → McEntry)
    (hf : ∀ e, (f e).addr = e.addr ∧ (f e).sizeBytes = e.sizeBytes ∧ (f e).blocks = e.blocks) :
    EntriesOk p (es.map f) := by
  have used (es : List McEntry) : usedBlocks (es.map f) = usedBlocks es := by
    induction es with
    | nil => rfl
    | cons e es ih => simp only [List.map_cons, usedBlocks, ih, (hf e).2.2]
  constructor
  case distinct =>
    rw [addrs_map fun e => (hf e).1]
    exact h.distinct
  case sized =>
    intro _ hm
    obtain ⟨e, he, rfl⟩ := List.mem_map.mp hm
    obtain ⟨-, hsize, hblocks⟩ := hf e
    rw [hsize, hblocks]
    exact h.sized e he
  case capacity => rw [used]; exact h.capacity
  case count => rw [List.length_map]; exact h.count

/-! ### The invariant, in parts -/

/-- What the invariant says of the method cache itself where the policy is not `IDEAL`. -/
structure CacheOk (p : Params) (m : MethodCache) : Prop where
  entries : EntriesOk p m.entries
  active : m.state = .transfer ∨ m.active ∈ entryAddrs m
  sizing : m.state = .sizeFetch → m.pending.address ∉ entryAddrs m
  transferring : m.state = .transfer → m.pending.address ∈ entryAddrs m

theorem mcInv_iff {s : State} :
    mcInv s ↔ s.mc.active = s.base ∧ (s.params.mcPolicy ≠ .ideal → CacheOk s.params s.mc) := by
  refine and_congr_right fun _ => imp_congr_right fun _ => ⟨?_, ?_⟩
  · rintro ⟨h1, h2, h3, h4, h5, h6, h7⟩; exact ⟨⟨h1, h2, h3, h4⟩, h5, h6, h7⟩
  · rintro ⟨⟨h1, h2, h3, h4⟩, h5, h6, h7⟩; exact ⟨h1, h2, h3, h4, h5, h6, h7⟩

/-- The invariant depends on the parameters, the method cache and `BASE` alone. -/
theorem mcInv.congr {s t : State} (h : mcInv s) (hp : t.params = s.params) (hm : t.mc = s.mc) (hb : t.base = s.base) :
    mcInv t := by
  unfold mcInv at h ⊢
  rwa [hp, hm, hb]

theorem mcInv.of_keepsRest {s t : State} {w : Touch} (h : mcInv s) (hk : KeepsRest w s t)
    (hw : w.methodCache = false) (hb : t.base = s.base) : mcInv t :=
  h.congr hk.keepsSettings.params (hk.mc_eq hw) hb

/-! ### The residency call -/

/-- A call that returns keeps the method cache in order; the active function is the old one while the caller waits, and
`a` when it is resident. -/
def Fill.Keeps (p : Params) (old a : Word) : Fill → Prop
  | .raised _ => True
  | .refused _ => True
  | .wait t => t.mc.active = old ∧ (p.mcPolicy ≠ .ideal → CacheOk p t.mc)
  | .resident t => t.mc.active = a ∧ (p.mcPolicy ≠ .ideal → CacheOk p t.mc)

theorem fillTransfer_keeps {p : Params} {a : Word} {s : State} (h : CacheOk p s.mc) (ht : s.mc.state = .transfer)
    (ha : s.mc.pending.address = a) : (fillTransfer a s).Keeps p s.mc.active a := by
  rcases fillTransfer_cases a s with ⟨-, e⟩ | ⟨_, -, -, e⟩ | ⟨-, -, e⟩ <;> rw [e]
  · exact ⟨rfl, fun _ => h⟩
  · trivial
  · exact ⟨rfl, fun _ => ⟨h.entries, .inr (ha ▸ h.transferring ht), nofun, nofun⟩⟩

theorem fillSize_keeps {a : Word} {s : State} (hp : s.params.ok = true) (h : CacheOk s.params s.mc)
    (hs : s.mc.state = .sizeFetch) (ha : s.mc.pending.address = a) :
    (fillSize a s).Keeps s.params s.mc.active a := by
  rcases fillSize_cases a s with ⟨-, e⟩ | ⟨_, -, e⟩ | e | ⟨w, -, -, hn, -, e⟩ <;> rw [e]
  · exact ⟨rfl, fun _ => h⟩
  · trivial
  · trivial
  · have hnew : a ∉ s.mc.entries.map (·.addr) := ha ▸ h.sizing hs
    have hok : CacheOk s.params (admitEntry a w.toNat (blocksOf s.params w.toNat) s.dropReply).mc :=
      ⟨h.entries.append hp _ hn hnew, .inl rfl, nofun, fun _ => by simp [admitEntry, entryAddrs]⟩
    exact fillTransfer_keeps hok rfl rfl

theorem ensureResident_keeps {a : Word} {s : State} (hp : s.params.ok = true)
    (h : s.params.mcPolicy ≠ .ideal → CacheOk s.params s.mc) :
    (ensureResident a s).Keeps s.params s.mc.active a := by
  unfold ensureResident
  split
  · rename_i hi
    exact ⟨rfl, fun hn => absurd hi hn⟩
  · rename_i hi
    have hc := h hi
    have notTransfer {st : McState} (hst : s.mc.state = st) (hne : st ≠ .transfer) : s.mc.active ∈ entryAddrs s.mc :=
      hc.active.resolve_left fun e => hne (hst ▸ e)
    cases hst : s.mc.state <;> dsimp only
    case idle =>
      split
      · rename_i hf
        obtain ⟨e, he, hea⟩ := findEntry_isSome.mp hf
        have hperm : (hitEntry a s).mc.entries.Perm s.mc.entries := by
          simp only [hitEntry, State.withMc_mc]
          split
          · exact moveToLast_perm _ _
          · exact .refl _
        refine ⟨rfl, fun _ => ⟨hc.entries.perm hperm, .inr ?_, ?_, ?_⟩⟩
        · exact List.mem_map.mpr ⟨e, hperm.mem_iff.mpr he, hea⟩
        · intro hs; exact absurd (hst.symm.trans hs) nofun
        · intro hs; exact absurd (hst.symm.trans hs) nofun
      · rename_i hf
        have hnew : a ∉ entryAddrs s.mc := fun hm => by
          obtain ⟨e, he, hea⟩ := List.mem_map.mp hm
          exact hf (findEntry_isSome.mpr ⟨e, he, hea⟩)
        exact fillSize_keeps (s := missEntry a s) hp
          ⟨hc.entries, .inr (notTransfer hst nofun), fun _ => hnew, nofun⟩ rfl rfl
    case sizeFetch =>
      split
      · rename_i ha; exact fillSize_keeps hp hc hst ha
      · trivial
    case transfer =>
      split
      · rename_i ha; exact fillTransfer_keeps hc hst ha
      · trivial

/-! ### Stage operations -/

/-- A transfer changes `BASE` only together with the active function (rules R268, R270, R332). -/
theorem mcInv.dispatchMW {t : Transfer} {s u : State} (h : mcInv s) (hp : s.params.ok = true)
    (hs : s.cur.stage = .MW) (hd : dispatchMW t s = .next u) : mcInv u := by
  obtain ⟨v, hv⟩ : ∃ v, v = transferOnce t (preFlush t s) := ⟨_, rfl⟩
  have hbegun : KeepsRest { t.touch with control := false, methodCache := false } s v :=
    hv ▸ (KeepsRest.preFlush t s _ rfl).trans
      (.transferOnce t _ _ (fun rb ro e => by simp [Transfer.touch, e]) rfl rfl)
  have hslot : v.slot.exBase = s.slot.exBase := by rw [hv, transferOnce_slot, preFlush_slot hs]
  have hmc : v.mc = s.mc := hbegun.mc_eq rfl
  have hbase : v.base = s.base := by_contra fun hn => nomatch hbegun.control_of_base hn
  have hparams : v.params = s.params := hbegun.keepsSettings.params
  obtain ⟨hactive, hcache⟩ := mcInv_iff.mp h
  have hkeeps := ensureResident_keeps (a := s.slot.exBase) (s := v) (hparams ▸ hp) (by rwa [hparams, hmc])
  obtain ⟨-, ⟨x, hx, rfl⟩ | ⟨x, hx, rfl⟩⟩ := dispatchMW_next hs hd
  · rw [← hv] at hx
    obtain ⟨m, rs, rfl⟩ := ensureResident_only (.inr hx)
    rw [hx] at hkeeps
    exact mcInv_iff.mpr ⟨hkeeps.1.trans ((congrArg _ hmc).trans (hactive.trans hbase.symm)), hkeeps.2⟩
  · rw [← hv] at hx
    obtain ⟨m, rs, rfl⟩ := ensureResident_only (.inl hx)
    rw [hx] at hkeeps
    obtain ⟨hb, -, hm, -⟩ := completeTransfer_fields t { v with mc := m, replies := rs }
    have hq := (KeepsRest.completeTransfer t { v with mc := m, replies := rs } t.touch rfl rfl (.inl rfl)).keepsSettings.params
    refine mcInv_iff.mpr ⟨?_, ?_⟩
    · rw [hm, hb]; exact hkeeps.1.trans hslot.symm
    · rw [hm, hq]; exact hkeeps.2

theorem Shape.methodCache_commitTouch {p : Params} {sh : Shape} (h : (sh.commitTouch p).methodCache = true) :
    ∃ kind dest, sh = .transfer kind dest := by
  cases sh
  case transfer kind dest => exact ⟨kind, dest, rfl⟩
  all_goals cases h

theorem mcInv.exec {i : Instr} {s t : State} (h : mcInv s) (hp : s.params.ok = true) (he : exec i s = .next t) :
    mcInv t := by
  obtain hk | ⟨-, hk, hb⟩ | ⟨⟨hs, -⟩, hk, htransfer⟩ := exec_frame he
  · exact h.of_keepsRest hk rfl (by_contra fun hn => nomatch hk.control_of_base hn)
  · exact h.of_keepsRest hk (shapeOf i).executeTouch_fields.2.2.2 hb
  · by_cases hsh : ∃ kind dest, shapeOf i = .transfer kind dest
    · obtain ⟨kind, dest, hsh⟩ := hsh
      exact h.dispatchMW hp hs (htransfer kind dest hsh).2
    · refine h.of_keepsRest hk (Bool.of_not_eq_true (mt Shape.methodCache_commitTouch hsh)) (by_contra fun hn => ?_)
      exact hsh (Shape.control_commitTouch (hk.control_of_base hn))

/-- Everything an invocation of `INTR` can do (rule R296). -/
theorem intrStages_next {a : Word} {s t : State} (h : intrStages a s = .next t) :
    (∃ x, t = s.setSlot x ∧ x.instr = s.slot.instr ∧ x.byp = s.slot.byp) ∨
      (s.cur.stage = .MW ∧ dispatchMW (TransferKind.intr.record s.params) s = .next t) := by
  have same : ∃ x, s = s.setSlot x ∧ x.instr = s.slot.instr ∧ x.byp = s.slot.byp :=
    ⟨s.slot, (State.setSlot_slot s).symm, rfl, rfl⟩
  unfold intrStages stageOp at h
  cases hs : s.cur.stage <;> rw [hs] at h <;> dsimp only at h
  case IF => cases h; exact .inl same
  case DR => cases h; exact .inl ⟨_, rfl, rfl, rfl⟩
  case EX =>
    obtain ⟨-, rfl⟩ | ⟨-, -, e⟩ := executeSlot_next h
    · exact .inl same
    · cases e; exact .inl ⟨_, rfl, rfl, rfl⟩
  case MW =>
    obtain ⟨-, rfl⟩ | ⟨-, -, e⟩ := commitSlot_next h
    · exact .inl same
    · exact .inr ⟨rfl, e⟩

/-- Everything an invocation of `HALT` can do when it goes on (rule R299). -/
theorem haltStages_next {s t : State} (h : haltStages s = .next t) : ∃ x, t = s.setSlot x := by
  have same : ∃ x, s = s.setSlot x := ⟨s.slot, (State.setSlot_slot s).symm⟩
  unfold haltStages stageOp at h
  cases hs : s.cur.stage <;> rw [hs] at h <;> dsimp only at h
  case IF => cases h; exact same
  case DR => cases h; exact ⟨_, rfl⟩
  case EX => cases h; exact same
  case MW =>
    obtain ⟨-, rfl⟩ | ⟨-, -, e⟩ := commitSlot_next h
    · exact same
    · cases e

theorem mcInv.invoke {st : Stage} {k : SlotIx} {s t : State} (h : mcInv s) (hp : s.params.ok = true)
    (hi : invoke st k s = .next t) : mcInv t := by
  have cursor : mcInv (s.atSlot st k) := h
  obtain ⟨-, rfl⟩ | ⟨i, -, e⟩ | ⟨a, -, e⟩ | ⟨-, e⟩ := invoke_cases hi
  · exact h
  · exact cursor.exec hp e
  · obtain ⟨x, rfl, -⟩ | ⟨hs, hd⟩ := intrStages_next e
    · exact h
    · exact cursor.dispatchMW hp hs hd
  · obtain ⟨x, rfl⟩ := haltStages_next e
    exact h

theorem mcInv.stageOps {s t : State} (h : mcInv s) (hp : s.params.ok = true) (hi : stageOps s = .next t) : mcInv t :=
  (stageOps_induct (P := fun u => u.params.ok = true ∧ mcInv u) ⟨hp, h⟩
    (fun _ _ _ _ hu hi => ⟨(invoke_keepsSettings hi).params ▸ hu.1, hu.2.invoke hu.1 hi⟩) hi).2

/-! ### The end of a cycle -/

theorem markWord_fields (p : Params) (e : McEntry) (a : Word) :
    (markWord p e a).addr = e.addr ∧ (markWord p e a).sizeBytes = e.sizeBytes ∧ (markWord p e a).blocks = e.blocks := by
  unfold markWord
  dsimp only
  split <;> exact ⟨rfl, rfl, rfl⟩

/-- What `fetch` does to one entry: the two words at `pc` are marked in the active one (rule R330). -/
def markEntry (s : State) (pc : Word) (e : McEntry) : McEntry :=
  if e.addr = s.mc.active then markWord s.params (markWord s.params e pc) (pc + 4) else e

theorem markRead_mc (pc : Word) (s : State) :
    (markRead pc s).mc = { s.mc with entries := s.mc.entries.map (markEntry s pc) } := rfl

theorem markEntry_fields (s : State) (pc : Word) (e : McEntry) :
    (markEntry s pc e).addr = e.addr ∧ (markEntry s pc e).sizeBytes = e.sizeBytes ∧
      (markEntry s pc e).blocks = e.blocks := by
  unfold markEntry
  split
  · simp only [markWord_fields, and_self]
  · exact ⟨rfl, rfl, rfl⟩

/-- Marking words as read changes nothing that the invariant speaks of (rule R330: diagnostic only). -/
theorem mcInv.markRead {s : State} (h : mcInv s) (pc : Word) : mcInv (markRead pc s) := by
  obtain ⟨hactive, hcache⟩ := mcInv_iff.mp h
  have addrs : entryAddrs (Machine.markRead pc s).mc = entryAddrs s.mc :=
    addrs_map (fun e => (markEntry_fields s pc e).1) _
  refine mcInv_iff.mpr ⟨hactive, fun hi => ?_⟩
  obtain ⟨hentries, hres, hsizing, htransferring⟩ := hcache hi
  exact ⟨markRead_mc pc s ▸ hentries.map _ (markEntry_fields s pc), by rwa [addrs], by rwa [addrs], by rwa [addrs]⟩

theorem mcInv.fetchStep {s t : State} (h : mcInv s) (hf : fetchStep s = .next t) : mcInv t := by
  obtain ⟨q, rfl⟩ | ⟨_, _, f, -, -, rfl⟩ := fetchStep_next hf
  · obtain ⟨e, he, -⟩ := drawIrq_fields s
    rw [he]; exact h
  · obtain ⟨e, he⟩ := takeNpc_drawIrq s
    have hdraw : mcInv (takeNpc (drawIrq s)) := by rw [he]; exact h
    exact hdraw.markRead s.npc

theorem mcInv.advance {s : State} (h : mcInv s) : mcInv (advance s) := by
  unfold Machine.advance
  split <;> exact h

theorem mcInv.holdStages {s : State} (h : mcInv s) (st : Stage) : mcInv (holdStages st s) := by
  cases st <;> exact h

theorem mcInv.finishCycle {s : State} (h : mcInv s) : mcInv (finishCycle s) := by
  unfold Machine.finishCycle mcTick
  split <;> exact h

/-- Settles O54: every part of a step keeps the invariant. -/
theorem methodCacheInvariantKept : Obligations.MethodCacheInvariantKept := by
  intro s t hp h hstep
  obtain ⟨u, hu, ⟨st, -, rfl⟩ | ⟨-, v, hv, rfl⟩⟩ := step_cases hstep
  · exact ((h.stageOps hp hu).holdStages st).finishCycle
  · exact ((h.stageOps hp hu).advance.fetchStep hv).finishCycle

end Sys2Proof.Machine

/-! The invariant of the core (rules R11, R13, R19, R25, R63, R93, R117): what each state operation needs to keep it, then
the stage operations and the end of a cycle by composition. -/

namespace Sys2Proof.Machine

open Sys2Proof.Config

/-! ### What a slot may hold -/

/-- What the invariant says of slot `k` of a stage. -/
def slotOk (k : SlotIx) (x : Slot) : Bool := slotContentOk k x && bypOk x

theorem slotContentOk_congr {k : SlotIx} {x y : Slot} (h : x.instr = y.instr) : slotContentOk k x = slotContentOk k y := by
  unfold slotContentOk; rw [h]

theorem bypOk_congr {x y : Slot} (h : x.byp = y.byp) : bypOk x = bypOk y := by
  unfold bypOk; rw [h]

theorem bypOk_entry {x : Slot} {tag : BypTag} {r : Reg} {v : Word}
    (h : x.byp = if r = 0 then none else some ⟨tag, r, v⟩) : bypOk x = true := by
  unfold bypOk
  rw [h]
  split
  · rfl
  · rename_i e he
    split at he <;> cases he
    exact decide_eq_true ‹_›

/-- A slot stays in order when it holds the same instruction and its bypass entry is the old one or an allowed one. -/
theorem slotOk_of_same {k : SlotIx} {x y : Slot} (hy : slotOk k y = true) (hi : x.instr = y.instr)
    (hb : bypOk y = true → bypOk x = true) : slotOk k x = true := by
  unfold slotOk at hy ⊢
  rw [Bool.and_eq_true] at hy ⊢
  exact ⟨(slotContentOk_congr hi).trans hy.1, hb hy.2⟩

theorem slotOk_ne_halt {k : SlotIx} {x : Slot} (h : slotOk k x = true) : x.instr ≠ .halt := by
  intro e
  unfold slotOk slotContentOk at h
  rw [e] at h
  cases k <;> cases h

theorem slotOk_bubble (k : SlotIx) : slotOk k Slot.bubble = true := by cases k <;> rfl

theorem bundleOk_iff {b : Bundle} : bundleOk b = true ↔ ∀ k, slotOk k (b.get k) = true := by
  unfold bundleOk slotOk
  simp only [Bool.and_eq_true]
  exact ⟨fun ⟨⟨⟨c0, c1⟩, b0⟩, b1⟩ k => by cases k <;> exact ⟨‹_›, ‹_›⟩,
    fun h => ⟨⟨⟨(h .s0).1, (h .s1).1⟩, (h .s0).2⟩, (h .s1).2⟩⟩

/-- `decode_stage` stores operands only (rule R104). -/
theorem decodedSlot_instr_byp (sh : Shape) (s : State) (x : Slot) :
    (decodedSlot sh s x).instr = x.instr ∧ (decodedSlot sh s x).byp = x.byp := by
  unfold decodedSlot
  split <;> exact ⟨rfl, rfl⟩

/-! ### The invariant, in parts -/

/-- `coreInv`, one field per clause. -/
structure CoreOk (s : State) : Prop where
  mem : s.mem.wf = true
  gpr : s.gpr[0] = 0
  preds : s.preds[0] = true
  base : aligned4 s.base = true
  npc : aligned4 s.npc = true
  slots : ∀ st k, slotOk k (s.slotAt st k) = true
  stall : s.stallReq = none ∨ s.stallReq = some .MW

theorem coreInv_iff {s : State} : coreInv s = true ↔ CoreOk s := by
  have pipe : (bundleOk s.pipe.fetch = true ∧ bundleOk s.pipe.dr = true ∧ bundleOk s.pipe.ex = true ∧
      bundleOk s.pipe.mw = true) ↔ ∀ st k, slotOk k (s.slotAt st k) = true := by
    simp only [bundleOk_iff]
    exact ⟨fun ⟨hf, hd, he, hm⟩ st => by cases st <;> assumption, fun h => ⟨h .IF, h .DR, h .EX, h .MW⟩⟩
  have fields : CoreOk s ↔ s.mem.wf = true ∧ s.gpr[0] = 0 ∧ s.preds[0] = true ∧ aligned4 s.base = true ∧
      aligned4 s.npc = true ∧ (∀ st k, slotOk k (s.slotAt st k) = true) ∧
      (s.stallReq = none ∨ s.stallReq = some .MW) :=
    ⟨fun ⟨a, b, c, d, e, f, g⟩ => ⟨a, b, c, d, e, f, g⟩, fun ⟨a, b, c, d, e, f, g⟩ => ⟨a, b, c, d, e, f, g⟩⟩
  rw [fields, ← pipe]
  unfold coreInv Mems.wf
  simp only [Bool.and_eq_true, Bool.or_eq_true, decide_eq_true_eq, and_assoc]

namespace CoreOk

variable {s : State}

/-! ### State operations -/

theorem setSlot (h : CoreOk s) {x : Slot} (hx : slotOk s.cur.k x = true) : CoreOk (s.setSlot x) := by
  refine { h with slots := fun st k => ?_ }
  by_cases hc : IsCurrent s st k
  · obtain ⟨rfl, rfl⟩ := hc
    exact (congrArg (slotOk _) (s.slot_setSlot x)).trans hx
  · rw [s.slotAt_setSlot_ne x (IsCurrent.ne hc)]
    exact h.slots st k

/-- The invoked slot may be refilled in all but its instruction, and in its bypass entry within rule R25. -/
theorem refill (h : CoreOk s) {x : Slot} (hi : x.instr = s.slot.instr) (hb : bypOk s.slot = true → bypOk x = true) :
    CoreOk (s.setSlot x) :=
  h.setSlot (slotOk_of_same (h.slots s.cur.stage s.cur.k) hi hb)

theorem done (h : CoreOk s) : CoreOk s.done := h.refill rfl id

theorem writeGpr (h : CoreOk s) (r : Reg) (v : Word) : CoreOk (s.writeGpr r v) := by
  refine { h with gpr := ?_ }
  unfold State.writeGpr
  dsimp only
  split
  · exact h.gpr
  · rename_i hr
    have hne : r.toNat ≠ 0 := fun e => hr (BitVec.eq_of_toNat_eq e)
    rw [Vector.getElem_set_ne _ _ hne]
    exact h.gpr

theorem commitGpr (h : CoreOk s) (r : Reg) (v : Word) (b : Bool) : CoreOk (s.commitGpr r v b) := by
  have noted : CoreOk ((s.writeGpr r v).noteWrite r b) := { h.writeGpr r v with }
  refine noted.refill rfl fun _ => bypOk_entry (tag := .MEM) (r := r) (v := v) ?_
  simp only [Slot.republish, ne_eq, ite_not]

theorem writePred (h : CoreOk s) (p : PReg) (b : Bool) : CoreOk (s.writePred p b) := by
  refine { h with preds := ?_ }
  unfold State.writePred
  dsimp only
  split
  · exact h.preds
  · rename_i hp
    have hne : p.toNat ≠ 0 := fun e => hp (BitVec.eq_of_toNat_eq e)
    rw [Vector.getElem_set_ne _ _ hne]
    exact h.preds

theorem writeSpecial (h : CoreOk s) (i : SReg) (v : Word) : CoreOk (s.writeSpecial i v) := by
  refine { h with preds := ?_ }
  unfold State.writeSpecial
  dsimp only
  split
  · exact h.preds
  · exact h.preds

theorem stallMW (h : CoreOk s) : CoreOk (s.stall .MW) := { h with stall := .inr s.stall_stallReq_mw }

theorem setControl (h : CoreOk s) {b t : Word} (hb : aligned4 b = true) (ht : aligned4 t = true) :
    CoreOk (s.setControl b t) := { h with base := hb, npc := ht }

theorem flushUpstream (h : CoreOk s) (st : Stage) : CoreOk (s.flushUpstream st) := by
  refine { h with slots := fun sg k => ?_ }
  rw [s.slotAt_flushUpstream]
  split
  · exact slotOk_bubble k
  · exact h.slots sg k

theorem markDelaySlots (h : CoreOk s) (n : Nat) (st : Stage) : CoreOk (s.markDelaySlots n st) := by
  refine { h with slots := fun sg k => ?_ }
  rw [s.slotAt_markDelaySlots]
  split
  · exact slotOk_of_same (h.slots sg k) rfl id
  · exact h.slots sg k

theorem onlyCache {t : State} (h : CoreOk s) (ht : OnlyCache s t) : CoreOk t := by
  obtain ⟨m, r, rfl⟩ := ht
  exact { h with }

/-- A call of the stack cache that is done moves bytes or none (rule R251). -/
theorem stackMoved {u : State} (h : CoreOk s)
    (moved : u = s ∨ u = s.dropStackReply ∨
      ∃ lo k, u = { s with mem := { s.mem with main := s.mem.main.copyFrom s.mem.stack lo k } } ∨
        u = { s with mem := { s.mem with stack := s.mem.stack.copyFrom s.mem.main lo k } }) : CoreOk u := by
  have copied (a : Area) (src : Memory) (lo : Word) (k : Nat) :
      (s.mem.set a ((s.mem.get a).copyFrom src lo k)).wf = true :=
    Mems.wf_set h.mem a (Memory.wf_copyFrom src lo k (Mems.wf_get h.mem a))
  obtain rfl | rfl | ⟨lo, k, rfl | rfl⟩ := moved
  · exact h
  · exact { h with }
  · exact { h with mem := copied .mainMem s.mem.stack lo k }
  · exact { h with mem := copied .stackCache s.mem.main lo k }

/-! ### Transfers -/

theorem saveReturn (h : CoreOk s) (t : Transfer) : CoreOk (saveReturn t s) := by
  unfold Machine.saveReturn
  split
  · exact { h with }
  · split
    · exact { h with }
    · exact h

theorem transferOnce (h : CoreOk s) (t : Transfer) : CoreOk (transferOnce t s) := by
  unfold Machine.transferOnce
  split
  · exact h
  · have saved := h.saveReturn t
    dsimp only
    split
    · exact refill (s := (Machine.saveReturn t s).setIntrEnabled false) { saved with } rfl id
    · exact saved.refill rfl id

theorem preFlush (h : CoreOk s) (t : Transfer) : CoreOk (preFlush t s) := by
  unfold Machine.preFlush
  split
  · exact h
  · exact h.flushUpstream .MW

theorem completeTransfer (h : CoreOk s) (t : Transfer) (hb : aligned4 s.slot.exBase = true)
    (ht : aligned4 s.slot.exTarget = true) : CoreOk (completeTransfer t s) := by
  have controlled := h.setControl hb ht
  have switched : CoreOk (if t.switchesOn then (s.setControl s.slot.exBase s.slot.exTarget).setIntrEnabled true
      else s.setControl s.slot.exBase s.slot.exTarget) := by
    split
    · exact { controlled with }
    · exact controlled
  unfold Machine.completeTransfer
  dsimp only
  split
  · exact switched.done.markDelaySlots _ _
  · exact switched.done

/-- The dispatch in `MW`: base and target are aligned where it goes on (rules R272, R273). -/
theorem dispatchMW {t : Transfer} {u : State} (h : CoreOk s) (hs : s.cur.stage = .MW)
    (hd : dispatchMW t s = .next u) : CoreOk u := by
  have begun : CoreOk (Machine.transferOnce t (Machine.preFlush t s)) := (h.preFlush t).transferOnce t
  have hslot : (Machine.transferOnce t (Machine.preFlush t s)).slot = { s.slot with initialized := true } := by
    rw [transferOnce_slot, preFlush_slot hs]
  obtain ⟨⟨-, hb, ht⟩, ⟨v, hv, rfl⟩ | ⟨v, hv, rfl⟩⟩ := dispatchMW_next hs hd
  · exact (begun.onlyCache (ensureResident_only (.inr hv))).stallMW
  · have cached := begun.onlyCache (ensureResident_only (.inl hv))
    have hvslot : v.slot = { s.slot with initialized := true } := by
      obtain ⟨m, r, rfl⟩ := ensureResident_only (.inl hv)
      exact hslot
    exact cached.completeTransfer t (by rw [hvslot]; exact aligned4_iff.mpr hb)
      (by rw [hvslot]; exact aligned4_iff.mpr ht)

theorem completeBranch (h : CoreOk s) (d : Bool) {a : Word} (ha : aligned4 a = true) :
    CoreOk (completeBranch d a s) := by
  have controlled : CoreOk (s.setControl s.base a) := h.setControl h.base ha
  unfold Machine.completeBranch
  cases d
  · exact (controlled.flushUpstream .EX).done
  · exact (controlled.markDelaySlots _ .EX).done

/-! ### Stage operations -/

theorem shapeExecute {sh : Shape} {t : State} (h : CoreOk s) (he : shapeExecute sh s = .next t) : CoreOk t := by
  rcases shapeExecute_next he with rfl | ⟨-, ⟨x, rfl, hi, -, hb⟩ | ⟨pd, b, -, rfl⟩ | ⟨d, e, a, -, -, ha, rfl⟩⟩
  · exact h
  · refine h.refill hi fun hold => ?_
    obtain hb | ⟨rd, v, hb⟩ := hb
    · exact (bypOk_congr hb).trans hold
    · exact bypOk_entry hb
  · exact h.writePred pd b
  · exact h.completeBranch d ha

theorem shapeCommit {sh : Shape} {t : State} (h : CoreOk s) (hs : s.cur.stage = .MW)
    (hc : shapeCommit sh s = .next t) : CoreOk t := by
  have answered : CoreOk s.dropReply := { h with }
  have stackAnswered : CoreOk s.dropStackReply := { h with }
  rcases shapeCommit_next hc with rfl | ⟨-, -, result | product | special | load | store | stack | transfer⟩
  · exact h
  · obtain ⟨rd, v, b, -, rfl | rfl⟩ := result
    · exact h.commitGpr rd v b
    · exact answered.commitGpr rd v b
  · obtain ⟨_, _, _, p, q, -, rfl⟩ := product
    exact done (s := (s.writeSpr s.params.sl p).writeSpr s.params.sh q) { h with }
  · obtain ⟨sd, _, v, -, rfl⟩ := special
    exact (h.writeSpecial sd v).done
  · obtain ⟨_, _, _, _, _, _, -, rfl⟩ := load
    exact answered.stallMW
  · obtain ⟨area, w, _, _, _, -, rfl | rfl⟩ := store
    · exact answered.stallMW
    · have stored : CoreOk (s.dropReply.setAreaMem area
          ((s.areaMem area).store s.params.endian w s.slot.exAddress s.slot.exResult)) :=
        { answered with mem := State.wf_store (s := s.dropReply) h.mem _ _ _ _ _ }
      exact stored.done
  · obtain ⟨_, -, rfl | ⟨u, p, q, moved, rfl⟩⟩ := stack
    · exact stackAnswered.stallMW
    · exact done (s := (u.writeSpr s.params.ss p).writeSpr s.params.st q) { h.stackMoved moved with }
  · obtain ⟨k, _, -, -, hd⟩ := transfer
    exact h.dispatchMW hs hd

theorem exec {i : Instr} {t : State} (h : CoreOk s) (he : exec i s = .next t) : CoreOk t := by
  cases hs : s.cur.stage with
  | IF => rw [exec_fetch hs] at he; cases he; exact h
  | DR =>
    rw [exec_decode hs] at he
    cases he
    obtain ⟨hi, hb⟩ := decodedSlot_instr_byp (shapeOf i) s { s.slot with pred := s.predRef (guardOfInstr i) }
    exact h.refill hi (bypOk_congr hb).trans
  | EX => rw [exec_execute hs] at he; exact h.shapeExecute he
  | MW => rw [exec_commit hs] at he; exact h.shapeCommit hs he

theorem invoke {st : Stage} {k : SlotIx} {t : State} (h : CoreOk s) (hi : invoke st k s = .next t) : CoreOk t := by
  have cursor : CoreOk (s.atSlot st k) := { h with }
  obtain ⟨-, rfl⟩ | ⟨i, -, e⟩ | ⟨a, -, e⟩ | ⟨halt, -⟩ := invoke_cases hi
  · exact h
  · exact cursor.exec e
  · obtain ⟨x, rfl, hx, hb⟩ | ⟨hs, hd⟩ := intrStages_next e
    · exact cursor.refill hx (bypOk_congr hb).trans
    · exact cursor.dispatchMW hs hd
  · exact absurd halt (slotOk_ne_halt (h.slots st k))

theorem stageOps {t : State} (h : CoreOk s) (hi : stageOps s = .next t) : CoreOk t :=
  stageOps_induct (P := CoreOk) { h with stall := .inl rfl } (fun _ _ _ _ hu hi => hu.invoke hi) hi

/-! ### The end of a cycle -/

/-- The slots after a bundle has been put into `IF`. -/
theorem slots_fetched (h : CoreOk s) {b : Bundle} (hb : ∀ k, slotOk k (b.get k) = true) (st : Stage) (k : SlotIx) :
    slotOk k ((({ s.pipe with fetch := b } : Pipe).get st).get k) = true := by
  cases st with
  | IF => exact hb k
  | DR => exact h.slots .DR k
  | EX => exact h.slots .EX k
  | MW => exact h.slots .MW k

theorem fetchStep {t : State} (h : CoreOk s) (hf : fetchStep s = .next t) : CoreOk t := by
  obtain ⟨q, rfl⟩ | ⟨w0, w1, f, ha, hd, rfl⟩ := fetchStep_next hf
  · obtain ⟨e, he, -⟩ := drawIrq_fields s
    rw [he]
    exact { h with slots := h.slots_fetched fun k => by cases k <;> rfl }
  · obtain ⟨e, he⟩ := takeNpc_drawIrq s
    obtain ⟨hlen, hslot1⟩ := decodeBundle_ok hd
    obtain ⟨i0, i1, len⟩ := f
    rw [he]
    have hnpc : aligned4 (s.npc + BitVec.ofNat 32 len) = true := by
      rw [aligned4_iff] at ha ⊢
      obtain rfl | rfl := hlen <;> bv_omega
    refine { h with npc := hnpc, slots := h.slots_fetched fun k => ?_ }
    cases k with
    | s0 => rfl
    | s1 =>
      cases i1 with
      | none => rfl
      | some j => exact Bool.and_eq_true_iff.mpr ⟨hslot1 j rfl, rfl⟩

theorem advance (h : CoreOk s) : CoreOk (advance s) := by
  have moved (st : Stage) (k : SlotIx) :
      slotOk k ((({ s.pipe with mw := s.pipe.ex, ex := s.pipe.dr, dr := s.pipe.fetch } : Pipe).get st).get k) = true := by
    cases st with
    | IF => exact h.slots .IF k
    | DR => exact h.slots .IF k
    | EX => exact h.slots .DR k
    | MW => exact h.slots .EX k
  unfold Machine.advance
  split <;> exact { h with slots := moved }

theorem finishCycle (h : CoreOk s) : CoreOk (finishCycle s) := by
  unfold Machine.finishCycle mcTick
  split <;> exact { h with }

end CoreOk

/-- Settles O53: every part of a step keeps each clause. -/
theorem coreInvariantKept : Obligations.CoreInvariantKept := by
  intro s t h hstep
  rw [coreInv_iff] at h ⊢
  obtain ⟨u, hu, ⟨st, hst, rfl⟩ | ⟨-, v, hv, rfl⟩⟩ := step_cases hstep
  · have hu' := h.stageOps hu
    obtain rfl : st = .MW := by
      have := hu'.stall
      rw [hst] at this
      simpa using this
    exact hu'.finishCycle
  · exact ((h.stageOps hu).advance.fetchStep hv).finishCycle

end Sys2Proof.Machine

/-! Loads, stores and stack control in `MW`: each answer of the collaborator that is called gives one outcome of `exec`
(rules R44, R45, R49, R202, R203, R250). -/

namespace Sys2Proof.Machine

open Sys2Proof.Config

/-! ### The call of a memory collaborator, before any byte moves -/

/-- What `MemRead` and `MemWrite` have in common (rules R43, R44, R45): the fault of the access, else the answer drawn. -/
def accessCall (s : State) (area : Area) (w : Width) (a : Word) : Call Unit :=
  match accessFault s area w a with
  | some f => .raised f
  | none => accessReply s area

/-- A call continued where it is done. -/
def Call.andThen {α : Type} (c : Call Unit) (k : State → Call α) : Call α :=
  match c with
  | .raised f => .raised f
  | .busy s => .busy s
  | .done _ s => k s

section
variable {s : State} {area : Area} {w : Width} {a : Word}

theorem memRead_eq (sg : Bool) : memRead s area w sg a =
    (accessCall s area w a).andThen fun u => .done ((u.areaMem area).load u.params.endian w sg a) u := by
  unfold memRead accessCall
  cases accessFault s area w a with
  | some f => rfl
  | none => cases accessReply s area <;> rfl

theorem memWrite_eq (v : Word) : memWrite s area w a v =
    (accessCall s area w a).andThen fun u =>
      .done () (u.setAreaMem area ((u.areaMem area).store u.params.endian w a v)) := by
  unfold memWrite accessCall
  cases accessFault s area w a with
  | some f => rfl
  | none => cases accessReply s area <;> rfl

theorem accessCall_misaligned (h : a.toNat % w.bytes ≠ 0) : accessCall s area w a = .raised (.unaligned a s) := by
  simp [accessCall, accessFault, Width.aligned, h]

theorem accessCall_unbacked (h : a.toNat % w.bytes = 0)
    (hb : ∃ b, InAccess a w b ∧ isBacked (backedRegions s.params area) b = false) :
    accessCall s area w a = .raised (.unmapped a s) := by
  obtain ⟨b, hin, hn⟩ := hb
  unfold accessCall
  obtain ⟨hne, -⟩ | ⟨-, -, hf⟩ | ⟨-, hall, -⟩ := accessFault_cases s area w a
  · exact absurd h hne
  · rw [hf]
  · rw [firstUnbacked_access.mp hall b hin] at hn
    cases hn

end

section
variable {s : State} {area : Area} {w : Width} {a : Word} (ha : a.toNat % w.bytes = 0)
  (hb : ∀ b, InAccess a w b → isBacked (backedRegions s.params area) b = true)
include ha hb

theorem accessCall_done (h : s.nextReply = .done) : accessCall s area w a = .done () s.dropReply := by
  simp only [accessCall, accessFault_none ha hb, accessReply, h]

theorem accessCall_busy (h : s.nextReply = .busy) : accessCall s area w a = .busy s.dropReply := by
  simp only [accessCall, accessFault_none ha hb, accessReply, h]

theorem accessCall_exceeded {v : Word} (h : s.nextReply = .exceeded v) (hs : area = .stackCache) :
    accessCall s area w a = .raised (.stackExceeded v s.dropReply) := by
  simp only [accessCall, accessFault_none ha hb, accessReply, h, if_pos hs]

end

/-! ### `exec` of a load or store by the outcome of the call -/

/-- A load or store of width `w` through `area`. -/
def Shape.IsAccess (sh : Shape) (area : Area) (w : Width) : Prop :=
  (∃ signed rd ra imm, sh = .load area w signed rd ra imm) ∨ ∃ ra rs imm, sh = .store area w ra rs imm

section
variable {i : Instr} {s u : State} {area : Area} {w : Width} (hc : Commits s)
include hc

theorem exec_access_raised (hi : (shapeOf i).IsAccess area w) {f : Fault}
    (h : accessCall s area w s.slot.exAddress = .raised f) : exec i s = .fault f := by
  rw [exec_commit hc.1]
  obtain ⟨sg, rd, ra, imm, e⟩ | ⟨ra, rs, imm, e⟩ := hi <;> rw [e]
  · simp only [shapeCommit, loadCommit, commitSlot_on hc, memRead_eq, h, Call.andThen]
  · simp only [shapeCommit, storeCommit, commitSlot_on hc, memWrite_eq, h, Call.andThen]

theorem exec_access_busy (hi : (shapeOf i).IsAccess area w)
    (h : accessCall s area w s.slot.exAddress = .busy u) : exec i s = .next (u.stall .MW) := by
  rw [exec_commit hc.1]
  obtain ⟨sg, rd, ra, imm, e⟩ | ⟨ra, rs, imm, e⟩ := hi <;> rw [e]
  · simp only [shapeCommit, loadCommit, commitSlot_on hc, memRead_eq, h, Call.andThen]
  · simp only [shapeCommit, storeCommit, commitSlot_on hc, memWrite_eq, h, Call.andThen]

theorem exec_load_done {sg : Bool} {rd ra : Reg} {imm : Int} (hi : shapeOf i = .load area w sg rd ra imm)
    (h : accessCall s area w s.slot.exAddress = .done () u) :
    exec i s = .next (u.commitGpr rd ((u.areaMem area).load u.params.endian w sg s.slot.exAddress) true) := by
  rw [exec_commit hc.1, hi]
  simp only [shapeCommit, loadCommit, commitSlot_on hc, memRead_eq, h, Call.andThen]

theorem exec_store_done {ra rs : Reg} {imm : Int} (hi : shapeOf i = .store area w ra rs imm)
    (h : accessCall s area w s.slot.exAddress = .done () u) :
    exec i s = if storeHitsCode s area w s.slot.exAddress then .refused .storeToCode else
      .next (u.setAreaMem area
        ((u.areaMem area).store u.params.endian w s.slot.exAddress s.slot.exResult)).done := by
  rw [exec_commit hc.1, hi]
  simp only [shapeCommit, storeCommit, commitSlot_on hc, memWrite_eq, h, Call.andThen]

end

/-! ### The outcomes -/

/-- Settles O27: the fault of the access, else the answer `StackExceeded`, is what `exec` raises. -/
theorem badAccessFaults : Obligations.BadAccessFaults := by
  intro i s area w hi hc
  refine ⟨fun ha => exec_access_raised hc hi (accessCall_misaligned ha),
    fun ha hb => exec_access_raised hc hi (accessCall_unbacked ha hb), fun v ha hb hr hs => ?_⟩
  exact ⟨s.dropReply, exec_access_raised hc hi (accessCall_exceeded ha hb hr hs), .dropReply _ _ rfl, rfl⟩

/-- Settles O26: a busy answer is drawn and `MW` stalls. -/
theorem accessWaits : Obligations.AccessWaits := by
  intro i s area w hi hc ha hb hr
  exact ⟨s.dropReply.stall .MW, exec_access_busy hc hi (accessCall_busy ha hb hr), State.stall_stallReq_mw _,
    (KeepsRest.dropReply _ _ rfl).trans (.stall _ _ _ rfl), rfl, rfl, rfl⟩

/-- Settles O24: the answer is drawn, then the value read is committed to the destination. -/
theorem loadCompletes : Obligations.LoadCompletes := by
  intro i s area w sg rd ra imm hi hc ha hb hr
  refine ⟨_, _, exec_load_done hc hi (accessCall_done ha hb hr), Memory.toNat_load _ _ _ _ _, ?_,
    (KeepsRest.dropReply _ _ rfl).trans (.commitGpr _ _ _ _ _ (.head _)), rfl, rfl, ?_⟩
  · rw [State.commitGpr_readGpr, State.readGpr_writeGpr, if_pos rfl]
    rfl
  · rw [State.slot_commitGpr]
    simp only [Slot.republish, ne_eq, ite_not]
    rfl

/-! ### What a store leaves in memory -/

/-- Byte `k` of the access after a store. -/
theorem Memory.read_store_inside {m : Memory} (h : m.wf = true) (e : Endian) (w : Width) (a v : Word) {k : Nat}
    (hk : k < w.bytes) :
    (m.store e w a v).read (a + BitVec.ofNat 32 k) =
      (storeBytes e w v)[k]'(by rw [storeBytes_length]; exact hk) := by
  have hw : w.bytes ≤ 4 := by cases w <;> decide
  have hoff : (a + BitVec.ofNat 32 k - a).toNat = k := by bv_omega
  rw [Memory.read_store h, hoff, List.getElem?_eq_getElem (by rw [storeBytes_length]; exact hk), Option.getD_some]

theorem Memory.toNat_read_store {m : Memory} (h : m.wf = true) (e : Endian) (w : Width) (a v : Word) {k : Nat}
    (hk : k < w.bytes) :
    ((m.store e w a v).read (a + BitVec.ofNat 32 k)).toNat = storedByte e w.bytes v k := by
  have hbyte := toNat_storeBytes e w v k hk
  rw [List.getElem?_eq_getElem (by rw [storeBytes_length]; exact hk), Option.map_some, Option.some_inj] at hbyte
  rw [Memory.read_store_inside h e w a v hk, hbyte]

/-- A byte as an area shows it after the memory of an area has been replaced. -/
theorem State.readByte_setAreaMem (s : State) (area other : Area) (x : Memory) (b : Word) :
    (s.setAreaMem area x).readByte other b =
      if homeArea s.params other = homeArea s.params area then x.read b else s.readByte other b := by
  unfold State.readByte
  rw [State.areaMem_setAreaMem]
  split <;> rfl

/-- Areas with the same home show the same memory. -/
theorem State.areaMem_congr {s : State} {area other : Area} (h : homeArea s.params other = homeArea s.params area) :
    s.areaMem other = s.areaMem area := congrArg s.mem.get h

/-- The state after a completed store. -/
def State.stored (s : State) (area : Area) (w : Width) : State :=
  (s.dropReply.setAreaMem area ((s.areaMem area).store s.params.endian w s.slot.exAddress s.slot.exResult)).done

section
variable (s : State) (area : Area) (w : Width)

theorem State.readByte_stored (other : Area) (b : Word) :
    (s.stored area w).readByte other b =
      if homeArea s.params other = homeArea s.params area then
        ((s.areaMem area).store s.params.endian w s.slot.exAddress s.slot.exResult).read b
      else s.readByte other b :=
  s.dropReply.readByte_setAreaMem area other _ b

theorem State.slot_stored : (s.stored area w).slot = { s.slot with discard := true } := State.slot_done _

theorem State.stored_frame : KeepsRest { memory := true, answers := true } s (s.stored area w) :=
  ((KeepsRest.dropReply _ _ rfl).trans (.setAreaMem _ _ _ _ rfl)).trans (.setSlot _ _ _)

end

/-- The test for a store into code, in the terms of the statements (rules R29, R54). -/
theorem storeHitsCode_iff {s : State} {area : Area} {w : Width} {a : Word} (h : a.toNat % w.bytes = 0) :
    storeHitsCode s area w a = true ↔ homeArea s.params area = .mainMem ∧ TouchesFunction s a w := by
  rw [storeHitsCode, Bool.and_eq_true, decide_eq_true_eq, touchesCode_iff h]

/-- Settles O25: the store goes to the memory behind its area, in canonical form by the invariant of the core. -/
theorem storeCompletes : Obligations.StoreCompletes := by
  intro i s area w ra rs imm hi hc ha hb hr
  have hexec := exec_store_done hc hi (accessCall_done ha hb hr)
  refine ⟨fun hmain htouch => ?_, fun hinv hclear => ?_⟩
  · rw [hexec, if_pos ((storeHitsCode_iff ha).mpr ⟨hmain, htouch⟩)]
  have hmiss : ¬ storeHitsCode s area w s.slot.exAddress = true := by
    rw [storeHitsCode_iff ha, not_and_or]; exact hclear
  have hwf : (s.areaMem area).wf = true := Mems.wf_get (coreInv_iff.mp hinv).mem _
  rw [if_neg hmiss] at hexec
  refine ⟨s.stored area w, hexec, fun k hk => ?_, fun other b hout => ?_, fun other b hne => ?_,
    s.stored_frame area w, rfl, rfl, s.slot_stored area w⟩
  · rw [State.readByte_stored, if_pos rfl, Memory.toNat_read_store hwf _ _ _ _ hk]
  · rw [State.readByte_stored]
    split
    · rename_i hsame
      rw [Memory.read_store_outside hwf hout, State.readByte, State.areaMem_congr hsame]
    · rfl
  · rw [State.readByte_stored, if_neg hne]

/-! ### A load after a store -/

theorem toNat_byteOfWord_big (v : Word) (k : Nat) : (byteOfWord .big v k).toNat = v.toNat / 2 ^ (24 - 8 * k) % 256 := by
  rw [byteOfWord, BitVec.extractLsb'_toNat, Nat.shiftRight_eq_div_pow]

theorem toNat_byteOfWord_little (v : Word) (k : Nat) : (byteOfWord .little v k).toNat = v.toNat / 2 ^ (8 * k) % 256 := by
  rw [byteOfWord, BitVec.extractLsb'_toNat, Nat.shiftRight_eq_div_pow]

/-- The bytes of a word make the word. -/
theorem wordOfBytes_byteOfWord (e : Endian) (v : Word) :
    wordOfBytes e (byteOfWord e v 0) (byteOfWord e v 1) (byteOfWord e v 2) (byteOfWord e v 3) = v := by
  apply BitVec.eq_of_toNat_eq
  cases e
  · simp only [wordOfBytes, toNat_append_byte, toNat_byteOfWord_big]
    omega
  · simp only [wordOfBytes, toNat_append_byte, toNat_byteOfWord_little]
    omega

theorem halfOfBytes_big_low (v : Word) :
    halfOfBytes .big (byteOfWord .big v 2) (byteOfWord .big v 3) = v.setWidth 16 := by
  apply BitVec.eq_of_toNat_eq
  simp only [halfOfBytes, toNat_append_byte, toNat_byteOfWord_big, BitVec.toNat_setWidth]
  omega

theorem halfOfBytes_little_low (v : Word) :
    halfOfBytes .little (byteOfWord .little v 0) (byteOfWord .little v 1) = v.setWidth 16 := by
  apply BitVec.eq_of_toNat_eq
  simp only [halfOfBytes, toNat_append_byte, toNat_byteOfWord_little, BitVec.toNat_setWidth]
  omega

theorem halfOfBytes_little_high (v : Word) :
    (halfOfBytes .little (byteOfWord .little v 2) (byteOfWord .little v 3)).setWidth 32 = v >>> 16 := by
  apply BitVec.eq_of_toNat_eq
  simp only [halfOfBytes, toNat_append_byte, toNat_byteOfWord_little, BitVec.toNat_setWidth,
    BitVec.toNat_ushiftRight, Nat.shiftRight_eq_div_pow]
  omega

/-- Byte 0 is the high byte of a big-endian word. -/
theorem byteOfWord_big_zero (v : Word) : (byteOfWord .big v 0).setWidth 32 = v >>> 24 := by
  apply BitVec.eq_of_toNat_eq
  simp only [toNat_byteOfWord_big, BitVec.toNat_setWidth, BitVec.toNat_ushiftRight, Nat.shiftRight_eq_div_pow]
  omega

/-- Byte 0 is the low byte of a little-endian word. -/
theorem byteOfWord_little_zero (v : Word) : (byteOfWord .little v 0).setWidth 32 = v &&& 0xFF := by
  apply BitVec.eq_of_toNat_eq
  rw [BitVec.toNat_and, show (0xFF : Word).toNat = 2 ^ 8 - 1 from rfl, Nat.and_two_pow_sub_one_eq_mod,
    BitVec.toNat_setWidth, toNat_byteOfWord_little]
  omega

theorem setWidth_half_eq_and (v : Word) : (v.setWidth 16).setWidth 32 = v &&& 0xFFFF := by
  apply BitVec.eq_of_toNat_eq
  rw [BitVec.toNat_and, show (0xFFFF : Word).toNat = 2 ^ 16 - 1 from rfl, Nat.and_two_pow_sub_one_eq_mod,
    BitVec.toNat_setWidth, BitVec.toNat_setWidth]
  omega

section
variable {m : Memory} (h : m.wf = true) (e : Endian) (a v : Word)
include h

/-- The byte at the address of a store. -/
theorem Memory.read_store_first (w : Width) (hw : 0 < w.bytes) :
    (m.store e w a v).read a = (storeBytes e w v)[0]'(by rw [storeBytes_length]; exact hw) := by
  have first := Memory.read_store_inside h e w a v hw
  rwa [show a + BitVec.ofNat 32 0 = a from BitVec.add_zero a] at first

theorem Memory.read_store_word :
    (m.store e .word a v).read a = byteOfWord e v 0 ∧ (m.store e .word a v).read (a + 1) = byteOfWord e v 1 ∧
      (m.store e .word a v).read (a + 2) = byteOfWord e v 2 ∧ (m.store e .word a v).read (a + 3) = byteOfWord e v 3 := by
  have at_k (k : Nat) (hk : k < Width.word.bytes) := Memory.read_store_inside h e .word a v hk
  exact ⟨Memory.read_store_first h e a v .word (by decide), at_k 1 (by decide), at_k 2 (by decide), at_k 3 (by decide)⟩

/-- The half-word at the address of a half-word store is the low half of the value. -/
theorem Memory.half_store_half :
    halfOfBytes e ((m.store e .half a v).read a) ((m.store e .half a v).read (a + 1)) = v.setWidth 16 := by
  have first := Memory.read_store_first h e a v .half (by decide)
  have second : (m.store e .half a v).read (a + 1) = _ := Memory.read_store_inside h e .half a v (k := 1) (by decide)
  rw [first, second]
  cases e
  · exact halfOfBytes_big_low v
  · exact halfOfBytes_little_low v

theorem Memory.read_store_byte : (m.store e .byte a v).read a = v.setWidth 8 :=
  Memory.read_store_first h e a v .byte (by decide)

theorem Memory.load_store_word (sg : Bool) : (m.store e .word a v).load e .word sg a = v := by
  obtain ⟨h0, h1, h2, h3⟩ := Memory.read_store_word h e a v
  rw [Memory.load_word, h0, h1, h2, h3, wordOfBytes_byteOfWord]

end

/-- Settles O28: the bytes a store writes, put together again in the order of the memory. -/
theorem storeThenLoad : Obligations.StoreThenLoad := by
  intro m a v h
  have hnext : a + 2 + 1 = a + 3 := by bv_omega
  obtain ⟨big0, -, big2, big3⟩ := Memory.read_store_word h .big a v
  obtain ⟨little0, -, little2, little3⟩ := Memory.read_store_word h .little a v
  refine ⟨fun e => ⟨Memory.load_store_word h e a v false, ?_, ?_, ?_, ?_⟩, ?_, ?_, ?_, ?_⟩
  · rw [Memory.load_half_unsigned, Memory.half_store_half h]
  · rw [Memory.load_half_signed, Memory.half_store_half h]
  · rw [Memory.load_byte_unsigned, Memory.read_store_byte h]
  · rw [Memory.load_byte_signed, Memory.read_store_byte h]
  · rw [Memory.load_byte_unsigned, big0, byteOfWord_big_zero]
  · rw [Memory.load_half_unsigned, hnext, big2, big3, halfOfBytes_big_low, setWidth_half_eq_and]
  · rw [Memory.load_byte_unsigned, little0, byteOfWord_little_zero]
  · rw [Memory.load_half_unsigned, hnext, little2, little3, halfOfBytes_little_high]

/-! ### Stack control -/

/-- A stack-control instruction of operation `op`. -/
def Shape.IsStack (sh : Shape) (op : StackOp) : Prop := (∃ imm, sh = .stackI op imm) ∨ ∃ rs, sh = .stackR op rs

section
variable {i : Instr} {s u : State} {op : StackOp} (hi : (shapeOf i).IsStack op) (hc : Commits s)
include hi hc

theorem exec_stack : exec i s = stackCommit op s := by
  rw [exec_commit hc.1]
  obtain ⟨imm, e⟩ | ⟨rs, e⟩ := hi <;> rw [e] <;> rfl

theorem exec_stack_raised {f : Fault}
    (h : stackCtl s op s.slot.exResult (s.readSpr s.params.ss) (s.readSpr s.params.st) = .raised f) :
    exec i s = .fault f := by
  simp only [exec_stack hi hc, stackCommit, commitSlot_on hc, h]

theorem exec_stack_busy
    (h : stackCtl s op s.slot.exResult (s.readSpr s.params.ss) (s.readSpr s.params.st) = .busy u) :
    exec i s = .next (u.stall .MW) := by
  simp only [exec_stack hi hc, stackCommit, commitSlot_on hc, h]

theorem exec_stack_done {p q : Word}
    (h : stackCtl s op s.slot.exResult (s.readSpr s.params.ss) (s.readSpr s.params.st) = .done (p, q) u) :
    exec i s = .next ((u.writeSpr s.params.ss p).writeSpr s.params.st q).done := by
  simp only [exec_stack hi hc, stackCommit, commitSlot_on hc, h]

end

/-- Settles O30: each answer in `stackReplies` is one outcome of the call. -/
theorem stackAnswered : Obligations.StackAnswered := by
  intro i s op hi hc
  have drawn (w : Touch) (hw : w.answers = true) : KeepsRest w s s.dropStackReply := .dropStackReply _ _ hw
  refine ⟨fun p q rest hr => ?_, fun rest hr => ?_, fun v rest => ⟨fun hr => ?_, fun hr => ?_, fun hr => ?_⟩⟩
  · refine ⟨_, exec_stack_done hi hc (by rw [stackCtl, hr]), ?_, fun hne => ?_,
      (((drawn _ rfl).trans (.writeSpr _ _ _ _ (.head _))).trans (.writeSpr _ _ _ _ (.tail _ (.head _)))).trans
        (.setSlot _ _ _), rfl, congrArg List.tail hr, State.slot_done _⟩
    · rw [State.readSpr_done, State.readSpr_writeSpr, if_pos rfl]
    · rw [State.readSpr_done, State.readSpr_writeSpr, if_neg hne, State.readSpr_writeSpr, if_pos rfl]
  · exact ⟨_, exec_stack_busy hi hc (by rw [stackCtl, hr]), State.stall_stallReq_mw _,
      (drawn _ rfl).trans (.stall _ _ _ rfl), rfl, congrArg List.tail hr, rfl⟩
  · exact ⟨_, exec_stack_raised hi hc (by rw [stackCtl, hr]), drawn _ rfl, rfl⟩
  · exact ⟨_, exec_stack_raised hi hc (by rw [stackCtl, hr]), drawn _ rfl, rfl⟩
  · exact ⟨_, exec_stack_raised hi hc (by rw [stackCtl, hr]), drawn _ rfl, rfl⟩

end Sys2Proof.Machine

/-! The codec of 30_encoding.md, what the decoder reads: the opcode map of rule R84 as one equation per group, and
`Reads`, one case per row family, which is exactly what `decode` accepts. -/

namespace Sys2Proof

/-! ### Fields as numbers -/

theorem fldN_lt (w : Word) (lo len : Nat) : fldN w lo len < 2 ^ len := BitVec.isLt _

theorem fldN_eq_toNat (w : Word) (lo len : Nat) : fldN w lo len = w.toNat / 2 ^ lo % 2 ^ len := by
  rw [fldN, fld, BitVec.extractLsb'_toNat, Nat.shiftRight_eq_div_pow]

/-- A field is its low part and its high part. -/
theorem fldN_append (w : Word) (lo m n : Nat) :
    fldN w lo (m + n) = fldN w lo m + 2 ^ m * fldN w (lo + m) n := by
  simp only [fldN_eq_toNat, pow_add, Nat.mod_mul, Nat.div_div_eq_div_mul]

@[simp] theorem ofNat_fldN (w : Word) (lo len : Nat) : BitVec.ofNat len (fldN w lo len) = fld w lo len := by
  simp [fldN]

@[simp] theorem ofInt_fldZ (w : Word) (lo len : Nat) : BitVec.ofInt len (fldZ w lo len) = fld w lo len :=
  BitVec.ofInt_toInt

theorem fld_of_fldN {w : Word} {lo len n : Nat} (h : fldN w lo len = n) : fld w lo len = BitVec.ofNat len n := by
  rw [← h, ofNat_fldN]

theorem immU_fldN (w : Word) (lo len : Nat) : immU len (fldN w lo len) = true := by
  simpa [immU] using fldN_lt w lo len

theorem immS_fldZ (w : Word) (lo len : Nat) : immS len (fldZ w lo len) = true := by
  have hlo := BitVec.le_toInt (fld w lo len)
  have hhi := BitVec.toInt_lt (x := fld w lo len)
  simp [immS, fldZ, hlo, hhi]

/-! ### The opcode map (rule R84) -/

/-- The two selectors of `decode` are the two parts of the opcode. -/
theorem opcode_eq (w : Word) : fldN w 22 5 = fldN w 22 3 + 8 * fldN w 25 2 := fldN_append w 22 3 2

theorem selectors_of_opcode {w : Word} {k : Nat} (h : fldN w 22 5 = k) :
    fldN w 25 2 = k / 8 ∧ fldN w 22 3 = k % 8 := by
  have := opcode_eq w
  have := fldN_lt w 22 3
  omega

theorem selectors_cflReg {w : Word} (h : fldN w 23 4 = 12) :
    fldN w 25 2 = 3 ∧ (fldN w 22 3 = 0 ∨ fldN w 22 3 = 1) := by
  have h23 : fldN w 23 4 = fldN w 23 2 + 4 * fldN w 25 2 := fldN_append w 23 2 2
  have h22 : fldN w 22 3 = fldN w 22 1 + 2 * fldN w 23 2 := fldN_append w 22 1 2
  have := fldN_lt w 22 1
  have := fldN_lt w 23 2
  omega

theorem kind_cflReg {w : Word} (h1 : fldN w 25 2 = 3) (h2 : fldN w 22 3 = 0 ∨ fldN w 22 3 = 1) :
    fldN w 23 4 = 12 := by
  have h23 : fldN w 23 4 = fldN w 23 2 + 4 * fldN w 25 2 := fldN_append w 23 2 2
  have h22 : fldN w 22 3 = fldN w 22 1 + 2 * fldN w 23 2 := fldN_append w 22 1 2
  omega

section
variable {w ext : Word}

theorem decode_aluI (h : fldN w 25 2 = 0) : decode w ext = orReserved w
    ((aluIFn (fldN w 22 3)).map fun c => c (guardOf w) (fld w 17 5) (fld w 12 5) (fldN w 0 12)) := by
  simp only [decode, h]

theorem decode_aluGroup (h : fldN w 22 5 = 8) : decode w ext = decodeAluGroup w := by
  simp only [decode, selectors_of_opcode h]

theorem decode_specialGroup (h : fldN w 22 5 = 9) : decode w ext = decodeSpecialGroup w := by
  simp only [decode, selectors_of_opcode h]

theorem decode_load (h : fldN w 22 5 = 10) : decode w ext = orReserved w
    ((loadFn (fldN w 7 5)).map fun c => c (guardOf w) (fld w 17 5) (fld w 12 5) (fldZ w 0 7)) := by
  simp only [decode, selectors_of_opcode h]

theorem decode_store (h : fldN w 22 5 = 11) : decode w ext = orReserved w
    ((storeFn (fldN w 17 5)).map fun c => c (guardOf w) (fld w 12 5) (fld w 7 5) (fldZ w 0 7)) := by
  simp only [decode, selectors_of_opcode h]

theorem decode_stackGroup (h : fldN w 22 5 = 12) : decode w ext = decodeStackGroup w := by
  simp only [decode, selectors_of_opcode h]

theorem decode_cflImm (h : fldN w 25 2 = 2) : decode w ext = .ok (decodeCflImm w) := by
  simp only [decode, h]

theorem decode_cflReg (h : fldN w 23 4 = 12) : decode w ext = decodeCflReg w := by
  obtain ⟨h1, h2 | h2⟩ := selectors_cflReg h <;> simp only [decode, h1, h2]

theorem decode_long (h : fldN w 22 5 = 31) : decode w ext = decodeLong w ext := by
  simp only [decode, selectors_of_opcode h]

theorem decode_reservedOpcode (h : fldN w 22 5 ∈ [13, 14, 15, 26, 27, 28, 29, 30]) :
    decode w ext = .error (.reserved w) := by
  simp only [List.mem_cons, List.not_mem_nil, or_false] at h
  rcases h with h | h | h | h | h | h | h | h <;> simp [decode, selectors_of_opcode h]

end

/-! ### What the decoder accepts -/

theorem orReserved_map_eq_ok {α : Type} {w : Word} {o : Option α} {f : α → Instr} {i : Instr} :
    orReserved w (o.map f) = .ok i ↔ ∃ c, o = some c ∧ f c = i := by
  cases o <;> simp [orReserved]

/-- `Reads w ext i`: the selector fields of `w` (rules R65 to R84) are those of a row of the opcode table, and `i` is
that row's instruction with the operands that stand in the operand fields. -/
inductive Reads (w ext : Word) : Instr → Prop
  | aluI {c} : fldN w 25 2 = 0 → aluIFn (fldN w 22 3) = some c →
      Reads w ext (c (guardOf w) (fld w 17 5) (fld w 12 5) (fldN w 0 12))
  | aluR {c} : fldN w 22 5 = 8 → fldN w 4 3 = 0 → aluRFn (fldN w 0 4) = some c →
      Reads w ext (c (guardOf w) (fld w 17 5) (fld w 12 5) (fld w 7 5))
  | mul {c} : fldN w 22 5 = 8 → fldN w 4 3 = 2 → mulFn (fldN w 0 4) = some c →
      Reads w ext (c (guardOf w) (fld w 12 5) (fld w 7 5))
  | cmpR {c} : fldN w 22 5 = 8 → fldN w 4 3 = 3 → cmpRFn (fldN w 0 4) = some c →
      Reads w ext (c (guardOf w) (fld w 17 3) (fld w 12 5) (fld w 7 5))
  | plog {c} : fldN w 22 5 = 8 → fldN w 4 3 = 4 → plogFn (fldN w 0 4) = some c →
      Reads w ext (c (guardOf w) (fld w 17 3) (predRefAt w 12) (predRefAt w 7))
  | bcopy : fldN w 22 5 = 8 → fldN w 4 3 = 5 →
      Reads w ext (.bcopy (guardOf w) (fld w 17 5) (fld w 12 5) (fldN w 7 5) (predRefAt w 0))
  | cmpI {c} : fldN w 22 5 = 8 → fldN w 4 3 = 6 → cmpIFn (fldN w 0 4) = some c →
      Reads w ext (c (guardOf w) (fld w 17 3) (fld w 12 5) (fldN w 7 5))
  | mts : fldN w 22 5 = 9 → fldN w 4 3 = 2 → Reads w ext (.mts (guardOf w) (fld w 0 4) (fld w 12 5))
  | mfs : fldN w 22 5 = 9 → fldN w 4 3 = 3 → Reads w ext (.mfs (guardOf w) (fld w 17 5) (fld w 0 4))
  | load {c} : fldN w 22 5 = 10 → loadFn (fldN w 7 5) = some c →
      Reads w ext (c (guardOf w) (fld w 17 5) (fld w 12 5) (fldZ w 0 7))
  | store {c} : fldN w 22 5 = 11 → storeFn (fldN w 17 5) = some c →
      Reads w ext (c (guardOf w) (fld w 12 5) (fld w 7 5) (fldZ w 0 7))
  | stackI {c} : fldN w 22 5 = 12 → fldN w 18 2 = 0 → stackIFn (fldN w 20 2) = some c →
      Reads w ext (c (guardOf w) (fldN w 0 18))
  | stackR {c} : fldN w 22 5 = 12 → fldN w 18 2 = 1 → stackRFn (fldN w 20 2) = some c →
      Reads w ext (c (guardOf w) (fld w 12 5))
  | call : fldN w 25 2 = 2 → fldN w 23 2 = 0 → Reads w ext (.call (guardOf w) (bitAt w 22) (fldN w 0 22))
  | br : fldN w 25 2 = 2 → fldN w 23 2 = 1 → Reads w ext (.br (guardOf w) (bitAt w 22) (fldZ w 0 22))
  | brcf : fldN w 25 2 = 2 → fldN w 23 2 = 2 → Reads w ext (.brcf (guardOf w) (bitAt w 22) (fldN w 0 22))
  | trap : fldN w 25 2 = 2 → fldN w 23 2 = 3 → Reads w ext (.trap (guardOf w) (fldN w 0 22))
  | ret : fldN w 23 4 = 12 → fldN w 2 2 = 0 → fldN w 0 2 = 0 → Reads w ext (.ret (guardOf w) (bitAt w 22))
  | xret : fldN w 23 4 = 12 → fldN w 2 2 = 0 → fldN w 0 2 = 1 → Reads w ext (.xret (guardOf w) (bitAt w 22))
  | callr : fldN w 23 4 = 12 → fldN w 2 2 = 1 → fldN w 0 2 = 0 →
      Reads w ext (.callr (guardOf w) (bitAt w 22) (fld w 12 5))
  | brr : fldN w 23 4 = 12 → fldN w 2 2 = 1 → fldN w 0 2 = 1 →
      Reads w ext (.brr (guardOf w) (bitAt w 22) (fld w 12 5))
  | brcfr : fldN w 23 4 = 12 → fldN w 2 2 = 1 → fldN w 0 2 = 2 →
      Reads w ext (.brcfr (guardOf w) (bitAt w 22) (fld w 12 5))
  | brcfrPair : fldN w 23 4 = 12 → fldN w 2 2 = 2 → fldN w 0 2 = 2 →
      Reads w ext (.brcfrPair (guardOf w) (bitAt w 22) (fld w 12 5) (fld w 7 5))
  | aluL {c} : fldN w 22 5 = 31 → fldN w 4 3 = 0 → aluLFn (fldN w 0 4) = some c → bitAt w 31 = true →
      Reads w ext (c (guardOf w) (fld w 17 5) (fld w 12 5) ext)

section
variable {w ext : Word} {i : Instr}

theorem Reads.of_aluGroup (ho : fldN w 22 5 = 8) (h : decodeAluGroup w = .ok i) : Reads w ext i := by
  unfold decodeAluGroup at h
  dsimp only at h
  split at h
  next h4 => obtain ⟨c, hc, rfl⟩ := orReserved_map_eq_ok.1 h; exact .aluR ho h4 hc
  next h4 => obtain ⟨c, hc, rfl⟩ := orReserved_map_eq_ok.1 h; exact .mul ho h4 hc
  next h4 => obtain ⟨c, hc, rfl⟩ := orReserved_map_eq_ok.1 h; exact .cmpR ho h4 hc
  next h4 => obtain ⟨c, hc, rfl⟩ := orReserved_map_eq_ok.1 h; exact .plog ho h4 hc
  next h4 => cases h; exact .bcopy ho h4
  next h4 => obtain ⟨c, hc, rfl⟩ := orReserved_map_eq_ok.1 h; exact .cmpI ho h4 hc
  next => cases h

theorem Reads.of_specialGroup (ho : fldN w 22 5 = 9) (h : decodeSpecialGroup w = .ok i) : Reads w ext i := by
  unfold decodeSpecialGroup at h
  dsimp only at h
  split at h <;> cases h
  next h4 => exact .mts ho h4
  next h4 => exact .mfs ho h4

theorem Reads.of_stackGroup (ho : fldN w 22 5 = 12) (h : decodeStackGroup w = .ok i) : Reads w ext i := by
  unfold decodeStackGroup at h
  dsimp only at h
  split at h
  next h18 => obtain ⟨c, hc, rfl⟩ := orReserved_map_eq_ok.1 h; exact .stackI ho h18 hc
  next h18 => obtain ⟨c, hc, rfl⟩ := orReserved_map_eq_ok.1 h; exact .stackR ho h18 hc
  next => cases h

theorem Reads.of_cflImm (ho : fldN w 25 2 = 2) : Reads w ext (decodeCflImm w) := by
  unfold decodeCflImm
  dsimp only
  split
  next h => exact .call ho h
  next h => exact .br ho h
  next h => exact .brcf ho h
  next h0 h1 h2 =>
    rw [imp_false] at h0 h1 h2
    have := fldN_lt w 23 2
    exact .trap ho (by omega)

theorem Reads.of_cflReg (ho : fldN w 23 4 = 12) (h : decodeCflReg w = .ok i) : Reads w ext i := by
  unfold decodeCflReg at h
  dsimp only at h
  split at h <;> cases h
  next h2 h0 => exact .ret ho h2 h0
  next h2 h0 => exact .xret ho h2 h0
  next h2 h0 => exact .callr ho h2 h0
  next h2 h0 => exact .brr ho h2 h0
  next h2 h0 => exact .brcfr ho h2 h0
  next h2 h0 => exact .brcfrPair ho h2 h0

theorem Reads.of_long (ho : fldN w 22 5 = 31) (h : decodeLong w ext = .ok i) : Reads w ext i := by
  unfold decodeLong at h
  split at h
  next h4 =>
    split at h
    next c hc =>
      split at h <;> cases h
      next h31 => exact .aluL ho h4 hc h31
    next => cases h
  next => cases h

/-- Every accepted word is read as a row of the table. -/
theorem Reads.of_decode (h : decode w ext = .ok i) : Reads w ext i := by
  have hop := opcode_eq w
  unfold decode at h
  dsimp only at h
  split at h
  next h1 => obtain ⟨c, hc, rfl⟩ := orReserved_map_eq_ok.1 h; exact .aluI h1 hc
  next h1 h2 => exact .of_aluGroup (by omega) h
  next h1 h2 => exact .of_specialGroup (by omega) h
  next h1 h2 => obtain ⟨c, hc, rfl⟩ := orReserved_map_eq_ok.1 h; exact .load (by omega) hc
  next h1 h2 => obtain ⟨c, hc, rfl⟩ := orReserved_map_eq_ok.1 h; exact .store (by omega) hc
  next h1 h2 => exact .of_stackGroup (by omega) h
  next h1 => cases h; exact .of_cflImm h1
  next h1 h2 => exact .of_cflReg (kind_cflReg h1 (.inl h2)) h
  next h1 h2 => exact .of_cflReg (kind_cflReg h1 (.inr h2)) h
  next h1 h2 => exact .of_long (by omega) h
  next => cases h

/-- Every row of the table is accepted. -/
theorem Reads.decode (h : Reads w ext i) : decode w ext = .ok i := by
  cases h with
  | aluI ho hc => simp only [decode_aluI ho, hc, Option.map_some, orReserved]
  | aluR ho h4 hc | mul ho h4 hc | cmpR ho h4 hc | plog ho h4 hc | cmpI ho h4 hc =>
    simp only [decode_aluGroup ho, decodeAluGroup, h4, hc, Option.map_some, orReserved]
  | bcopy ho h4 => simp only [decode_aluGroup ho, decodeAluGroup, h4]
  | mts ho h4 | mfs ho h4 => simp only [decode_specialGroup ho, decodeSpecialGroup, h4]
  | load ho hc => simp only [decode_load ho, hc, Option.map_some, orReserved]
  | store ho hc => simp only [decode_store ho, hc, Option.map_some, orReserved]
  | stackI ho h18 hc | stackR ho h18 hc =>
    simp only [decode_stackGroup ho, decodeStackGroup, h18, hc, Option.map_some, orReserved]
  | call ho h | br ho h | brcf ho h | trap ho h => simp only [decode_cflImm ho, decodeCflImm, h]
  | ret ho h2 h0 | xret ho h2 h0 | callr ho h2 h0 | brr ho h2 h0 | brcfr ho h2 h0 | brcfrPair ho h2 h0 =>
    simp only [decode_cflReg ho, decodeCflReg, h2, h0]
  | aluL ho h4 hc h31 => simp only [decode_long ho, decodeLong, h4, hc, h31, if_true]

/-- What `decode` accepts, and as what. -/
theorem decode_eq_ok_iff : Sys2Proof.decode w ext = .ok i ↔ Reads w ext i := ⟨.of_decode, Reads.decode⟩

end

end Sys2Proof

/-! The codec of 30_encoding.md, what the encoder writes: a word is put together by adding one field after another to
its row's fixed bits, so a field of the word is read off by passing the fields that do not overlap it. -/

namespace Sys2Proof

/-! ### A word with one field added -/

section
variable {n : Nat} (w : Word) (v : BitVec n) (r : PredRef) (b : Bool)

@[simp] theorem fld_or_place_same {p : Nat} (h : p + n ≤ 32) : fld (w ||| place v p) p n = fld w p n ||| v := by
  rw [fld_or, fld_place_same v p h]

@[simp] theorem fld_or_place_apart {p lo len : Nat} (h : p + n ≤ lo ∨ lo + len ≤ p) :
    fld (w ||| place v p) lo len = fld w lo len := by
  rw [fld_or, fld_place_apart v p lo len h, BitVec.or_zero]

@[simp] theorem fldN_or_place_apart {p lo len : Nat} (h : p + n ≤ lo ∨ lo + len ≤ p) :
    fldN (w ||| place v p) lo len = fldN w lo len := by
  rw [fldN, fld_or_place_apart w v h, fldN]

@[simp] theorem fld_or_placePred_apart {p lo len : Nat} (h : p + 4 ≤ lo ∨ lo + len ≤ p) :
    fld (w ||| placePred r p) lo len = fld w lo len := by
  rw [fld_or, fld_placePred_apart r p lo len h, BitVec.or_zero]

@[simp] theorem fldN_or_placePred_apart {p lo len : Nat} (h : p + 4 ≤ lo ∨ lo + len ≤ p) :
    fldN (w ||| placePred r p) lo len = fldN w lo len := by
  rw [fldN, fld_or_placePred_apart w r h, fldN]

@[simp] theorem bitAt_or_placeBit_same {k : Nat} (h : k < 32) : bitAt (w ||| placeBit b k) k = (bitAt w k || b) := by
  rw [bitAt_or, bitAt_placeBit_same b k h]

@[simp] theorem bitAt_or_place_apart {p k : Nat} (h : p + n ≤ k ∨ k < p) :
    bitAt (w ||| place v p) k = bitAt w k := by
  rw [bitAt_or, bitAt_place_apart v p k h, Bool.or_false]

@[simp] theorem bitAt_or_placePred_apart {p k : Nat} (h : p + 4 ≤ k ∨ k < p) :
    bitAt (w ||| placePred r p) k = bitAt w k := by
  rw [bitAt_or, bitAt_placePred_apart r p k h, Bool.or_false]

/-- The guard is the predicate reference at bit 27. -/
theorem guardOf_eq : guardOf w = predRefAt w 27 := rfl

@[simp] theorem predRefAt_or_place_apart {p lo : Nat} (h : p + n ≤ lo ∨ lo + 4 ≤ p) :
    predRefAt (w ||| place v p) lo = predRefAt w lo := by
  rw [predRefAt, bitAt_or_place_apart w v (by omega), fld_or_place_apart w v (by omega), predRefAt]

@[simp] theorem predRefAt_or_placePred_apart {p lo : Nat} (h : p + 4 ≤ lo ∨ lo + 4 ≤ p) :
    predRefAt (w ||| placePred r p) lo = predRefAt w lo := by
  rw [predRefAt, bitAt_or_placePred_apart w r (by omega), fld_or_placePred_apart w r (by omega), predRefAt]

@[simp] theorem predRefAt_or_placePred_same {p : Nat} (h : p + 4 ≤ 32) :
    predRefAt (w ||| placePred r p) p = ⟨(predRefAt w p).neg || r.neg, (predRefAt w p).idx ||| r.idx⟩ := by
  rw [predRefAt, bitAt_or, fld_or, bitAt_placePred_neg r p h, fld_placePred_idx r p h, predRefAt]

@[simp] theorem fld_or_placeBit_apart {p lo len : Nat} (h : p + 1 ≤ lo ∨ lo + len ≤ p) :
    fld (w ||| placeBit b p) lo len = fld w lo len := fld_or_place_apart w _ h

@[simp] theorem fldN_or_placeBit_apart {p lo len : Nat} (h : p + 1 ≤ lo ∨ lo + len ≤ p) :
    fldN (w ||| placeBit b p) lo len = fldN w lo len := fldN_or_place_apart w _ h

@[simp] theorem bitAt_or_placeBit_apart {p k : Nat} (h : p + 1 ≤ k ∨ k < p) :
    bitAt (w ||| placeBit b p) k = bitAt w k := bitAt_or_place_apart w _ h

@[simp] theorem predRefAt_or_placeBit_apart {p lo : Nat} (h : p + 1 ≤ lo ∨ lo + 4 ≤ p) :
    predRefAt (w ||| placeBit b p) lo = predRefAt w lo := predRefAt_or_place_apart w _ h

end

/-- A numeric field reads as the number of the added bits; with an immediate in range, as the immediate itself. -/
@[simp] theorem fldN_or_place_same {n p : Nat} (w : Word) (v : BitVec n) (h : p + n ≤ 32) :
    fldN (w ||| place v p) p n = (fld w p n ||| v).toNat := by
  rw [fldN, fld_or_place_same w v h]

@[simp] theorem fldZ_or_place_same {n p : Nat} (w : Word) (v : BitVec n) (h : p + n ≤ 32) :
    fldZ (w ||| place v p) p n = (fld w p n ||| v).toInt := by
  rw [fldZ, fld_or_place_same w v h]

@[simp] theorem fldZ_or_placeBit_apart {p lo len : Nat} (w : Word) (b : Bool) (h : p + 1 ≤ lo ∨ lo + len ≤ p) :
    fldZ (w ||| placeBit b p) lo len = fldZ w lo len := by
  rw [fldZ, fld_or_placeBit_apart w b h, fldZ]

theorem Reads.of_eq {w ext : Word} {i j : Instr} (h : Reads w ext i) (e : i = j) : Reads w ext j := e ▸ h

/-! ### One lemma per format: the word the encoder writes, bit 31 set or not, is read as its row

Each `hz` says that the row's fixed bits are 0 where the operands go. -/

section
variable {base ext : Word} {b : Bool} {g : PredRef}

theorem reads_wALUi {c} {rd rs1 : Reg} {imm : Nat} (hv : immU 12 imm = true)
    (ho : fldN base 25 2 = 0) (hc : aluIFn (fldN base 22 3) = some c)
    (hz : predRefAt base 27 = ⟨false, 0⟩ ∧ fld base 17 5 = 0 ∧ fld base 12 5 = 0 ∧ fld base 0 12 = 0) :
    Reads (wALUi base g rd rs1 imm ||| placeBit b 31) ext (c g rd rs1 imm) := by
  refine (Reads.aluI (c := c) ?_ ?_).of_eq ?_ <;>
    simp (disch := omega) [wALUi, withGuard, guardOf_eq, ho, hc, hz, toNat_ofNat_imm hv, -BitVec.toNat_ofNat]

theorem reads_wALUr {c} {rd rs1 rs2 : Reg}
    (ho : fldN base 22 5 = 8) (h1 : fldN base 4 3 = 0) (hc : aluRFn (fldN base 0 4) = some c)
    (hz : predRefAt base 27 = ⟨false, 0⟩ ∧ fld base 17 5 = 0 ∧ fld base 12 5 = 0 ∧ fld base 7 5 = 0) :
    Reads (wALUr base g rd rs1 rs2 ||| placeBit b 31) ext (c g rd rs1 rs2) := by
  refine (Reads.aluR (c := c) ?_ ?_ ?_).of_eq ?_ <;>
    simp (disch := omega) [wALUr, withGuard, guardOf_eq, ho, h1, hc, hz]

theorem reads_wALUm {c} {rs1 rs2 : Reg}
    (ho : fldN base 22 5 = 8) (h1 : fldN base 4 3 = 2) (hc : mulFn (fldN base 0 4) = some c)
    (hz : predRefAt base 27 = ⟨false, 0⟩ ∧ fld base 12 5 = 0 ∧ fld base 7 5 = 0) :
    Reads (wALUm base g rs1 rs2 ||| placeBit b 31) ext (c g rs1 rs2) := by
  refine (Reads.mul (c := c) ?_ ?_ ?_).of_eq ?_ <;>
    simp (disch := omega) [wALUm, withGuard, guardOf_eq, ho, h1, hc, hz]

theorem reads_wALUc {c} {pd : PReg} {rs1 rs2 : Reg}
    (ho : fldN base 22 5 = 8) (h1 : fldN base 4 3 = 3) (hc : cmpRFn (fldN base 0 4) = some c)
    (hz : predRefAt base 27 = ⟨false, 0⟩ ∧ fld base 17 3 = 0 ∧ fld base 12 5 = 0 ∧ fld base 7 5 = 0) :
    Reads (wALUc base g pd rs1 rs2 ||| placeBit b 31) ext (c g pd rs1 rs2) := by
  refine (Reads.cmpR (c := c) ?_ ?_ ?_).of_eq ?_ <;>
    simp (disch := omega) [wALUc, withGuard, guardOf_eq, ho, h1, hc, hz]

theorem reads_wALUp {c} {pd : PReg} {ps1 ps2 : PredRef}
    (ho : fldN base 22 5 = 8) (h1 : fldN base 4 3 = 4) (hc : plogFn (fldN base 0 4) = some c)
    (hz : predRefAt base 27 = ⟨false, 0⟩ ∧ fld base 17 3 = 0 ∧ predRefAt base 12 = ⟨false, 0⟩ ∧
      predRefAt base 7 = ⟨false, 0⟩) :
    Reads (wALUp base g pd ps1 ps2 ||| placeBit b 31) ext (c g pd ps1 ps2) := by
  refine (Reads.plog (c := c) ?_ ?_ ?_).of_eq ?_ <;>
    simp (disch := omega) [wALUp, withGuard, guardOf_eq, ho, h1, hc, hz]

theorem reads_wALUci {c} {pd : PReg} {rs1 : Reg} {imm : Nat} (hv : immU 5 imm = true)
    (ho : fldN base 22 5 = 8) (h1 : fldN base 4 3 = 6) (hc : cmpIFn (fldN base 0 4) = some c)
    (hz : predRefAt base 27 = ⟨false, 0⟩ ∧ fld base 17 3 = 0 ∧ fld base 12 5 = 0 ∧ fld base 7 5 = 0) :
    Reads (wALUci base g pd rs1 imm ||| placeBit b 31) ext (c g pd rs1 imm) := by
  refine (Reads.cmpI (c := c) ?_ ?_ ?_).of_eq ?_ <;>
    simp (disch := omega) [wALUci, withGuard, guardOf_eq, ho, h1, hc, hz, toNat_ofNat_imm hv, -BitVec.toNat_ofNat]

theorem reads_wLDT {c} {rd ra : Reg} {imm : Int} (hv : immS 7 imm = true)
    (ho : fldN base 22 5 = 10) (hc : loadFn (fldN base 7 5) = some c)
    (hz : predRefAt base 27 = ⟨false, 0⟩ ∧ fld base 17 5 = 0 ∧ fld base 12 5 = 0 ∧ fld base 0 7 = 0) :
    Reads (wLDT base g rd ra imm ||| placeBit b 31) ext (c g rd ra imm) := by
  refine (Reads.load (c := c) ?_ ?_).of_eq ?_ <;>
    simp (disch := omega) [wLDT, withGuard, guardOf_eq, ho, hc, hz, toInt_ofInt_imm (by decide) hv, -BitVec.toInt_ofInt]

theorem reads_wSTT {c} {ra rs : Reg} {imm : Int} (hv : immS 7 imm = true)
    (ho : fldN base 22 5 = 11) (hc : storeFn (fldN base 17 5) = some c)
    (hz : predRefAt base 27 = ⟨false, 0⟩ ∧ fld base 12 5 = 0 ∧ fld base 7 5 = 0 ∧ fld base 0 7 = 0) :
    Reads (wSTT base g ra rs imm ||| placeBit b 31) ext (c g ra rs imm) := by
  refine (Reads.store (c := c) ?_ ?_).of_eq ?_ <;>
    simp (disch := omega) [wSTT, withGuard, guardOf_eq, ho, hc, hz, toInt_ofInt_imm (by decide) hv, -BitVec.toInt_ofInt]

theorem reads_wSTCi {c} {imm : Nat} (hv : immU 18 imm = true)
    (ho : fldN base 22 5 = 12) (h1 : fldN base 18 2 = 0) (hc : stackIFn (fldN base 20 2) = some c)
    (hz : predRefAt base 27 = ⟨false, 0⟩ ∧ fld base 0 18 = 0) :
    Reads (wSTCi base g imm ||| placeBit b 31) ext (c g imm) := by
  refine (Reads.stackI (c := c) ?_ ?_ ?_).of_eq ?_ <;>
    simp (disch := omega) [wSTCi, withGuard, guardOf_eq, ho, h1, hc, hz, toNat_ofNat_imm hv, -BitVec.toNat_ofNat]

theorem reads_wSTCr {c} {rs : Reg}
    (ho : fldN base 22 5 = 12) (h1 : fldN base 18 2 = 1) (hc : stackRFn (fldN base 20 2) = some c)
    (hz : predRefAt base 27 = ⟨false, 0⟩ ∧ fld base 12 5 = 0) :
    Reads (wSTCr base g rs ||| placeBit b 31) ext (c g rs) := by
  refine (Reads.stackR (c := c) ?_ ?_ ?_).of_eq ?_ <;>
    simp (disch := omega) [wSTCr, withGuard, guardOf_eq, ho, h1, hc, hz]

theorem reads_wALUl {c} {rd rs1 : Reg} (ho : fldN base 22 5 = 31) (h1 : fldN base 4 3 = 0)
    (hc : aluLFn (fldN base 0 4) = some c) (h31 : bitAt base 31 = true)
    (hz : predRefAt base 27 = ⟨false, 0⟩ ∧ fld base 17 5 = 0 ∧ fld base 12 5 = 0) :
    Reads (wALUl base g rd rs1 ||| placeBit b 31) ext (c g rd rs1 ext) := by
  refine (Reads.aluL (c := c) ?_ ?_ ?_ ?_).of_eq ?_ <;>
    simp (disch := omega) [wALUl, withGuard, guardOf_eq, ho, h1, hc, h31, hz]

theorem reads_wALUb {rd rs1 : Reg} {imm : Nat} {ps : PredRef} (hv : immU 5 imm = true)
    (ho : fldN base 22 5 = 8) (h1 : fldN base 4 3 = 5)
    (hz : predRefAt base 27 = ⟨false, 0⟩ ∧ fld base 17 5 = 0 ∧ fld base 12 5 = 0 ∧
      fld base 7 5 = 0 ∧ predRefAt base 0 = ⟨false, 0⟩) :
    Reads (wALUb base g rd rs1 imm ps ||| placeBit b 31) ext (.bcopy g rd rs1 imm ps) := by
  refine (Reads.bcopy ?_ ?_).of_eq ?_ <;>
    simp (disch := omega) [wALUb, withGuard, guardOf_eq, ho, h1, hz, toNat_ofNat_imm hv, -BitVec.toNat_ofNat]

theorem reads_wSPCt {sd : SReg} {rs1 : Reg}
    (ho : fldN base 22 5 = 9) (h1 : fldN base 4 3 = 2)
    (hz : predRefAt base 27 = ⟨false, 0⟩ ∧ fld base 0 4 = 0 ∧ fld base 12 5 = 0) :
    Reads (wSPCt base g sd rs1 ||| placeBit b 31) ext (.mts g sd rs1) := by
  refine (Reads.mts ?_ ?_).of_eq ?_ <;>
    simp (disch := omega) [wSPCt, withGuard, guardOf_eq, ho, h1, hz]

theorem reads_wSPCf {rd : Reg} {ss : SReg}
    (ho : fldN base 22 5 = 9) (h1 : fldN base 4 3 = 3)
    (hz : predRefAt base 27 = ⟨false, 0⟩ ∧ fld base 17 5 = 0 ∧ fld base 0 4 = 0) :
    Reads (wSPCf base g rd ss ||| placeBit b 31) ext (.mfs g rd ss) := by
  refine (Reads.mfs ?_ ?_).of_eq ?_ <;>
    simp (disch := omega) [wSPCf, withGuard, guardOf_eq, ho, h1, hz]

/-! The control-flow formats hold several rows each; `hc` is the row's case of `Reads`. -/

theorem reads_wCFLi {c : PredRef → Bool → Nat → Instr} {d : Bool} {imm : Nat} (hv : immU 22 imm = true)
    (hc : ∀ w, fldN w 25 2 = 2 → fldN w 23 2 = fldN base 23 2 →
      Reads w ext (c (guardOf w) (bitAt w 22) (fldN w 0 22)))
    (ho : fldN base 25 2 = 2) (hz : predRefAt base 27 = ⟨false, 0⟩ ∧ bitAt base 22 = false ∧ fld base 0 22 = 0) :
    Reads (wCFLi base g d imm ||| placeBit b 31) ext (c g d imm) := by
  refine (hc _ ?_ ?_).of_eq ?_ <;>
    simp (disch := omega) [wCFLi, withGuard, guardOf_eq, ho, hz, toNat_ofNat_imm hv, -BitVec.toNat_ofNat]

theorem reads_wCFLz {c : PredRef → Bool → Int → Instr} {d : Bool} {imm : Int} (hv : immS 22 imm = true)
    (hc : ∀ w, fldN w 25 2 = 2 → fldN w 23 2 = fldN base 23 2 →
      Reads w ext (c (guardOf w) (bitAt w 22) (fldZ w 0 22)))
    (ho : fldN base 25 2 = 2) (hz : predRefAt base 27 = ⟨false, 0⟩ ∧ bitAt base 22 = false ∧ fld base 0 22 = 0) :
    Reads (wCFLz base g d imm ||| placeBit b 31) ext (c g d imm) := by
  refine (hc _ ?_ ?_).of_eq ?_ <;>
    simp (disch := omega) [wCFLz, withGuard, guardOf_eq, ho, hz, toInt_ofInt_imm (by decide) hv, -BitVec.toInt_ofInt]

theorem reads_wCFLri {c : PredRef → Bool → Instr} {d : Bool}
    (hc : ∀ w, fldN w 23 4 = 12 → fldN w 2 2 = fldN base 2 2 → fldN w 0 2 = fldN base 0 2 →
      Reads w ext (c (guardOf w) (bitAt w 22)))
    (ho : fldN base 23 4 = 12) (hz : predRefAt base 27 = ⟨false, 0⟩ ∧ bitAt base 22 = false) :
    Reads (wCFLri base g d ||| placeBit b 31) ext (c g d) := by
  refine (hc _ ?_ ?_ ?_).of_eq ?_ <;>
    simp (disch := omega) [wCFLri, withGuard, guardOf_eq, ho, hz]

theorem reads_wCFLrs {c : PredRef → Bool → Reg → Instr} {d : Bool} {rs : Reg}
    (hc : ∀ w, fldN w 23 4 = 12 → fldN w 2 2 = fldN base 2 2 → fldN w 0 2 = fldN base 0 2 →
      Reads w ext (c (guardOf w) (bitAt w 22) (fld w 12 5)))
    (ho : fldN base 23 4 = 12) (hz : predRefAt base 27 = ⟨false, 0⟩ ∧ bitAt base 22 = false ∧ fld base 12 5 = 0) :
    Reads (wCFLrs base g d rs ||| placeBit b 31) ext (c g d rs) := by
  refine (hc _ ?_ ?_ ?_).of_eq ?_ <;>
    simp (disch := omega) [wCFLrs, withGuard, guardOf_eq, ho, hz]

theorem reads_wCFLrt {c : PredRef → Bool → Reg → Reg → Instr} {d : Bool} {rs1 rs2 : Reg}
    (hc : ∀ w, fldN w 23 4 = 12 → fldN w 2 2 = fldN base 2 2 → fldN w 0 2 = fldN base 0 2 →
      Reads w ext (c (guardOf w) (bitAt w 22) (fld w 12 5) (fld w 7 5)))
    (ho : fldN base 23 4 = 12)
    (hz : predRefAt base 27 = ⟨false, 0⟩ ∧ bitAt base 22 = false ∧ fld base 12 5 = 0 ∧ fld base 7 5 = 0) :
    Reads (wCFLrt base g d rs1 rs2 ||| placeBit b 31) ext (c g d rs1 rs2) := by
  refine (hc _ ?_ ?_ ?_).of_eq ?_ <;>
    simp (disch := omega) [wCFLrt, withGuard, guardOf_eq, ho, hz]

end

end Sys2Proof

/-! The round trip of rule R61 for instructions and bundles: encode, then decode. -/

namespace Sys2Proof

open Sys2Proof.Laws

/-- What the encoder's first word of `i` is to the decoder: bit 31 tells the long form, and set or not it leaves the
instruction that is read alone. -/
structure WordReadsBack (i : Instr) : Prop where
  bit31 : bitAt (encodeWord i) 31 = i.isLong
  reads (hwf : i.wf = true) (b : Bool) (other : Word) : Reads (encodeWord i ||| placeBit b 31) (extOr i other) i

theorem encodeWord_readsBack (i : Instr) : WordReadsBack i := by
  cases i
  case addI | subI | xorI | slI | srI | sraI | orI | andI =>
    exact ⟨(wordHead_ALUi (l := false) _ _ _ _ (by decide)).2, fun hv _ _ =>
      reads_wALUi hv (by decide) rfl (by decide)⟩
  case addR | subR | xorR | slR | srR | sraR | orR | andR | norR | shaddR | shadd2R =>
    exact ⟨(wordHead_ALUr (l := false) _ _ _ _ (by decide)).2, fun _ _ _ =>
      reads_wALUr (by decide) (by decide) rfl (by decide)⟩
  case addL | subL | xorL | slL | srL | sraL | orL | andL | norL | shaddL | shadd2L =>
    exact ⟨(wordHead_ALUl (l := true) _ _ _ (by decide)).2, fun _ _ _ =>
      reads_wALUl (by decide) (by decide) rfl (by decide) (by decide)⟩
  case mul | mulu =>
    exact ⟨(wordHead_ALUm (l := false) _ _ _ (by decide)).2, fun _ _ _ =>
      reads_wALUm (by decide) (by decide) rfl (by decide)⟩
  case cmpeqR | cmpneqR | cmpltR | cmpleR | cmpultR | cmpuleR | btestR =>
    exact ⟨(wordHead_ALUc (l := false) _ _ _ _ (by decide)).2, fun _ _ _ =>
      reads_wALUc (by decide) (by decide) rfl (by decide)⟩
  case cmpeqI | cmpneqI | cmpltI | cmpleI | cmpultI | cmpuleI | btestI =>
    exact ⟨(wordHead_ALUci (l := false) _ _ _ _ (by decide)).2, fun hv _ _ =>
      reads_wALUci hv (by decide) (by decide) rfl (by decide)⟩
  case por | pand | pxor =>
    exact ⟨(wordHead_ALUp (l := false) _ _ _ _ (by decide)).2, fun _ _ _ =>
      reads_wALUp (by decide) (by decide) rfl (by decide)⟩
  case bcopy =>
    exact ⟨(wordHead_ALUb (l := false) _ _ _ _ _ (by decide)).2, fun hv _ _ =>
      reads_wALUb hv (by decide) (by decide) (by decide)⟩
  case mts =>
    exact ⟨(wordHead_SPCt (l := false) _ _ _ (by decide)).2, fun _ _ _ =>
      reads_wSPCt (by decide) (by decide) (by decide)⟩
  case mfs =>
    exact ⟨(wordHead_SPCf (l := false) _ _ _ (by decide)).2, fun _ _ _ =>
      reads_wSPCf (by decide) (by decide) (by decide)⟩
  case lws | lwl | lwc | lwm | lhs | lhl | lhc | lhm | lbs | lbl | lbc | lbm | lhus | lhul | lhuc | lhum | lbus |
      lbul | lbuc | lbum =>
    exact ⟨(wordHead_LDT (l := false) _ _ _ _ (by decide)).2, fun hv _ _ =>
      reads_wLDT hv (by decide) rfl (by decide)⟩
  case sws | swl | swc | swm | shs | shl | shc | shm | sbs | sbl | sbc | sbm =>
    exact ⟨(wordHead_STT (l := false) _ _ _ _ (by decide)).2, fun hv _ _ =>
      reads_wSTT hv (by decide) rfl (by decide)⟩
  case sresI | sensI | sfreeI | sspillI =>
    exact ⟨(wordHead_STCi (l := false) _ _ (by decide)).2, fun hv _ _ =>
      reads_wSTCi hv (by decide) (by decide) rfl (by decide)⟩
  case sensR | sspillR =>
    exact ⟨(wordHead_STCr (l := false) _ _ (by decide)).2, fun _ _ _ =>
      reads_wSTCr (by decide) (by decide) rfl (by decide)⟩
  case call =>
    exact ⟨(wordHead_CFLi (l := false) _ _ _ (by decide)).2, fun hv _ _ =>
      reads_wCFLi (c := .call) hv (fun _ h0 h1 => .call h0 h1) (by decide) (by decide)⟩
  case brcf =>
    exact ⟨(wordHead_CFLi (l := false) _ _ _ (by decide)).2, fun hv _ _ =>
      reads_wCFLi (c := .brcf) hv (fun _ h0 h1 => .brcf h0 h1) (by decide) (by decide)⟩
  case trap =>
    exact ⟨(wordHead_CFLi (l := false) _ _ _ (by decide)).2, fun hv _ _ =>
      reads_wCFLi (c := fun g _ imm => .trap g imm) hv (fun _ h0 h1 => .trap h0 h1) (by decide) (by decide)⟩
  case br =>
    exact ⟨(wordHead_CFLz (l := false) _ _ _ (by decide)).2, fun hv _ _ =>
      reads_wCFLz (c := .br) hv (fun _ h0 h1 => .br h0 h1) (by decide) (by decide)⟩
  case ret =>
    exact ⟨(wordHead_CFLri (l := false) _ _ (by decide)).2, fun _ _ _ =>
      reads_wCFLri (c := .ret) (fun _ h0 h1 h2 => .ret h0 h1 h2) (by decide) (by decide)⟩
  case xret =>
    exact ⟨(wordHead_CFLri (l := false) _ _ (by decide)).2, fun _ _ _ =>
      reads_wCFLri (c := .xret) (fun _ h0 h1 h2 => .xret h0 h1 h2) (by decide) (by decide)⟩
  case callr =>
    exact ⟨(wordHead_CFLrs (l := false) _ _ _ (by decide)).2, fun _ _ _ =>
      reads_wCFLrs (c := .callr) (fun _ h0 h1 h2 => .callr h0 h1 h2) (by decide) (by decide)⟩
  case brr =>
    exact ⟨(wordHead_CFLrs (l := false) _ _ _ (by decide)).2, fun _ _ _ =>
      reads_wCFLrs (c := .brr) (fun _ h0 h1 h2 => .brr h0 h1 h2) (by decide) (by decide)⟩
  case brcfr =>
    exact ⟨(wordHead_CFLrs (l := false) _ _ _ (by decide)).2, fun _ _ _ =>
      reads_wCFLrs (c := .brcfr) (fun _ h0 h1 h2 => .brcfr h0 h1 h2) (by decide) (by decide)⟩
  case brcfrPair =>
    exact ⟨(wordHead_CFLrt (l := false) _ _ _ _ (by decide)).2, fun _ _ _ =>
      reads_wCFLrt (c := .brcfrPair) (fun _ h0 h1 h2 => .brcfrPair h0 h1 h2) (by decide) (by decide)⟩

/-- The round trip of one word, bit 31 set or not. -/
theorem decode_encodeWord {i : Instr} (hwf : i.wf = true) (b : Bool) (other : Word) :
    decode (encodeWord i ||| placeBit b 31) (extOr i other) = .ok i :=
  ((encodeWord_readsBack i).reads hwf b other).decode

@[simp] theorem or_placeBit_false (w : Word) (k : Nat) : w ||| placeBit false k = w := by
  simp [placeBit, place]

theorem decode_encodeWord_unmarked {i : Instr} (hwf : i.wf = true) (other : Word) :
    decode (encodeWord i) (extOr i other) = .ok i := by
  simpa using decode_encodeWord hwf false other

theorem encodeExt_isSome (i : Instr) : (encodeExt i).isSome = i.isLong := by
  cases i <;> rfl

theorem encodeExt_length (i : Instr) : (encodeExt i).toList.length = if i.isLong then 1 else 0 := by
  rw [← encodeExt_isSome]
  cases encodeExt i <;> rfl

theorem encodeExt_headD (i : Instr) (other : Word) : (encodeExt i).toList.headD other = extOr i other := by
  unfold extOr
  cases encodeExt i <;> rfl

theorem encode_of_wf {i : Instr} (hwf : i.wf = true) : encode i = some (encodeWord i :: (encodeExt i).toList) :=
  if_pos hwf

/-- Settles O1: the encoder's word is read as its own row. -/
theorem decodeInvertsEncode : Obligations.DecodeInvertsEncode := fun i hwf =>
  ⟨_, _, encode_of_wf hwf, encodeExt_length i, fun other => by
    rw [encodeExt_headD, decode_encodeWord_unmarked hwf]⟩

end Sys2Proof

/-! ### Bundles (rules R62, R63) -/

namespace Sys2Proof

section
variable {dual : Bool} {w0 w1 : Word} {i0 i1 : Instr}

theorem decodeBundle_alone (h0 : decode w0 w1 = .ok i0) (h31 : bitAt w0 31 = false) :
    decodeBundle dual w0 w1 = .ok ⟨i0, none, 4⟩ := by
  simp [decodeBundle, h0, h31]

theorem decodeBundle_long (h0 : decode w0 w1 = .ok i0) (h31 : bitAt w0 31 = true) (hl : i0.isLong = true) :
    decodeBundle dual w0 w1 = .ok ⟨i0, none, 8⟩ := by
  simp [decodeBundle, h0, h31, hl]

theorem decodeBundle_singleIssue (h0 : decode w0 w1 = .ok i0) (h31 : bitAt w0 31 = true) (hl : i0.isLong = false) :
    decodeBundle false w0 w1 = .error (.singleIssue w0) := by
  simp [decodeBundle, h0, h31, hl]

theorem decodeBundle_slot1Marked (h0 : decode w0 w1 = .ok i0) (h31 : bitAt w0 31 = true) (hl : i0.isLong = false)
    (hm : bitAt w1 31 = true) : decodeBundle true w0 w1 = .error (.slot1Marked w1) := by
  simp [decodeBundle, h0, h31, hl, hm]

theorem decodeBundle_slot1Rejected {r : Reject} (h0 : decode w0 w1 = .ok i0) (h31 : bitAt w0 31 = true)
    (hl : i0.isLong = false) (hm : bitAt w1 31 = false) (h1 : decode w1 0 = .error r) :
    decodeBundle true w0 w1 = .error r := by
  rw [BitVec.ofNat_eq_ofNat] at h1
  simp [decodeBundle, h0, h31, hl, hm, h1]

theorem decodeBundle_pair (h0 : decode w0 w1 = .ok i0) (h31 : bitAt w0 31 = true) (hl : i0.isLong = false)
    (hm : bitAt w1 31 = false) (h1 : decode w1 0 = .ok i1) :
    decodeBundle true w0 w1 = if i1.slot1Ok then .ok ⟨i0, some i1, 8⟩ else .error (.slot1Variant w1) := by
  rw [BitVec.ofNat_eq_ofNat] at h1
  simp [decodeBundle, h0, h31, hl, hm, h1]

/-- Everything `decodeBundle` accepts. -/
theorem decodeBundle_eq_ok {f : Fetched} (h : decodeBundle dual w0 w1 = .ok f) :
    ∃ i0, decode w0 w1 = .ok i0 ∧
      ((bitAt w0 31 = false ∧ f = ⟨i0, none, 4⟩) ∨
       (bitAt w0 31 = true ∧ i0.isLong = true ∧ f = ⟨i0, none, 8⟩) ∨
       (bitAt w0 31 = true ∧ i0.isLong = false ∧ dual = true ∧
          ∃ i1, decode w1 0 = .ok i1 ∧ i1.slot1Ok = true ∧ f = ⟨i0, some i1, 8⟩)) := by
  match h0 : decode w0 w1 with
  | .error _ => simp [decodeBundle, h0] at h
  | .ok i0 =>
    refine ⟨i0, rfl, ?_⟩
    match h31 : bitAt w0 31, hl : i0.isLong, dual with
    | false, _, _ => rw [decodeBundle_alone h0 h31] at h; cases h; exact .inl ⟨rfl, rfl⟩
    | true, true, _ => rw [decodeBundle_long h0 h31 hl] at h; cases h; exact .inr (.inl ⟨rfl, rfl, rfl⟩)
    | true, false, false => rw [decodeBundle_singleIssue h0 h31 hl] at h; cases h
    | true, false, true =>
      match hm : bitAt w1 31, h1 : decode w1 0 with
      | true, _ => rw [decodeBundle_slot1Marked h0 h31 hl hm] at h; cases h
      | false, .error _ => rw [decodeBundle_slot1Rejected h0 h31 hl hm h1] at h; cases h
      | false, .ok i1 =>
        rw [decodeBundle_pair h0 h31 hl hm h1] at h
        split at h <;> cases h
        next hs => exact .inr (.inr ⟨rfl, rfl, rfl, i1, rfl, hs, rfl⟩)

end

theorem bundleWf_none (i : Instr) : bundleWf i none = i.wf := Bool.and_true _

theorem bundleWf_some {i0 i1 : Instr} :
    bundleWf i0 (some i1) = true ↔ i0.wf = true ∧ i1.wf = true ∧ i1.slot1Ok = true ∧ i0.isLong = false := by
  simp [bundleWf, and_assoc]

/-- Slot 1 takes no long form (rules R60, R63). -/
theorem isLong_of_slot1Ok {i : Instr} (h : i.slot1Ok = true) : i.isLong = false := by
  have hexcl : (i.slot1Ok && i.isLong) = false := by cases i <;> rfl
  simpa [h] using hexcl

theorem extOr_of_short {i : Instr} (h : i.isLong = false) (other : Word) : extOr i other = other := by
  rw [← encodeExt_isSome, Option.isSome_eq_false_iff, Option.isNone_iff_eq_none] at h
  rw [extOr, h, Option.getD_none]

/-- A bundle of one instruction: one word, or two for the long form. -/
theorem decodeBundle_encode_alone {i : Instr} (hwf : i.wf = true) (other : Word) :
    decodeBundle true (encodeWord i) (extOr i other) = .ok ⟨i, none, 4 * ((encodeExt i).toList.length + 1)⟩ := by
  have h0 := decode_encodeWord_unmarked hwf other
  have h31 := (encodeWord_readsBack i).bit31
  rw [encodeExt_length]
  cases hl : i.isLong
  · exact decodeBundle_alone h0 (h31.trans hl)
  · exact decodeBundle_long h0 (h31.trans hl) hl

/-- A bundle of two instructions: the first word with bit 31 set, the second without. -/
theorem decodeBundle_encode_pair {i0 i1 : Instr} (hwf0 : i0.wf = true) (hwf1 : i1.wf = true) (hs : i1.slot1Ok = true)
    (hl : i0.isLong = false) :
    decodeBundle true (encodeWord i0 ||| 0x80000000#32) (encodeWord i1) = .ok ⟨i0, some i1, 8⟩ := by
  have hmark : 0x80000000#32 = placeBit true 31 := by decide
  have hl1 := isLong_of_slot1Ok hs
  have h0 := decode_encodeWord hwf0 true (encodeWord i1)
  have h1 := decode_encodeWord_unmarked hwf1 0
  rw [extOr_of_short hl] at h0
  rw [extOr_of_short hl1] at h1
  rw [hmark, decodeBundle_pair h0 (by simp) hl ((encodeWord_readsBack i1).bit31.trans hl1) h1, if_pos hs]

/-- Settles O2: by the number of instructions in the bundle. -/
theorem bundleDecodeInvertsEncode : Obligations.BundleDecodeInvertsEncode := by
  intro i0 i1 hwf
  cases i1 with
  | none =>
    refine ⟨_, _, if_pos hwf, fun other => ?_⟩
    rw [encodeExt_headD]
    exact decodeBundle_encode_alone (bundleWf_none i0 ▸ hwf) other
  | some i1 =>
    obtain ⟨hwf0, hwf1, hs, hl⟩ := bundleWf_some.1 hwf
    exact ⟨_, [encodeWord i1], if_pos hwf, fun _ => decodeBundle_encode_pair hwf0 hwf1 hs hl⟩

end Sys2Proof

/-! The round trip of rule R61 from the side of the words: decode, then encode. A word is the sum of its parts, each
part being what a mask leaves of it; the encoder writes back the parts of the row that was read, and what these leave
out are the row's unused bits and bit 31. -/

namespace Sys2Proof

/-! ### Parts of a word -/

/-- `x` is what the mask `m` leaves of `w`. -/
def Part (m x w : Word) : Prop := x = w &&& m

namespace Part

variable {m m' x x' w : Word}

theorem zero : Part 0 0 w := BitVec.and_zero.symm

theorem or (h : Part m x w) (h' : Part m' x' w) : Part (m ||| m') (x ||| x') w := by
  unfold Part at *
  rw [h, h', BitVec.and_or_distrib_left]

theorem eq_of_full (h : Part m x w) (hm : m = BitVec.allOnes 32) : x = w := by
  rw [h, hm, BitVec.and_allOnes]

theorem field (w : Word) (lo len : Nat) : Part (place (BitVec.allOnes len) lo) (place (fld w lo len) lo) w := by
  unfold Part place fld
  ext k hk
  by_cases hlo : k < lo
  · simp [hlo]
  · have hsub : lo + (k - lo) = k := by omega
    simp [hlo, hsub, hk, Bool.and_comm]

/-- A field with a known value; with `rfl`, the field as a number. -/
theorem value {lo len k : Nat} (h : fldN w lo len = k) :
    Part (place (BitVec.allOnes len) lo) (place (BitVec.ofNat len k) lo) w := by
  rw [← fld_of_fldN h]
  exact field w lo len

theorem int (w : Word) (lo len : Nat) :
    Part (place (BitVec.allOnes len) lo) (place (BitVec.ofInt len (fldZ w lo len)) lo) w := by
  rw [ofInt_fldZ]
  exact field w lo len

/-- A bit with a known value; with `rfl`, the bit itself. -/
theorem bit {k : Nat} {b : Bool} (h : bitAt w k = b) : Part (placeBit true k) (placeBit b k) w := by
  have hb : BitVec.ofBool b = fld w k 1 := by
    ext j hj
    obtain rfl : j = 0 := by omega
    simp [fld, ← h, bitAt]
  unfold placeBit
  rw [hb]
  exact field w k 1

theorem pred (w : Word) (lo : Nat) :
    Part (placeBit true (lo + 3) ||| place (BitVec.allOnes 3) lo) (placePred (predRefAt w lo) lo) w :=
  (bit rfl).or (field w lo 3)

theorem withGuard (h : Part m x w) : Part (m ||| placePred ⟨true, 7⟩ 27) (withGuard x (guardOf w)) w :=
  h.or (pred w 27)

/-- A part, the bits that are 0, and bit 31 make up the word. -/
theorem eq_of_unused {u : Word} (h : Part m x w) (hu : w &&& u = 0) (h31 : bitAt w 31 = false)
    (hm : m ||| u ||| placeBit true 31 = BitVec.allOnes 32) : x = w := by
  have hunused : Part u 0 w := hu.symm
  have hall := ((h.or hunused).or (bit h31)).eq_of_full hm
  simpa [placeBit, place] using hall

end Part

/-! ### The rows of the opcode table, as the model's functions give them -/

/-- What the encoder's functions say of the instruction `i`: its first word, its second, its unused bits, whether it is
well formed, and whether slot 1 takes it. -/
structure RowOf (i : Instr) (word unused : Word) (wf slot1 : Bool) (ext : Option Word) : Prop where
  word_eq : encodeWord i = word
  unused_eq : Machine.unusedBits i = unused
  wf_eq : i.wf = wf
  slot1_eq : i.slot1Ok = slot1
  ext_eq : encodeExt i = ext

section
variable {n : Nat} {g : PredRef} {rd rs1 rs2 ra rs : Reg} {pd : PReg} {ps1 ps2 : PredRef} {imm : Nat} {z : Int}
  {l : Word} {sd ss : SReg} {d : Bool}

theorem aluIFn_row {c} (h : aluIFn n = some c) : RowOf (c g rd rs1 imm)
    (wALUi (place 0#2 25 ||| place (BitVec.ofNat 3 n) 22) g rd rs1 imm) 0 (immU 12 imm) true none := by
  unfold aluIFn at h
  split at h <;> cases h <;> exact ⟨rfl, rfl, rfl, rfl, rfl⟩

theorem aluRFn_row {c} (h : aluRFn n = some c) : RowOf (c g rd rs1 rs2)
    (wALUr (place 8#5 22 ||| place 0#3 4 ||| place (BitVec.ofNat 4 n) 0) g rd rs1 rs2) 0 true true none := by
  unfold aluRFn at h
  split at h <;> cases h <;> exact ⟨rfl, rfl, rfl, rfl, rfl⟩

theorem mulFn_row {c} (h : mulFn n = some c) : RowOf (c g rs1 rs2)
    (wALUm (place 8#5 22 ||| place 2#3 4 ||| place (BitVec.ofNat 4 n) 0) g rs1 rs2)
    0x3E0000 true false none := by
  unfold mulFn at h
  split at h <;> cases h <;> exact ⟨rfl, rfl, rfl, rfl, rfl⟩

theorem cmpRFn_row {c} (h : cmpRFn n = some c) : RowOf (c g pd rs1 rs2)
    (wALUc (place 8#5 22 ||| place 3#3 4 ||| place (BitVec.ofNat 4 n) 0) g pd rs1 rs2)
    0x300000 true true none := by
  unfold cmpRFn at h
  split at h <;> cases h <;> exact ⟨rfl, rfl, rfl, rfl, rfl⟩

theorem plogFn_row {c} (h : plogFn n = some c) : RowOf (c g pd ps1 ps2)
    (wALUp (place 8#5 22 ||| place 4#3 4 ||| place (BitVec.ofNat 4 n) 0) g pd ps1 ps2)
    0x310800 true true none := by
  unfold plogFn at h
  split at h <;> cases h <;> exact ⟨rfl, rfl, rfl, rfl, rfl⟩

theorem cmpIFn_row {c} (h : cmpIFn n = some c) : RowOf (c g pd rs1 imm)
    (wALUci (place 8#5 22 ||| place 6#3 4 ||| place (BitVec.ofNat 4 n) 0) g pd rs1 imm)
    0x300000 (immU 5 imm) true none := by
  unfold cmpIFn at h
  split at h <;> cases h <;> exact ⟨rfl, rfl, rfl, rfl, rfl⟩

theorem loadFn_row {c} (h : loadFn n = some c) : RowOf (c g rd ra z)
    (wLDT (place 10#5 22 ||| place (BitVec.ofNat 5 n) 7) g rd ra z) 0 (immS 7 z) false none := by
  unfold loadFn at h
  split at h <;> cases h <;> exact ⟨rfl, rfl, rfl, rfl, rfl⟩

theorem storeFn_row {c} (h : storeFn n = some c) : RowOf (c g ra rs z)
    (wSTT (place 11#5 22 ||| place (BitVec.ofNat 5 n) 17) g ra rs z) 0 (immS 7 z) false none := by
  unfold storeFn at h
  split at h <;> cases h <;> exact ⟨rfl, rfl, rfl, rfl, rfl⟩

theorem stackIFn_row {c} (h : stackIFn n = some c) : RowOf (c g imm)
    (wSTCi (place 12#5 22 ||| place 0#2 18 ||| place (BitVec.ofNat 2 n) 20) g imm)
    0 (immU 18 imm) false none := by
  unfold stackIFn at h
  split at h <;> cases h <;> exact ⟨rfl, rfl, rfl, rfl, rfl⟩

theorem stackRFn_row {c} (h : stackRFn n = some c) : RowOf (c g rs)
    (wSTCr (place 12#5 22 ||| place 1#2 18 ||| place (BitVec.ofNat 2 n) 20) g rs) 0x020FFF true false none := by
  unfold stackRFn at h
  split at h <;> cases h <;> exact ⟨rfl, rfl, rfl, rfl, rfl⟩

theorem aluLFn_row {c} (h : aluLFn n = some c) : RowOf (c g rd rs1 l)
    (wALUl (placeBit true 31 ||| place 31#5 22 ||| place 0#3 4 ||| place (BitVec.ofNat 4 n) 0) g rd rs1)
    0x000F80 true false (some l) := by
  unfold aluLFn at h
  split at h <;> cases h <;> exact ⟨rfl, rfl, rfl, rfl, rfl⟩

theorem bcopy_row : RowOf (.bcopy g rd rs1 imm ps1)
    (wALUb (place 8#5 22 ||| place 5#3 4) g rd rs1 imm ps1) 0 (immU 5 imm) true none :=
  ⟨rfl, rfl, rfl, rfl, rfl⟩

theorem mts_row : RowOf (.mts g sd rs1)
    (wSPCt (place 9#5 22 ||| place 2#3 4) g sd rs1) 0x3E0F80 true false none :=
  ⟨rfl, rfl, rfl, rfl, rfl⟩

theorem mfs_row : RowOf (.mfs g rd ss)
    (wSPCf (place 9#5 22 ||| place 3#3 4) g rd ss) 0x01FF80 true false none :=
  ⟨rfl, rfl, rfl, rfl, rfl⟩

theorem call_row : RowOf (.call g d imm)
    (wCFLi (place 2#2 25 ||| place 0#2 23) g d imm) 0 (immU 22 imm) false none :=
  ⟨rfl, rfl, rfl, rfl, rfl⟩

theorem br_row : RowOf (.br g d z)
    (wCFLz (place 2#2 25 ||| place 1#2 23) g d z) 0 (immS 22 z) false none :=
  ⟨rfl, rfl, rfl, rfl, rfl⟩

theorem brcf_row : RowOf (.brcf g d imm)
    (wCFLi (place 2#2 25 ||| place 2#2 23) g d imm) 0 (immU 22 imm) false none :=
  ⟨rfl, rfl, rfl, rfl, rfl⟩

theorem trap_row : RowOf (.trap g imm)
    (wCFLi (place 2#2 25 ||| place 3#2 23) g false imm) 0x400000 (immU 22 imm) false none :=
  ⟨rfl, rfl, rfl, rfl, rfl⟩

theorem ret_row : RowOf (.ret g d)
    (wCFLri (place 12#4 23 ||| place 0#2 2 ||| place 0#2 0) g d) 0x3FFFF0 true false none :=
  ⟨rfl, rfl, rfl, rfl, rfl⟩

theorem xret_row : RowOf (.xret g d)
    (wCFLri (place 12#4 23 ||| place 0#2 2 ||| place 1#2 0) g d) 0x3FFFF0 true false none :=
  ⟨rfl, rfl, rfl, rfl, rfl⟩

theorem callr_row : RowOf (.callr g d rs)
    (wCFLrs (place 12#4 23 ||| place 1#2 2 ||| place 0#2 0) g d rs) 0x3E0FF0 true false none :=
  ⟨rfl, rfl, rfl, rfl, rfl⟩

theorem brr_row : RowOf (.brr g d rs)
    (wCFLrs (place 12#4 23 ||| place 1#2 2 ||| place 1#2 0) g d rs) 0x3E0FF0 true false none :=
  ⟨rfl, rfl, rfl, rfl, rfl⟩

theorem brcfr_row : RowOf (.brcfr g d rs)
    (wCFLrs (place 12#4 23 ||| place 1#2 2 ||| place 2#2 0) g d rs) 0x3E0FF0 true false none :=
  ⟨rfl, rfl, rfl, rfl, rfl⟩

theorem brcfrPair_row : RowOf (.brcfrPair g d rs1 rs2)
    (wCFLrt (place 12#4 23 ||| place 2#2 2 ||| place 2#2 0) g d rs1 rs2) 0x3E0070 true false none :=
  ⟨rfl, rfl, rfl, rfl, rfl⟩

end

end Sys2Proof

/-! ### What a row that was read is written back as -/

namespace Sys2Proof

/-- What encoding says of an instruction `i` that was read from `w` and `ext`. -/
structure WrittenBack (w ext : Word) (i : Instr) : Prop where
  wf : i.wf = true
  ext_eq : encodeExt i = if i.isLong then some ext else none
  word_eq : w &&& Machine.unusedBits i = 0 → bitAt w 31 = i.isLong → encodeWord i = w

section
variable {w ext word u m : Word} {i : Instr} {wf s : Bool}

theorem RowOf.writtenBack (r : RowOf i word u wf s none) (hwf : wf = true) (hp : Part m word w)
    (hm : m ||| u ||| placeBit true 31 = BitVec.allOnes 32) : WrittenBack w ext i := by
  have hl : i.isLong = false := by rw [← encodeExt_isSome, r.ext_eq]; rfl
  refine ⟨r.wf_eq.trans hwf, by rw [r.ext_eq, hl]; rfl, fun hu h31 => ?_⟩
  rw [r.unused_eq] at hu
  rw [r.word_eq, hp.eq_of_unused hu (h31.trans hl) hm]

theorem RowOf.writtenBack_long (r : RowOf i word u true s (some ext)) (hp : Part m word w)
    (hm : m ||| u = BitVec.allOnes 32) : WrittenBack w ext i := by
  have hl : i.isLong = true := by rw [← encodeExt_isSome, r.ext_eq]; rfl
  refine ⟨r.wf_eq, by rw [r.ext_eq, hl]; rfl, fun hu _ => ?_⟩
  have hunused : Part u 0 w := by rw [← r.unused_eq]; exact hu.symm
  rw [r.word_eq, ← (hp.or hunused).eq_of_full hm]
  exact BitVec.or_zero.symm

/-- The encoder writes back what was read: each row's word is the sum of the parts that the row's fields are. -/
theorem Reads.writtenBack (h : Reads w ext i) : WrittenBack w ext i := by
  cases h with
  | aluI ho hc =>
    exact (aluIFn_row hc).writtenBack (immU_fldN w 0 12) (Part.value ho |>.or (.value rfl) |>.withGuard
      |>.or (.field w 17 5) |>.or (.field w 12 5) |>.or (.value rfl)) (by decide)
  | aluR ho h4 hc =>
    exact (aluRFn_row hc).writtenBack rfl (Part.value ho |>.or (.value h4) |>.or (.value rfl) |>.withGuard
      |>.or (.field w 17 5) |>.or (.field w 12 5) |>.or (.field w 7 5)) (by decide)
  | mul ho h4 hc =>
    exact (mulFn_row hc).writtenBack rfl (Part.value ho |>.or (.value h4) |>.or (.value rfl) |>.withGuard
      |>.or (.field w 12 5) |>.or (.field w 7 5)) (by decide)
  | cmpR ho h4 hc =>
    exact (cmpRFn_row hc).writtenBack rfl (Part.value ho |>.or (.value h4) |>.or (.value rfl) |>.withGuard
      |>.or (.field w 17 3) |>.or (.field w 12 5) |>.or (.field w 7 5)) (by decide)
  | plog ho h4 hc =>
    exact (plogFn_row hc).writtenBack rfl (Part.value ho |>.or (.value h4) |>.or (.value rfl) |>.withGuard
      |>.or (.field w 17 3) |>.or (.pred w 12) |>.or (.pred w 7)) (by decide)
  | bcopy ho h4 =>
    exact bcopy_row.writtenBack (immU_fldN w 7 5) (Part.value ho |>.or (.value h4) |>.withGuard
      |>.or (.field w 17 5) |>.or (.field w 12 5) |>.or (.value rfl) |>.or (.pred w 0)) (by decide)
  | cmpI ho h4 hc =>
    exact (cmpIFn_row hc).writtenBack (immU_fldN w 7 5) (Part.value ho |>.or (.value h4) |>.or (.value rfl)
      |>.withGuard |>.or (.field w 17 3) |>.or (.field w 12 5) |>.or (.value rfl)) (by decide)
  | mts ho h4 =>
    exact mts_row.writtenBack rfl (Part.value ho |>.or (.value h4) |>.withGuard
      |>.or (.field w 12 5) |>.or (.field w 0 4)) (by decide)
  | mfs ho h4 =>
    exact mfs_row.writtenBack rfl (Part.value ho |>.or (.value h4) |>.withGuard
      |>.or (.field w 17 5) |>.or (.field w 0 4)) (by decide)
  | load ho hc =>
    exact (loadFn_row hc).writtenBack (immS_fldZ w 0 7) (Part.value ho |>.or (.value rfl) |>.withGuard
      |>.or (.field w 17 5) |>.or (.field w 12 5) |>.or (.int w 0 7)) (by decide)
  | store ho hc =>
    exact (storeFn_row hc).writtenBack (immS_fldZ w 0 7) (Part.value ho |>.or (.value rfl) |>.withGuard
      |>.or (.field w 12 5) |>.or (.field w 7 5) |>.or (.int w 0 7)) (by decide)
  | stackI ho h18 hc =>
    exact (stackIFn_row hc).writtenBack (immU_fldN w 0 18) (Part.value ho |>.or (.value h18) |>.or (.value rfl)
      |>.withGuard |>.or (.value rfl)) (by decide)
  | stackR ho h18 hc =>
    exact (stackRFn_row hc).writtenBack rfl (Part.value ho |>.or (.value h18) |>.or (.value rfl) |>.withGuard
      |>.or (.field w 12 5)) (by decide)
  | call ho h23 =>
    exact call_row.writtenBack (immU_fldN w 0 22) (Part.value ho |>.or (.value h23) |>.withGuard
      |>.or (.bit rfl) |>.or (.value rfl)) (by decide)
  | br ho h23 =>
    exact br_row.writtenBack (immS_fldZ w 0 22) (Part.value ho |>.or (.value h23) |>.withGuard
      |>.or (.bit rfl) |>.or (.int w 0 22)) (by decide)
  | brcf ho h23 =>
    exact brcf_row.writtenBack (immU_fldN w 0 22) (Part.value ho |>.or (.value h23) |>.withGuard
      |>.or (.bit rfl) |>.or (.value rfl)) (by decide)
  | trap ho h23 =>
    exact trap_row.writtenBack (immU_fldN w 0 22) (Part.value ho |>.or (.value h23) |>.withGuard
      |>.or .zero |>.or (.value rfl)) (by decide)
  | ret ho h2 h0 =>
    exact ret_row.writtenBack rfl (Part.value ho |>.or (.value h2) |>.or (.value h0) |>.withGuard
      |>.or (.bit rfl)) (by decide)
  | xret ho h2 h0 =>
    exact xret_row.writtenBack rfl (Part.value ho |>.or (.value h2) |>.or (.value h0) |>.withGuard
      |>.or (.bit rfl)) (by decide)
  | callr ho h2 h0 =>
    exact callr_row.writtenBack rfl (Part.value ho |>.or (.value h2) |>.or (.value h0) |>.withGuard
      |>.or (.bit rfl) |>.or (.field w 12 5)) (by decide)
  | brr ho h2 h0 =>
    exact brr_row.writtenBack rfl (Part.value ho |>.or (.value h2) |>.or (.value h0) |>.withGuard
      |>.or (.bit rfl) |>.or (.field w 12 5)) (by decide)
  | brcfr ho h2 h0 =>
    exact brcfr_row.writtenBack rfl (Part.value ho |>.or (.value h2) |>.or (.value h0) |>.withGuard
      |>.or (.bit rfl) |>.or (.field w 12 5)) (by decide)
  | brcfrPair ho h2 h0 =>
    exact brcfrPair_row.writtenBack rfl (Part.value ho |>.or (.value h2) |>.or (.value h0) |>.withGuard
      |>.or (.bit rfl) |>.or (.field w 12 5) |>.or (.field w 7 5)) (by decide)
  | aluL ho h4 hc h31 =>
    exact (aluLFn_row hc).writtenBack_long (Part.bit h31 |>.or (.value ho) |>.or (.value h4) |>.or (.value rfl)
      |>.withGuard |>.or (.field w 17 5) |>.or (.field w 12 5)) (by decide)

end

/-- Settles O3: what was read is written back, part by part. -/
theorem encodeInvertsDecode : Obligations.EncodeInvertsDecode := by
  intro w ext i h
  have hb := (Reads.of_decode h).writtenBack
  refine ⟨hb.wf, fun hu h31 => ?_⟩
  rw [encode_of_wf hb.wf, hb.word_eq hu h31, hb.ext_eq]
  cases i.isLong <;> rfl

/-- Settles O4: the accepted bundles are listed by `decodeBundle_eq_ok`, and every accepted word is well formed. -/
theorem decodedBundlesWellFormed : Obligations.DecodedBundlesWellFormed := by
  intro dual w0 w1 f h
  obtain ⟨i0, h0, hcases⟩ := decodeBundle_eq_ok h
  have hwf0 := (Reads.of_decode h0).writtenBack.wf
  rcases hcases with ⟨h31, rfl⟩ | ⟨h31, _, rfl⟩ | ⟨h31, hl, hdual, i1, h1, hs, rfl⟩
  · exact ⟨(bundleWf_none i0).trans hwf0, by simp [h31], nofun⟩
  · exact ⟨(bundleWf_none i0).trans hwf0, by simp [h31], nofun⟩
  · have hwf1 := (Reads.of_decode h1).writtenBack.wf
    exact ⟨bundleWf_some.2 ⟨hwf0, hwf1, hs, hl⟩, by simp [h31], fun _ => hdual⟩

end Sys2Proof

/-! ### What the decoder and the encoder reject (rules R62, R63, R77 to R85, R90) -/

namespace Sys2Proof

/-! The codes that have no row. -/

section
variable {n : Nat}

theorem aluRFn_none (h : n ∈ [8, 9, 10, 14, 15]) : aluRFn n = none := by
  simp only [List.mem_cons, List.not_mem_nil, or_false] at h
  rcases h with rfl | rfl | rfl | rfl | rfl <;> rfl

theorem aluLFn_none (h : n ∈ [8, 9, 10, 14, 15]) : aluLFn n = none := by
  simp only [List.mem_cons, List.not_mem_nil, or_false] at h
  rcases h with rfl | rfl | rfl | rfl | rfl <;> rfl

theorem mulFn_none (h : 2 ≤ n) : mulFn n = none := by
  obtain ⟨k, rfl⟩ := Nat.exists_eq_add_of_le' h; rfl

theorem cmpRFn_none (h : 7 ≤ n) : cmpRFn n = none := by
  obtain ⟨k, rfl⟩ := Nat.exists_eq_add_of_le' h; rfl

theorem cmpIFn_none (h : 7 ≤ n) : cmpIFn n = none := by
  obtain ⟨k, rfl⟩ := Nat.exists_eq_add_of_le' h; rfl

theorem loadFn_none (h : 20 ≤ n) : loadFn n = none := by
  obtain ⟨k, rfl⟩ := Nat.exists_eq_add_of_le' h; rfl

theorem storeFn_none (h : 12 ≤ n) : storeFn n = none := by
  obtain ⟨k, rfl⟩ := Nat.exists_eq_add_of_le' h; rfl

theorem plogFn_none (h : n ∉ [6, 7, 10]) : plogFn n = none := by
  unfold plogFn
  split
  case h_4 => rfl
  all_goals exact absurd (by decide) h

theorem stackRFn_none (h : n ∈ [0, 2]) : stackRFn n = none := by
  simp only [List.mem_cons, List.not_mem_nil, or_false] at h
  rcases h with rfl | rfl <;> rfl

end

section
variable {w ext : Word}

theorem orReserved_map_none {α : Type} {o : Option α} {f : α → Instr} (h : o = none) :
    orReserved w (o.map f) = .error (.reserved w) := by
  rw [h]; rfl

theorem decodeAluGroup_reserved (h : fldN w 4 3 ∈ [1, 7]) : decodeAluGroup w = .error (.reserved w) := by
  simp only [List.mem_cons, List.not_mem_nil, or_false] at h
  rcases h with h | h <;> simp only [decodeAluGroup, h]

theorem decodeSpecialGroup_reserved (h : fldN w 4 3 ∉ [2, 3]) : decodeSpecialGroup w = .error (.reserved w) := by
  simp only [List.mem_cons, List.not_mem_nil, or_false, not_or] at h
  obtain ⟨hmts, hmfs⟩ := h
  unfold decodeSpecialGroup
  dsimp only
  split
  next h2 => exact absurd h2 hmts
  next h3 => exact absurd h3 hmfs
  next => rfl

theorem decodeStackGroup_reserved (h : 2 ≤ fldN w 18 2) : decodeStackGroup w = .error (.reserved w) := by
  unfold decodeStackGroup
  dsimp only
  split
  next h0 => omega
  next h1 => omega
  next => rfl

theorem decodeCflReg_reserved (h : fldN w 0 4 ∉ [0, 1, 4, 5, 6, 10]) : decodeCflReg w = .error (.reserved w) := by
  have hparts : fldN w 0 4 = fldN w 0 2 + 4 * fldN w 2 2 := fldN_append w 0 2 2
  rw [hparts] at h
  unfold decodeCflReg
  dsimp only
  split
  case h_7 => rfl
  all_goals
    next h2 h0 => rw [h2, h0] at h; exact absurd (by decide) h

theorem decodeLong_reserved (h : fldN w 4 3 ≠ 0 ∨ aluLFn (fldN w 0 4) = none) :
    decodeLong w ext = .error (.reserved w) := by
  unfold decodeLong
  split
  next h4 => rw [h.resolve_left (absurd h4)]
  next => rfl

theorem decodeLong_unmarked (h31 : bitAt w 31 = false) : ∃ r, decodeLong w ext = .error r := by
  match h : decodeLong w ext with
  | .error r => exact ⟨r, rfl⟩
  | .ok i =>
    unfold decodeLong at h
    rw [h31] at h
    split at h
    · split at h <;> cases h
    · cases h

end

/-- A row of a format that slot 1 does not take (rule R63). -/
theorem Reads.slot1Ok_eq_false {w ext : Word} {i : Instr} (h : Reads w ext i)
    (hf : 9 ≤ fldN w 22 5 ∨ (fldN w 22 5 = 8 ∧ fldN w 4 3 = 2)) : i.slot1Ok = false := by
  cases h with
  | aluI ho =>
    have := opcode_eq w
    have := fldN_lt w 22 3
    omega
  | aluR ho h4 | cmpR ho h4 | plog ho h4 | bcopy ho h4 | cmpI ho h4 => omega
  | mul _ _ hc => exact (mulFn_row hc).slot1_eq
  | load _ hc => exact (loadFn_row hc).slot1_eq
  | store _ hc => exact (storeFn_row hc).slot1_eq
  | stackI _ _ hc => exact (stackIFn_row hc).slot1_eq
  | stackR _ _ hc => exact (stackRFn_row hc).slot1_eq
  | aluL _ _ hc _ => exact (aluLFn_row (l := ext) hc).slot1_eq
  | mts | mfs | call | br | brcf | trap | ret | xret | callr | brr | brcfr | brcfrPair => rfl

theorem decodeBundle_error_of_first {dual : Bool} {w0 w1 : Word} {r : Reject} (h : decode w0 w1 = .error r) :
    decodeBundle dual w0 w1 = .error r := by
  simp only [decodeBundle, h]

/-- A first word that asks for a second instruction, beside a second word that slot 1 does not take. -/
theorem decodeBundle_badSecond {w0 w1 : Word} {i0 : Instr} (h0 : decode w0 w1 = .ok i0) (h31 : bitAt w0 31 = true)
    (hl : i0.isLong = false) (hbad : bitAt w1 31 = true ∨ ∀ i1, decode w1 0 = .ok i1 → i1.slot1Ok = false) :
    ∃ r, decodeBundle true w0 w1 = .error r ∧ r.word = w1 := by
  match hm : bitAt w1 31, h1 : decode w1 0 with
  | true, _ => exact ⟨_, decodeBundle_slot1Marked h0 h31 hl hm, rfl⟩
  | false, .error r => exact ⟨r, decodeBundle_slot1Rejected h0 h31 hl hm h1, decode_error h1⟩
  | false, .ok i1 =>
    have hs : i1.slot1Ok = false := hbad.resolve_left (by simp [hm]) i1 h1
    exact ⟨.slot1Variant w1, by rw [decodeBundle_pair h0 h31 hl hm h1, hs]; rfl, rfl⟩

/-- Settles O7: the reserved codes group by group, then the words of a bundle. -/
theorem reservedCodesRejected : Obligations.ReservedCodesRejected := by
  refine ⟨fun w ext h => ?_, fun dual w0 w1 ho h31 => ?_, fun w0 w1 i0 h0 h31 hl => ⟨?_, fun hbad => ?_⟩⟩
  · rcases h with h | ⟨ho, h⟩ | ⟨ho, h4, h⟩ | ⟨ho, h4, h⟩ | ⟨ho, h4 | h4, h⟩ | ⟨ho, h4, h⟩ | ⟨ho, h⟩ | ⟨ho, h⟩ |
      ⟨ho, h⟩ | ⟨ho, h⟩ | ⟨ho, h18, h⟩ | ⟨ho, h⟩ | ⟨ho, h⟩ | ⟨ho, h⟩
    · exact decode_reservedOpcode h
    · rw [decode_aluGroup ho, decodeAluGroup_reserved h]
    · simp only [decode_aluGroup ho, decodeAluGroup, h4, orReserved_map_none (aluRFn_none h)]
    · simp only [decode_aluGroup ho, decodeAluGroup, h4, orReserved_map_none (mulFn_none h)]
    · simp only [decode_aluGroup ho, decodeAluGroup, h4, orReserved_map_none (cmpRFn_none h)]
    · simp only [decode_aluGroup ho, decodeAluGroup, h4, orReserved_map_none (cmpIFn_none h)]
    · simp only [decode_aluGroup ho, decodeAluGroup, h4, orReserved_map_none (plogFn_none h)]
    · rw [decode_specialGroup ho, decodeSpecialGroup_reserved h]
    · rw [decode_load ho, orReserved_map_none (loadFn_none h)]
    · rw [decode_store ho, orReserved_map_none (storeFn_none h)]
    · rw [decode_stackGroup ho, decodeStackGroup_reserved h]
    · simp only [decode_stackGroup ho, decodeStackGroup, h18, orReserved_map_none (stackRFn_none h)]
    · rw [decode_cflReg ho, decodeCflReg_reserved h]
    · rw [decode_long ho, decodeLong_reserved (.inl h)]
    · rw [decode_long ho, decodeLong_reserved (.inr (aluLFn_none h))]
  · obtain ⟨r, hr⟩ := decodeLong_unmarked (ext := w1) h31
    rw [← decode_long ho] at hr
    exact ⟨r, decodeBundle_error_of_first hr, decode_error hr⟩
  · exact ⟨_, decodeBundle_singleIssue h0 h31 hl, rfl⟩
  · refine decodeBundle_badSecond h0 h31 hl ?_
    rcases hbad with hm | hop | hmul | ⟨r, hr⟩
    · exact .inl hm
    · exact .inr fun i1 h1 => (Reads.of_decode h1).slot1Ok_eq_false (.inl hop)
    · exact .inr fun i1 h1 => (Reads.of_decode h1).slot1Ok_eq_false (.inr hmul)
    · exact .inr fun i1 h1 => absurd (hr.symm.trans h1) nofun

theorem encode_of_not_wf {i : Instr} (h : i.wf = false) : encode i = none := by
  rw [encode, h]; rfl

/-- Settles O5: the first branch of `encode`, and the boundary values of two immediate fields. -/
theorem encodeRejectsIllFormed : Obligations.EncodeRejectsIllFormed :=
  ⟨fun _ => encode_of_not_wf, fun _ _ _ =>
    ⟨encode_of_not_wf rfl, by rw [encode_of_wf rfl]; rfl, encode_of_not_wf rfl, by rw [encode_of_wf rfl]; rfl,
      encode_of_not_wf rfl, by rw [encode_of_wf rfl]; rfl⟩⟩

/-- Settles O6: the decoder run on each word. -/
theorem sampleWordsDecode : Obligations.SampleWordsDecode :=
  ⟨rfl, rfl, rfl, rfl, rfl, rfl, rfl⟩

end Sys2Proof

/-! What each stage operation does by class (rules R104, R106, R108, R109): the slot that decode fills, the stages that do
nothing, the commit of a result, and the three stages of an arithmetic instruction one after the other. -/

namespace Sys2Proof.Machine

open Sys2Proof.Config

/-! ### Decode -/

theorem toNat_zextImm {n : Nat} (h : n < 4294967296) : (zextImm n).toNat = n := by
  rw [zextImm, BitVec.toNat_ofNat, Nat.mod_eq_of_lt h]

/-- An arithmetic instruction or a compare whose second operand is an immediate. -/
def Shape.HasImm (sh : Shape) (rs1 : Reg) (v : Word) : Prop :=
  (∃ f rd, sh = .alu f rd rs1 (.imm v)) ∨ ∃ f pd, sh = .cmp f pd rs1 (.imm v)

/-- The decode stage stores the immediate as the second operand (rules R85, R104). -/
theorem exec_decode_imm {i : Instr} {s : State} {rs1 : Reg} {v : Word} (hs : s.cur.stage = .DR)
    (hi : (shapeOf i).HasImm rs1 v) : ∃ t, exec i s = .next t ∧ t.slot.drRs1 = s.readGpr rs1 ∧ t.slot.drRs2 = v := by
  refine ⟨_, exec_decode hs, ?_⟩
  rw [State.slot_setSlot]
  obtain ⟨f, rd, h⟩ | ⟨f, pd, h⟩ := hi <;> rw [h] <;> exact ⟨rfl, rfl⟩

/-- The same for an immediate that the encoding gives as a number. -/
theorem exec_decode_zextImm {i : Instr} {s : State} {rs1 : Reg} {n : Nat} (hs : s.cur.stage = .DR) (hn : n < 4294967296)
    (hi : (shapeOf i).HasImm rs1 (zextImm n)) :
    ∃ t, exec i s = .next t ∧ t.slot.drRs1 = s.readGpr rs1 ∧ t.slot.drRs2.toNat = n := by
  obtain ⟨t, ht, hrs1, hrs2⟩ := exec_decode_imm hs hi
  exact ⟨t, ht, hrs1, by rw [hrs2, toNat_zextImm hn]⟩

section
variable (g : PredRef) (rd rs1 : Reg) (pd : PReg) (n : Nat) (v : Word)

theorem hasImm_aluI : ∀ i ∈ [Instr.addI g rd rs1 n, .subI g rd rs1 n, .xorI g rd rs1 n, .slI g rd rs1 n,
    .srI g rd rs1 n, .sraI g rd rs1 n, .orI g rd rs1 n, .andI g rd rs1 n], (shapeOf i).HasImm rs1 (zextImm n) := by
  simp [Shape.HasImm, shapeOf]

theorem hasImm_cmpI : ∀ i ∈ [Instr.cmpeqI g pd rs1 n, .cmpneqI g pd rs1 n, .cmpltI g pd rs1 n, .cmpleI g pd rs1 n,
    .cmpultI g pd rs1 n, .cmpuleI g pd rs1 n, .btestI g pd rs1 n], (shapeOf i).HasImm rs1 (zextImm n) := by
  simp [Shape.HasImm, shapeOf]

theorem hasImm_aluL : ∀ i ∈ [Instr.addL g rd rs1 v, .subL g rd rs1 v, .xorL g rd rs1 v, .slL g rd rs1 v,
    .srL g rd rs1 v, .sraL g rd rs1 v, .orL g rd rs1 v, .andL g rd rs1 v, .norL g rd rs1 v, .shaddL g rd rs1 v,
    .shadd2L g rd rs1 v], (shapeOf i).HasImm rs1 v := by
  simp [Shape.HasImm, shapeOf]

end

/-- Settles O8: the slot that the decode stage of a shape fills, then the forms whose second operand is an immediate. -/
theorem decodeStageReads : Obligations.DecodeStageReads := by
  intro i s hs
  refine ⟨exec_decode hs, fun g rd rs1 n hn hi => ?_, fun g pd rs1 n hn hi => ?_, fun g rd rs1 v hi => ?_⟩
  · exact exec_decode_zextImm hs (by omega) (hasImm_aluI g rd rs1 n i hi)
  · exact exec_decode_zextImm hs (by omega) (hasImm_cmpI g rs1 pd n i hi)
  · exact exec_decode_imm hs (hasImm_aluL g rd rs1 v i hi)

/-! ### Stages that do nothing -/

/-- Settles O9: both guarded stages of every shape are off. -/
theorem falseGuardDoesNothing : Obligations.FalseGuardDoesNothing := by
  rintro i s (hs | hs) hp
  · rw [exec_execute hs, shapeExecute_off hp]
  · rw [exec_commit hs, shapeCommit_off (.inl hp)]

/-- Settles O10: the commit stage of every shape is off. -/
theorem appliedSlotDoesNothing : Obligations.AppliedSlotDoesNothing := fun i s hs hd => by
  rw [exec_commit hs, shapeCommit_off (.inr hd)]

/-! ### The commit of a result -/

/-- The instruction commits a result to `rd` by rule R108. -/
def CommitsResult (i : Instr) (rd : Reg) : Prop := shapeCommit (shapeOf i) = commitResult rd

/-- What the one commit of a result does: the register, the frame and the slot. -/
theorem exec_commitResult {i : Instr} {rd : Reg} {s : State} (hi : CommitsResult i rd) (h : Commits s) :
    exec i s = .next (s.commitGpr rd s.slot.exResult false) := by
  rw [exec_commit h.1, hi, commitResult, commitSlot_on h]

theorem State.readGpr_commitGpr_same (s : State) (rd : Reg) (v : Word) (b : Bool) :
    (s.commitGpr rd v b).readGpr rd = if rd = 0 then 0 else v := by
  rw [State.commitGpr_readGpr, State.readGpr_writeGpr, if_pos rfl]

theorem State.slot_commitGpr_eq (s : State) (rd : Reg) (v : Word) (b : Bool) :
    (s.commitGpr rd v b).slot = { s.slot with byp := if rd = 0 then none else some ⟨.MEM, rd, v⟩, discard := true } := by
  rw [State.slot_commitGpr, Slot.republish, ite_not]

/-- Settles O12: all three classes end in the one commit of a result. -/
theorem resultCommit : Obligations.ResultCommit := by
  intro i s rd hclass
  have hi : CommitsResult i rd := by
    unfold CommitsResult
    obtain ⟨f, rs1, o, h⟩ | ⟨rs1, imm, ps, h⟩ | ⟨ss, h⟩ := hclass <;> rw [h] <;> rfl
  refine ⟨fun hc => ⟨_, exec_commitResult hi hc, ?_, ?_, ?_⟩, fun hs hoff => ?_⟩
  · exact State.readGpr_commitGpr_same ..
  · exact KeepsRest.commitGpr _ _ _ _ _ (List.mem_singleton_self rd)
  · exact State.slot_commitGpr_eq ..
  · rw [exec_commit hs, shapeCommit_off hoff]

/-! ### The arithmetic functions as numbers (rules R141 to R151) -/

theorem wrap32_eq_toNat (z : Int) : wrap32 z = (BitVec.ofInt 32 z).toNat := by
  rw [wrap32, BitVec.toNat_ofInt]; rfl

theorem AluFn.toNat_fn (f : AluFn) (a b : Word) : (f.fn a b).toNat = aluValue f a b := by
  cases f with
  | add => exact BitVec.toNat_add a b
  | sub => show (a - b).toNat = ((a.toNat - b.toNat : Int) % 4294967296).toNat; rw [BitVec.toNat_sub]; omega
  | xor => exact BitVec.toNat_xor a b
  | sl => show (a <<< (b.toNat % 32)).toNat = _; rw [BitVec.toNat_shiftLeft, Nat.shiftLeft_eq]; rfl
  | sr => show (a >>> (b.toNat % 32)).toNat = _; rw [BitVec.toNat_ushiftRight, Nat.shiftRight_eq_div_pow]; rfl
  | sra =>
    have h : (a.sshiftRight (b.toNat % 32)).toInt = a.toInt / 2 ^ (b.toNat % 32) := by
      rw [BitVec.toInt_sshiftRight, Int.shiftRight_eq_div_pow]; norm_cast
    rw [aluValue, wrap32_eq_toNat, ← h, BitVec.ofInt_toInt]; rfl
  | or => exact BitVec.toNat_or a b
  | and => exact BitVec.toNat_and a b
  | nor => show (~~~(a ||| b)).toNat = _; rw [BitVec.toNat_not, BitVec.toNat_or]; rfl
  | shadd => show (a <<< 1 + b).toNat = _; rw [BitVec.toNat_add, BitVec.toNat_shiftLeft, Nat.shiftLeft_eq, aluValue]; omega
  | shadd2 => show (a <<< 2 + b).toNat = _; rw [BitVec.toNat_add, BitVec.toNat_shiftLeft, Nat.shiftLeft_eq, aluValue]; omega

/-! ### One instruction alone in the pipeline (rule R125) -/

/-- `x` in slot 0 of `st`, nothing else in the pipeline: where `alone` makes its three invocations. -/
def State.onlyIn (s : State) (st : Stage) (x : Slot) : State :=
  { s with
    pipe := (⟨Bundle.empty, Bundle.empty, Bundle.empty, Bundle.empty⟩ : Pipe).set st ⟨x, Slot.bubble⟩
    cur := ⟨st, .s0⟩ }

theorem alone_eq (i : Instr) (x : Slot) (s : State) :
    alone i x s = andThen (exec i (s.onlyIn .DR x)) fun s1 =>
      andThen (exec i (s1.onlyIn .EX s1.slot)) fun s2 => exec i (s2.onlyIn .MW s2.slot) := rfl

@[simp] theorem State.slot_onlyIn (s : State) (st : Stage) (x : Slot) : (s.onlyIn st x).slot = x := by
  cases st <;> rfl

/-- Alone in `EX` an operand is what the decode stage stored: there is no older instruction to bypass it. -/
theorem State.operand_onlyIn_EX (s : State) (x : Slot) (r : Reg) (dr : Word) :
    (s.onlyIn .EX x).operand r dr = if r = 0 then 0 else dr := rfl

theorem State.operand_onlyIn_EX_readGpr (s : State) (x : Slot) (r : Reg) :
    (s.onlyIn .EX x).operand r (s.readGpr r) = s.readGpr r := by
  rw [State.operand_onlyIn_EX]
  split
  · next h => rw [h]; rfl
  · rfl

theorem State.tooSoon_of_gap_zero {s : State} (h : s.params.loadUseGap = 0) (r : Reg) : s.tooSoon r = false := by
  simp [State.tooSoon, h]

@[simp] theorem State.onlyIn_setSlot_onlyIn (s : State) (st sg : Stage) (x y z : Slot) :
    ((s.onlyIn st x).setSlot y).onlyIn sg z = s.onlyIn sg z := rfl

/-- The function of an arithmetic instruction of the committed operands. -/
def aluResult (f : AluFn) (rs1 : Reg) (o : Op2) (s : State) : Word := f.fn (s.readGpr rs1) (o.decodeRead s)

/-- The slot of an arithmetic instruction with a true guard that the decode stage has filled. -/
def aluDecoded (rs1 : Reg) (o : Op2) (s : State) (x : Slot) : Slot :=
  { x with pred := true, drRs1 := s.readGpr rs1, drRs2 := o.decodeRead s }

/-- The same slot when the execute stage has added the result. -/
def aluExecuted (f : AluFn) (rd rs1 : Reg) (o : Op2) (s : State) (x : Slot) : Slot :=
  { aluDecoded rs1 o s x with exResult := aluResult f rs1 o s }.publish rd (aluResult f rs1 o s)

section
variable {i : Instr} {f : AluFn} {rd rs1 : Reg} {o : Op2} (hi : shapeOf i = .alu f rd rs1 o) (x : Slot) (s : State)
include hi

theorem alu_decode_alone (hg : s.predRef (guardOfInstr i) = true) :
    exec i (s.onlyIn .DR x) = .next ((s.onlyIn .DR x).setSlot (aluDecoded rs1 o s x)) := by
  have hp : (s.onlyIn .DR x).predRef (guardOfInstr i) = true := hg
  rw [exec_decode rfl, hi, hp, State.slot_onlyIn]
  cases o <;> rfl

/-- Its operands are those the decode stage stored, so its result is its function of the committed ones. -/
theorem alu_execute_alone (hgap : s.params.loadUseGap = 0) :
    exec i (s.onlyIn .EX (aluDecoded rs1 o s x)) =
      .next ((s.onlyIn .EX (aluDecoded rs1 o s x)).setSlot (aluExecuted f rd rs1 o s x)) := by
  have hrun : Executes (s.onlyIn .EX (aluDecoded rs1 o s x)) (rs1 :: o.srcs) :=
    ⟨rfl, by rw [State.slot_onlyIn]; rfl, fun r _ => State.tooSoon_of_gap_zero hgap r⟩
  have h1 : (s.onlyIn .EX (aluDecoded rs1 o s x)).rs1 rs1 = s.readGpr rs1 := State.operand_onlyIn_EX_readGpr s _ _
  have h2 : o.value (s.onlyIn .EX (aluDecoded rs1 o s x)) = o.decodeRead s := by
    cases o with
    | reg r => exact State.operand_onlyIn_EX_readGpr s (aluDecoded rs1 (.reg r) s x) r
    | imm v => rfl
  rw [exec_execute rfl, hi, shapeExecute, aluExecute, executeSlot_on hrun, h1, h2]
  rfl

/-- The three stages: what is committed is the function of the committed operands. -/
theorem alu_alone (hg : s.predRef (guardOfInstr i) = true) (hd : x.discard = false) (hgap : s.params.loadUseGap = 0) :
    alone i x s =
      .next ((s.onlyIn .MW (aluExecuted f rd rs1 o s x)).commitGpr rd (aluResult f rs1 o s) false) := by
  have hcommits : Commits (s.onlyIn .MW (aluExecuted f rd rs1 o s x)) := ⟨rfl, rfl, hd⟩
  have hresult : CommitsResult i rd := by unfold CommitsResult; rw [hi]; rfl
  rw [alone_eq, alu_decode_alone hi x s hg, andThen_next, State.slot_setSlot, State.onlyIn_setSlot_onlyIn,
    alu_execute_alone hi x s hgap, andThen_next, State.slot_setSlot, State.onlyIn_setSlot_onlyIn,
    exec_commitResult hresult hcommits]
  rfl

end

/-- Settles O13: the state that the commit stage leaves, its value read as a number. -/
theorem aluAlone : Obligations.AluAlone := by
  intro i x s f rd rs1 o hi hguard hd hgap
  have hg : s.predRef (guardOfInstr i) = true := by simpa [State.predRef] using hguard
  refine ⟨_, alu_alone hi x s hg hd hgap, ?_, fun r hr => ?_, fun p => rfl, fun k => rfl⟩
  · rw [State.readGpr_commitGpr_same]
    split
    · rfl
    · exact f.toNat_fn _ _
  · rw [State.commitGpr_readGpr, State.readGpr_writeGpr, if_neg hr]
    rfl

end Sys2Proof.Machine

/-! The bypass network (rules R110 to R114): the first entry for a register in the order of the levels, and the entry
that a commit stage leaves. -/

namespace Sys2Proof.Machine

open Sys2Proof.Config

/-- The value that a slot has published for `r` under a tag. -/
def Slot.published (x : Slot) (tag : BypTag) (r : Reg) : Option Word :=
  ((x.entryOf tag).find? fun e => decide (e.index = r)).map (·.value)

theorem Slot.published_eq_some {x : Slot} {tag : BypTag} {r : Reg} {v : Word} :
    x.published tag r = some v ↔ x.byp = some ⟨tag, r, v⟩ := by
  unfold Slot.published Slot.entryOf
  cases x.byp with
  | none => simp
  | some e =>
    obtain ⟨t, k, w⟩ := e
    by_cases ht : t = tag <;> by_cases hk : k = r <;> simp [ht, hk]

theorem Slot.published_eq_none {x : Slot} {tag : BypTag} {r : Reg} :
    x.published tag r = none ↔ ∀ v, x.byp ≠ some ⟨tag, r, v⟩ := by
  simp only [Option.eq_none_iff_forall_ne_some, ne_eq, Slot.published_eq_some]

/-- The levels in their order: the first that there is, else the value of the decode stage (rule R112). -/
theorem State.operand_eq {s : State} {r : Reg} (h : r ≠ 0) (dr : Word) :
    s.operand r dr =
      ((s.pipe.mw.s1.published .MEM r).or ((s.pipe.mw.s0.published .MEM r).or
        ((s.pipe.mw.s1.published .EXE r).or (s.pipe.mw.s0.published .EXE r)))).getD dr := by
  unfold State.operand State.bypassList Slot.published
  rw [if_neg h, ← Option.map_or, ← Option.map_or, ← Option.map_or, ← List.find?_append, ← List.find?_append,
    ← List.find?_append, List.append_assoc, List.append_assoc]
  split <;> rename_i hf <;> rw [hf] <;> rfl

/-- Settles O40: level by level. -/
theorem bypassPrecedence : Obligations.BypassPrecedence := by
  intro s r dr
  refine ⟨fun h => if_pos h, fun h => ?_⟩
  rw [State.operand_eq h dr]
  simp only [← Slot.published_eq_some, ne_eq, ← Option.eq_none_iff_forall_ne_some]
  refine ⟨fun v h1 => ?_, fun n1 => ⟨fun v h2 => ?_, fun n2 => ⟨fun v h3 => ?_, fun n3 => ⟨fun v h4 => ?_, fun n4 => ?_⟩⟩⟩⟩
  · rw [h1]; rfl
  · rw [n1, h2]; rfl
  · rw [n1, n2, h3]; rfl
  · rw [n1, n2, n3, h4]; rfl
  · rw [n1, n2, n3, n4]; rfl

/-! ### The entry that a commit leaves -/

/-- A commit stage that uses its slot up and has a destination has committed a value to it (rules R108, R202). -/
theorem exec_commits_dest {i : Instr} {s t : State} {rd : Reg} (hrd : destGpr i = some rd) (hc : Commits s)
    (h : exec i s = .next t) (hd : t.slot.discard = true) :
    ∃ v b, t = s.commitGpr rd v b ∨ t = s.dropReply.commitGpr rd v b := by
  obtain ⟨hs, -, hopen⟩ := hc
  have unused {u : State} (hu : u.slot = s.slot) (hut : t = u) : False := by
    rw [hut, hu, hopen] at hd; cases hd
  rw [destGpr_eq] at hrd
  rw [exec_commit hs] at h
  rcases shapeCommit_next h with e | ⟨-, -, result | product | special | load | store | stack | transfer⟩
  · exact (unused rfl e).elim
  · obtain ⟨rd', v, b, hrd', ht⟩ := result
    cases hrd.symm.trans hrd'
    exact ⟨v, b, ht⟩
  · obtain ⟨_, _, _, _, _, e, -⟩ := product; rw [e] at hrd; cases hrd
  · obtain ⟨_, _, _, e, -⟩ := special; rw [e] at hrd; cases hrd
  · obtain ⟨_, _, _, _, _, _, -, e⟩ := load
    exact (unused (u := s.dropReply.stall .MW) rfl e).elim
  · obtain ⟨_, _, _, _, _, e, -⟩ := store; rw [e] at hrd; cases hrd
  · obtain ⟨_, ⟨_, e⟩ | ⟨_, e⟩, -⟩ := stack <;> rw [e] at hrd <;> cases hrd
  · obtain ⟨_, _, e, -⟩ := transfer; rw [e] at hrd; cases hrd

/-- The `MEM` entry of one slot is what the next bundle reads, where the other slot has published nothing for the
register (rules R112, R113). -/
theorem State.operand_of_published {t : State} {rd : Reg} {v : Word} (h0 : rd ≠ 0) (dr : Word) (k : SlotIx)
    (hk : (t.slotAt .MW k).published .MEM rd = some v)
    (hother : ∀ j tag, j ≠ k → (t.slotAt .MW j).published tag rd = none) : t.operand rd dr = v := by
  rw [State.operand_eq h0]
  cases k with
  | s1 =>
    have h1 : t.pipe.mw.s1.published .MEM rd = some v := hk
    rw [h1]; rfl
  | s0 =>
    have h1 : t.pipe.mw.s1.published .MEM rd = none := hother .s1 .MEM nofun
    have h2 : t.pipe.mw.s0.published .MEM rd = some v := hk
    rw [h1, h2]; rfl

theorem State.operand_commitGpr {s : State} {rd : Reg} (h0 : rd ≠ 0) (dr v : Word) (b : Bool) (hs : s.cur.stage = .MW)
    (hother : ∀ k e, k ≠ s.cur.k → (s.slotAt .MW k).byp = some e → e.index ≠ rd) :
    (s.commitGpr rd v b).operand rd dr = (s.commitGpr rd v b).readGpr rd := by
  have hslot : (s.commitGpr rd v b).slotAt .MW s.cur.k = (s.commitGpr rd v b).slot := by rw [← hs]; rfl
  have hrest (j : SlotIx) (hj : j ≠ s.cur.k) : (s.commitGpr rd v b).slotAt .MW j = s.slotAt .MW j :=
    State.slotAt_setSlot_ne _ _ (.inr hj)
  rw [State.readGpr_commitGpr_same, if_neg h0]
  refine State.operand_of_published h0 dr s.cur.k ?_ fun j tag hj => ?_
  · rw [Slot.published_eq_some, hslot, State.slot_commitGpr_eq, if_neg h0]
  · rw [Slot.published_eq_none, hrest j hj]
    exact fun w hw => hother j _ hj hw rfl

/-- Settles O41: the commit leaves the value in the register and in its slot's entry. -/
theorem committedResultIsForwarded : Obligations.CommittedResultIsForwarded := by
  intro i s t rd dr hrd h0 hc h hd hother
  obtain ⟨v, b, rfl | rfl⟩ := exec_commits_dest hrd hc h hd
  · exact State.operand_commitGpr h0 dr v b hc.1 hother
  · exact State.operand_commitGpr (s := s.dropReply) h0 dr v b hc.1 hother

end Sys2Proof.Machine

/-! What the model refuses (rules R113, R242, R301, R397): each test says what the rule says. -/

namespace Sys2Proof.Machine

open Sys2Proof.Config

/-! ### Two writers -/

theorem Bundle.twoWriters_iff {p : Params} {b : Bundle} :
    b.twoWriters p = true ↔
      (∃ r, b.s0.gprTarget = some r ∧ b.s1.gprTarget = some r) ∨
        ∃ q, q ∈ b.s0.predTargets p ∧ q ∈ b.s1.predTargets p := by
  simp only [Bundle.twoWriters, Bool.or_eq_true, Bool.and_eq_true, decide_eq_true_eq, Option.isSome_iff_exists,
    List.any_eq_true, List.contains_iff_mem]
  refine or_congr_left ⟨fun ⟨⟨r, h⟩, e⟩ => ⟨r, h, e ▸ h⟩, fun ⟨r, h, e⟩ => ⟨⟨r, h⟩, h.trans e.symm⟩⟩

theorem twoWriters_iff {s : State} : s.pipe.ex.twoWriters s.params = true ↔ TwoWriters s := by
  simp only [Bundle.twoWriters_iff, Slot.gprTarget_eq_some, Slot.mem_predTargets]
  constructor
  · rintro (⟨r, ⟨i, hi, hpi, h0, di⟩, j, hj, hpj, -, dj⟩ | ⟨q, ⟨i, hi, hpi, wi⟩, j, hj, hpj, wj⟩)
    · exact ⟨i, j, hi, hj, hpi, hpj, .inl ⟨r, h0, di, dj⟩⟩
    · exact ⟨i, j, hi, hj, hpi, hpj, .inr ⟨q, wi, wj⟩⟩
  · rintro ⟨i, j, hi, hj, hpi, hpj, ⟨r, h0, di, dj⟩ | ⟨q, wi, wj⟩⟩
    · exact .inl ⟨r, ⟨i, hi, hpi, h0, di⟩, j, hj, hpj, h0, dj⟩
    · exact .inr ⟨q, ⟨i, hi, hpi, wi⟩, j, hj, hpj, wj⟩

/-! ### Transfers in delay slots -/

/-- Whether a class is a control transfer, and whether it dispatches in `EX` (rule R265). -/
def Shape.dispatches : Shape → Option Bool
  | .branch _ _ => some true
  | .transfer _ _ => some false
  | _ => none

theorem transferOf_eq (i : Instr) : transferOf i = (shapeOf i).dispatches.map (guardOfInstr i, ·) := by
  cases i <;> rfl

theorem Shape.dispatches_ne_none {sh : Shape} :
    sh.dispatches ≠ none ↔ (∃ d dest, sh = .branch d dest) ∨ ∃ kind dest, sh = .transfer kind dest := by
  cases sh <;> simp [Shape.dispatches]

/-- Only the negation of `p0` can never hold (rules R13, R15). -/
theorem guardCanHold_iff {g : PredRef} : guardCanHold g = true ↔ g ≠ ⟨true, 0⟩ := by
  obtain ⟨neg, idx⟩ := g
  cases neg <;> simp [guardCanHold]

theorem Slot.mayTransfer_iff {x : Slot} :
    x.mayTransfer = true ↔
      (∃ i, x.instr = .instr i ∧ guardOfInstr i ≠ ⟨true, 0⟩ ∧
        ((∃ d dest, shapeOf i = .branch d dest) ∨ ∃ kind dest, shapeOf i = .transfer kind dest)) ∨
      (∃ h, x.instr = .intr h) ∨ x.instr = .halt := by
  unfold Slot.mayTransfer
  cases x.instr with
  | bubble => simp
  | intr h => simp
  | halt => simp
  | instr i =>
    simp only [← Shape.dispatches_ne_none, ← guardCanHold_iff, transferOf_eq]
    cases h : (shapeOf i).dispatches <;> simp [h]

theorem Bundle.transferInDelay_iff {b : Bundle} :
    b.transferInDelay = true ↔ ∃ k, (b.get k).inDelay = true ∧ (b.get k).mayTransfer = true := by
  rw [Bundle.transferInDelay, Bool.or_eq_true, Bool.and_eq_true, Bool.and_eq_true]
  refine ⟨fun h => h.elim (⟨.s0, ·⟩) (⟨.s1, ·⟩), fun ⟨k, h⟩ => ?_⟩
  cases k with
  | s0 => exact .inl h
  | s1 => exact .inr h

theorem transferInDelay_iff {s : State} :
    (s.pipe.ex.transferInDelay || s.pipe.dr.transferInDelay || s.pipe.fetch.transferInDelay) = true ↔
      TransferInDelay s := by
  unfold TransferInDelay
  simp only [← Slot.mayTransfer_iff, Bool.or_eq_true, Bundle.transferInDelay_iff]
  constructor
  · rintro ((⟨k, h⟩ | ⟨k, h⟩) | ⟨k, h⟩)
    · exact ⟨.EX, k, nofun, h⟩
    · exact ⟨.DR, k, nofun, h⟩
    · exact ⟨.IF, k, nofun, h⟩
  · rintro ⟨st, k, hst, h⟩
    cases st with
    | IF => exact .inr ⟨k, h⟩
    | DR => exact .inl (.inr ⟨k, h⟩)
    | EX => exact .inl (.inl ⟨k, h⟩)
    | MW => exact absurd rfl hst

/-! ### A use too soon after a load -/

theorem State.tooSoon_iff {s : State} {r : Reg} :
    s.tooSoon r = true ↔ ∃ n, (r, n) ∈ s.loadHist ∧ n < s.params.loadUseGap := by
  simp only [State.tooSoon, List.any_eq_true, Bool.and_eq_true, decide_eq_true_eq]
  exact ⟨fun ⟨⟨_, n⟩, h, e, hn⟩ => ⟨n, e ▸ h, hn⟩, fun ⟨n, h, hn⟩ => ⟨(r, n), h, rfl, hn⟩⟩

theorem dispatchEX_ne_refused (d : Bool) (a : Word) (s : State) (r : Refusal) : dispatchEX d a s ≠ .refused r := by
  unfold dispatchEX
  repeat' split
  all_goals nofun

/-- The execute stage of a class is the guarded shell over the registers it reads, round a body that refuses nothing. -/
theorem shapeExecute_eq (sh : Shape) :
    ∃ body, shapeExecute sh = executeSlot sh.sources body ∧ ∀ s r, body s ≠ .refused r := by
  cases sh with
  | branch d e =>
    cases e <;> exact ⟨_, rfl, fun s r => dispatchEX_ne_refused d _ s r⟩
  | transfer k e =>
    cases e with
    | code n =>
      refine ⟨_, rfl, fun s r => ?_⟩
      dsimp only
      split <;> nofun
    | _ => exact ⟨_, rfl, fun _ _ => nofun⟩
  | _ => exact ⟨_, rfl, fun _ _ => nofun⟩

theorem executeSlot_refused_iff {srcs : List Reg} {body : State → Result} {s : State}
    (hb : ∀ r, body s ≠ .refused r) :
    executeSlot srcs body s = .refused .loadUseGap ↔
      s.slot.pred = true ∧ ∃ r, r ∈ srcs ∧ s.tooSoon r = true := by
  unfold executeSlot
  rw [← List.any_eq_true]
  cases s.slot.pred <;> cases srcs.any s.tooSoon <;> simp [hb]

/-- Settles O46: the three tests. -/
theorem refusedBundles : Obligations.RefusedBundles := by
  intro s
  refine ⟨fun h => if_pos (twoWriters_iff.mpr h), fun h => if_neg (mt twoWriters_iff.mp h),
    fun h => if_pos (transferInDelay_iff.mpr h), fun h => if_neg (mt transferInDelay_iff.mp h),
    fun r => State.tooSoon_iff, fun i hs => ?_⟩
  obtain ⟨body, hbody, hrefuses⟩ := shapeExecute_eq (shapeOf i)
  rw [exec_execute hs, hbody]
  exact executeSlot_refused_iff (hrefuses s)

end Sys2Proof.Machine

/-! One cycle (rules R100, R101, R118): which stage operations a step invokes, and how the cycle ends with a stall and
without. -/

namespace Sys2Proof.Machine

/-! ### What a step invokes -/

theorem step_eq (s : State) :
    step s = andThen (invokeStage .MW { s with stallReq := none }) fun b =>
      andThen (checkDelaySlots b) fun b => andThen (checkWriters b) fun b => andThen (invokeStage .EX b) fun d =>
        andThen (checkDelaySlots d) fun d => andThen (invokeStage .DR d) fun f => andThen (invokeStage .IF f) endCycle := by
  simp only [step, cycle, stageOps, andThen_assoc]

section
variable {s : State} {st : Stage} {k : SlotIx}

theorem invoke_instr {i : Instr} (h : (s.slotAt st k).instr = .instr i) : invoke st k s = exec i (s.atSlot st k) := by
  simp only [invoke, h]

theorem invoke_intr {a : Word} (h : (s.slotAt st k).instr = .intr a) : invoke st k s = intrStages a (s.atSlot st k) := by
  simp only [invoke, h]

theorem invoke_halt (h : (s.slotAt st k).instr = .halt) : invoke st k s = haltStages (s.atSlot st k) := by
  simp only [invoke, h]

theorem invoke_bubble (h : (s.slotAt st k).instr = .bubble) : invoke st k s = .next s := by
  simp only [invoke, h]

end

theorem stageOp_fetch {d e c : State → Result} {s : State} (h : s.cur.stage = .IF) : stageOp d e c s = .next s := by
  simp only [stageOp, h]

/-- Settles O45: the stages of a step, each its two slots. -/
theorem stepInvokesSlots : Obligations.StepInvokesSlots := by
  refine ⟨fun s => ?_, fun _ _ _ _ => invoke_instr, fun _ _ _ _ => invoke_intr, fun _ _ _ => invoke_halt,
    fun _ _ _ => invoke_bubble, fun s hs => ⟨fun i => exec_fetch hs, fun a => stageOp_fetch hs, stageOp_fetch hs⟩⟩
  simp only [step_eq, invokeStage, andThen_assoc]

/-! ### The end of a cycle -/

theorem step_of_stageOps {s u : State} (h : stageOps s = .next u) : step s = endCycle u := by
  rw [step, cycle, h, andThen_next]

theorem finishCycle_eq (s : State) :
    finishCycle s = { s with
      cycle := s.cycle + 1
      cur := ⟨.IF, .s0⟩
      mc := { s.mc with stallCycles := if s.mc.state = .idle then s.mc.stallCycles else s.mc.stallCycles + 1 } } := by
  unfold finishCycle mcTick
  split <;> rfl

theorem endCycle_stalled {u : State} (h : u.stallReq = some .MW) : endCycle u = .next (finishCycle u) := by
  simp only [endCycle, h]
  rfl

theorem endCycle_unstalled {u : State} (h : u.stallReq = none) :
    endCycle u = andThen (fetchStep (advance u)) fun v => .next (finishCycle v) := by
  simp only [endCycle, h]

/-- Settles O50: a stall of `MW` holds every stage, so only the end of the cycle is left. -/
theorem stallHoldsPipeline : Obligations.StallHoldsPipeline := by
  intro s u hu hstall
  rw [step_of_stageOps hu, endCycle_stalled hstall, finishCycle_eq]

/-- What the advance of the bundles and the fetch step leave: every bundle one stage on, the rest as it was
(rules R100, R101). -/
theorem fetchStep_advance_keeps {u v : State} (h : fetchStep (advance u) = .next v) :
    v.pipe.mw = u.pipe.ex ∧ v.pipe.ex = u.pipe.dr ∧ v.pipe.dr = u.pipe.fetch ∧ v.gpr = u.gpr ∧
      v.preds = u.preds ∧ v.spr = u.spr ∧ v.mem = u.mem ∧ v.frames = u.frames ∧ v.base = u.base := by
  obtain ⟨e, b, ir, m, pc, npc, rfl, -⟩ := fetchStep_keeps h
  unfold advance
  split <;> exact ⟨rfl, rfl, rfl, rfl, rfl, rfl, rfl, rfl, rfl⟩

/-- Settles O51: the fetch step where the bundles have moved on; the end of the cycle touches none of it. -/
theorem advanceMovesBundles : Obligations.AdvanceMovesBundles := by
  intro s u t hu hstall ht
  rw [step_of_stageOps hu, endCycle_unstalled hstall] at ht
  obtain ⟨v, hv, e⟩ := andThen_eq_next ht
  cases e
  obtain ⟨hmw, hex, hdr, hgpr, hpreds, hspr, hmem, hframes, hbase⟩ := fetchStep_advance_keeps hv
  rw [finishCycle_eq]
  exact ⟨hmw, hex, hdr, hgpr, hpreds, hspr, hmem, hframes, hbase, v, hv, (finishCycle_eq v).symm,
    rfl, rfl, rfl, rfl, rfl⟩

end Sys2Proof.Machine

/-! The dispatch sequence in `MW`, for every kind of transfer (rules R268, R270 to R275): the state in which it has begun,
the one in which it waits, the one in which it is done, and where it stops. Interrupt entry is one of the kinds. -/

namespace Sys2Proof.Machine

open Sys2Proof.Config

/-- The state in which the residency call of a transfer is made: flushed, and the one-time block done (rule R268). -/
def begunState (kind : TransferKind) (s : State) : State :=
  transferOnce (kind.record s.params) (preFlush (kind.record s.params) s)

section
variable {kind : TransferKind} {s : State}

/-! ### The transfer has begun -/

@[simp] theorem preFlush_readSpr (t : Transfer) (k : SReg) : (preFlush t s).readSpr k = s.readSpr k := by
  rw [preFlush_eq]; rfl

@[simp] theorem preFlush_frames (t : Transfer) : (preFlush t s).frames = s.frames := by rw [preFlush_eq]

@[simp] theorem preFlush_profile (t : Transfer) : (preFlush t s).profile = s.profile := by rw [preFlush_eq]

@[simp] theorem preFlush_npc (t : Transfer) : (preFlush t s).npc = s.npc := by rw [preFlush_eq]

@[simp] theorem preFlush_exc (t : Transfer) : (preFlush t s).exc = s.exc := by rw [preFlush_eq]

@[simp] theorem preFlush_cur (t : Transfer) : (preFlush t s).cur = s.cur := by rw [preFlush_eq]

@[simp] theorem preFlush_params (t : Transfer) : (preFlush t s).params = s.params := by rw [preFlush_eq]

@[simp] theorem preFlush_mc (t : Transfer) : (preFlush t s).mc = s.mc := by rw [preFlush_eq]

@[simp] theorem preFlush_replies (t : Transfer) : (preFlush t s).replies = s.replies := by rw [preFlush_eq]

@[simp] theorem preFlush_mem (t : Transfer) : (preFlush t s).mem = s.mem := by rw [preFlush_eq]

@[simp] theorem saveReturn_mem (t : Transfer) : (saveReturn t s).mem = s.mem := by
  unfold saveReturn
  repeat' split
  all_goals rfl

@[simp] theorem transferOnce_mem (t : Transfer) : (transferOnce t s).mem = s.mem := by
  unfold transferOnce
  split
  · rfl
  · dsimp only; split <;> simp

theorem TransferKind.record_switchesOff (kind : TransferKind) (p : Params) :
    (kind.record p).switchesOff = true ↔ kind = .trap := by
  cases kind <;> simp [record, callTransfer, fillTransferOf, retTransfer]

theorem TransferKind.record_switchesOn (kind : TransferKind) (p : Params) :
    (kind.record p).switchesOn = true ↔ ∃ d, kind = .xret d := by
  cases kind <;> simp [record, callTransfer, fillTransferOf, retTransfer]

theorem mem_allSprs (k : SReg) : k ∈ ([0, 1, 2, 3, 4, 5, 6, 7, 8, 9, 10, 11, 12, 13, 14, 15] : List SReg) := by
  revert k; decide

/-- The cache looks at nothing that the flush and the one-time block change. -/
theorem sameCache_begunState : SameCache s (begunState kind s) := by
  refine ⟨?_, ?_, ?_, ?_⟩ <;> simp [begunState]

theorem begunState_keeps (w : Touch) (hs : ∀ k, k ∈ w.sprs) (hf : w.frames = true) (hi : w.intrEnabled = true)
    (ho : w.otherSlots = true) : KeepsRest w s (begunState kind s) :=
  (KeepsRest.preFlush _ s w ho).trans (.transferOnce _ _ w (fun _ _ _ => ⟨hs _, hs _⟩) hf hi)

theorem begunState_savedOnce (hs : s.cur.stage = .MW) (hi : s.slot.initialized = false) :
    SavedOnce kind s (begunState kind s) := by
  have hslot := preFlush_slot (t := kind.record s.params) hs
  have hret : returnAddress (kind.record s.params) (preFlush (kind.record s.params) s) = kind.returnAddress s := by
    simp [returnAddress, TransferKind.returnAddress, hslot]
  refine ⟨fun rb ro hp => ?_, fun hp => ?_⟩
  · have := transferOnce_saves (t := kind.record s.params) (s := preFlush (kind.record s.params) s)
      ((kind.record_saves _).trans hp) (by rw [hslot]; exact hi)
    simpa [begunState, hslot, hret] using this
  · have := transferOnce_nosaves (t := kind.record s.params) (s := preFlush (kind.record s.params) s)
      ((kind.record_saves _).trans hp) (by rw [hslot]; exact hi)
    simpa [begunState] using this

theorem begunState_later (hs : s.cur.stage = .MW) (hi : s.slot.initialized = true) :
    begunState kind s = preFlush (kind.record s.params) s :=
  transferOnce_later (by rw [preFlush_slot hs]; exact hi)

theorem begunState_slot (hs : s.cur.stage = .MW) :
    (begunState kind s).slot = { s.slot with initialized := true } := by
  rw [begunState, transferOnce_slot, preFlush_slot hs]

theorem begunState_waitingSlots (hs : s.cur.stage = .MW) : WaitingSlots kind.delayed s (begunState kind s) := by
  intro st k hk
  have hk' : ¬ IsCurrent (preFlush (kind.record s.params) s) st k := by simpa [IsCurrent] using hk
  rw [begunState, transferOnce_slotAt _ _ hk', preFlush_slotAt, TransferKind.record_delayed, hs]

theorem begunState_intrEnabled (hs : s.cur.stage = .MW) :
    (begunState kind s).exc.intrEnabled =
      (match kind with
       | .trap => if s.slot.initialized then s.exc.intrEnabled else false
       | _ => s.exc.intrEnabled) := by
  have hslot := preFlush_slot (t := kind.record s.params) hs
  rw [begunState, transferOnce_exc, hslot]
  cases kind <;> cases s.slot.initialized <;> simp [TransferKind.record_switchesOff]

/-- The flush and the one-time block begin the transfer. -/
theorem transferBegun (w : Touch) (hs : s.cur.stage = .MW) : TransferBegun w kind s (begunState kind s) := by
  refine ⟨fun hi => ?_, begunState_savedOnce hs, begunState_keeps _ mem_allSprs rfl rfl rfl, ?_,
    begunState_intrEnabled hs, begunState_waitingSlots hs, begunState_slot hs⟩
  · rw [begunState_later hs hi]; simp
  · have hkeeps : KeepsRest _ s (begunState kind s) := begunState_keeps
      { sprs := [0, 1, 2, 3, 4, 5, 6, 7, 8, 9, 10, 11, 12, 13, 14, 15], frames := true, intrEnabled := true,
        otherSlots := true } mem_allSprs rfl rfl rfl
    obtain ⟨-, -, -, -, -, -, -, -, hreplies, -⟩ := hkeeps
    exact (hreplies rfl).2

/-! ### The transfer waits or is done -/

/-- What has begun reads special registers, frames and profile only. -/
theorem SavedOnce.congr {t u : State} (h : SavedOnce kind s t) (hspr : u.spr = t.spr) (hf : u.frames = t.frames)
    (hp : u.profile = t.profile) : SavedOnce kind s u := by
  unfold SavedOnce State.readSpr at h ⊢
  rw [hspr, hf, hp]
  exact h

section
variable (hs : s.cur.stage = .MW) (hg : GoodTarget s)
include hs hg

theorem dispatchMW_of_raised {f : Fault} (h : ensureResident s.slot.exBase (begunState kind s) = .raised f) :
    dispatchMW (kind.record s.params) s = .fault f := by
  rw [dispatchMW_good hs hg]
  unfold begunState at h
  rw [h]

theorem dispatchMW_of_refused {r : Refusal} (h : ensureResident s.slot.exBase (begunState kind s) = .refused r) :
    dispatchMW (kind.record s.params) s = .refused r := by
  rw [dispatchMW_good hs hg]
  unfold begunState at h
  rw [h]

theorem dispatchMW_of_wait {u : State} (h : ensureResident s.slot.exBase (begunState kind s) = .wait u) :
    dispatchMW (kind.record s.params) s = .next (u.stall .MW) := by
  rw [dispatchMW_good hs hg]
  unfold begunState at h
  rw [h]

theorem dispatchMW_of_resident {u : State} (h : ensureResident s.slot.exBase (begunState kind s) = .resident u) :
    dispatchMW (kind.record s.params) s = .next (completeTransfer (kind.record s.params) u) := by
  rw [dispatchMW_good hs hg]
  unfold begunState at h
  rw [h]

/-- The residency call answers false: the transfer waits (rule R271). -/
theorem dispatchMW_waits {m : MethodCache} {rs : List Reply}
    (h : ensureResident s.slot.exBase s = .wait { s with mc := m, replies := rs }) :
    ∃ t, dispatchMW (kind.record s.params) s = .next t ∧ TransferWaits kind s t ∧ t.mc = m ∧ t.replies = rs := by
  have hcall := (ensureResident_congr (sameCache_begunState (kind := kind))).2 h
  refine ⟨_, dispatchMW_of_wait hs hg hcall, ⟨State.stall_stallReq_mw _, ?_⟩, rfl, rfl⟩
  obtain ⟨hlater, hfirst, hkeeps, hrest⟩ :=
    transferBegun (kind := kind) { methodCache := true, answers := true, stall := true } hs
  have hcache : OnlyCache (begunState kind s) { begunState kind s with mc := m, replies := rs } := ⟨m, rs, rfl⟩
  exact ⟨hlater, hfirst, (hkeeps.trans (hcache.keeps rfl rfl)).trans (KeepsRest.stall _ _ _ rfl), hrest⟩

end

/-- The slots beside the invoked one when the completion follows the beginning: flushed, or marked as delay slots
(rules R271, R301). -/
theorem transferSlots_of_waiting {u : State} (hs : s.cur.stage = .MW) (hcur : u.cur = s.cur) (hp : u.params = s.params)
    (h : WaitingSlots kind.delayed s u) :
    TransferSlots kind.delayed s.params.dsCall s (completeTransfer (kind.record s.params) u) := by
  intro st k hk
  have hk' : ¬ IsCurrent u st k := by rwa [IsCurrent, hcur]
  rw [completeTransfer_slotAt hk', h st k hk, TransferKind.record_delayed, hs, hp]
  rw [show Stage.MW.rank = 3 from rfl]
  cases kind.delayed
  · simp
  · by_cases hup : st.rank < 3 <;> by_cases hin : 3 ≤ st.rank + s.params.dsCall <;> simp [hup, hin, Slot.markDelay]

theorem completeTransfer_readSpr (t : Transfer) (k : SReg) : (completeTransfer t s).readSpr k = s.readSpr k := by
  obtain ⟨-, -, -, hspr, -⟩ := completeTransfer_fields t s
  simp only [State.readSpr, hspr]

theorem OnlyCache.slot {t : State} (h : OnlyCache s t) : t.slot = s.slot := by
  obtain ⟨m, rs, rfl⟩ := h; rfl

theorem OnlyCache.cur {t : State} (h : OnlyCache s t) : t.cur = s.cur := by
  obtain ⟨m, rs, rfl⟩ := h; rfl

/-- The completion of a transfer that has begun, once its function is resident. -/
theorem transferDone_of_begun {u : State} (hs : s.cur.stage = .MW) (hu : OnlyCache (begunState kind s) u) :
    TransferDone kind s (completeTransfer (kind.record s.params) u) := by
  obtain ⟨hlater, hfirst, hkeeps, hstack, hintr, hwaiting, hslot⟩ :=
    transferBegun (kind := kind) { control := true, methodCache := true, answers := true } hs
  have hcur : (begunState kind s).cur = s.cur := by simp [begunState]
  have hparams : (begunState kind s).params = s.params := sameCache_begunState.1
  obtain ⟨hbase, hnpc, -, hspr, hframes, hprofile, hexc⟩ := completeTransfer_fields (kind.record s.params) u
  have hcomplete {w : Touch} (hc : w.control = true) (ho : w.otherSlots = true) (hi : w.intrEnabled = true) :
      KeepsRest w u (completeTransfer (kind.record s.params) u) := .completeTransfer _ u w hc ho (.inl hi)
  have hcached := hkeeps.trans (hu.keeps rfl rfl)
  have huslot := hu.slot.trans hslot
  have hucur := hu.cur.trans hcur
  obtain ⟨m, rs, rfl⟩ := hu
  refine ⟨by rw [hbase, huslot], by rw [hnpc, huslot], fun hi => ?_,
    fun hi => (hfirst hi).congr hspr hframes hprofile, hcached.trans (hcomplete rfl rfl rfl), ?_, ?_,
    transferSlots_of_waiting hs hcur hparams hwaiting, ?_⟩
  · obtain ⟨h1, h2, h3⟩ := hlater hi
    exact ⟨fun k => (completeTransfer_readSpr _ k).trans (h1 k), hframes.trans h2, hprofile.trans h3⟩
  · have hanswers := hcomplete (w := { control := true, otherSlots := true, intrEnabled := true }) rfl rfl rfl
    obtain ⟨-, -, -, -, -, -, -, -, hanswers, -⟩ := hanswers
    exact (hanswers rfl).2.trans hstack
  · rw [hexc]
    by_cases hx : ∃ d, kind = .xret d
    · rw [if_pos ((kind.record_switchesOn _).mpr hx)]
      obtain ⟨d, rfl⟩ := hx
      rfl
    · rw [if_neg (mt (kind.record_switchesOn _).mp hx)]
      refine hintr.trans ?_
      cases kind <;> first | rfl | exact absurd ⟨_, rfl⟩ hx
  · rw [completeTransfer_slot (by rw [hucur]; exact hs), huslot]

/-- The residency call answers true: the transfer takes effect (rules R268, R270). -/
theorem dispatchMW_completes {m : MethodCache} {rs : List Reply} (hs : s.cur.stage = .MW) (hg : GoodTarget s)
    (h : ensureResident s.slot.exBase s = .resident { s with mc := m, replies := rs }) :
    ∃ t, dispatchMW (kind.record s.params) s = .next t ∧ TransferDone kind s t ∧ t.mc = m ∧ t.replies = rs := by
  have hcall := (ensureResident_congr (sameCache_begunState (kind := kind))).1 h
  obtain ⟨-, -, hmc, -⟩ :=
    completeTransfer_fields (kind.record s.params) { begunState kind s with mc := m, replies := rs }
  have hkeeps := KeepsRest.completeTransfer (kind.record s.params) { begunState kind s with mc := m, replies := rs }
    { control := true, otherSlots := true, intrEnabled := true } rfl rfl (.inl rfl)
  obtain ⟨-, -, -, -, -, -, -, -, hanswers, -⟩ := hkeeps
  exact ⟨_, dispatchMW_of_resident hs hg hcall, transferDone_of_begun hs ⟨m, rs, rfl⟩, hmc, (hanswers rfl).1⟩

/-! ### Where the transfer stops -/

theorem dispatchMW_of_checkTarget {t : Transfer} {f : Fault} (h : checkTarget t (preFlush t s) = some f) :
    dispatchMW t s = .fault f := by
  rw [dispatchMW_eq, h]

section
variable {t : Transfer}

/-- Address 0 as the base of a transfer that is no return (rule R272). -/
theorem checkTarget_halt (h0 : s.slot.exBase = 0) (hr : t.isReturn = false) : checkTarget t s = some (haltFault s) := by
  simp only [checkTarget, h0, hr, if_true, if_false, Bool.false_eq_true]

/-- A misaligned target is the one reported (rule R273). -/
theorem checkTarget_target (h0 : s.slot.exBase ≠ 0) (h4 : s.slot.exTarget.toNat % 4 ≠ 0) :
    checkTarget t s = some (.unaligned s.slot.exTarget s) := by
  unfold checkTarget
  dsimp only
  rw [if_neg h0]
  simp [aligned4, h4]

theorem checkTarget_base (h0 : s.slot.exBase ≠ 0) (h4 : s.slot.exTarget.toNat % 4 = 0)
    (hb : s.slot.exBase.toNat % 4 ≠ 0) : checkTarget t s = some (.unaligned s.slot.exBase s) := by
  unfold checkTarget
  dsimp only
  rw [if_neg h0]
  simp [aligned4, h4, hb]

end

/-- Settles O38: interrupt entry is the dispatch sequence of its kind. -/
theorem interruptEntry : Obligations.InterruptEntry := by
  intro h s
  refine ⟨fun hs => ?_, fun hx => ?_, fun hc hg => ⟨fun hit => ?_, fun m rs hr => ?_, fun m rs hw => ?_, ?_⟩, fun hc => ?_⟩
  · simp only [intrStages, stageOp, hs]; rfl
  · simp only [intrStages, stageOp, hx.1, entryExecute, executeSlot_on hx]; rfl
  all_goals rw [intrStages_commit hc]
  · obtain ⟨m, hm, hactive, hhits, hmisses, -⟩ := ensureResident_hit hit
    obtain ⟨t, ht, hdone, hmc, hreplies⟩ := dispatchMW_completes (kind := .intr) (rs := s.replies) hc.1 hg hm
    exact ⟨t, ht, hdone, hreplies, hmc ▸ hactive, hmc ▸ hhits, hmc ▸ hmisses⟩
  · exact dispatchMW_completes hc.1 hg hr
  · exact dispatchMW_waits hc.1 hg hw
  · exact ⟨begunState .intr s, transferBegun {} hc.1, fun f => dispatchMW_of_raised hc.1 hg,
      fun r => dispatchMW_of_refused hc.1 hg⟩
  · have hslot := preFlush_slot (t := TransferKind.intr.record s.params) hc.1
    refine ⟨preFlush (TransferKind.intr.record s.params) s, .preFlush _ _ _ rfl, hslot, fun h0 => ?_, fun h0 h4 => ?_,
      fun h0 h4 hb => ?_⟩
    · rw [← hslot] at h0
      exact dispatchMW_of_checkTarget (checkTarget_halt h0 rfl)
    · rw [← hslot] at h0 h4 ⊢
      exact dispatchMW_of_checkTarget (checkTarget_target h0 h4)
    · rw [← hslot] at h0 h4 hb ⊢
      exact dispatchMW_of_checkTarget (checkTarget_base h0 h4 hb)

end

end Sys2Proof.Machine

/-! An instruction placed at reset (rules R100, R101, R383): the fetch of the placed words and of the empty memory behind
them, and the step that runs the decode stage of what stands in `DR`. -/

namespace Sys2Proof.Machine

open Sys2Proof.Config

/-! ### The placed words -/

theorem tableWord0_pair (w v : Word) : tableWord0 64 (w.toNat + 4294967296 * v.toNat) = w := by
  apply BitVec.eq_of_toNat_eq
  rw [tableWord0, BitVec.toNat_ofNat]
  omega

theorem tableWord1_pair (w v : Word) : tableWord1 64 (w.toNat + 4294967296 * v.toNat) = v := by
  apply BitVec.eq_of_toNat_eq
  rw [tableWord1, BitVec.toNat_ofNat]
  omega

/-- Main memory with an instruction's two words placed at the reset vector. -/
def placedMemory (w v : Word) : Memory :=
  State.reset.mem.main.writeBytes State.reset.npc (tableBytes .big 64 (w.toNat + 4294967296 * v.toNat))

theorem read_placedMemory (w v a : Word) :
    (placedMemory w v).read a =
      ((tableBytes .big 64 (w.toNat + 4294967296 * v.toNat))[(a - State.reset.npc).toNat]?).getD 0 :=
  Memory.read_writeBytes State.reset.npc a _ (by simp [tableBytes]) (Mems.wf_get State.reset_mem_wf .mainMem)

section
variable (w v : Word)

theorem load_placedMemory_first : (placedMemory w v).load .big .word false 0x1000 = w := by
  rw [Memory.load_word]
  simp only [read_placedMemory]
  exact (wordOfBytes_byteOfWord .big _).trans (tableWord0_pair w v)

theorem load_placedMemory_second : (placedMemory w v).load .big .word false 0x1004 = v := by
  rw [Memory.load_word]
  simp only [read_placedMemory]
  exact (wordOfBytes_byteOfWord .big _).trans (tableWord1_pair w v)

/-- Behind the two words memory is empty. -/
theorem load_placedMemory_behind {a : Word} (h : 0x1008 ≤ a.toNat) (ha : a.toNat + 4 ≤ 4294967296) :
    (placedMemory w v).load .big .word false a = 0 := by
  have zero (k : Word) (hk : k.toNat < 4) : (placedMemory w v).read (a + k) = 0 := by
    rw [read_placedMemory, List.getElem?_eq_none]
    · rfl
    · show 8 ≤ (a + k - 0x1000#32).toNat
      bv_omega
  have zero0 : (placedMemory w v).read a = 0 := by simpa using zero 0 (by decide)
  rw [Memory.load_word, zero0, zero 1 (by decide), zero 2 (by decide), zero 3 (by decide)]
  rfl

end

/-! ### Fetching at reset -/

theorem isBacked_wholeSpace (a : Word) : isBacked wholeSpace a = true := by
  have := a.isLt
  simp [isBacked, wholeSpace]
  omega

theorem peekWord_default {s : State} {a : Word} (hp : s.params = .default) (ha : a.toNat % 4 = 0) :
    peekWord s a = .ok (s.mem.main.load .big .word false a) := by
  have hb (b : Word) : isBacked (backedRegions s.params .mainMem) b = true := by rw [hp]; exact isBacked_wholeSpace b
  rw [peekWord, peek, accessFault_none ha fun b _ => hb b, hp]
  rfl

/-- The entry of the reset state has no word to mark. -/
theorem markRead_reset {s : State} (hmc : s.mc = State.reset.mc) (a : Word) : markRead a s = s := by
  have hword (e : McEntry) (he : e.blocks = 0) (b : Word) : markWord s.params e b = e := by
    rw [markWord, he, if_neg (by omega)]
  have hentries : (s.mc.entries.map fun e =>
      if e.addr = s.mc.active then markWord s.params (markWord s.params e a) (a + 4) else e) = s.mc.entries := by
    have hone : s.mc.entries = [⟨0x1000, 0, 0, 0⟩] := by rw [hmc]; rfl
    rw [hone, List.map_singleton, hword ⟨0x1000, 0, 0, 0⟩ rfl, hword ⟨0x1000, 0, 0, 0⟩ rfl, ite_self]
  rw [markRead, hentries]
  rfl

/-- A fetch within the slack behind the reset vector, on the method cache of reset (rules R101, R330). -/
theorem fetchBundle_reset {s : State} {a w0 w1 : Word} {f : Fetched} (hp : s.params = .default)
    (hmc : s.mc = State.reset.mc) (hpc : s.pc = a) (h4 : a.toNat % 4 = 0) (hlo : 0x1000 ≤ a.toNat)
    (hhi : a.toNat < 0x1018) (h0 : s.mem.main.load .big .word false a = w0)
    (h1 : s.mem.main.load .big .word false (a + 4) = w1) (hd : decodeBundle true w0 w1 = .ok f) :
    fetchBundle s = .next (issueBundle s f) := by
  have hbounds : InFetchBounds s a := by
    refine ⟨fun e => ?_, .inr ⟨⟨0x1000, 0, 0, 0⟩, ⟨[], [], by rw [hmc]; rfl, by rw [hmc]; rfl, nofun⟩, hlo, ?_⟩⟩
    · rw [e] at hlo; exact absurd hlo (by decide)
    · rw [hp]; exact hhi
  have hfits : FitsBelowTop a w0 := by unfold FitsBelowTop; split <;> omega
  have h4' : (a + 4).toNat % 4 = 0 := by bv_omega
  have hf := mcFetch_of (aligned4_iff.mpr h4) (fetchInBounds_iff.mpr hbounds)
    ((peekWord_default hp h4).trans (congrArg _ h0)) (fetchWraps_eq_false.mpr hfits)
    ((peekWord_default hp h4').trans (congrArg _ h1))
  rw [markRead_reset hmc] at hf
  have hdual : s.params.dualIssue = true := by rw [hp]; rfl
  simp only [fetchBundle, hpc, hf, hdual, hd]

/-- The instruction that a word of empty memory stands for. -/
def emptyInstr : Instr := .addI ⟨false, 0⟩ 0 0 0

theorem decodeBundle_empty : decodeBundle true 0 0 = .ok ⟨emptyInstr, none, 4⟩ := rfl

section
variable {w v : Word} {i : Instr} {len : Nat} (hlen : len = 4 ∨ len = 8) (hshort : len = 4 → v = 0)
include hlen hshort

/-- Behind the placed instruction every word is 0. -/
theorem load_behind_instr {a : Word} (hlo : 0x1000 + len ≤ a.toNat) (h4 : a.toNat % 4 = 0)
    (htop : a.toNat + 4 ≤ 4294967296) : (placedMemory w v).load .big .word false a = 0 := by
  by_cases ha : a = 0x1004
  · rw [ha] at hlo ⊢
    rw [load_placedMemory_second, hshort (hlen.resolve_right fun h => absurd hlo (by rw [h]; decide))]
  · refine load_placedMemory_behind w v ?_ htop
    have : a.toNat ≠ 0x1004 := fun h => ha (BitVec.eq_of_toNat_eq h)
    omega

theorem fetchBundle_behind_instr {s : State} {a : Word} (hp : s.params = .default) (hmc : s.mc = State.reset.mc)
    (hmem : s.mem.main = placedMemory w v) (hpc : s.pc = a) (h4 : a.toNat % 4 = 0) (hlo : 0x1000 + len ≤ a.toNat)
    (hhi : a.toNat < 0x1018) : fetchBundle s = .next (issueBundle s ⟨emptyInstr, none, 4⟩) := by
  refine fetchBundle_reset hp hmc hpc h4 (by omega) hhi ?_ ?_ decodeBundle_empty
  · rw [hmem]
    exact load_behind_instr hlen hshort hlo h4 (by omega)
  · rw [hmem]
    exact load_behind_instr hlen hshort (by bv_omega) (by bv_omega) (by bv_omega)

end

/-! ### The state that `withFetchWord` makes -/

theorem withFetchWord_of_fetches {s first second : State} {nbits n : Nat}
    (h1 : fetchBundle (takeNpc (s.poke s.npc (tableBytes s.params.endian nbits n))) = .next first)
    (h2 : fetchBundle (takeNpc (moveToDecode first)) = .next second) : s.withFetchWord nbits n = second := by
  simp only [State.withFetchWord, h1, h2]

/-- The placed instruction, fetched from the reset vector. -/
def placedInIF (w v : Word) (i : Instr) (len : Nat) : State :=
  issueBundle (takeNpc (State.reset.poke State.reset.npc (tableBytes .big 64 (w.toNat + 4294967296 * v.toNat))))
    ⟨i, none, len⟩

/-- The placed instruction in `DR`, the empty memory behind it fetched. -/
def placedInDR (w v : Word) (i : Instr) (len : Nat) : State :=
  issueBundle (takeNpc (moveToDecode (placedInIF w v i len))) ⟨emptyInstr, none, 4⟩

theorem withFetchWord_eq_placedInDR {w v : Word} {i : Instr} {len : Nat} (hlen : len = 4 ∨ len = 8)
    (hshort : len = 4 → v = 0) (hd : decodeBundle true w v = .ok ⟨i, none, len⟩) :
    State.reset.withFetchWord 64 (w.toNat + 4294967296 * v.toNat) = placedInDR w v i len := by
  refine withFetchWord_of_fetches (first := placedInIF w v i len) ?_ ?_
  · exact fetchBundle_reset (a := 0x1000) rfl rfl rfl (by decide) (by decide) (by decide)
      (load_placedMemory_first w v) (load_placedMemory_second w v) hd
  · obtain rfl | rfl := hlen
    · exact fetchBundle_behind_instr (a := 0x1004) (.inl rfl) hshort rfl rfl rfl rfl (by decide) (by decide) (by decide)
    · exact fetchBundle_behind_instr (a := 0x1008) (.inr rfl) hshort rfl rfl rfl rfl (by decide) (by decide) (by decide)

/-! ### The step that decodes it -/

theorem invokeStage_empty {st : Stage} {s : State} (h : s.pipe.get st = Bundle.empty) : invokeStage st s = .next s := by
  have hslot (k : SlotIx) : (s.slotAt st k).instr = .bubble := by rw [State.slotAt, h]; cases k <;> rfl
  rw [invokeStage, invoke_bubble (hslot .s0), andThen_next, invoke_bubble (hslot .s1)]

theorem checkDelaySlots_of_unmarked {s : State} (h : ∀ st k, (s.slotAt st k).inDelay = false) :
    checkDelaySlots s = .next s := by
  refine if_neg (mt transferInDelay_iff.mp ?_)
  rintro ⟨st, k, -, hmark, -⟩
  rw [h] at hmark
  cases hmark

/-- The state after the decode stage of `i` in slot 0 of `DR` (rule R104). -/
def State.decodedDR (s : State) (i : Instr) : State :=
  (s.atSlot .DR .s0).setSlot
    (decodedSlot (shapeOf i) s { s.slotAt .DR .s0 with pred := s.predRef (guardOfInstr i) })

theorem exec_decodedDR (i : Instr) (s : State) : exec i (s.atSlot .DR .s0) = .next (s.decodedDR i) := exec_decode rfl

theorem State.slotAt_decodedDR (s : State) (i : Instr) {st : Stage} {k : SlotIx} (h : st ≠ .DR ∨ k ≠ .s0) :
    (s.decodedDR i).slotAt st k = s.slotAt st k :=
  State.slotAt_setSlot_ne _ _ h

theorem State.slotAt_decodedDR_instr (s : State) (i : Instr) :
    ((s.decodedDR i).slotAt .DR .s0).instr = (s.slotAt .DR .s0).instr :=
  (decodedSlot_instr_byp _ _ _).1

/-- The stage operations of a pipeline with one instruction in `DR`, one in `IF` and nothing older: the decode stage of the
one (rule R100). -/
theorem stageOps_decode_only {s : State} {i j : Instr} (hstall : s.stallReq = none)
    (hmw : s.pipe.get .MW = Bundle.empty) (hex : s.pipe.get .EX = Bundle.empty)
    (hdr : (s.slotAt .DR .s0).instr = .instr i) (hdr1 : (s.slotAt .DR .s1).instr = .bubble)
    (hif : (s.slotAt .IF .s0).instr = .instr j) (hif1 : (s.slotAt .IF .s1).instr = .bubble)
    (hmark : ∀ st k, (s.slotAt st k).inDelay = false) : stageOps s = .next ((s.decodedDR i).atSlot .IF .s0) := by
  have hs : { s with stallReq := none } = s := by rw [← hstall]
  have hwriters : checkWriters s = .next s := by
    refine if_neg (mt twoWriters_iff.mp ?_)
    rintro ⟨a, -, ha, -⟩
    have hempty : s.pipe.ex = Bundle.empty := hex
    rw [hempty] at ha
    cases ha
  have hdecode : invokeStage .DR s = .next (s.decodedDR i) := by
    have h1 : ((s.decodedDR i).slotAt .DR .s1).instr = .bubble := by
      rw [State.slotAt_decodedDR s i (.inr SlotIx.noConfusion), hdr1]
    rw [invokeStage, invoke_instr hdr, exec_decodedDR, andThen_next, invoke_bubble h1]
  have hfetch : invokeStage .IF (s.decodedDR i) = .next ((s.decodedDR i).atSlot .IF .s0) := by
    have h0 : ((s.decodedDR i).slotAt .IF .s0).instr = .instr j := by
      rw [State.slotAt_decodedDR s i (.inl Stage.noConfusion), hif]
    have h1 : (((s.decodedDR i).atSlot .IF .s0).slotAt .IF .s1).instr = .bubble := by
      rw [State.slotAt_atSlot, State.slotAt_decodedDR s i (.inl Stage.noConfusion), hif1]
    rw [invokeStage, invoke_instr h0, exec_fetch rfl, andThen_next, invoke_bubble h1]
  rw [stageOps, hs, invokeStage_empty hmw, andThen_next, checkDelaySlots_of_unmarked hmark, andThen_next, hwriters,
    andThen_next, invokeStage_empty hex, andThen_next, checkDelaySlots_of_unmarked hmark, andThen_next, hdecode,
    andThen_next, hfetch]

/-- Without events and without a pending interrupt the fetch step fetches (rule R365). -/
theorem fetchStep_quiet {s : State} (ha : s.exc.arrivals = []) (hp : s.exc.pending = none) :
    fetchStep s = fetchBundle (takeNpc s) := by
  have hdraw : drawIrq s = s := by rw [drawIrq, ha]
  have hnone : irqToInject (drawIrq s) = none := by rw [hdraw, irqToInject, hp, ite_self]
  rw [fetchStep_none hnone, hdraw]

/-- The length of an instruction that stands alone in its bundle, and what stands in its second word. -/
theorem decodeBundle_of_encode {i : Instr} {w : Word} {rest : List Word} (h : encode i = some (w :: rest)) :
    ∃ len, (len = 4 ∨ len = 8) ∧ (len = 4 → rest.headD 0 = 0) ∧
      decodeBundle true w (rest.headD 0) = .ok ⟨i, none, len⟩ := by
  have hwf : i.wf = true := by_contra fun hn => by
    rw [encode_of_not_wf (by simpa using hn)] at h
    cases h
  rw [encode_of_wf hwf] at h
  cases h
  refine ⟨_, ?_, fun h4 => ?_, encodeExt_headD i 0 ▸ decodeBundle_encode_alone hwf 0⟩
  · rw [encodeExt_length]
    split
    · exact .inr rfl
    · exact .inl rfl
  · rw [List.eq_nil_of_length_eq_zero (by omega : (encodeExt i).toList.length = 0)]
    rfl

/-- The placed instruction decoded and moved to `EX`, where the empty memory behind is fetched once more. -/
def placedInEX (w v : Word) (i : Instr) (len : Nat) : State :=
  takeNpc (advance (((placedInDR w v i len).decodedDR i).atSlot .IF .s0))

theorem step_placedInDR {w v : Word} {i : Instr} {len : Nat} (hlen : len = 4 ∨ len = 8) (hshort : len = 4 → v = 0) :
    step (placedInDR w v i len) =
      .next (finishCycle (issueBundle (placedInEX w v i len) ⟨emptyInstr, none, 4⟩)) := by
  have hops : stageOps (placedInDR w v i len) = .next (((placedInDR w v i len).decodedDR i).atSlot .IF .s0) :=
    stageOps_decode_only (j := emptyInstr) rfl rfl rfl rfl rfl rfl rfl fun st k => by cases st <;> cases k <;> rfl
  have hquiet : fetchStep (advance (((placedInDR w v i len).decodedDR i).atSlot .IF .s0)) =
      fetchBundle (placedInEX w v i len) := fetchStep_quiet rfl rfl
  have hfetch : fetchBundle (placedInEX w v i len) =
      .next (issueBundle (placedInEX w v i len) ⟨emptyInstr, none, 4⟩) := by
    obtain rfl | rfl := hlen
    · exact fetchBundle_behind_instr (a := 0x1008) (.inl rfl) hshort rfl rfl rfl rfl (by decide) (by decide) (by decide)
    · exact fetchBundle_behind_instr (a := 0x100C) (.inr rfl) hshort rfl rfl rfl rfl (by decide) (by decide) (by decide)
  rw [step_of_stageOps hops, endCycle_unstalled rfl, hquiet, hfetch, andThen_next]

/-- Settles O49: the state that `withFetchWord` makes, and the step from it. -/
theorem placedWordIsFetched : Obligations.PlacedWordIsFetched := by
  rintro i w rest s henc rfl
  obtain ⟨len, hlen, hshort, hdec⟩ := decodeBundle_of_encode henc
  rw [withFetchWord_eq_placedInDR hlen hshort hdec]
  have hex : (finishCycle (issueBundle (placedInEX w (rest.headD 0) i len) ⟨emptyInstr, none, 4⟩)).slotAt .EX .s0 =
      ((placedInDR w (rest.headD 0) i len).decodedDR i).slotAt .DR .s0 := by
    rw [finishCycle_eq]
    rfl
  refine ⟨rfl, rfl, fun k => by cases k <;> exact ⟨rfl, rfl⟩, _, _, exec_decodedDR _ _, step_placedInDR hlen hshort, hex,
    ?_, ?_⟩
  · rw [hex, State.slotAt_decodedDR_instr]
    rfl
  · rw [finishCycle_cycle]
    rfl

end Sys2Proof.Machine

/-! The execute stage of the arithmetic class (rules R107, R110, R140 to R151): what storing and publishing a result does
to the slot, and the functions as numbers. -/

namespace Sys2Proof.Machine

open Sys2Proof.Config

/-- Under a true guard an `EXE` entry is published, except for `r0` (rules R107, R110). -/
theorem Slot.publish_of_pred {x : Slot} (hp : x.pred = true) (rd : Reg) (v : Word) :
    x.publish rd v = { x with byp := if rd = 0 then none else some ⟨.EXE, rd, v⟩ } := by
  simp [Slot.publish, hp]

theorem State.slot_withResult_of_pred {s : State} (hp : s.slot.pred = true) (rd : Reg) (v : Word) :
    (s.withResult rd v).slot =
      { s.slot with exResult := v, byp := if rd = 0 then none else some ⟨.EXE, rd, v⟩ } := by
  rw [State.slot_withResult]
  exact Slot.publish_of_pred (x := { s.slot with exResult := v }) hp rd v

theorem onlySlot_setSlot (s : State) (x : Slot) : OnlySlot s (s.setSlot x) := by
  rw [OnlySlot, State.slot_setSlot]

theorem onlySlot_withResult (s : State) (rd : Reg) (v : Word) : OnlySlot s (s.withResult rd v) :=
  onlySlot_setSlot s _

/-- The execute stage of an arithmetic instruction stores its function of the two operands (rules R107, R140). -/
theorem exec_alu_execute {i : Instr} {s : State} {f : AluFn} {rd rs1 : Reg} {o : Op2}
    (hi : shapeOf i = .alu f rd rs1 o) (hrun : Executes s (rs1 :: o.srcs)) :
    exec i s = .next (s.withResult rd (f.fn (s.rs1 rs1) (o.value s))) := by
  rw [exec_execute hrun.1, hi, shapeExecute, aluExecute, executeSlot_on hrun]

end Sys2Proof.Machine

namespace Sys2Proof

open Machine

/-- Settles O11: the stored result, read as a number by `AluFn.toNat_fn`. -/
theorem aluExecute : Obligations.AluExecute := by
  intro i s f rd rs1 o hi hrun
  have ⟨_, hpred, _⟩ := hrun
  have hslot := State.slot_withResult_of_pred hpred rd (f.fn (s.rs1 rs1) (o.value s))
  refine ⟨_, exec_alu_execute hi hrun, onlySlot_withResult .., ?_, ?_⟩
  · rw [hslot]
    exact f.toNat_fn _ _
  · rw [hslot]

end Sys2Proof

/-! The multiply class (rules R160 to R162): the product as a number, the two halves of `ex_result`, and their commit to
`SL` and `SH`. -/

namespace Sys2Proof.Machine

open Sys2Proof.Config

/-! ### The product -/

/-- The high and the low word of a 64-bit value make it up. -/
theorem toNat_high_low_words (p : BitVec 64) :
    (p.extractLsb' 32 32).toNat * 4294967296 + (p.extractLsb' 0 32).toNat = p.toNat := by
  simp only [BitVec.extractLsb'_toNat, Nat.shiftRight_eq_div_pow]
  omega

theorem toNat_productSigned (a b : Word) : (productSigned a b).toNat = productValue true a b :=
  BitVec.toNat_ofInt (a.toInt * b.toInt)

/-- The product of two words is below `2^64`, so nothing of it is lost (rule R162). -/
theorem toNat_productUnsigned (a b : Word) : (productUnsigned a b).toNat = productValue false a b := by
  have hlt : a.toNat * b.toNat < 2 ^ 32 * 2 ^ 32 := Nat.mul_lt_mul'' a.isLt b.isLt
  exact (BitVec.toNat_ofNat _ 64).trans (Nat.mod_eq_of_lt (by simpa using hlt))

/-- The product function of `mul` (signed) and of `mulu`, as `shapeExecute` selects it. -/
theorem toNat_product (signed : Bool) (a b : Word) :
    ((if signed then productSigned else productUnsigned) a b).toNat = productValue signed a b := by
  cases signed with
  | true => exact toNat_productSigned a b
  | false => exact toNat_productUnsigned a b

/-! ### The two stages -/

/-- The state with a 64-bit product in the invoked slot (rule R160, `execute_stage`). -/
def State.withProduct (s : State) (p : BitVec 64) : State :=
  s.setSlot { s.slot with exResult := p.extractLsb' 0 32, exResultHi := p.extractLsb' 32 32 }

theorem State.slot_withProduct (s : State) (p : BitVec 64) :
    (s.withProduct p).slot = { s.slot with exResult := p.extractLsb' 0 32, exResultHi := p.extractLsb' 32 32 } :=
  s.slot_setSlot _

theorem exec_mul_execute {i : Instr} {s : State} {signed : Bool} {rs1 rs2 : Reg} (hi : shapeOf i = .mul signed rs1 rs2)
    (hrun : Executes s [rs1, rs2]) :
    exec i s =
      .next (s.withProduct ((if signed then productSigned else productUnsigned) (s.rs1 rs1) (s.rs2 rs2))) := by
  rw [exec_execute hrun.1, hi, shapeExecute, mulExecute, executeSlot_on hrun, State.withProduct]

/-- The state after a multiply has committed its two words (rule R160, `commit_stage`). -/
def State.commitProduct (s : State) : State :=
  ((s.writeSpr s.params.sl s.slot.exResult).writeSpr s.params.sh s.slot.exResultHi).done

theorem exec_mul_commit {i : Instr} {s : State} {signed : Bool} {rs1 rs2 : Reg} (hi : shapeOf i = .mul signed rs1 rs2)
    (h : Commits s) : exec i s = .next s.commitProduct := by
  rw [exec_commit h.1, hi, shapeCommit, mulCommit, commitSlot_on h, State.commitProduct]

/-- The high word is written last: it stays where `SL` and `SH` are one register. -/
theorem State.readSpr_commitProduct (s : State) (k : SReg) :
    s.commitProduct.readSpr k =
      if k = s.params.sh then s.slot.exResultHi else if k = s.params.sl then s.slot.exResult else s.readSpr k := by
  rw [State.commitProduct, State.readSpr_done, State.readSpr_writeSpr, State.readSpr_writeSpr]

theorem State.slot_commitProduct (s : State) : s.commitProduct.slot = { s.slot with discard := true } :=
  State.slot_done _

theorem KeepsRest.commitProduct (s : State) (w : Touch) (hl : s.params.sl ∈ w.sprs) (hh : s.params.sh ∈ w.sprs) :
    KeepsRest w s s.commitProduct :=
  ((KeepsRest.writeSpr s w _ _ hl).trans (.writeSpr _ w _ _ hh)).trans (.setSlot _ w _)

end Sys2Proof.Machine

namespace Sys2Proof

open Machine

/-- Settles O14: the two stored words make up the product, which `toNat_product` reads as a number. -/
theorem multiplyExecute : Obligations.MultiplyExecute := by
  intro i s signed rs1 rs2 hi hrun
  refine ⟨_, exec_mul_execute hi hrun, onlySlot_setSlot s _, ?_, ?_⟩
  · rw [State.slot_withProduct]
    exact (toNat_high_low_words _).trans (toNat_product signed _ _)
  · rw [State.slot_withProduct]

/-- Settles O15: the two writes and their frame. -/
theorem multiplyCommit : Obligations.MultiplyCommit := by
  intro i s signed rs1 rs2 hi h
  refine ⟨_, exec_mul_commit hi h, ?_, fun hne => ?_, .commitProduct s _ (by simp) (by simp), s.slot_commitProduct⟩
  · rw [State.readSpr_commitProduct, if_pos rfl]
  · rw [State.readSpr_commitProduct, if_neg hne, if_pos rfl]

end Sys2Proof

/-! The compare class, predicate logic and `bcopy` (rules R165 to R182): the functions as relations, and the one write of
a predicate that the execute stage of the first two makes. -/

namespace Sys2Proof.Machine

/-! ### The functions as relations -/

/-- Bit `n` of a word, as rule R172 computes it. -/
theorem getLsbD_eq_true_iff (a : Word) (n : Nat) : a.getLsbD n = true ↔ a.toNat / 2 ^ n % 2 = 1 := by
  rw [← BitVec.testBit_toNat, Nat.testBit_eq_decide_div_mod_eq, decide_eq_true_iff]

/-- The compare functions of the model are the relations of rules R166 to R172. -/
theorem CmpFn.fn_eq_true_iff (f : CmpFn) (a b : Word) : f.fn a b = true ↔ CmpHolds f a b := by
  cases f with
  | eq => exact decide_eq_true_iff.trans BitVec.toNat_inj.symm
  | neq => exact decide_eq_true_iff.trans (not_congr BitVec.toNat_inj.symm)
  | lt | le | ult | ule => exact decide_eq_true_iff
  | bit => exact getLsbD_eq_true_iff a _

/-- The predicate functions of the model are the relations of rules R176 to R178. -/
theorem PlogFn.fn_eq_true_iff (f : PlogFn) (x y : Bool) : f.fn x y = true ↔ PlogHolds f x y := by
  cases f with
  | or => exact Bool.or_eq_true_iff
  | and => exact Bool.and_eq_true_iff
  | xor => exact bne_iff_ne

/-! ### The write of a predicate -/

theorem State.readPred_writePred_same {pd : PReg} (hpd : pd ≠ 0) (s : State) (b : Bool) :
    (s.writePred pd b).readPred pd = b := by
  rw [State.readPred_writePred, if_pos rfl, if_neg hpd]

/-- The execute stage of a compare writes its relation of the two operands to `pd` (rule R165). -/
theorem exec_cmp_execute {i : Instr} {s : State} {f : CmpFn} {pd : PReg} {rs1 : Reg} {o : Op2}
    (hi : shapeOf i = .cmp f pd rs1 o) (hrun : Executes s (rs1 :: o.srcs)) :
    exec i s = .next (s.writePred pd (f.fn (s.rs1 rs1) (o.value s))) := by
  rw [exec_execute hrun.1, hi, shapeExecute, cmpExecute, executeSlot_on hrun]

/-- The execute stage of predicate logic writes its function of the two stored operands to `pd` (rule R175). -/
theorem exec_plog_execute {i : Instr} {s : State} {f : PlogFn} {pd : PReg} {ps1 ps2 : PredRef}
    (hi : shapeOf i = .plog f pd ps1 ps2) (hrun : Executes s []) :
    exec i s = .next (s.writePred pd (f.fn s.slot.drPs1 s.slot.drPs2)) := by
  rw [exec_execute hrun.1, hi, shapeExecute, executeSlot_on hrun]

/-! ### The insertion of a bit -/

theorem insertBit_eq_placeBit (a : Word) (n : Nat) (b : Bool) :
    insertBit a n b = (a &&& ~~~(placeBit true n)) ||| placeBit b n := rfl

/-- Bit `n` is cleared and then set to `b`; no other bit is touched (rule R182). -/
theorem bitAt_insertBit (a : Word) {n k : Nat} (b : Bool) (hk : k < 32) :
    bitAt (insertBit a n b) k = if k = n then b else bitAt a k := by
  have hclear : bitAt (a &&& ~~~(placeBit true n)) k = (bitAt a k && !bitAt (placeBit true n) k) := by
    simp [bitAt, hk]
  rw [insertBit_eq_placeBit, bitAt_or, hclear]
  by_cases h : k = n
  · subst h
    simp [bitAt_placeBit_same _ k hk]
  · simp [h, bitAt_placeBit_apart _ n k h]

/-- The execute stage of `bcopy` stores `rs1` with the bit inserted (rule R182). -/
theorem exec_bcopy_execute {i : Instr} {s : State} {rd rs1 : Reg} {imm : Nat} {ps : PredRef}
    (hi : shapeOf i = .bcopy rd rs1 imm ps) (hrun : Executes s [rs1]) :
    exec i s = .next (s.withResult rd (insertBit (s.rs1 rs1) imm s.slot.drPs1)) := by
  rw [exec_execute hrun.1, hi, shapeExecute, executeSlot_on hrun]

end Sys2Proof.Machine

namespace Sys2Proof

open Machine

/-- Settles O16: the one write of a predicate, its value read as a relation by `CmpFn.fn_eq_true_iff`. -/
theorem compareExecute : Obligations.CompareExecute := by
  intro i s f pd rs1 o hi hrun
  refine ⟨_, exec_cmp_execute hi hrun, fun hpd => ?_, rfl, .writePred _ _ _ _ (List.mem_singleton_self pd),
    State.slot_writePred ..⟩
  rw [State.readPred_writePred_same hpd]
  exact f.fn_eq_true_iff _ _

/-- Settles O17: the same write; a write to `p0` gives the state as it was. -/
theorem predicateLogicExecute : Obligations.PredicateLogicExecute := by
  refine fun i s => ⟨fun f pd ps1 ps2 hi hrun => ?_, fun f rs1 o hi hrun => ?_⟩
  · refine ⟨_, exec_plog_execute hi hrun, fun hpd => ?_, fun hpd => ?_, rfl,
      .writePred _ _ _ _ (List.mem_singleton_self pd), State.slot_writePred ..⟩
    · rw [State.readPred_writePred_same hpd]
      exact f.fn_eq_true_iff _ _
    · rw [hpd]
      exact State.writePred_zero ..
  · rw [exec_cmp_execute hi hrun]
    exact congrArg Host.Outcome.next (State.writePred_zero ..)

/-- Settles O18: the commit body of both shapes has no effect. -/
theorem nothingLeftToCommit : Obligations.NothingLeftToCommit := by
  intro i s hclass hs
  rw [exec_commit hs]
  obtain ⟨f, pd, rs1, o, hi⟩ | ⟨f, pd, ps1, ps2, hi⟩ := hclass <;> rw [hi] <;> rfl

/-- Settles O19: decode by the slot of the shape, execute bit by bit, commit by `resultCommit`. -/
theorem bitInsertExecute : Obligations.BitInsertExecute := by
  intro i s rd rs1 imm ps hi _
  refine ⟨fun hs => ?_, fun hrun => ?_, fun hc => ?_⟩
  · rw [exec_decode hs, hi]
    rfl
  · have ⟨_, hpred, _⟩ := hrun
    have hslot := State.slot_withResult_of_pred hpred rd (insertBit (s.rs1 rs1) imm s.slot.drPs1)
    refine ⟨_, exec_bcopy_execute hi hrun, onlySlot_withResult .., fun k hk => ?_, ?_⟩
    · rw [hslot]
      exact bitAt_insertBit _ _ hk
    · rw [hslot]
  · exact (resultCommit i s rd (.inr (.inl ⟨rs1, imm, ps, hi⟩))).1 hc

end Sys2Proof

/-! The special-register moves (rules R190 to R195): the predicate file as one word and its bulk write, what `mts`
writes in either case of its index, and the stages of `mts` and `mfs`. -/

namespace Sys2Proof.Machine

open Sys2Proof.Config

/-! ### The predicate file as one word -/

/-- The packed word is built up bit by bit, `p7` first, so that `p0` comes to stand lowest (rule R194). -/
theorem State.packedPreds_eq_concat (s : State) :
    s.packedPreds =
      ((((((((0#24).concat (s.readPred 7)).concat (s.readPred 6)).concat (s.readPred 5)).concat (s.readPred 4)).concat
        (s.readPred 3)).concat (s.readPred 2)).concat (s.readPred 1)).concat (s.readPred 0) := rfl

theorem State.getLsbD_packedPreds (s : State) (k : PReg) : s.packedPreds.getLsbD k.toNat = s.readPred k := by
  rw [State.packedPreds_eq_concat]
  match k with
  | 0 | 1 | 2 | 3 | 4 | 5 | 6 | 7 => simp

theorem State.getLsbD_packedPreds_of_le (s : State) {n : Nat} (h : 8 ≤ n) : s.packedPreds.getLsbD n = false := by
  obtain ⟨m, rfl⟩ := Nat.exists_eq_add_of_le' h
  simp only [State.packedPreds_eq_concat, BitVec.getLsbD_concat_succ, BitVec.getLsbD_zero]

/-- A bulk write gives every predicate but `p0` its bit of the word (rule R191). -/
theorem State.readPred_bulkPreds (s : State) (v : Word) (k : PReg) :
    (s.bulkPreds v).readPred k = if k = 0 then true else v.getLsbD k.toNat := by
  match k with
  | 0 | 1 | 2 | 3 | 4 | 5 | 6 | 7 => rfl

/-! ### The write of a special register -/

theorem isPredAlias_iff {p : Params} {i : SReg} : isPredAlias p i = true ↔ i = p.sprPred ∨ p.predAlias2 = some i := by
  rw [isPredAlias, Bool.or_eq_true, decide_eq_true_iff, decide_eq_true_iff]

theorem State.writeSpecial_of_alias {s : State} {i : SReg} (h : isPredAlias s.params i = true) (v : Word) :
    s.writeSpecial i v = s.bulkPreds v := by
  rw [State.writeSpecial, if_pos h, if_pos h]
  rfl

theorem State.writeSpecial_of_not_alias {s : State} {i : SReg} (h : ¬ isPredAlias s.params i = true) (v : Word) :
    s.writeSpecial i v = s.writeSpr i v := by
  rw [State.writeSpecial, if_neg h, if_neg h]
  rfl

/-! ### The stages -/

/-- The execute stage of `mts` stores its source operand and publishes nothing (rule R190). -/
theorem exec_mts_execute {i : Instr} {s : State} {sd : SReg} {rs1 : Reg} (hi : shapeOf i = .mts sd rs1)
    (hrun : Executes s [rs1]) : exec i s = .next (s.setSlot { s.slot with exResult := s.rs1 rs1 }) := by
  rw [exec_execute hrun.1, hi, shapeExecute, executeSlot_on hrun]

/-- The commit stage of `mts` writes the stored operand (rules R190, R191). -/
theorem exec_mts_commit {i : Instr} {s : State} {sd : SReg} {rs1 : Reg} (hi : shapeOf i = .mts sd rs1) (h : Commits s) :
    exec i s = .next (s.writeSpecial sd s.slot.exResult).done := by
  rw [exec_commit h.1, hi, shapeCommit, commitSlot_on h]

/-- The execute stage of `mfs` publishes the value that decode read (rule R193). -/
theorem exec_mfs_execute {i : Instr} {s : State} {rd : Reg} {ss : SReg} (hi : shapeOf i = .mfs rd ss)
    (hrun : Executes s []) : exec i s = .next (s.withResult rd s.slot.drSs) := by
  rw [exec_execute hrun.1, hi, shapeExecute, executeSlot_on hrun]

theorem State.withResult_of_pred {s : State} (hp : s.slot.pred = true) (rd : Reg) (v : Word) :
    s.withResult rd v =
      s.setSlot { s.slot with exResult := v, byp := if rd = 0 then none else some ⟨.EXE, rd, v⟩ } :=
  (onlySlot_withResult s rd v).trans (congrArg s.setSlot (State.slot_withResult_of_pred hp rd v))

end Sys2Proof.Machine

namespace Sys2Proof

open Machine

/-- Settles O20: the commit stage by the case of the index, a bulk write of the predicates or one special register. -/
theorem moveToSpecial : Obligations.MoveToSpecial := by
  intro i s sd rs1 hi
  refine ⟨fun hs => ?_, exec_mts_execute hi, fun hc halias => ?_, fun hc hfirst hsecond => ?_⟩
  · rw [exec_decode hs, hi]
    rfl
  · have ha := isPredAlias_iff.mpr halias
    have hwrite := State.writeSpecial_of_alias ha s.slot.exResult
    refine ⟨_, exec_mts_commit hi hc, fun p hp => ?_, rfl, ?_, State.slot_done _⟩
    · rw [State.readPred_done, hwrite, State.readPred_bulkPreds, if_neg hp]
    · exact (KeepsRest.writeSpecial s _ sd _ (fun _ => by decide) fun hn => nomatch ha.symm.trans hn).trans
        (.setSlot _ _ _)
  · have ha := mt isPredAlias_iff.mp (not_or.mpr ⟨hfirst, hsecond⟩)
    have hwrite := State.writeSpecial_of_not_alias ha s.slot.exResult
    refine ⟨_, exec_mts_commit hi hc, ?_, ?_, State.slot_done _⟩
    · rw [State.readSpr_done, hwrite, State.readSpr_writeSpr, if_pos rfl]
    · exact (KeepsRest.writeSpecial s _ sd _ (fun h => absurd h ha) fun _ => List.mem_singleton_self sd).trans
        (.setSlot _ _ _)

/-- Settles O21: decode by the alias test of the index, then the result published and committed by `resultCommit`. -/
theorem moveFromSpecial : Obligations.MoveFromSpecial := by
  intro i s rd ss hi
  refine ⟨fun hs => ?_, fun hrun => ?_, fun hc => ?_⟩
  · rw [exec_decode hs, hi]
    simp only [decodedSlot, isPredAlias_iff]
    rfl
  · have ⟨_, hpred, _⟩ := hrun
    rw [exec_mfs_execute hi hrun, State.withResult_of_pred hpred]
  · exact (resultCommit i s rd (.inr (.inr ⟨ss, hi⟩))).1 hc

/-- Settles O22: every bit of the packed word, and what a bulk write of it gives each predicate. -/
theorem packedPredicates : Obligations.PackedPredicates := by
  intro s u
  refine ⟨s.getLsbD_packedPreds, fun n => s.getLsbD_packedPreds_of_le, s.getLsbD_packedPreds 0, fun k => ?_⟩
  rw [State.readPred_bulkPreds]
  by_cases h0 : k = 0
  · rw [if_pos h0, h0]
    rfl
  · rw [if_neg h0]
    exact s.getLsbD_packedPreds k

end Sys2Proof

/-! The execute stage of loads and stores (rules R201 to R203): the effective address as an integer modulo `2^32`, and
the one write of the slot. -/

namespace Sys2Proof.Machine

/-! ### The effective address -/

/-- Sum and product of words are those of the integers taken modulo `2^32` (rules R6, R201). -/
theorem effAddr_eq_ofInt (a : Word) (imm : Int) (w : Width) :
    effAddr a imm w = BitVec.ofInt 32 (a.toNat + imm * w.bytes) := by
  rw [BitVec.ofInt_add, BitVec.ofInt_mul, BitVec.ofInt_natCast, BitVec.ofInt_natCast, BitVec.ofNat_toNat,
    BitVec.setWidth_eq]
  rfl

theorem toNat_effAddr (a : Word) (imm : Int) (w : Width) :
    (effAddr a imm w).toNat = wrap32 (a.toNat + imm * w.bytes) := by
  rw [effAddr_eq_ofInt, wrap32_eq_toNat]

/-! ### The execute stage -/

/-- The execute stage of a load stores its effective address only (rule R202). -/
theorem exec_load_execute {i : Instr} {s : State} {area : Area} {w : Width} {signed : Bool} {rd ra : Reg} {imm : Int}
    (hi : shapeOf i = .load area w signed rd ra imm) (hrun : Executes s [ra]) :
    exec i s = .next (s.setSlot { s.slot with exAddress := effAddr (s.rs1 ra) imm w }) := by
  rw [exec_execute hrun.1, hi, shapeExecute, executeSlot_on hrun]

/-- The execute stage of a store keeps its value operand beside the effective address (rule R203). -/
theorem exec_store_execute {i : Instr} {s : State} {area : Area} {w : Width} {ra rs : Reg} {imm : Int}
    (hi : shapeOf i = .store area w ra rs imm) (hrun : Executes s [ra, rs]) :
    exec i s =
      .next (s.setSlot { s.slot with exAddress := effAddr (s.rs1 ra) imm w, exResult := s.rs2 rs }) := by
  rw [exec_execute hrun.1, hi, shapeExecute, executeSlot_on hrun]

end Sys2Proof.Machine

namespace Sys2Proof

open Machine

/-- Settles O23: the one write of the slot by either class, the stored address read as a number by `toNat_effAddr`. -/
theorem addressExecute : Obligations.AddressExecute := by
  intro i s
  constructor
  · intro area w signed rd ra imm hi hrun
    refine ⟨_, exec_load_execute hi hrun, onlySlot_setSlot s _, ?_, ?_⟩
    · rw [State.slot_setSlot]
      exact toNat_effAddr ..
    · rw [State.slot_setSlot]
  · intro area w ra rs imm hi hrun
    refine ⟨_, exec_store_execute hi hrun, onlySlot_setSlot s _, ?_, ?_⟩
    · rw [State.slot_setSlot]
      exact toNat_effAddr ..
    · rw [State.slot_setSlot]

end Sys2Proof

/-! Stack control (rules R49, R250, R251): the byte count of the execute stage, the pointers that the expected behaviour of
the stack cache asks for, and the commit stage where no answer of the collaborator is given. -/

namespace Sys2Proof.Machine

open Sys2Proof.Config

/-! ### The execute stage -/

/-- An immediate of 18 bits counts words without wrapping (rules R85, R250). -/
theorem toNat_stackBytes {imm : Nat} (h : imm < 262144) : (stackBytes imm).toNat = 4 * imm := by
  have hfour : (4 : Word).toNat = 4 := rfl
  rw [stackBytes, BitVec.toNat_mul, toNat_zextImm (by omega), hfour]
  omega

theorem exec_stackI_execute {i : Instr} {s : State} {op : StackOp} {imm : Nat} (hi : shapeOf i = .stackI op imm)
    (hrun : Executes s []) : exec i s = .next (s.setSlot { s.slot with exResult := stackBytes imm }) := by
  rw [exec_execute hrun.1, hi, shapeExecute, executeSlot_on hrun]

theorem exec_stackR_execute {i : Instr} {s : State} {op : StackOp} {rs : Reg} (hi : shapeOf i = .stackR op rs)
    (hrun : Executes s [rs]) : exec i s = .next (s.setSlot { s.slot with exResult := s.rs1 rs }) := by
  rw [exec_execute hrun.1, hi, shapeExecute, executeSlot_on hrun]

/-! ### The pointers asked for -/

section
variable {size : Nat} {n ss st : Word}

theorem stackPlan_reserve_st : (stackPlan size .reserve n ss st).st = st - n := by
  simp only [stackPlan]
  split <;> rfl

theorem stackPlan_reserve_ss_of_le (h : (ss - (st - n)).toNat ≤ size) : (stackPlan size .reserve n ss st).ss = ss := by
  rw [stackPlan, if_neg (Nat.not_lt.mpr h)]

/-- What no longer fits is cut off at the top: the content is the whole capacity. -/
theorem stackPlan_reserve_held_of_lt (hsize : size < 4294967296) (h : size < (ss - (st - n)).toNat) :
    ((stackPlan size .reserve n ss st).ss - (st - n)).toNat = size := by
  rw [stackPlan, if_pos h, BitVec.add_comm, BitVec.add_sub_cancel, BitVec.toNat_ofNat, Nat.mod_eq_of_lt hsize]

theorem stackPlan_ensure_st : (stackPlan size .ensure n ss st).st = st := by
  simp only [stackPlan]
  split <;> rfl

theorem stackPlan_ensure_ss_of_le (h : n.toNat ≤ (ss - st).toNat) : (stackPlan size .ensure n ss st).ss = ss := by
  rw [stackPlan, if_neg (Nat.not_lt.mpr h)]

theorem stackPlan_ensure_held_of_lt (h : (ss - st).toNat < n.toNat) : (stackPlan size .ensure n ss st).ss - st = n := by
  rw [stackPlan, if_pos h, BitVec.add_comm, BitVec.add_sub_cancel]

theorem stackPlan_free_st : (stackPlan size .free n ss st).st = st + n := by
  simp only [stackPlan]
  split <;> rfl

theorem stackPlan_free_ss :
    (stackPlan size .free n ss st).ss = if ss.toNat < (st + n).toNat then st + n else ss := by
  simp only [stackPlan]
  split <;> rfl

/-! ### The bytes to move -/

/-- Every range moved begins at a word, where the pointers, the count and the capacity are words. -/
theorem stackPlan_lo_aligned (op : StackOp) (hsize : size % 4 = 0) (hss : ss.toNat % 4 = 0) (hst : st.toNat % 4 = 0)
    (hn : n.toNat % 4 = 0) : (stackPlan size op n ss st).lo.toNat % 4 = 0 := by
  cases op with
  | reserve =>
    simp only [stackPlan]
    split
    · rw [BitVec.toNat_add, BitVec.toNat_sub, BitVec.toNat_ofNat]
      omega
    · exact hss
  | ensure =>
    simp only [stackPlan]
    split <;> exact hss
  | free =>
    simp only [stackPlan]
    split <;> exact hss
  | spill =>
    rw [stackPlan, BitVec.toNat_sub]
    omega

end

section
variable {s : State} (hown : s.params.stackCfg.own = false) (hback : s.params.mainBacked = wholeSpace)
include hown hback

/-- A stack area that shows main memory has no bytes of its own to move (rule R251). -/
theorem moveStack_view {lo : Word} (hlo : lo.toNat % 4 = 0) (dir : StackMove) (k : Nat) :
    moveStack s dir lo k = .done () s := by
  have hall : firstUnbacked s.params.mainBacked lo k = none := by
    rw [hback]
    exact firstUnbacked_eq_none.mpr fun j _ => isBacked_wholeSpace _
  simp [moveStack, aligned4_iff.mpr hlo, hall, ownArea, hown]

/-- With no answer listed, a call within the capacity is done at once, with the pointers of the plan (rule R251). -/
theorem stackCtl_view {op : StackOp} {n ss st : Word} (hr : s.stackReplies = []) (h0 : n ≠ 0)
    (hfit : n.toNat ≤ s.params.stackCacheBytes)
    (hlo : (stackPlan s.params.stackCacheBytes op n ss st).lo.toNat % 4 = 0) :
    stackCtl s op n ss st = .done ((stackPlan s.params.stackCacheBytes op n ss st).ss,
      (stackPlan s.params.stackCacheBytes op n ss st).st) s := by
  simp only [stackCtl, hr, stackDefault, if_neg h0, if_neg (Nat.not_lt.mpr hfit), moveStack_view hown hback hlo]

end

/-- A count of 0 leaves the pointers as they are (rule R258). -/
theorem stackCtl_zero {s : State} {op : StackOp} {n ss st : Word} (hr : s.stackReplies = []) (h0 : n = 0) :
    stackCtl s op n ss st = .done (ss, st) s := by
  rw [stackCtl, hr]
  exact if_pos h0

/-! ### The commit stage -/

/-- Where the call leaves the state alone, stack control writes the two pointers it answers and is done (rule R250). -/
theorem exec_stack_writes {i : Instr} {s : State} {op : StackOp} {p q : Word} (hi : (shapeOf i).IsStack op)
    (hc : Commits s) (hne : s.params.ss ≠ s.params.st)
    (h : stackCtl s op s.slot.exResult (s.readSpr s.params.ss) (s.readSpr s.params.st) = .done (p, q) s) :
    ∃ t, exec i s = .next t ∧ KeepsRest { sprs := [s.params.ss, s.params.st] } s t ∧
      t.slot = { s.slot with discard := true } ∧ t.readSpr s.params.ss = p ∧ t.readSpr s.params.st = q := by
  refine ⟨_, exec_stack_done hi hc h,
    ((KeepsRest.writeSpr s _ _ _ (.head _)).trans (.writeSpr _ _ _ _ (.tail _ (.head _)))).trans (.setSlot _ _ _),
    State.slot_done _, ?_, ?_⟩
  · rw [State.readSpr_done, State.readSpr_writeSpr, if_neg hne, State.readSpr_writeSpr, if_pos rfl]
  · rw [State.readSpr_done, State.readSpr_writeSpr, if_pos rfl]

end Sys2Proof.Machine

namespace Sys2Proof

open Machine

/-- Settles O29: the one write of the slot by either form, the count of words read as bytes by `toNat_stackBytes`. -/
theorem stackExecute : Obligations.StackExecute := by
  intro i s
  constructor
  · intro op imm hi himm hrun
    refine ⟨_, exec_stackI_execute hi hrun, onlySlot_setSlot s _, ?_, ?_⟩
    · rw [State.slot_setSlot]
      exact toNat_stackBytes himm
    · rw [State.slot_setSlot]
  · intro op rs hi hrun
    exact exec_stackR_execute hi hrun

/-- Settles O31: nothing has to be moved, so the pointers written are those of `stackPlan`, and each clause is its equation
for one operation. -/
theorem stackDefault : Obligations.StackDefault := by
  intro i s op ss st n hi hc hr hown hback hsize hsize4 hne hss hst hn hss4 hst4 hn4 hfit
  subst hss hst hn
  by_cases h0 : s.slot.exResult = 0
  · obtain ⟨t, ht, hkeep, hslot, hss, hst⟩ := exec_stack_writes hi hc hne (stackCtl_zero hr h0)
    exact ⟨t, ht, hkeep, hslot, fun _ => ⟨hss, hst⟩, fun h => absurd h0 h⟩
  · have hlo := stackPlan_lo_aligned op hsize4 hss4 hst4 hn4
    obtain ⟨t, ht, hkeep, hslot, hss, hst⟩ :=
      exec_stack_writes hi hc hne (stackCtl_view hown hback hr h0 hfit hlo)
    refine ⟨t, ht, hkeep, hslot, fun h => absurd h h0, fun _ => ?_⟩
    rw [hss, hst]
    cases op with
    | reserve => exact ⟨stackPlan_reserve_st, stackPlan_reserve_ss_of_le, stackPlan_reserve_held_of_lt hsize⟩
    | ensure => exact ⟨stackPlan_ensure_st, stackPlan_ensure_ss_of_le, stackPlan_ensure_held_of_lt⟩
    | free => exact ⟨stackPlan_free_st, stackPlan_free_ss⟩
    | spill => exact ⟨rfl, rfl⟩

end Sys2Proof

/-! The method cache as a collaborator (rules R312, R315 to R322): eviction under either policy, a hit, and a fill, call by
call. -/

namespace Sys2Proof.Machine

open Sys2Proof.Config

/-! ### Eviction -/

section
variable {p : Params} {active : Word} {n : Nat}

/-- Where the policy does not pin, the entry at the eviction end goes. -/
theorem evictOne_of_not_fifo (h : p.mcPolicy ≠ .fifo) (es : List McEntry) : evictOne p active es = es.tail := by
  match es with
  | [] => rfl
  | [_] => rfl
  | e0 :: e1 :: es => rw [evictOne, if_neg fun hc => h hc.1]; rfl

theorem noRoom_iff {es : List McEntry} :
    noRoom p n es = true ↔ p.mcNumBlocks < usedBlocks es + n ∨ p.mcMaxEntries < es.length + 1 := by
  rw [noRoom, Bool.or_eq_true, decide_eq_true_iff, decide_eq_true_iff]

/-- Without a pin the loop drops entries from the front as long as there is no room (rule R320). -/
theorem evictFor_eq_drop (h : p.mcPolicy ≠ .fifo) (es : List McEntry) :
    ∃ k, evictFor p active n es = (es.drop k, k) ∧ k ≤ es.length ∧ ∀ j, j < k → noRoom p n (es.drop j) = true := by
  induction es with
  | nil => exact ⟨0, rfl, Nat.le_refl _, nofun⟩
  | cons e es ih =>
    obtain ⟨k, hk, hle, hmin⟩ := ih
    unfold evictFor at hk ⊢
    rw [List.length_cons, evictLoop, evictOne_of_not_fifo h, List.tail_cons, hk]
    by_cases hroom : noRoom p n (e :: es) = true
    · refine ⟨k + 1, if_pos hroom, Nat.succ_le_succ hle, fun j hj => ?_⟩
      cases j with
      | zero => exact hroom
      | succ j => exact hmin j (Nat.lt_of_succ_lt_succ hj)
    · exact ⟨0, if_neg hroom, Nat.zero_le _, nofun⟩

/-- Settles O57: the loop stops at the first number of dropped entries that leaves room. -/
theorem evictionIsMinimal : Obligations.EvictionIsMinimal := by
  intro p active n es hp hfifo hn
  obtain ⟨k, hk, hle, hmin⟩ := evictFor_eq_drop (active := active) (n := n) hfifo es
  obtain ⟨hblocks, hcount⟩ := evictFor_room active es hp hn
  rw [hk] at hblocks hcount
  exact ⟨k, hk, hle, hblocks, hcount, fun j hj => noRoom_iff.mp (hmin j hj)⟩

/-- One eviction under `FIFO` spares the pinned entry where there is another to go (rule R320). -/
theorem mem_evictOne_of_pinned {es : List McEntry} {e : McEntry} (hpol : p.mcPolicy = .fifo)
    (hd : (es.map (·.addr)).Nodup) (he : e ∈ es) (ha : e.addr = active) (hlen : 2 ≤ es.length) :
    e ∈ evictOne p active es := by
  match es with
  | [] => cases he
  | [_] => exact absurd hlen (by simp)
  | e0 :: e1 :: es =>
    rw [evictOne]
    split
    case isTrue hpin =>
      have hsame : e = e0 := List.inj_on_of_nodup_map hd he List.mem_cons_self (ha.trans hpin.2.symm)
      exact hsame ▸ List.mem_cons_self
    case isFalse hpin =>
      obtain rfl | htail := List.mem_cons.mp he
      · exact absurd ⟨hpol, ha⟩ hpin
      · exact htail

/-- With no room there are at least two entries where one of them and the request could stay together. -/
theorem two_le_length_of_noRoom {es : List McEntry} {e : McEntry} (he : e ∈ es) (hb : e.blocks + n ≤ p.mcNumBlocks)
    (hmax : 2 ≤ p.mcMaxEntries) (h : noRoom p n es = true) : 2 ≤ es.length := by
  rw [noRoom_iff] at h
  match es with
  | [] => cases he
  | [x] =>
    obtain rfl := List.mem_singleton.mp he
    simp only [usedBlocks, List.length_singleton] at h
    omega
  | _ :: _ :: _ => simp

theorem mem_evictLoop_of_pinned {e : McEntry} (hpol : p.mcPolicy = .fifo) (ha : e.addr = active)
    (hb : e.blocks + n ≤ p.mcNumBlocks) (hmax : 2 ≤ p.mcMaxEntries) (fuel : Nat) (es : List McEntry)
    (hd : (es.map (·.addr)).Nodup) (he : e ∈ es) : e ∈ (evictLoop p active n fuel es).1 := by
  induction fuel generalizing es with
  | zero => exact he
  | succ fuel ih =>
    rw [evictLoop]
    split
    case isTrue hroom =>
      exact ih _ (hd.sublist ((evictOne_sublist p active es).1.map _))
        (mem_evictOne_of_pinned hpol hd he ha (two_le_length_of_noRoom he hb hmax hroom))
    case isFalse => exact he

end

/-- Settles O58: every round spares the pinned entry. -/
theorem fifoPinsActiveEntry : Obligations.FifoPinsActiveEntry := by
  intro p active n es hp hpol hn hd
  obtain ⟨hkept, hcounted⟩ := evictFor_sublist p active n es
  obtain ⟨hblocks, hcount⟩ := evictFor_room active es hp hn
  exact ⟨fun e he => hkept.subset he, hblocks, hcount, hcounted, fun e he ha hb hmax =>
    mem_evictLoop_of_pinned hpol ha hb hmax es.length es hd he⟩

/-! ### A hit -/

/-- Where the addresses are distinct the requested entry goes to the end and the others keep their order (rule R317). -/
theorem moveToLast_of_distinct {pre post : List McEntry} {e : McEntry}
    (hd : ((pre ++ e :: post).map (·.addr)).Nodup) : moveToLast (pre ++ e :: post) e.addr = pre ++ post ++ [e] := by
  simp only [List.map_append, List.map_cons, List.nodup_append, List.nodup_cons, List.mem_cons] at hd
  obtain ⟨-, ⟨hnotpost, -⟩, hdisjoint⟩ := hd
  have hpre (x : McEntry) (hx : x ∈ pre) : x.addr ≠ e.addr :=
    hdisjoint _ (List.mem_map_of_mem hx) _ (.inl rfl)
  have hpost (x : McEntry) (hx : x ∈ post) : x.addr ≠ e.addr := fun h => hnotpost (h ▸ List.mem_map_of_mem hx)
  have keep (l : List McEntry) (hl : ∀ x, x ∈ l → x.addr ≠ e.addr) :
      (l.filter fun x => decide (x.addr ≠ e.addr)) = l ∧ (l.filter fun x => decide (x.addr = e.addr)) = [] :=
    ⟨List.filter_eq_self.mpr fun x hx => decide_eq_true (hl x hx),
      List.filter_eq_nil_iff.mpr fun x hx h => hl x hx (of_decide_eq_true h)⟩
  rw [moveToLast, List.filter_append, List.filter_append, List.filter_cons_of_neg (by simp),
    List.filter_cons_of_pos (by simp), (keep pre hpre).1, (keep pre hpre).2, (keep post hpost).1, (keep post hpost).2,
    List.nil_append]

section
variable {a : Word} {s : State} (hp : s.params.mcPolicy ≠ .ideal)
include hp

theorem ensureResident_idle_hit (hi : s.mc.state = .idle) (h : ∃ e, e ∈ s.mc.entries ∧ e.addr = a) :
    ensureResident a s = .resident (hitEntry a s) := by
  rw [ensureResident, if_neg hp, hi]
  exact if_pos (findEntry_isSome.mpr h)

/-- A call repeated while the size word is awaited (rule R315). -/
theorem ensureResident_sizing (hst : s.mc.state = .sizeFetch) (ha : s.mc.pending.address = a) :
    ensureResident a s = fillSize a s := by
  rw [ensureResident, if_neg hp, hst]
  exact if_pos ha

/-- A call repeated while the function is transferred (rule R315). -/
theorem ensureResident_transferring (hst : s.mc.state = .transfer) (ha : s.mc.pending.address = a) :
    ensureResident a s = fillTransfer a s := by
  rw [ensureResident, if_neg hp, hst]
  exact if_pos ha

end

/-- Settles O59: the call is `hitEntry`, which moves the entry only under `LRU`. -/
theorem residencyHit : Obligations.ResidencyHit := by
  intro s e pre post hp hi hes hd
  refine ⟨_, ensureResident_idle_hit hp hi ⟨e, by simp [hes], rfl⟩, rfl, rfl, rfl, rfl, rfl, rfl, hi,
    fun hfifo => ?_, fun hlru => ?_⟩
  · rw [if_neg (by rw [hfifo]; nofun), hes]
  · rw [if_pos hlru, hes]
    rw [entryAddrs, hes] at hd
    exact moveToLast_of_distinct hd

/-! ### A fill -/

/-- `blocksOf` is division rounded up (rule R312). -/
theorem blocksOf_le_iff {p : Params} (h : 0 < p.mcBlockBytes) {size b : Nat} :
    blocksOf p size ≤ b ↔ size ≤ b * p.mcBlockBytes := by
  rw [blocksOf, ← Nat.add_sub_assoc h, ← Nat.ceilDiv_eq_add_pred_div, ceilDiv_le_iff_le_mul h, Nat.mul_comm]

/-- The first byte of a range that is not backed. -/
theorem firstUnbacked_eq_some {rs : List Region} {n k : Nat} : {a : Word} → k < n →
    (∀ j, j < k → isBacked rs (a + BitVec.ofNat 32 j) = true) → isBacked rs (a + BitVec.ofNat 32 k) = false →
    firstUnbacked rs a n = some (a + BitVec.ofNat 32 k) := by
  induction n generalizing k with
  | zero => nofun
  | succ n ih =>
    intro a hk hbacked hnot
    rw [firstUnbacked]
    cases k with
    | zero =>
      rw [BitVec.add_zero] at hnot ⊢
      rw [if_neg (by rw [hnot]; nofun)]
    | succ k =>
      have shift (j : Nat) : a + 1 + BitVec.ofNat 32 j = a + BitVec.ofNat 32 (j + 1) := by
        rw [BitVec.add_assoc, Nat.add_comm, BitVec.ofNat_add]; rfl
      have hfirst : isBacked rs a = true := by simpa using hbacked 0 (Nat.succ_pos k)
      rw [if_pos hfirst, ih (Nat.lt_of_succ_lt_succ hk), shift]
      · intro j hj
        rw [shift]
        exact hbacked (j + 1) (Nat.succ_lt_succ hj)
      · rw [shift]
        exact hnot

section
variable {a : Word} {s : State}

theorem fillTransfer_busy (h : s.nextReply = .busy) : fillTransfer a s = .wait s.dropReply := by
  rw [fillTransfer]
  exact if_pos h

theorem fillTransfer_unmapped {u : Word} (h : s.nextReply ≠ .busy)
    (hu : firstUnbacked s.params.mainBacked a (s.mc.pending.blocks * s.params.mcBlockBytes) = some u) :
    fillTransfer a s = .raised (.unmapped u s.dropReply) := by
  rw [fillTransfer, hu]
  exact if_neg h

theorem fillTransfer_done (h : s.nextReply ≠ .busy)
    (hu : firstUnbacked s.params.mainBacked a (s.mc.pending.blocks * s.params.mcBlockBytes) = none) :
    fillTransfer a s = .resident (s.dropReply.withMc { s.mc with
      bytesTransferred := s.mc.bytesTransferred + s.mc.pending.blocks * s.params.mcBlockBytes
      state := .idle
      active := a }) := by
  rw [fillTransfer, hu]
  exact if_neg h

theorem fillSize_busy (h : s.nextReply = .busy) : fillSize a s = .wait s.dropReply := by
  rw [fillSize]
  exact if_pos h

theorem fillSize_unreadable {f : Fault} (h : s.nextReply ≠ .busy) (hw : peekWord s.dropReply (a - 4) = .error f) :
    fillSize a s = .raised f := by
  rw [fillSize, hw]
  exact if_neg h

variable {w : Word} (h : s.nextReply ≠ .busy) (hw : peekWord s.dropReply (a - 4) = .ok w)
include h hw

theorem fillSize_exceeds (hn : s.params.mcNumBlocks < blocksOf s.params w.toNat) :
    fillSize a s = .raised (.codeExceeded a w.toNat s.dropReply) := by
  rw [fillSize, hw]
  exact (if_neg h).trans (if_pos hn)

theorem fillSize_wraps (hn : blocksOf s.params w.toNat ≤ s.params.mcNumBlocks) (ht : 4294967296 < a.toNat + w.toNat) :
    fillSize a s = .refused .functionWraps := by
  rw [fillSize, hw]
  exact (if_neg h).trans ((if_neg (Nat.not_lt.mpr hn)).trans (if_pos ht))

theorem fillSize_admits (hn : blocksOf s.params w.toNat ≤ s.params.mcNumBlocks)
    (ht : a.toNat + w.toNat ≤ 4294967296) :
    fillSize a s = fillTransfer a (admitEntry a w.toNat (blocksOf s.params w.toNat) s.dropReply) := by
  rw [fillSize, hw]
  exact (if_neg h).trans ((if_neg (Nat.not_lt.mpr hn)).trans (if_neg (Nat.not_lt.mpr ht)))

end

/-- Settles O60: each call of a fill is one of the phases, and the phases hand over to each other. -/
theorem residencyMissFills : Obligations.ResidencyMissFills := by
  intro s a hp
  refine ⟨fun hb n => ⟨(blocksOf_le_iff hb).mp (Nat.le_refl _), fun b => (blocksOf_le_iff hb).mpr⟩,
    fun hi hmiss => ?_, fun hst ha => ?_, fun hst ha => ?_⟩
  · exact (ensureResident_miss hp hi hmiss).trans (ensureResident_sizing (s := missEntry a s) hp rfl rfl).symm
  · rw [ensureResident_sizing hp hst ha]
    refine ⟨fillSize_busy, fun f => fillSize_unreadable, fun size hready hsize => ?_⟩
    have hread : peekWord s.dropReply (a - 4) = .ok size := peekWord_congr (s := s) rfl rfl hsize
    refine ⟨fun hn => ⟨_, fillSize_exceeds hready hread hn, rfl⟩, fillSize_wraps hready hread, fun hn ht => ?_⟩
    exact (fillSize_admits hready hread hn ht).trans (ensureResident_transferring
      (s := admitEntry a size.toNat (blocksOf s.params size.toNat) s.dropReply) hp rfl rfl).symm
  · rw [ensureResident_transferring hp hst ha]
    exact ⟨fillTransfer_busy,
      fun k hready hk hbacked hnot => fillTransfer_unmapped hready (firstUnbacked_eq_some hk hbacked hnot),
      fun hready hbacked => fillTransfer_done hready (firstUnbacked_eq_none.mpr hbacked)⟩

end Sys2Proof.Machine

/-! The transfers that an instruction makes (rules R265, R268, R270 to R275): the execute stage that computes base and target,
and the commit stage, which is the dispatch sequence of the kind. -/

namespace Sys2Proof.Machine

open Sys2Proof.Config

/-! ### The collaborator's entry of a trap code -/

section
variable {u : ExcUnit} {code : Nat}

/-- A code that the collaborator does not know. -/
theorem excEntry_eq_none (h : ∀ e, e ∈ u.table → e.code ≠ code % 2 ^ u.codeBits) : excEntry u code = none :=
  List.find?_eq_none.mpr fun e he hc => h e he (of_decide_eq_true hc)

/-- The first entry of a code counts. -/
theorem excEntry_eq_some {pre post : List ExcEntry} {e : ExcEntry} (ht : u.table = pre ++ e :: post)
    (he : e.code = code % 2 ^ u.codeBits) (hpre : ∀ e', e' ∈ pre → e'.code ≠ code % 2 ^ u.codeBits) :
    excEntry u code = some e :=
  List.find?_eq_some_iff_append.mpr
    ⟨decide_eq_true he, pre, post, ht, fun e' he' => by simpa using hpre e' he'⟩

end

/-! ### The execute stage -/

/-- A word count as an address: absolute, times 4 (rules R280, R282). -/
theorem absTarget_eq (n : Nat) : absTarget n = BitVec.ofNat 32 (4 * n) := by
  rw [absTarget, zextImm, Nat.mul_comm, BitVec.ofNat_mul]
  rfl

section
variable {i : Instr} {s : State} {kind : TransferKind} {dest : TransferTo} (hi : shapeOf i = .transfer kind dest)
include hi

/-- A trap, and no other transfer, goes to the handler of a code (rules R265, R283). -/
theorem trap_iff_code : kind = .trap ↔ ∃ n, dest = .code n := by
  cases i <;> cases hi <;> simp

theorem exec_transfer_execute (hx : Executes s dest.sources) (hk : kind ≠ .trap) :
    exec i s = .next (s.withTarget (dest.base s) (dest.target s)) := by
  rw [exec_execute hx.1, hi]
  cases dest <;> simp only [shapeExecute, entryExecute, returnExecute, absTarget_eq]
  case code n => exact absurd ((trap_iff_code hi).mpr ⟨n, rfl⟩) hk
  all_goals exact executeSlot_on hx

end

section
variable {i : Instr} {s : State} {kind : TransferKind} {code : Nat} (hi : shapeOf i = .transfer kind (.code code))
  (hx : Executes s [])
include hi hx

theorem exec_trap_execute :
    exec i s =
      if excEnabled s.exc code then
        .next (s.setSlot { s.slot with
          trapFires := true, exBase := excHandler s.exc code, exTarget := excHandler s.exc code })
      else .next (s.setSlot { s.slot with trapFires := false }) := by
  rw [exec_execute hx.1, hi]
  simp only [shapeExecute, trapExecute]
  exact executeSlot_on hx

theorem exec_trap_unknown (h : excEntry s.exc code = none) :
    exec i s = .next (s.setSlot { s.slot with trapFires := false }) := by
  have hoff : excEnabled s.exc code = false := by rw [excEnabled, h]
  rw [exec_trap_execute hi hx, hoff]
  rfl

theorem exec_trap_known {e : ExcEntry} (h : excEntry s.exc code = some e) :
    exec i s = .next (s.setSlot (if e.enabled then
      { s.slot with trapFires := true, exBase := e.handler, exTarget := e.handler }
    else { s.slot with trapFires := false })) := by
  have hon : excEnabled s.exc code = e.enabled := by rw [excEnabled, h]
  have hhandler : excHandler s.exc code = e.handler := by rw [excHandler, h]
  rw [exec_trap_execute hi hx, hon, hhandler]
  cases e.enabled <;> rfl

end

/-- Settles O33: base and target of every kind; a trap's by the first entry of its code. -/
theorem transferExecute : Obligations.TransferExecute := by
  intro i s kind dest hi hx
  refine ⟨exec_transfer_execute hi hx, ?_⟩
  rintro code rfl
  exact ⟨fun hnone => exec_trap_unknown hi hx (excEntry_eq_none hnone),
    fun pre e post ht he hpre => exec_trap_known hi hx (excEntry_eq_some ht he hpre)⟩

/-! ### The commit stage -/

section
variable {i : Instr} {s : State} {kind : TransferKind} {dest : TransferTo} (hi : shapeOf i = .transfer kind dest)
  (hc : Commits s)
include hi hc

theorem exec_transfer_commit (hf : kind.fires s) : exec i s = dispatchMW (kind.record s.params) s := by
  rw [exec_commit hc.1, hi, shapeCommit_transfer hc hf]

/-- A trap that does not fire is a no-operation (rule R283). -/
theorem exec_trap_idle (hk : kind = .trap) (hf : s.slot.trapFires = false) : exec i s = .next s := by
  rw [exec_commit hc.1, hi, hk, shapeCommit, trapCommit, commitSlot_on hc, hf]
  rfl

end

/-- Settles O34: the dispatch sequence completes on a hit and on any other call that answers true. -/
theorem transferCompletes : Obligations.TransferCompletes := by
  intro i s kind dest hi hc hf hg
  rw [exec_transfer_commit hi hc hf]
  refine ⟨fun hit => ?_, fun m rs => dispatchMW_completes hc.1 hg⟩
  obtain ⟨m, hm, hactive, hhits, hmisses, hstate, hentries⟩ := ensureResident_hit hit
  obtain ⟨t, ht, hdone, rfl, hreplies⟩ := dispatchMW_completes (rs := s.replies) hc.1 hg hm
  exact ⟨t, ht, hdone, hreplies, hactive, hhits, hmisses, hstate, hentries.length_eq⟩

/-- Settles O35: the dispatch sequence waits on every call that answers false, a miss with memory busy among them. -/
theorem transferWaitsForFunction : Obligations.TransferWaitsForFunction := by
  intro i s kind dest hi hc hf hg
  rw [exec_transfer_commit hi hc hf]
  refine ⟨fun hp hidle hmiss hbusy => ?_, fun m rs => dispatchMW_waits hc.1 hg⟩
  have hcall : ensureResident s.slot.exBase s = .wait (missEntry s.slot.exBase s).dropReply :=
    (ensureResident_miss hp hidle hmiss).trans (fillSize_busy hbusy)
  obtain ⟨t, ht, hwaits, hmc, hreplies⟩ := dispatchMW_waits (kind := kind) hc.1 hg hcall
  refine ⟨t, ht, hwaits, hreplies, ?_⟩
  rw [hmc]
  exact ⟨rfl, rfl, rfl, rfl, rfl, rfl⟩

/-! ### Where a transfer stops -/

section
variable {t : Transfer} {s : State}

/-- The exit code of a halt is read in a register that the flush leaves alone (rule R358). -/
theorem haltFault_preFlush : haltFault (preFlush t s) = .halt (s.readGpr s.params.exitReg) (preFlush t s) := by
  rw [preFlush_eq]
  rfl

/-- A return to address 0 halts only with the offset 0 (rule R272). -/
theorem checkTarget_return_halt (h0 : s.slot.exBase = 0) (hoff : t.isReturn = true → s.slot.drSsOff = 0) :
    checkTarget t s = some (haltFault s) := by
  cases hr : t.isReturn with
  | false => exact checkTarget_halt h0 hr
  | true => simp only [checkTarget, h0, hr, hoff hr, if_true]

theorem checkTarget_illegalPC (h0 : s.slot.exBase = 0) (hr : t.isReturn = true) (hoff : s.slot.drSsOff ≠ 0) :
    checkTarget t s = some (.illegalPC s.slot.drSsOff s) := by
  simp only [checkTarget, h0, hr, if_true, if_neg hoff]

end

/-- Settles O36: `checkTarget` stops in the flushed state, the residency call in the begun one. -/
theorem transferStops : Obligations.TransferStops := by
  intro i s kind dest hi hc
  refine ⟨exec_trap_idle hi hc, fun hf => ?_, fun hf hg => ?_⟩
  all_goals rw [exec_transfer_commit hi hc hf]
  · have hslot := preFlush_slot (t := kind.record s.params) hc.1
    refine ⟨preFlush (kind.record s.params) s, .preFlush _ _ _ rfl, hslot, ?_⟩
    rw [← haltFault_preFlush, ← hslot, ← kind.record_isReturn s.params]
    exact ⟨fun h0 hoff => dispatchMW_of_checkTarget (checkTarget_return_halt h0 hoff),
      fun h0 hr hoff => dispatchMW_of_checkTarget (checkTarget_illegalPC h0 hr hoff),
      fun h0 h4 => dispatchMW_of_checkTarget (checkTarget_target h0 h4),
      fun h0 h4 hb => dispatchMW_of_checkTarget (checkTarget_base h0 h4 hb)⟩
  · exact ⟨begunState kind s, transferBegun {} hc.1, fun f => dispatchMW_of_raised hc.1 hg,
      fun r => dispatchMW_of_refused hc.1 hg⟩

/-! ### Interrupt acceptance -/

/-- What the dispatch sequence does to interrupt acceptance: a trap may switch it off, `xret` may switch it on
(rules R283, R291, R371). -/
theorem dispatchMW_intrEnabled {kind : TransferKind} {s t : State} (hs : s.cur.stage = .MW)
    (h : dispatchMW (kind.record s.params) s = .next t) :
    t.exc.intrEnabled = s.exc.intrEnabled ∨ (kind = .trap ∧ t.exc.intrEnabled = false) ∨
      ((∃ d, kind = .xret d) ∧ t.exc.intrEnabled = true) := by
  have hbegun : (begunState kind s).exc.intrEnabled = s.exc.intrEnabled ∨
      (kind = .trap ∧ (begunState kind s).exc.intrEnabled = false) := by
    rw [begunState_intrEnabled hs]
    cases kind with
    | trap => cases s.slot.initialized <;> simp
    | _ => exact .inl rfl
  obtain ⟨-, ⟨v, hv, rfl⟩ | ⟨v, hv, rfl⟩⟩ := dispatchMW_next hs h
  · obtain ⟨m, rs, rfl⟩ := ensureResident_only (.inr hv)
    exact hbegun.imp_right .inl
  · obtain ⟨m, rs, rfl⟩ := ensureResident_only (.inl hv)
    obtain ⟨-, -, -, -, -, -, hexc⟩ := completeTransfer_fields (kind.record s.params)
      { transferOnce (kind.record s.params) (preFlush (kind.record s.params) s) with mc := m, replies := rs }
    rw [hexc]
    by_cases hon : (kind.record s.params).switchesOn = true
    · rw [if_pos hon]
      exact .inr (.inr ⟨(kind.record_switchesOn _).mp hon, rfl⟩)
    · rw [if_neg hon]
      exact hbegun.imp_right .inl

theorem KeepsRest.intrEnabled_eq {w : Touch} {s t : State} (h : KeepsRest w s t) (hw : w.intrEnabled = false) :
    t.exc.intrEnabled = s.exc.intrEnabled := by
  obtain ⟨-, -, -, -, -, -, -, hintr, -⟩ := h
  exact hintr hw

theorem Shape.intrEnabled_executeTouch (sh : Shape) : sh.executeTouch.intrEnabled = false := by cases sh <;> rfl

theorem Shape.intrEnabled_commitTouch {p : Params} {sh : Shape} (h : (sh.commitTouch p).intrEnabled = true) :
    ∃ kind dest, sh = .transfer kind dest := by
  cases sh
  case transfer kind dest => exact ⟨kind, dest, rfl⟩
  all_goals cases h

/-- Settles O39: the frames leave acceptance to the transfers, and of these `trap` and `xret` switch it. -/
theorem onlyTrapAndXretSwitchInterrupts : Obligations.OnlyTrapAndXretSwitchInterrupts := by
  refine ⟨fun i s t h hne => ?_, fun a s t h => ?_⟩
  · obtain hk | ⟨-, hk, -⟩ | ⟨⟨hs, hp, -⟩, hk, htransfer⟩ := exec_frame h
    · exact absurd (hk.intrEnabled_eq rfl) hne
    · exact absurd (hk.intrEnabled_eq (shapeOf i).intrEnabled_executeTouch) hne
    · obtain ⟨kind, dest, hi⟩ :=
        Shape.intrEnabled_commitTouch (Bool.of_not_eq_false fun hw => hne (hk.intrEnabled_eq hw))
      obtain ⟨hf, hd⟩ := htransfer kind dest hi
      obtain hsame | ⟨rfl, hoff⟩ | ⟨⟨d, rfl⟩, hon⟩ := dispatchMW_intrEnabled hs hd
      · exact absurd hsame hne
      · exact ⟨hs, hp, .inl ⟨dest, hi, hf rfl, hoff⟩⟩
      · exact ⟨hs, hp, .inr ⟨d, dest, hi, hon⟩⟩
  · obtain ⟨x, rfl, -⟩ | ⟨hs, hd⟩ := intrStages_next h
    · rfl
    · obtain hsame | ⟨hk, -⟩ | ⟨⟨d, hk⟩, -⟩ := dispatchMW_intrEnabled hs hd
      · exact hsame
      · cases hk
      · cases hk

end Sys2Proof.Machine

/-! The local branches (rules R267, R271 to R273): the dispatch sequence in `EX` by its tests, and the state it leaves when
the branch is taken. -/

namespace Sys2Proof.Machine

open Sys2Proof.Config

/-- The target of `br` is the address of a word access with the same offset (rules R201, R281). -/
theorem relTarget_eq (a : Word) (imm : Int) : relTarget a imm = BitVec.ofNat 32 (wrap32 (a.toNat + 4 * imm)) := by
  have haddr : (relTarget a imm).toNat = wrap32 (a.toNat + imm * 4) := toNat_effAddr a imm .word
  rw [Int.mul_comm, ← haddr, BitVec.ofNat_toNat, BitVec.setWidth_eq]

section
variable {i : Instr} {s : State} {d : Bool} {dest : BranchTo} (hi : shapeOf i = .branch d dest)
include hi

theorem exec_branch_execute (hx : Executes s dest.sources) : exec i s = dispatchEX d (dest.target s) s := by
  rw [exec_execute hx.1, hi]
  cases dest <;> simp only [shapeExecute, relTarget_eq] <;> exact executeSlot_on hx

theorem exec_branch_commit (hs : s.cur.stage = .MW) : exec i s = .next s := by
  rw [exec_commit hs, hi]
  rfl

end

/-! ### The dispatch sequence in `EX` -/

section
variable {d : Bool} {a : Word} {s : State}

theorem dispatchEX_idle (h : s.slot.discard = true ∨ s.stallReq = some .MW) : dispatchEX d a s = .next s := by
  rw [dispatchEX]
  exact if_pos (by rwa [Bool.or_eq_true, decide_eq_true_iff])

variable (hd : s.slot.discard = false) (hw : s.stallReq ≠ some .MW)
include hd hw

theorem dispatchEX_eq :
    dispatchEX d a s =
      if a = 0 then .fault (haltFault s)
      else if !aligned4 a then .fault (.unaligned a s)
      else .next (completeBranch d a s) := by
  rw [dispatchEX]
  exact if_neg (by simp [hd, hw])

theorem dispatchEX_halts (h0 : a = 0) : dispatchEX d a s = .fault (haltFault s) := by
  rw [dispatchEX_eq hd hw, if_pos h0]

theorem dispatchEX_unaligned (h4 : a.toNat % 4 ≠ 0) : dispatchEX d a s = .fault (.unaligned a s) := by
  have h0 : a ≠ 0 := by
    rintro rfl
    exact h4 rfl
  rw [dispatchEX_eq hd hw, if_neg h0, if_pos (by simpa [aligned4] using h4)]

theorem dispatchEX_taken (h0 : a ≠ 0) (h4 : a.toNat % 4 = 0) : dispatchEX d a s = .next (completeBranch d a s) := by
  rw [dispatchEX_eq hd hw, if_neg h0, if_neg (by simpa [aligned4] using h4)]

end

/-! ### The completion -/

section
variable {d : Bool} {a : Word} {s : State}

theorem completeBranch_npc_base : (completeBranch d a s).npc = a ∧ (completeBranch d a s).base = s.base := by
  cases d <;> exact ⟨rfl, rfl⟩

variable (hs : s.cur.stage = .EX)
include hs

theorem completeBranch_slot : (completeBranch d a s).slot = { s.slot with discard := true } := by
  cases d
  · have hflush := State.slot_flushUpstream (s.setControl s.base a)
    rw [State.setControl_cur, hs] at hflush
    exact (State.slot_done _).trans (congrArg (fun x : Slot => { x with discard := true }) hflush)
  · have hmark := State.slot_markDelaySlots s.params.dsBranch (s.setControl s.base a)
    rw [State.setControl_cur, hs] at hmark
    exact (State.slot_done _).trans (congrArg (fun x : Slot => { x with discard := true }) hmark)

/-- The slots beside the branch: flushed, or marked as delay slots (rules R271, R301). -/
theorem completeBranch_transferSlots : TransferSlots d s.params.dsBranch s (completeBranch d a s) := by
  intro st k hk
  rw [hs]
  cases d
  · have hslot : (completeBranch false a s).slotAt st k = ((s.setControl s.base a).flushUpstream .EX).slotAt st k :=
      State.slotAt_setSlot_ne _ _ (IsCurrent.ne hk)
    rw [hslot, State.slotAt_flushUpstream]
    rfl
  · have hslot : (completeBranch true a s).slotAt st k =
        ((s.setControl s.base a).markDelaySlots s.params.dsBranch .EX).slotAt st k :=
      State.slotAt_setSlot_ne _ _ (IsCurrent.ne hk)
    rw [hslot, State.slotAt_markDelaySlots, ite_and]
    rfl

end

/-- Settles O32: the tests of the dispatch sequence in `EX` one by one. -/
theorem localBranchDispatch : Obligations.LocalBranchDispatch := by
  intro i s d dest hi
  refine ⟨fun hx hidle => ?_, fun hx hd hw => ?_, exec_branch_commit hi⟩
  · rw [exec_branch_execute hi hx, dispatchEX_idle hidle]
  · rw [exec_branch_execute hi hx]
    refine ⟨dispatchEX_halts hd hw, dispatchEX_unaligned hd hw, fun h0 h4 => ?_⟩
    obtain ⟨hnpc, hbase⟩ := completeBranch_npc_base (d := d) (a := dest.target s) (s := s)
    exact ⟨_, dispatchEX_taken hd hw h0 h4, hnpc, hbase, completeBranch_transferSlots hx.1,
      .completeBranch _ _ _ _ rfl rfl, completeBranch_slot hx.1⟩

end Sys2Proof.Machine

/-! The injection of an interrupt in the fetch step (rule R365). -/

namespace Sys2Proof.Machine

/-- The two tests of the injection look at what drawing an event leaves alone. -/
theorem irqToInject_drawIrq (s : State) :
    irqToInject (drawIrq s) =
      if s.intrBlock = 0 ∧ s.exc.intrEnabled = true then (drawIrq s).exc.pending else none := by
  obtain ⟨e, he, hintr, -⟩ := drawIrq_fields s
  rw [irqToInject, he, hintr]

/-- A fetch step that injects nothing issues an instruction and leaves acceptance as it is. -/
theorem fetchStep_uninjected {s t : State} (hq : irqToInject (drawIrq s) = none) (h : fetchStep s = .next t) :
    (∃ i, t.pipe.fetch.s0.instr = .instr i) ∧ t.exc.intrEnabled = s.exc.intrEnabled := by
  obtain ⟨e, he, hintr, -⟩ := drawIrq_fields s
  rw [fetchStep_none hq, he] at h
  obtain ⟨_, _, f, -, -, rfl⟩ := fetchBundle_next h
  exact ⟨⟨f.i0, rfl⟩, hintr⟩

/-- Settles O37: the injected state field by field; without an injection what is fetched is an instruction. -/
theorem interruptInjected : Obligations.InterruptInjected := by
  refine fun s => ⟨fun q hpend hon hblock => ?_, fun t ht hfail => ?_⟩
  · have hq : irqToInject (drawIrq s) = some q := by rw [irqToInject_drawIrq, if_pos ⟨hblock, hon⟩, hpend]
    obtain ⟨e, he, -⟩ := drawIrq_fields s
    refine ⟨_, fetchStep_some hq, ?_⟩
    rw [he]
    exact ⟨rfl, rfl, rfl, rfl, rfl, rfl, rfl, rfl, rfl, rfl, rfl, rfl, rfl, rfl, rfl, rfl, rfl, rfl⟩
  · have hq : irqToInject (drawIrq s) = none := by
      rw [irqToInject_drawIrq]
      split
      case isFalse => rfl
      case isTrue hboth =>
        obtain hnone | hoff | hblock := hfail
        · exact hnone
        · exact absurd (hoff.symm.trans hboth.2) Bool.false_ne_true
        · exact absurd hboth.1 hblock
    obtain ⟨⟨i, hinstr⟩, hintr⟩ := fetchStep_uninjected hq ht
    exact ⟨fun h hint => SlotInstr.noConfusion (hinstr.symm.trans hint), hintr⟩

end Sys2Proof.Machine

/-! Reset and boot (rules R380, R382): the reset values, and the ends of `boot` in their order. -/

namespace Sys2Proof.Machine

open Sys2Proof.Config

/-! ### Reset -/

theorem readGpr_reset (r : Reg) : State.reset.readGpr r = 0 := by
  rw [State.readGpr]
  split
  · rfl
  · exact Vector.getElem_replicate _

theorem readPred_reset (p : PReg) : State.reset.readPred p = decide (p = 0) := by
  revert p
  decide

theorem readSpr_reset (k : SReg) : State.reset.readSpr k = 0 := Vector.getElem_replicate _

theorem slotAt_reset (st : Stage) (k : SlotIx) : State.reset.slotAt st k = Slot.bubble := by
  cases st <;> cases k <;> rfl

theorem readByte_reset (area : Area) (a : Word) : State.reset.readByte area a = 0 := by
  cases area <;> rfl

/-- Settles O55: the register files and the bytes by the lemmas above, every other field as `State.reset` writes it. -/
theorem resetState : Obligations.ResetState :=
  ⟨readGpr_reset, readPred_reset, readSpr_reset, rfl, rfl, rfl, rfl, rfl, slotAt_reset, rfl, rfl, rfl, rfl, rfl, rfl, rfl,
    rfl, rfl, rfl, rfl, rfl, rfl, readByte_reset⟩

/-! ### Boot -/

/-- The program-counter group set to `ENTRY` (rules R380, R382). -/
def State.atEntry (s : State) : State := { s with base := s.params.entry, pc := s.params.entry, npc := s.params.entry }

/-- What `boot` leaves when it starts a run, with these entries. -/
def State.booted (s : State) (es : List McEntry) : State :=
  s.atEntry.withMc { s.mc with state := .idle, entries := es, active := s.params.entry }

/-- The entry of the entry function, with its size. -/
def State.entryOf (s : State) (size : Word) : McEntry :=
  ⟨s.params.entry, size.toNat, blocksOf s.params size.toNat, 0⟩

section
variable {s : State}

theorem boot_zero (h0 : s.params.entry = 0) : boot s = .fault (.halt 0 s.atEntry) := by
  rw [boot]
  exact if_pos h0

variable (h0 : s.params.entry ≠ 0)
include h0

theorem boot_unaligned (h4 : s.params.entry.toNat % 4 ≠ 0) :
    boot s = .fault (.unaligned s.params.entry s.atEntry) := by
  rw [boot]
  exact (if_neg h0).trans (if_pos (by simpa [aligned4] using h4))

variable (h4 : s.params.entry.toNat % 4 = 0)
include h4

theorem boot_ideal (hp : s.params.mcPolicy = .ideal) : boot s = .next (s.booted []) := by
  rw [boot]
  exact (if_neg h0).trans ((if_neg (by simpa [aligned4] using h4)).trans (if_pos hp))

variable (hp : s.params.mcPolicy ≠ .ideal)
include hp

/-- Beyond the tests of `ENTRY` the size word decides. -/
theorem boot_eq :
    boot s =
      match peekWord s.atEntry (s.params.entry - 4) with
      | .error f => .fault f
      | .ok w =>
        if s.params.mcNumBlocks < blocksOf s.params w.toNat then .fault (.codeExceeded s.params.entry w.toNat s.atEntry)
        else if 4294967296 < s.params.entry.toNat + w.toNat then .refused .functionWraps
        else .next (s.booted [s.entryOf w]) := by
  rw [boot]
  exact (if_neg h0).trans ((if_neg (by simpa [aligned4] using h4)).trans (if_neg hp))

theorem boot_unreadable {f : Fault} (hw : peekWord s.atEntry (s.params.entry - 4) = .error f) : boot s = .fault f := by
  rw [boot_eq h0 h4 hp, hw]

variable {w : Word} (hw : peekWord s.atEntry (s.params.entry - 4) = .ok w)
include hw

theorem boot_exceeds (hn : s.params.mcNumBlocks < blocksOf s.params w.toNat) :
    boot s = .fault (.codeExceeded s.params.entry w.toNat s.atEntry) := by
  rw [boot_eq h0 h4 hp, hw]
  exact if_pos hn

theorem boot_wraps (hn : blocksOf s.params w.toNat ≤ s.params.mcNumBlocks)
    (ht : 4294967296 < s.params.entry.toNat + w.toNat) : boot s = .refused .functionWraps := by
  rw [boot_eq h0 h4 hp, hw]
  exact (if_neg (Nat.not_lt.mpr hn)).trans (if_pos ht)

theorem boot_starts (hn : blocksOf s.params w.toNat ≤ s.params.mcNumBlocks)
    (ht : s.params.entry.toNat + w.toNat ≤ 4294967296) : boot s = .next (s.booted [s.entryOf w]) := by
  rw [boot_eq h0 h4 hp, hw]
  exact (if_neg (Nat.not_lt.mpr hn)).trans (if_neg (Nat.not_lt.mpr ht))

end

/-- A boot that starts a run has an aligned `ENTRY`, and under a policy other than `IDEAL` an entry function that fits. -/
theorem boot_next {s t : State} (h : boot s = .next t) :
    s.params.entry.toNat % 4 = 0 ∧
      ((s.params.mcPolicy = .ideal ∧ t = s.booted []) ∨
        ∃ w, blocksOf s.params w.toNat ≤ s.params.mcNumBlocks ∧ t = s.booted [s.entryOf w]) := by
  by_cases h0 : s.params.entry = 0
  · rw [boot_zero h0] at h; cases h
  by_cases h4 : s.params.entry.toNat % 4 = 0
  case neg => rw [boot_unaligned h0 h4] at h; cases h
  refine ⟨h4, ?_⟩
  by_cases hp : s.params.mcPolicy = .ideal
  · rw [boot_ideal h0 h4 hp] at h; cases h
    exact .inl ⟨hp, rfl⟩
  cases hw : peekWord s.atEntry (s.params.entry - 4) with
  | error f => rw [boot_unreadable h0 h4 hp hw] at h; cases h
  | ok w =>
    rw [boot_eq h0 h4 hp, hw] at h
    dsimp only at h
    split at h
    · cases h
    · rename_i hn
      split at h
      · cases h
      · cases h
        exact .inr ⟨w, Nat.not_lt.mp hn, rfl⟩

/-! ### The invariants at the start of a run -/

/-- `boot` touches nothing that the invariant of the core speaks of but `BASE` and `nPC`. -/
theorem CoreOk.booted {s : State} (h : CoreOk s) (h4 : s.params.entry.toNat % 4 = 0) (es : List McEntry) :
    CoreOk (s.booted es) :=
  { h with base := aligned4_iff.mpr h4, npc := aligned4_iff.mpr h4 }

/-- The entry function alone in the cache. -/
theorem mcInv_booted {s : State} {es : List McEntry} (hes : s.params.mcPolicy ≠ .ideal → EntriesOk s.params es ∧
    s.params.entry ∈ es.map (·.addr)) : mcInv (s.booted es) :=
  mcInv_iff.mpr ⟨rfl, fun hp => ⟨(hes hp).1, .inr (hes hp).2, nofun, nofun⟩⟩

theorem entriesOk_entryOf {s : State} {w : Word} (hp : s.params.ok = true)
    (hn : blocksOf s.params w.toNat ≤ s.params.mcNumBlocks) : EntriesOk s.params [s.entryOf w] := by
  simp only [Params.ok, Bool.and_eq_true, decide_eq_true_eq] at hp
  obtain ⟨-, hmax⟩ := hp
  refine ⟨List.nodup_singleton _, fun e he => ?_, hn, hmax⟩
  rw [List.mem_singleton.mp he]
  rfl

/-- Every state that `boot` starts a run from meets both invariants (rules R314, R382). -/
theorem boot_invariants {s t : State} (hcore : coreInv s = true) (hp : s.params.ok = true) (h : boot s = .next t) :
    coreInv t = true ∧ mcInv t := by
  rw [coreInv_iff] at hcore ⊢
  obtain ⟨h4, ⟨hideal, rfl⟩ | ⟨w, hn, rfl⟩⟩ := boot_next h
  · exact ⟨hcore.booted h4 _, mcInv_booted fun hne => absurd hideal hne⟩
  · exact ⟨hcore.booted h4 _, mcInv_booted fun _ => ⟨entriesOk_entryOf hp hn, List.mem_singleton.mpr rfl⟩⟩

theorem coreInv_reset : coreInv State.reset = true := rfl

/-- With no program loaded the size word is 0, and the reset state is what `boot` makes of itself. -/
theorem boot_reset : boot State.reset = .next State.reset :=
  boot_starts (w := 0) (by decide) rfl (by decide) rfl (by decide) (by decide)

/-- Settles O56: the ends of `boot` in their order, and the invariants of the state it starts from. -/
theorem invariantsHoldAtReset : Obligations.InvariantsHoldAtReset := by
  refine ⟨⟨rfl, coreInv_reset, (boot_invariants coreInv_reset rfl boot_reset).2, boot_reset⟩, ?_⟩
  rintro s _ _ rfl rfl
  refine ⟨boot_zero, boot_unaligned, boot_ideal, fun h0 h4 hp => ⟨fun f => boot_unreadable h0 h4 hp, fun w hw => ?_⟩,
    fun t => boot_invariants⟩
  exact ⟨boot_exceeds h0 h4 hp hw, boot_wraps h0 h4 hp hw, boot_starts h0 h4 hp hw⟩

end Sys2Proof.Machine
